-- ==== Sys2Proof/Word.lean ====
section
/-! DEFINITION. The word types and the plain containers the other files share. -/

namespace Sys2Proof

/-- A register, mask, address or argument word: an unsigned 32-bit word (R9, R22). -/
abbrev Word := BitVec 32

/-- An 8-bit header field: an opcode, or BANKS as H[15:8] (R102). -/
abbrev Byte := BitVec 8

/-- The index of a bank B0..B3 (R6 NBANKS = 4, R11). -/
abbrev Bank := Fin 4

/-- The index of a chip-select CS0..CS3 (R6 NCS = 4, R11). -/
abbrev ChipSel := Fin 4

/-- One thing for each of the four banks (or chip-selects). -/
structure PerBank (α : Type) where
  b0 : α
  b1 : α
  b2 : α
  b3 : α
deriving DecidableEq, Repr

end Sys2Proof
end

