-- ==== Sys2Proof/Registers.lean ====
section
/-! DEFINITION. The names of the registers and the register file as plain data (10_state.md R22, R24). -/

namespace Sys2Proof

/-- A register of the block (R22). The four per-bank families carry their bank; X(0) is also the
register the global operations write (R24). -/
inductive Reg where
  | ctrl
  | addrTiming (n : Bank)
  | rdTiming (n : Bank)
  | wrTiming (n : Bank)
  | polarity (n : Bank)
  | route
  | routeLoc
  | nandCtrl
  | tftCtrl
  | tftFrameBase
  | tftSize
  | tftHPorch
  | tftVPorch
  | tftTiming
  | tftPolarity
deriving DecidableEq, Repr

/-- One word for each register of R22: the register file REG itself, and the tables of CFG that give a
word for each register (offsets, reset values, write masks). -/
structure RegFile where
  ctrl : Word
  addrTiming : PerBank Word
  rdTiming : PerBank Word
  wrTiming : PerBank Word
  polarity : PerBank Word
  route : Word
  routeLoc : Word
  nandCtrl : Word
  tftCtrl : Word
  tftFrameBase : Word
  tftSize : Word
  tftHPorch : Word
  tftVPorch : Word
  tftTiming : Word
  tftPolarity : Word
deriving DecidableEq, Repr

end Sys2Proof
end

