-- ==== Sys2Proof/Config.lean ====
section
/-! DEFINITION. The parameters CFG that fix a model instance (00_scope.md R6, R7), as plain data, and the
free values of the model. The values of CFG_REF stand in Machine/Reference.lean. -/

namespace Sys2Proof

/-- The hardware revision tag (R3). -/
inductive Rev where
  | legacy
  | modern
deriving DecidableEq, Repr

/-- A field of a register: its least significant bit and its width (R9). -/
structure Field where
  lo : Nat
  width : Nat
deriving DecidableEq, Repr

/-- The fields of CTRL (R30). On LEGACY the global MODE, ARDYEN and ARDYTODIS are those of index 0. -/
structure CtrlLayout where
  mode : PerBank Field
  bankEn : PerBank Field
  noIdle : PerBank Field
  ardyEn : PerBank Field
  ardyToDis : PerBank Field
  bl : PerBank Field
  its : Field
  altMap : Field
deriving DecidableEq, Repr

/-- The fields of ADDRTIMING(n) (R32). -/
structure AddrLayout where
  setup : Field
  hold : Field
  halfALE : Field
deriving DecidableEq, Repr

/-- The fields of RDTIMING(n) (R33). -/
structure RdLayout where
  setup : Field
  strobe : Field
  hold : Field
  halfRE : Field
  prefetch : Field
  pageMode : Field
deriving DecidableEq, Repr

/-- The fields of WRTIMING(n) (R34). -/
structure WrLayout where
  setup : Field
  strobe : Field
  hold : Field
  halfWE : Field
  wbufDis : Field
deriving DecidableEq, Repr

/-- The fields of POLARITY(n) (R35). -/
structure PolLayout where
  cs : Field
  re : Field
  we : Field
  ale : Field
  ardy : Field
  bl : Field
deriving DecidableEq, Repr

/-- The fields of ROUTE, and LOCATION where each revision holds it (R36). -/
structure RouteLayout where
  ebiPen : Field
  csPen : PerBank Field
  alePen : Field
  blPen : Field
  nandPen : Field
  alb : Field
  apen : Field
  tftPen : Field
  /-- LOCATION in ROUTE, on LEGACY. -/
  locLegacy : Field
  /-- LOCATION in ROUTELOC, on MODERN. -/
  locModern : Field
deriving DecidableEq, Repr

/-- The fields of NANDCTRL (R37). -/
structure NandLayout where
  en : Field
  bankSel : Field
deriving DecidableEq, Repr

/-- The fields of TFTCTRL (R38). -/
structure TftCtrlLayout where
  dd : Field
  maskBlend : Field
  shiftDclkEn : Field
  fbcTrig : Field
  interleave : Field
  color1Src : Field
  width : Field
  bankSel : Field
deriving DecidableEq, Repr

/-- The fields of the other TFT registers (R39 to R44). -/
structure TftLayout where
  frameBase : Field
  hsz : Field
  vsz : Field
  hsync : Field
  hfporch : Field
  hbporch : Field
  vsync : Field
  vfporch : Field
  vbporch : Field
  dclkPeriod : Field
  tftStart : Field
  tftSetup : Field
  tftHold : Field
  polCS : Field
  polDClk : Field
  polDataEn : Field
  polHSync : Field
  polVSync : Field
deriving DecidableEq, Repr

/-- `LAYOUT`: the register offsets (R23) and the field positions (R30 to R44). -/
structure Layout where
  offset : RegFile
  ctrl : CtrlLayout
  addr : AddrLayout
  rd : RdLayout
  wr : WrLayout
  pol : PolLayout
  route : RouteLayout
  nand : NandLayout
  tftCtrl : TftCtrlLayout
  tft : TftLayout
deriving DecidableEq, Repr

/-- `MODE_CODE`: the codes of the four operating modes (R26). -/
structure ModeCodes where
  d8a8 : BitVec 2
  d16a16ale : BitVec 2
  d8a24ale : BitVec 2
  d16 : BitVec 2
deriving DecidableEq, Repr

/-- `DD_CODE`: the codes of the four TFT drive modes (R27). -/
structure DriveCodes where
  disabled : BitVec 2
  internal : BitVec 2
  external : BitVec 2
  masked : BitVec 2
deriving DecidableEq, Repr

/-- The eleven lines whose polarity can be set (R28). -/
inductive Line where
  | ardy
  | ale
  | we
  | re
  | cs
  | bl
  | tftVSync
  | tftHSync
  | tftDataEn
  | tftDClk
  | tftCS
deriving DecidableEq, Repr

/-- The parameter record CFG (R6). The revision-linked flags of R7 are derived from `rev` below, so that
no instance can break a preset. -/
structure Cfg where
  rev : Rev
  /-- `routeHasLocation` on MODERN, where it is open (LEGACY always has it). -/
  modernHasLocation : Bool
  /-- `hasAltMap` on MODERN, where it is open (LEGACY never has it). -/
  modernHasAltMap : Bool
  hasNand : Bool
  hasTft : Bool
  /-- `EBI_MEM_BASE`, the base of bank window 0. -/
  memBase : Word
  /-- `EBI_REG_BASE`, the base of the register block. -/
  regBase : Word
  layout : Layout
  /-- `RESET_VALUE(r)` (R55). -/
  resetValue : RegFile
  /-- `WMASK(r)` (R45). -/
  wmask : RegFile
  /-- `ISR_BITWRITE_ACCEPTED` (R377). -/
  isrBitWriteAccepted : Bool
  /-- `POL_BIT(active-low)` (R29); active-high is its opposite. -/
  polActiveLow : Bool
  modeCode : ModeCodes
  driveCode : DriveCodes
  /-- `LINE_CODE`: which code spells which line (R28). -/
  lineCode : List (BitVec 4 × Line)
deriving DecidableEq, Repr

/-- `REV = MODERN`. -/
def Cfg.isModern (c : Cfg) : Bool := c.rev = .modern

/-- `perBankTiming = (REV = MODERN)` (R6). -/
def Cfg.perBankTiming (c : Cfg) : Bool := c.isModern

/-- `hasByteLane = (REV = MODERN)` (R6). -/
def Cfg.hasByteLane (c : Cfg) : Bool := c.isModern

/-- `hasNoIdle = (REV = MODERN)` (R6). -/
def Cfg.hasNoIdle (c : Cfg) : Bool := c.isModern

/-- `hasITS = (REV = MODERN)` (R6). -/
def Cfg.hasITS (c : Cfg) : Bool := c.isModern

/-- `hasAddrPinCtl = (REV = MODERN)` (R6). -/
def Cfg.hasAddrPinCtl (c : Cfg) : Bool := c.isModern

/-- `routeHasLocation`: true on LEGACY, a parameter on MODERN (R6). -/
def Cfg.routeHasLocation (c : Cfg) : Bool := !c.isModern || c.modernHasLocation

/-- `hasAltMap`: false on LEGACY, a parameter on MODERN (R6). -/
def Cfg.hasAltMap (c : Cfg) : Bool := c.isModern && c.modernHasAltMap

/-- The TFT lines that have a pin level (R337). -/
inductive TftPin where
  | vSync
  | hSync
  | dataEn
  | cs
deriving DecidableEq, Repr

/-- The word that the k-th read of a bank window returns: a FREE VALUE (R82 "any 32-bit word", U13;
notes/assumptions/8.md). -/
opaque Config.windowWord : Nat → Word

/-- The level of a TFT pin whose level R339 or R405 leaves unspecified, at the k-th draw: a FREE VALUE
(U22, U24; notes/assumptions/9.md). -/
opaque Config.pinDraw : Nat → TftPin → Bool

end Sys2Proof
end

