-- ==== Sys2Proof/Machine/Reference.lean ====
section
/-! DEFINITION. The reference instance CFG_REF (00_scope.md R6) with its layout (10_state.md R23, R30 to
R44) and codes (R26 to R28), and the LEGACY instance of the test vectors (R7). -/

namespace Sys2Proof

/-- Four fields of one width, bank n's at `lo + n * step`. -/
def bankFields (lo step width : Nat) : PerBank Field :=
  ⟨⟨lo, width⟩, ⟨lo + step, width⟩, ⟨lo + 2 * step, width⟩, ⟨lo + 3 * step, width⟩⟩

/-- The same word for each register. -/
def RegFile.const (w : Word) : RegFile where
  ctrl := w
  addrTiming := ⟨w, w, w, w⟩
  rdTiming := ⟨w, w, w, w⟩
  wrTiming := ⟨w, w, w, w⟩
  polarity := ⟨w, w, w, w⟩
  route := w
  routeLoc := w
  nandCtrl := w
  tftCtrl := w
  tftFrameBase := w
  tftSize := w
  tftHPorch := w
  tftVPorch := w
  tftTiming := w
  tftPolarity := w

/-- The register offsets of CFG_REF (R23). -/
def offsetsRef : RegFile where
  ctrl := 0x000
  addrTiming := ⟨0x004, 0x018, 0x028, 0x038⟩
  rdTiming := ⟨0x008, 0x01C, 0x02C, 0x03C⟩
  wrTiming := ⟨0x00C, 0x020, 0x030, 0x040⟩
  polarity := ⟨0x010, 0x024, 0x034, 0x044⟩
  route := 0x014
  routeLoc := 0x048
  nandCtrl := 0x04C
  tftCtrl := 0x05C
  tftFrameBase := 0x064
  tftSize := 0x06C
  tftHPorch := 0x070
  tftVPorch := 0x074
  tftTiming := 0x078
  tftPolarity := 0x07C

/-- `LAYOUT` of CFG_REF. -/
def Layout.ref : Layout where
  offset := offsetsRef
  -- R30
  ctrl :=
    { mode := bankFields 0 2 2
      bankEn := bankFields 8 1 1
      noIdle := bankFields 12 1 1
      ardyEn := bankFields 16 2 1
      ardyToDis := bankFields 17 2 1
      bl := bankFields 24 1 1
      its := ⟨30, 1⟩
      altMap := ⟨31, 1⟩ }
  -- R32
  addr := { setup := ⟨0, 4⟩, hold := ⟨8, 3⟩, halfALE := ⟨28, 1⟩ }
  -- R33
  rd :=
    { setup := ⟨0, 4⟩, strobe := ⟨8, 6⟩, hold := ⟨16, 3⟩
      halfRE := ⟨28, 1⟩, prefetch := ⟨29, 1⟩, pageMode := ⟨30, 1⟩ }
  -- R34
  wr :=
    { setup := ⟨0, 4⟩, strobe := ⟨8, 6⟩, hold := ⟨16, 3⟩
      halfWE := ⟨28, 1⟩, wbufDis := ⟨29, 1⟩ }
  -- R35
  pol := { cs := ⟨0, 1⟩, re := ⟨1, 1⟩, we := ⟨2, 1⟩, ale := ⟨3, 1⟩, ardy := ⟨4, 1⟩, bl := ⟨5, 1⟩ }
  -- R36
  route :=
    { ebiPen := ⟨0, 1⟩
      csPen := bankFields 1 1 1
      alePen := ⟨5, 1⟩
      blPen := ⟨7, 1⟩
      nandPen := ⟨12, 1⟩
      alb := ⟨16, 2⟩
      apen := ⟨18, 5⟩
      tftPen := ⟨24, 1⟩
      locLegacy := ⟨28, 3⟩
      locModern := ⟨0, 3⟩ }
  -- R37
  nand := { en := ⟨0, 1⟩, bankSel := ⟨4, 2⟩ }
  -- R38
  tftCtrl :=
    { dd := ⟨0, 2⟩, maskBlend := ⟨2, 3⟩, shiftDclkEn := ⟨8, 1⟩, fbcTrig := ⟨9, 1⟩
      interleave := ⟨10, 2⟩, color1Src := ⟨12, 1⟩, width := ⟨16, 1⟩, bankSel := ⟨20, 2⟩ }
  -- R39 to R44
  tft :=
    { frameBase := ⟨0, 28⟩
      hsz := ⟨0, 10⟩, vsz := ⟨16, 10⟩
      hsync := ⟨0, 7⟩, hfporch := ⟨8, 8⟩, hbporch := ⟨18, 8⟩
      vsync := ⟨0, 7⟩, vfporch := ⟨8, 8⟩, vbporch := ⟨18, 8⟩
      dclkPeriod := ⟨0, 11⟩, tftStart := ⟨12, 11⟩, tftSetup := ⟨24, 2⟩, tftHold := ⟨28, 2⟩
      polCS := ⟨0, 1⟩, polDClk := ⟨1, 1⟩, polDataEn := ⟨2, 1⟩, polHSync := ⟨3, 1⟩
      polVSync := ⟨4, 1⟩ }

/-- `LINE_CODE` of CFG_REF: the lines in the order of the source's enumeration (R28). -/
def lineCodesRef : List (BitVec 4 × Line) :=
  [(0, .ardy), (1, .ale), (2, .we), (3, .re), (4, .cs), (5, .bl), (6, .tftVSync), (7, .tftHSync),
    (8, .tftDataEn), (9, .tftDClk), (10, .tftCS)]

/-- CFG_REF (R6). -/
def Cfg.ref : Cfg where
  rev := .modern
  modernHasLocation := true
  modernHasAltMap := true
  hasNand := true
  hasTft := true
  memBase := 0x80000000
  regBase := 0x40008000
  layout := Layout.ref
  resetValue := RegFile.const 0
  wmask := RegFile.const 0xFFFFFFFF
  isrBitWriteAccepted := false
  polActiveLow := true
  modeCode := { d8a8 := 0, d16a16ale := 1, d8a24ale := 2, d16 := 3 }
  driveCode := { disabled := 0, internal := 1, external := 2, masked := 3 }
  lineCode := lineCodesRef

/-- The LEGACY preset of R7 with hasNand = hasTft = false and otherwise CFG_REF's parameters: the LEGACY
instance of the test vectors (95_test_vectors.md section 0). -/
def Cfg.legacyRef : Cfg := { Cfg.ref with rev := .legacy, hasNand := false, hasTft := false }

end Sys2Proof
end

