-- ==== Sys2Proof/Records.lean ====
section
/-! DEFINITION. The operand records of INIT and TFT_INIT (45_init_disable.md R260, 47_tft_config.md R300). -/

namespace Sys2Proof

/-- The bank configuration record of INIT, less its masks and enable flag: the flags word A1 by its
fields (R107) and the argument words A2 to A12 (R108). A polarity is true for active-low (R102). -/
structure InitRecord where
  mode : BitVec 2
  ardyEnable : Bool
  ardyDisableTimeout : Bool
  byteLane : Bool
  noIdle : Bool
  pageMode : Bool
  prefetch : Bool
  halfRE : Bool
  writeBufferDisable : Bool
  halfWE : Bool
  halfALE : Bool
  polARDY : Bool
  polALE : Bool
  polWE : Bool
  polRE : Bool
  polCS : Bool
  polBL : Bool
  rdSetup : Word
  rdStrobe : Word
  rdHold : Word
  wrSetup : Word
  wrStrobe : Word
  wrHold : Word
  addrSetup : Word
  addrHold : Word
  aLow : Word
  aHigh : Word
  loc : Word
deriving DecidableEq, Repr

/-- The TFT configuration record of TFT_INIT, less its bank index: the argument words A1 to A13 (R109)
and the control word A14 by its fields (R110). A polarity is true for active-low (R102). -/
structure TftRecord where
  offset : Word
  width : Word
  height : Word
  hFront : Word
  hBack : Word
  hPulse : Word
  vFront : Word
  vBack : Word
  vPulse : Word
  period : Word
  start : Word
  setup : Word
  hold : Word
  polCS : Bool
  polDClk : Bool
  polDataEn : Bool
  polVSync : Bool
  polHSync : Bool
  pixelWidth : Bool
  colorSource : Bool
  interleave : BitVec 2
  frameTrigger : Bool
  shiftDclk : Bool
  maskBlend : BitVec 4
  drive : BitVec 2
deriving DecidableEq, Repr

end Sys2Proof
end

