-- ==== Sys2Proof/Syntax.lean ====
section
/-! DEFINITION. The commands: one constructor per row of spec/opcode_table.json (30_encoding.md R100, R111). -/

namespace Sys2Proof

/-- A command of the block, or one of the two host events, with its operands as R111 lists them. A bank
mask is kept as the whole header field BANKS = H[15:8], since bits outside B0..B3 are a contract error
that the command raises (R103); a line code and a bank index are kept as the whole field SEL (R104). A
polarity operand is true for active-low, a direction true for a write (R102). -/
inductive Instr where
  | regRead (off : Word)
  | regWrite (off val : Word)
  | regBitwrite (off bit : Word) (x : Bool)
  | regMerge (off mask bits : Word)
  | windowAccess (addr : Word) (write : Bool) (data : Word)
  | barrier
  | setReadTiming (setup strobe hold : Word)
  | setWriteTiming (setup strobe hold : Word)
  | setAddrTiming (setup hold : Word)
  | setGlobalPolarity (line : BitVec 4) (low : Bool)
  | setBankPolarity (banks : Byte) (line : BitVec 4) (low : Bool)
  | enableBank (banks : Byte) (en : Bool)
  | setBankReadTiming (banks : Byte) (setup strobe hold : Word)
  | setBankWriteTiming (banks : Byte) (setup strobe hold : Word)
  | setBankAddrTiming (banks : Byte) (setup hold : Word)
  | configBankReadFlags (banks : Byte) (pm pf hr : Bool)
  | configBankWriteFlags (banks : Byte) (wb hw : Bool)
  | configBankAddrFlags (banks : Byte) (ha : Bool)
  | enableByteLane (banks : Byte) (en : Bool)
  | enableNand (banks : Byte) (en : Bool)
  | enableChipSelect (cs : BitVec 4) (en : Bool)
  | enableAddressLatch (on : Bool)
  | enableByteLanePin (on : Bool)
  | enableControllerPins (on : Bool)
  | setLowAddrPins (pattern : Word)
  | setHighAddrPins (pattern : Word)
  | setRoutingLocation (idx : Word)
  | enableTftPins (on : Bool)
  | init (banks : Byte) (cs : BitVec 4) (en : Bool) (r : InitRecord)
  | disable
  | bankBase (banks : Byte)
  | tftInit (bank : BitVec 4) (r : TftRecord)
  | tftSetFrameBase (off : Word)
  | tftSetSize (width height : Word)
  | tftSetHPorch (front back pulse : Word)
  | tftSetVPorch (front back pulse : Word)
  | tftSetTiming (period start setup hold : Word)
  | tftSetMaskBlend (mode : Word)
deriving DecidableEq, Repr

end Sys2Proof
end

