-- ==== Sys2Proof/WellFormed.lean ====
section
/-! DEFINITION. Which commands an instance has (00_scope.md R7, 30_encoding.md R111 "present when"). Every
other limit on a command's frame is in the types of its operands. -/

namespace Sys2Proof

/-- The feature gate of a command: it exists in the instance exactly when this holds (R111 "present
when"). -/
def Instr.wellFormed (c : Cfg) : Instr → Bool
  | .regRead _ => true
  | .regWrite _ _ => true
  | .regBitwrite _ _ _ => true
  | .regMerge _ _ _ => true
  | .windowAccess _ _ _ => true
  | .barrier => true
  | .setReadTiming _ _ _ => true
  | .setWriteTiming _ _ _ => true
  | .setAddrTiming _ _ => true
  | .setGlobalPolarity _ _ => true
  | .setBankPolarity _ _ _ => c.perBankTiming
  | .enableBank _ _ => true
  | .setBankReadTiming _ _ _ _ => c.perBankTiming
  | .setBankWriteTiming _ _ _ _ => c.perBankTiming
  | .setBankAddrTiming _ _ _ => c.perBankTiming
  | .configBankReadFlags _ _ _ _ => c.perBankTiming
  | .configBankWriteFlags _ _ _ => c.perBankTiming
  | .configBankAddrFlags _ _ => c.perBankTiming
  | .enableByteLane _ _ => c.hasByteLane
  | .enableNand _ _ => c.hasNand
  | .enableChipSelect _ _ => true
  | .enableAddressLatch _ => true
  | .enableByteLanePin _ => c.hasByteLane
  | .enableControllerPins _ => true
  | .setLowAddrPins _ => c.hasAddrPinCtl
  | .setHighAddrPins _ => c.hasAddrPinCtl
  | .setRoutingLocation _ => c.routeHasLocation
  | .enableTftPins _ => c.hasTft
  | .init _ _ _ _ => true
  | .disable => true
  | .bankBase _ => true
  | .tftInit _ _ => c.hasTft
  | .tftSetFrameBase _ => c.hasTft
  | .tftSetSize _ _ => c.hasTft
  | .tftSetHPorch _ _ _ => c.hasTft
  | .tftSetVPorch _ _ _ => c.hasTft
  | .tftSetTiming _ _ _ _ => c.hasTft
  | .tftSetMaskBlend _ => c.hasTft

end Sys2Proof
end

