-- ==== Sys2Proof/Decode.lean ====
section
/-! DEFINITION. The command frame, its decoder and its encoder (30_encoding.md R101 to R113). -/

namespace Sys2Proof

/-- The opcodes of the map of R111, by mnemonic. -/
inductive Opcode where
  | regRead
  | regWrite
  | regBitwrite
  | regMerge
  | windowAccess
  | barrier
  | setReadTiming
  | setWriteTiming
  | setAddrTiming
  | setGlobalPolarity
  | setBankPolarity
  | enableBank
  | setBankReadTiming
  | setBankWriteTiming
  | setBankAddrTiming
  | configBankReadFlags
  | configBankWriteFlags
  | configBankAddrFlags
  | enableByteLane
  | enableNand
  | enableChipSelect
  | enableAddressLatch
  | enableByteLanePin
  | enableControllerPins
  | setLowAddrPins
  | setHighAddrPins
  | setRoutingLocation
  | enableTftPins
  | init
  | disable
  | bankBase
  | tftInit
  | tftSetFrameBase
  | tftSetSize
  | tftSetHPorch
  | tftSetVPorch
  | tftSetTiming
  | tftSetMaskBlend
deriving DecidableEq, Repr

/-- BANKS, H[15:8] (R102). -/
def usesBanks : Word := 0x0000FF00
/-- SEL, H[19:16] (R102). -/
def usesSel : Word := 0x000F0000
/-- V, H[20] (R102). -/
def usesV : Word := 0x00100000
/-- F1, H[21] (R102). -/
def usesF1 : Word := 0x00200000
/-- F2, H[22] (R102). -/
def usesF2 : Word := 0x00400000
/-- F3, H[23] (R102). -/
def usesF3 : Word := 0x00800000

/-- One row of the opcode map (R111): OP, NARGS and the header fields the opcode uses. -/
structure OpRow where
  code : Byte
  nargs : Nat
  uses : Word
deriving DecidableEq, Repr

/-- The opcode map (R111). -/
def Opcode.row : Opcode → OpRow
  | .regRead => ⟨0x01, 1, 0⟩
  | .regWrite => ⟨0x02, 2, 0⟩
  | .regBitwrite => ⟨0x03, 2, usesV⟩
  | .regMerge => ⟨0x04, 3, 0⟩
  | .windowAccess => ⟨0x0E, 2, usesV⟩
  | .barrier => ⟨0x0F, 0, 0⟩
  | .setReadTiming => ⟨0x10, 3, 0⟩
  | .setWriteTiming => ⟨0x11, 3, 0⟩
  | .setAddrTiming => ⟨0x12, 2, 0⟩
  | .setGlobalPolarity => ⟨0x20, 0, usesSel ||| usesV⟩
  | .setBankPolarity => ⟨0x21, 0, usesBanks ||| usesSel ||| usesV⟩
  | .enableBank => ⟨0x30, 0, usesBanks ||| usesV⟩
  | .setBankReadTiming => ⟨0x31, 3, usesBanks⟩
  | .setBankWriteTiming => ⟨0x32, 3, usesBanks⟩
  | .setBankAddrTiming => ⟨0x33, 2, usesBanks⟩
  | .configBankReadFlags => ⟨0x34, 0, usesBanks ||| usesF1 ||| usesF2 ||| usesF3⟩
  | .configBankWriteFlags => ⟨0x35, 0, usesBanks ||| usesF1 ||| usesF2⟩
  | .configBankAddrFlags => ⟨0x36, 0, usesBanks ||| usesF1⟩
  | .enableByteLane => ⟨0x37, 0, usesBanks ||| usesV⟩
  | .enableNand => ⟨0x38, 0, usesBanks ||| usesV⟩
  | .enableChipSelect => ⟨0x40, 0, usesSel ||| usesV⟩
  | .enableAddressLatch => ⟨0x41, 0, usesV⟩
  | .enableByteLanePin => ⟨0x42, 0, usesV⟩
  | .enableControllerPins => ⟨0x43, 0, usesV⟩
  | .setLowAddrPins => ⟨0x44, 1, 0⟩
  | .setHighAddrPins => ⟨0x45, 1, 0⟩
  | .setRoutingLocation => ⟨0x46, 1, 0⟩
  | .enableTftPins => ⟨0x47, 0, usesV⟩
  | .init => ⟨0x50, 12, usesBanks ||| usesSel ||| usesV⟩
  | .disable => ⟨0x51, 0, 0⟩
  | .bankBase => ⟨0x60, 0, usesBanks⟩
  | .tftInit => ⟨0x70, 14, usesSel⟩
  | .tftSetFrameBase => ⟨0x71, 1, 0⟩
  | .tftSetSize => ⟨0x72, 2, 0⟩
  | .tftSetHPorch => ⟨0x73, 3, 0⟩
  | .tftSetVPorch => ⟨0x74, 3, 0⟩
  | .tftSetTiming => ⟨0x75, 4, 0⟩
  | .tftSetMaskBlend => ⟨0x76, 1, 0⟩

/-- Every opcode, in the order of the map (R111). -/
def Opcode.all : List Opcode :=
  [.regRead, .regWrite, .regBitwrite, .regMerge, .windowAccess, .barrier, .setReadTiming,
    .setWriteTiming, .setAddrTiming, .setGlobalPolarity, .setBankPolarity, .enableBank]
  ++ [.setBankReadTiming, .setBankWriteTiming, .setBankAddrTiming, .configBankReadFlags,
    .configBankWriteFlags, .configBankAddrFlags, .enableByteLane, .enableNand, .enableChipSelect,
    .enableAddressLatch, .enableByteLanePin, .enableControllerPins]
  ++ [.setLowAddrPins, .setHighAddrPins, .setRoutingLocation, .enableTftPins, .init, .disable, .bankBase,
    .tftInit, .tftSetFrameBase, .tftSetSize, .tftSetHPorch, .tftSetVPorch, .tftSetTiming,
    .tftSetMaskBlend]

/-- The opcode that a byte OP spells, none for an unassigned one (R111, R112). -/
def Opcode.ofCode (b : Byte) : Option Opcode := Opcode.all.find? fun o => o.row.code == b

/-- The feature gate of an opcode: the instance has its command exactly when this holds (R111 "present
when"); it is `Instr.wellFormed` of every command of the opcode. -/
def Opcode.present (c : Cfg) : Opcode → Bool
  | .regRead => true
  | .regWrite => true
  | .regBitwrite => true
  | .regMerge => true
  | .windowAccess => true
  | .barrier => true
  | .setReadTiming => true
  | .setWriteTiming => true
  | .setAddrTiming => true
  | .setGlobalPolarity => true
  | .setBankPolarity => c.perBankTiming
  | .enableBank => true
  | .setBankReadTiming => c.perBankTiming
  | .setBankWriteTiming => c.perBankTiming
  | .setBankAddrTiming => c.perBankTiming
  | .configBankReadFlags => c.perBankTiming
  | .configBankWriteFlags => c.perBankTiming
  | .configBankAddrFlags => c.perBankTiming
  | .enableByteLane => c.hasByteLane
  | .enableNand => c.hasNand
  | .enableChipSelect => true
  | .enableAddressLatch => true
  | .enableByteLanePin => c.hasByteLane
  | .enableControllerPins => true
  | .setLowAddrPins => c.hasAddrPinCtl
  | .setHighAddrPins => c.hasAddrPinCtl
  | .setRoutingLocation => c.routeHasLocation
  | .enableTftPins => c.hasTft
  | .init => true
  | .disable => true
  | .bankBase => true
  | .tftInit => c.hasTft
  | .tftSetFrameBase => c.hasTft
  | .tftSetSize => c.hasTft
  | .tftSetHPorch => c.hasTft
  | .tftSetVPorch => c.hasTft
  | .tftSetTiming => c.hasTft
  | .tftSetMaskBlend => c.hasTft

/-- OP = H[7:0] (R102). -/
def headerOp (h : Word) : Byte := h.extractLsb' 0 8
/-- BANKS = H[15:8] (R102). -/
def headerBanks (h : Word) : Byte := h.extractLsb' 8 8
/-- SEL = H[19:16] (R102). -/
def headerSel (h : Word) : BitVec 4 := h.extractLsb' 16 4
/-- V = H[20] (R102). -/
def headerV (h : Word) : Bool := h.getLsbD 20
/-- F1 = H[21] (R102). -/
def headerF1 (h : Word) : Bool := h.getLsbD 21
/-- F2 = H[22] (R102). -/
def headerF2 (h : Word) : Bool := h.getLsbD 22
/-- F3 = H[23] (R102). -/
def headerF3 (h : Word) : Bool := h.getLsbD 23

/-- The bits of INIT's flags word A1 that belong to a field (R107). -/
def initFlagBits : Word := 0x003F0FFF

/-- The bits of TFT_INIT's control word A14 that belong to a field (R110). -/
def tftFlagBits : Word := 0x003F3F1F

/-- INIT's record from its flags word (R107) and its other argument words (R108). -/
def initRecordOf (a1 a2 a3 a4 a5 a6 a7 a8 a9 a10 a11 a12 : Word) : InitRecord where
  mode := a1.extractLsb' 0 2
  ardyEnable := a1.getLsbD 2
  ardyDisableTimeout := a1.getLsbD 3
  byteLane := a1.getLsbD 4
  noIdle := a1.getLsbD 5
  pageMode := a1.getLsbD 6
  prefetch := a1.getLsbD 7
  halfRE := a1.getLsbD 8
  writeBufferDisable := a1.getLsbD 9
  halfWE := a1.getLsbD 10
  halfALE := a1.getLsbD 11
  polARDY := a1.getLsbD 16
  polALE := a1.getLsbD 17
  polWE := a1.getLsbD 18
  polRE := a1.getLsbD 19
  polCS := a1.getLsbD 20
  polBL := a1.getLsbD 21
  rdSetup := a2
  rdStrobe := a3
  rdHold := a4
  wrSetup := a5
  wrStrobe := a6
  wrHold := a7
  addrSetup := a8
  addrHold := a9
  aLow := a10
  aHigh := a11
  loc := a12

/-- TFT_INIT's record from its argument words (R109) and its control word A14 (R110). -/
def tftRecordOf (a1 a2 a3 a4 a5 a6 a7 a8 a9 a10 a11 a12 a13 a14 : Word) : TftRecord where
  offset := a1
  width := a2
  height := a3
  hFront := a4
  hBack := a5
  hPulse := a6
  vFront := a7
  vBack := a8
  vPulse := a9
  period := a10
  start := a11
  setup := a12
  hold := a13
  polCS := a14.getLsbD 0
  polDClk := a14.getLsbD 1
  polDataEn := a14.getLsbD 2
  polVSync := a14.getLsbD 3
  polHSync := a14.getLsbD 4
  pixelWidth := a14.getLsbD 8
  colorSource := a14.getLsbD 9
  interleave := a14.extractLsb' 10 2
  frameTrigger := a14.getLsbD 12
  shiftDclk := a14.getLsbD 13
  maskBlend := a14.extractLsb' 16 4
  drive := a14.extractLsb' 20 2

/-- Whether a frame's flags word (INIT A1, TFT_INIT A14) has a bit outside its fields (R112). -/
def Opcode.strayFlags (o : Opcode) (args : List Word) : Bool :=
  match o with
  | .init => args.getD 0 0 &&& ~~~initFlagBits != 0
  | .tftInit => args.getD 13 0 &&& ~~~tftFlagBits != 0
  | _ => false

/-- The command of an opcode, a header and exactly as many argument words as it has (R111); none for
another number of words. -/
def Opcode.build (o : Opcode) (h : Word) (args : List Word) : Option Instr :=
  match o, args with
  | .regRead, [a] => some (.regRead a)
  | .regWrite, [a, b] => some (.regWrite a b)
  | .regBitwrite, [a, b] => some (.regBitwrite a b (headerV h))
  | .regMerge, [a, b, c] => some (.regMerge a b c)
  | .windowAccess, [a, b] => some (.windowAccess a (headerV h) b)
  | .barrier, [] => some .barrier
  | .setReadTiming, [a, b, c] => some (.setReadTiming a b c)
  | .setWriteTiming, [a, b, c] => some (.setWriteTiming a b c)
  | .setAddrTiming, [a, b] => some (.setAddrTiming a b)
  | .setGlobalPolarity, [] => some (.setGlobalPolarity (headerSel h) (headerV h))
  | .setBankPolarity, [] => some (.setBankPolarity (headerBanks h) (headerSel h) (headerV h))
  | .enableBank, [] => some (.enableBank (headerBanks h) (headerV h))
  | .setBankReadTiming, [a, b, c] => some (.setBankReadTiming (headerBanks h) a b c)
  | .setBankWriteTiming, [a, b, c] => some (.setBankWriteTiming (headerBanks h) a b c)
  | .setBankAddrTiming, [a, b] => some (.setBankAddrTiming (headerBanks h) a b)
  | .configBankReadFlags, [] =>
    some (.configBankReadFlags (headerBanks h) (headerF1 h) (headerF2 h) (headerF3 h))
  | .configBankWriteFlags, [] => some (.configBankWriteFlags (headerBanks h) (headerF1 h) (headerF2 h))
  | .configBankAddrFlags, [] => some (.configBankAddrFlags (headerBanks h) (headerF1 h))
  | .enableByteLane, [] => some (.enableByteLane (headerBanks h) (headerV h))
  | .enableNand, [] => some (.enableNand (headerBanks h) (headerV h))
  | .enableChipSelect, [] => some (.enableChipSelect (headerSel h) (headerV h))
  | .enableAddressLatch, [] => some (.enableAddressLatch (headerV h))
  | .enableByteLanePin, [] => some (.enableByteLanePin (headerV h))
  | .enableControllerPins, [] => some (.enableControllerPins (headerV h))
  | .setLowAddrPins, [a] => some (.setLowAddrPins a)
  | .setHighAddrPins, [a] => some (.setHighAddrPins a)
  | .setRoutingLocation, [a] => some (.setRoutingLocation a)
  | .enableTftPins, [] => some (.enableTftPins (headerV h))
  | .init, [a1, a2, a3, a4, a5, a6, a7, a8, a9, a10, a11, a12] =>
    some (.init (headerBanks h) (headerSel h) (headerV h)
      (initRecordOf a1 a2 a3 a4 a5 a6 a7 a8 a9 a10 a11 a12))
  | .disable, [] => some .disable
  | .bankBase, [] => some (.bankBase (headerBanks h))
  | .tftInit, [a1, a2, a3, a4, a5, a6, a7, a8, a9, a10, a11, a12, a13, a14] =>
    some (.tftInit (headerSel h) (tftRecordOf a1 a2 a3 a4 a5 a6 a7 a8 a9 a10 a11 a12 a13 a14))
  | .tftSetFrameBase, [a] => some (.tftSetFrameBase a)
  | .tftSetSize, [a, b] => some (.tftSetSize a b)
  | .tftSetHPorch, [a, b, c] => some (.tftSetHPorch a b c)
  | .tftSetVPorch, [a, b, c] => some (.tftSetVPorch a b c)
  | .tftSetTiming, [a, b, c, d] => some (.tftSetTiming a b c d)
  | .tftSetMaskBlend, [a] => some (.tftSetMaskBlend a)
  | _, _ => none

/-- What the command port makes of the words presented to it (R113). -/
inductive Verdict where
  /-- A command of R111 with its operand values. -/
  | command (i : Instr)
  /-- `IllegalCommand(H)` (R112). -/
  | illegal (h : Word)
  /-- Not a frame: no header word, or a header that R112 lets pass with another number of words than
  `1 + NARGS` (R101). DESIGN CHOICE, safe: the spec has no such words (notes/assumptions/11.md). -/
  | notFrame
deriving DecidableEq, Repr

/-- The decoder (R112, R113): total on every list of words. R112's conditions on the header (OP, the gate, RSV and
the unused fields) come first, whatever words follow it; its condition on a flags word needs the whole frame. That
order, which only words that are no frame can show, is a DESIGN CHOICE (notes/assumptions/11.md). -/
def decode (c : Cfg) (frame : List Word) : Verdict :=
  match frame with
  | [] => .notFrame
  | h :: args =>
    match Opcode.ofCode (headerOp h) with
    | none => .illegal h
    | some o =>
      if h &&& ~~~(0xFF ||| o.row.uses) ≠ 0 || !o.present c then .illegal h
      else
        match o.build h args with
        | none => .notFrame
        | some i => if o.strayFlags args then .illegal h else .command i

/-- The opcode of a command. -/
def Instr.opcode : Instr → Opcode
  | .regRead _ => .regRead
  | .regWrite _ _ => .regWrite
  | .regBitwrite _ _ _ => .regBitwrite
  | .regMerge _ _ _ => .regMerge
  | .windowAccess _ _ _ => .windowAccess
  | .barrier => .barrier
  | .setReadTiming _ _ _ => .setReadTiming
  | .setWriteTiming _ _ _ => .setWriteTiming
  | .setAddrTiming _ _ => .setAddrTiming
  | .setGlobalPolarity _ _ => .setGlobalPolarity
  | .setBankPolarity _ _ _ => .setBankPolarity
  | .enableBank _ _ => .enableBank
  | .setBankReadTiming _ _ _ _ => .setBankReadTiming
  | .setBankWriteTiming _ _ _ _ => .setBankWriteTiming
  | .setBankAddrTiming _ _ _ => .setBankAddrTiming
  | .configBankReadFlags _ _ _ _ => .configBankReadFlags
  | .configBankWriteFlags _ _ _ => .configBankWriteFlags
  | .configBankAddrFlags _ _ => .configBankAddrFlags
  | .enableByteLane _ _ => .enableByteLane
  | .enableNand _ _ => .enableNand
  | .enableChipSelect _ _ => .enableChipSelect
  | .enableAddressLatch _ => .enableAddressLatch
  | .enableByteLanePin _ => .enableByteLanePin
  | .enableControllerPins _ => .enableControllerPins
  | .setLowAddrPins _ => .setLowAddrPins
  | .setHighAddrPins _ => .setHighAddrPins
  | .setRoutingLocation _ => .setRoutingLocation
  | .enableTftPins _ => .enableTftPins
  | .init _ _ _ _ => .init
  | .disable => .disable
  | .bankBase _ => .bankBase
  | .tftInit _ _ => .tftInit
  | .tftSetFrameBase _ => .tftSetFrameBase
  | .tftSetSize _ _ => .tftSetSize
  | .tftSetHPorch _ _ _ => .tftSetHPorch
  | .tftSetVPorch _ _ _ => .tftSetVPorch
  | .tftSetTiming _ _ _ _ => .tftSetTiming
  | .tftSetMaskBlend _ => .tftSetMaskBlend

/-- H[7:0] of a command's header: the byte OP (R102, R111). -/
def Instr.code (i : Instr) : Byte := i.opcode.row.code

/-- The header word of an opcode with its fields (R102); RSV is 0. -/
def headerOf (o : Opcode) (banks : Byte := 0) (sel : BitVec 4 := 0) (v f1 f2 f3 : Bool := false) : Word :=
  0#8 ++ BitVec.ofBool f3 ++ BitVec.ofBool f2 ++ BitVec.ofBool f1 ++ BitVec.ofBool v ++ sel ++ banks
    ++ o.row.code

/-- INIT's flags word A1 (R107). -/
def InitRecord.flags (r : InitRecord) : Word :=
  0#10 ++ BitVec.ofBool r.polBL ++ BitVec.ofBool r.polCS ++ BitVec.ofBool r.polRE
    ++ BitVec.ofBool r.polWE ++ BitVec.ofBool r.polALE ++ BitVec.ofBool r.polARDY ++ 0#4
    ++ BitVec.ofBool r.halfALE ++ BitVec.ofBool r.halfWE ++ BitVec.ofBool r.writeBufferDisable
    ++ BitVec.ofBool r.halfRE ++ BitVec.ofBool r.prefetch ++ BitVec.ofBool r.pageMode
    ++ BitVec.ofBool r.noIdle ++ BitVec.ofBool r.byteLane ++ BitVec.ofBool r.ardyDisableTimeout
    ++ BitVec.ofBool r.ardyEnable ++ r.mode

/-- TFT_INIT's control word A14 (R110). -/
def TftRecord.flags (r : TftRecord) : Word :=
  0#10 ++ r.drive ++ r.maskBlend ++ 0#2 ++ BitVec.ofBool r.shiftDclk ++ BitVec.ofBool r.frameTrigger
    ++ r.interleave ++ BitVec.ofBool r.colorSource ++ BitVec.ofBool r.pixelWidth ++ 0#3
    ++ BitVec.ofBool r.polHSync ++ BitVec.ofBool r.polVSync ++ BitVec.ofBool r.polDataEn
    ++ BitVec.ofBool r.polDClk ++ BitVec.ofBool r.polCS

/-- The frame of a command: its header word and its argument words (R101 to R111). -/
def encode : Instr → List Word
  | .regRead off => [headerOf .regRead, off]
  | .regWrite off val => [headerOf .regWrite, off, val]
  | .regBitwrite off bit x => [headerOf .regBitwrite (v := x), off, bit]
  | .regMerge off mask bits => [headerOf .regMerge, off, mask, bits]
  | .windowAccess addr write data => [headerOf .windowAccess (v := write), addr, data]
  | .barrier => [headerOf .barrier]
  | .setReadTiming setup strobe hold => [headerOf .setReadTiming, setup, strobe, hold]
  | .setWriteTiming setup strobe hold => [headerOf .setWriteTiming, setup, strobe, hold]
  | .setAddrTiming setup hold => [headerOf .setAddrTiming, setup, hold]
  | .setGlobalPolarity line low => [headerOf .setGlobalPolarity (sel := line) (v := low)]
  | .setBankPolarity banks line low => [headerOf .setBankPolarity banks line low]
  | .enableBank banks en => [headerOf .enableBank banks (v := en)]
  | .setBankReadTiming banks setup strobe hold => [headerOf .setBankReadTiming banks, setup, strobe, hold]
  | .setBankWriteTiming banks setup strobe hold => [headerOf .setBankWriteTiming banks, setup, strobe, hold]
  | .setBankAddrTiming banks setup hold => [headerOf .setBankAddrTiming banks, setup, hold]
  | .configBankReadFlags banks pm pf hr => [headerOf .configBankReadFlags banks (f1 := pm) (f2 := pf) (f3 := hr)]
  | .configBankWriteFlags banks wb hw => [headerOf .configBankWriteFlags banks (f1 := wb) (f2 := hw)]
  | .configBankAddrFlags banks ha => [headerOf .configBankAddrFlags banks (f1 := ha)]
  | .enableByteLane banks en => [headerOf .enableByteLane banks (v := en)]
  | .enableNand banks en => [headerOf .enableNand banks (v := en)]
  | .enableChipSelect cs en => [headerOf .enableChipSelect (sel := cs) (v := en)]
  | .enableAddressLatch on => [headerOf .enableAddressLatch (v := on)]
  | .enableByteLanePin on => [headerOf .enableByteLanePin (v := on)]
  | .enableControllerPins on => [headerOf .enableControllerPins (v := on)]
  | .setLowAddrPins pattern => [headerOf .setLowAddrPins, pattern]
  | .setHighAddrPins pattern => [headerOf .setHighAddrPins, pattern]
  | .setRoutingLocation idx => [headerOf .setRoutingLocation, idx]
  | .enableTftPins on => [headerOf .enableTftPins (v := on)]
  | .init banks cs en r =>
    [headerOf .init banks cs en, r.flags, r.rdSetup, r.rdStrobe, r.rdHold, r.wrSetup, r.wrStrobe, r.wrHold,
      r.addrSetup, r.addrHold, r.aLow, r.aHigh, r.loc]
  | .disable => [headerOf .disable]
  | .bankBase banks => [headerOf .bankBase banks]
  | .tftInit bank r =>
    [headerOf .tftInit (sel := bank), r.offset, r.width, r.height, r.hFront, r.hBack, r.hPulse, r.vFront,
      r.vBack, r.vPulse, r.period, r.start, r.setup, r.hold, r.flags]
  | .tftSetFrameBase off => [headerOf .tftSetFrameBase, off]
  | .tftSetSize width height => [headerOf .tftSetSize, width, height]
  | .tftSetHPorch front back pulse => [headerOf .tftSetHPorch, front, back, pulse]
  | .tftSetVPorch front back pulse => [headerOf .tftSetVPorch, front, back, pulse]
  | .tftSetTiming period start setup hold => [headerOf .tftSetTiming, period, start, setup, hold]
  | .tftSetMaskBlend mode => [headerOf .tftSetMaskBlend, mode]

/-- The header word of a command's frame. -/
def Instr.header (i : Instr) : Word := (encode i).headD 0

/-- The frame whose bits are those of w below bit nbits, word 0 its header, with zeros above them: as many
argument words as the header's opcode has (R101). -/
def frameOf (nbits w : Nat) : List Word :=
  let v := w % 2 ^ nbits
  let h : Word := BitVec.ofNat 32 v
  let n := match Opcode.ofCode (headerOp h) with
    | some o => o.row.nargs
    | none => 0
  h :: (List.range n).map fun k => BitVec.ofNat 32 (v >>> (32 * (k + 1)))

/-- The command that the decoder of the reference instance reads from a row's bits; none where it refuses. -/
def decodeTableWord (nbits w : Nat) : Option Instr :=
  match decode Cfg.ref (frameOf nbits w) with
  | .command i => some i
  | .illegal _ => none
  | .notFrame => none

end Sys2Proof
end

