-- ==== Sys2Proof/Machine/State.lean ====
section
/-! DEFINITION. The state of the block as plain data, the reasons a step can stop, and the state after
reset (10_state.md R20, R47 to R56). -/

namespace Sys2Proof.Machine

/-- Who is recorded as raising a fault (R51). -/
inductive Agent where
  | main
  | isr
deriving DecidableEq, Repr

/-- The field named in `BadTiming(field, value)` and `BadTftValue(field, value)` (R160 to R162, R301). -/
inductive FieldName where
  | rdSetup
  | rdStrobe
  | rdHold
  | wrSetup
  | wrStrobe
  | wrHold
  | addrSetup
  | addrHold
  | frameBase
  | hsz
  | vsz
  | hfporch
  | hbporch
  | hsync
  | vfporch
  | vbporch
  | vsync
  | dclkPeriod
  | tftStart
  | tftSetup
  | tftHold
  | maskBlend
deriving DecidableEq, Repr

/-- The faults of R360, with what each `raise F(info)` of the spec gives as info. They are recorded in
State's `fault`; they are not stops of `step`. -/
inductive FaultCause where
  | badBankMask (banks : Byte)
  | badLine (line : BitVec 4)
  | badTiming (field : FieldName) (value : Word)
  | badBankIndex (value : Byte)
  | badBitIndex (b : Word)
  | badLocation (idx : Word)
  | badTftValue (field : FieldName) (value : Word)
  | badRegister (off : Word)
  | illegalCommand (h : Word)
  | hostClockOff
  | hostGpioNotReady
  | isrContract
  | hazardNoBarrier (addr : Word)
  | badWindow (addr : Word)
  | windowDisabled (addr : Word)
deriving DecidableEq, Repr

/-- The fault record `(code, opcode, agent)` of R51; its code is `cause.code` (notes/assumptions/13.md). -/
structure FaultRecord where
  cause : FaultCause
  opcode : Byte
  agent : Agent
deriving DecidableEq, Repr

/-- One micro-step of a command: a primitive of R10, with the local computation on the command's
temporaries t and c that stands before or after it in the pseudocode. -/
inductive MicroOp where
  /-- `t <- RegRead(r)`. -/
  | read (r : Reg)
  /-- `RegWrite(r, v)`. -/
  | write (r : Reg) (v : Word)
  /-- `RegWrite(r, (t & ~clear) | bits)`. -/
  | writeMerged (r : Reg) (clear bits : Word)
  /-- `BitWrite(r, b, x)`. -/
  | bit (r : Reg) (b : Nat) (x : Bool)
  /-- `t <- RegRead(CTRL)`, after which the rest of the command is done only if `anyBL(t)` (R232). -/
  | readUnlessNoBL
  /-- `c <- RegRead(CTRL)` and the composition of c, one `(c & ~clear) | bits` after another (R262, R264,
  R265; notes/assumptions/15.md). -/
  | snapshot (edits : List (Word × Word))
  /-- `RegWrite(CTRL, c)` (R267). -/
  | commit
  /-- `BitWrite(ROUTE, shift(BLPEN), anyBL(c))` (R269). -/
  | blPin
deriving DecidableEq, Repr

/-- What a command returns when its pseudocode ends (R117). -/
inductive Ret where
  /-- Nothing. -/
  | nothing
  /-- The word t (REG_READ). -/
  | temp
  /-- `bankBase(n)` computed with t (BANK_BASE). -/
  | base (n : Bank)
deriving DecidableEq, Repr

/-- `BUSY(c, k, T)` of R47: the command in flight, how many micro-steps it has performed, and its
temporaries: the micro-steps left, the return, and the words t and c (notes/assumptions/14.md). -/
structure Busy where
  cmd : Instr
  k : Nat
  todo : List MicroOp
  ret : Ret
  t : Word
  c : Word
deriving DecidableEq, Repr

/-- `CFGR`, the configurator (R47). -/
inductive Cfgr where
  | idle
  | busy (b : Busy)
deriving DecidableEq, Repr

/-- The TFT engine's state `(run, h, v, dirty)` (R330). -/
structure Tft where
  run : Bool
  h : Nat
  v : Nat
  dirty : Bool
deriving DecidableEq, Repr

/-- The direction of a window access, with the data word of a write (R82). -/
inductive WindowDir where
  | read
  | write (data : Word)
deriving DecidableEq, Repr

/-- The event `(n, A, d, D)` that a window access records (R82). -/
structure WindowEvent where
  bank : Bank
  addr : Word
  dir : WindowDir
deriving DecidableEq, Repr

/-- A step some agent may take (R49, R377, R390; notes/assumptions/3.md). -/
inductive Event where
  /-- MAIN issues a command frame, and the configurator performs it to its end before any other agent
  moves; or MAIN performs a host event (notes/assumptions/5.md). -/
  | command (frame : List Word)
  /-- MAIN issues a command frame, and nothing more; or MAIN performs a host event. -/
  | issue (frame : List Word)
  /-- The configurator performs one micro-step of the command in flight, or its return. -/
  | micro
  /-- The TFT engine ticks (R334). -/
  | tick
  /-- `IsrBitWrite(off, b, x)` (R377). -/
  | isrBitWrite (off b : Word) (x : Bool)
  /-- `IsrOther(off)` (R377). -/
  | isrOther (off : Word)
  /-- The host environment sets `HOST.clkOn` (R48). -/
  | setClk (on : Bool)
  /-- The host environment sets `HOST.gpioReady` (R48). -/
  | setGpio (ready : Bool)
  /-- The orders of the next bank and chip-select walks are chosen (R116; notes/assumptions/7.md). -/
  | setOrders (orders : List (List (Fin 4)))
  /-- The reset event (R390). -/
  | reset
deriving DecidableEq, Repr

/-- The state `(REG, CFGR, HOST, TFT, FAULT)` of R20, the parameters of the instance, and the model's own
fields (INVENTORY.md). -/
structure State where
  /-- CFG (R6): no step changes it (notes/assumptions/1.md). -/
  cfg : Cfg
  /-- REG. -/
  regs : RegFile
  /-- CFGR. -/
  cfgr : Cfgr
  /-- HOST.clkOn. -/
  clkOn : Bool
  /-- HOST.gpioReady. -/
  gpioReady : Bool
  /-- HOST.unfenced. -/
  unfenced : Bool
  /-- HOST.resp. -/
  resp : Option Word
  /-- TFT. -/
  tft : Tft
  /-- FAULT. -/
  fault : Option FaultRecord
  /-- The window events recorded so far, the latest last (R82). -/
  windowEvents : List WindowEvent
  /-- The model's own: the steps still to be taken, the next one first. -/
  agenda : List Event
  /-- The model's own: the j-th loop over a bank or chip-select set walks its set in the order of entry j. -/
  orders : List (List (Fin 4))
  /-- The model's own: how many window words have been drawn. -/
  windowDraws : Nat
  /-- The model's own: how many times the TFT pins have been drawn. -/
  pinDraws : Nat
deriving DecidableEq, Repr

/-- How a step stops with a fault. -/
inductive Fault where
  /-- FAULT is set and the step named is not the reset event: "From then on no step of any agent is
  enabled" (R366). Raised by `step` and by every meaning. Safe: the block halts. -/
  | halted
deriving DecidableEq, Repr

/-- How a step is refused. -/
inductive Refusal where
  /-- An instruction with no meaning yet. Raised by `exec` only. Safe. -/
  | notModelled (mnemonic : String)
  /-- The step named is not enabled in this state: a command or host event while CFGR is not IDLE, a
  micro-step while it is, a tick without TFT or clock, an input set while CFGR is not IDLE (R48, R49,
  R114, R334). Raised by `step` and by every meaning. Safe: no run of the spec takes such a step. -/
  | notEnabled
  /-- The words presented are no frame (R101). Raised by `step`. Safe: no frame has another length. -/
  | notAFrame
deriving DecidableEq, Repr

/-- The outcome of a step. -/
abbrev Result := Host.Outcome State Fault Refusal

/-- The state right after reset of the reference instance (R55, R56, R391). -/
def State.reset : State where
  cfg := Cfg.ref
  regs := Cfg.ref.resetValue
  cfgr := .idle
  clkOn := false
  gpioReady := false
  unfenced := false
  resp := none
  tft := { run := false, h := 0, v := 0, dirty := false }
  fault := none
  windowEvents := []
  agenda := []
  orders := []
  windowDraws := 0
  pinDraws := 0

end Sys2Proof.Machine
end

