-- ==== Sys2Proof/Machine/Flags.lean ====
section
/-! DEFINITION. The one status the block has: the fault code (10_state.md R50, R51, 60_exceptions.md R360).
There are no flags or condition codes. -/

namespace Sys2Proof.Machine

/-- `code(F)` (R360). -/
def FaultCause.code : FaultCause → Nat
  | .badBankMask _ => 1
  | .badLine _ => 2
  | .badTiming _ _ => 3
  | .badBankIndex _ => 4
  | .badBitIndex _ => 5
  | .badLocation _ => 6
  | .badTftValue _ _ => 7
  | .badRegister _ => 8
  | .illegalCommand _ => 9
  | .hostClockOff => 10
  | .hostGpioNotReady => 11
  | .isrContract => 12
  | .hazardNoBarrier _ => 13
  | .badWindow _ => 14
  | .windowDisabled _ => 15

/-- `FAULT.code`, 0 for no fault (R360). -/
def State.faultCode (s : State) : Nat :=
  match s.fault with
  | none => 0
  | some f => f.cause.code

end Sys2Proof.Machine
end

