-- ==== Sys2Proof/Machine/Bits.lean ====
section
/-! DEFINITION. Bits and fields of words (00_scope.md R9), the register file's read and write, and the
tables of CFG looked up by register. -/

namespace Sys2Proof

/-- `mask(F)`: ones exactly at the bits of the field (R9). -/
def Field.mask (f : Field) : Word := BitVec.ofNat 32 ((2 ^ f.width - 1) <<< f.lo)

/-- `max(F) = 2^width(F) - 1` (R9). -/
def Field.max (f : Field) : Nat := 2 ^ f.width - 1

/-- `ins(F, x) = (x << shift(F)) & mask(F)` (R9). -/
def Field.ins (f : Field) (x : Word) : Word := (x <<< f.lo) &&& f.mask

/-- `ins(F, x)` of a one-bit value (R9). -/
def Field.insBit (f : Field) (x : Bool) : Word := f.ins (if x then 1 else 0)

/-- `get(F, v) = (v & mask(F)) >> shift(F)` (R9). -/
def Field.get (f : Field) (v : Word) : Word := (v &&& f.mask) >>> f.lo

/-- A one-bit field of a word: `v[shift(F)]` (R9). -/
def Field.test (f : Field) (v : Word) : Bool := v.getLsbD f.lo

/-- v with bit b made x, all other bits unchanged (R10 `BitWrite`). -/
def setBit (v : Word) (b : Nat) (x : Bool) : Word :=
  if x then v ||| (1#32 <<< b) else v &&& ~~~(1#32 <<< b)

/-- `(t & ~m) | v`: the masked merge of one word (R10 `Merge`, R144). -/
def mergeWord (t m v : Word) : Word := (t &&& ~~~m) ||| v

/-- The entry of bank n. -/
def PerBank.get {α : Type} (p : PerBank α) (n : Bank) : α :=
  match n with
  | 0 => p.b0
  | 1 => p.b1
  | 2 => p.b2
  | 3 => p.b3

/-- The four entries with bank n's replaced. -/
def PerBank.set {α : Type} (p : PerBank α) (n : Bank) (x : α) : PerBank α :=
  match n with
  | 0 => { p with b0 := x }
  | 1 => { p with b1 := x }
  | 2 => { p with b2 := x }
  | 3 => { p with b3 := x }

/-- The word of register r. -/
def RegFile.get (f : RegFile) : Reg → Word
  | .ctrl => f.ctrl
  | .addrTiming n => f.addrTiming.get n
  | .rdTiming n => f.rdTiming.get n
  | .wrTiming n => f.wrTiming.get n
  | .polarity n => f.polarity.get n
  | .route => f.route
  | .routeLoc => f.routeLoc
  | .nandCtrl => f.nandCtrl
  | .tftCtrl => f.tftCtrl
  | .tftFrameBase => f.tftFrameBase
  | .tftSize => f.tftSize
  | .tftHPorch => f.tftHPorch
  | .tftVPorch => f.tftVPorch
  | .tftTiming => f.tftTiming
  | .tftPolarity => f.tftPolarity

/-- The register file with register r's word replaced. -/
def RegFile.set (f : RegFile) (r : Reg) (w : Word) : RegFile :=
  match r with
  | .ctrl => { f with ctrl := w }
  | .addrTiming n => { f with addrTiming := f.addrTiming.set n w }
  | .rdTiming n => { f with rdTiming := f.rdTiming.set n w }
  | .wrTiming n => { f with wrTiming := f.wrTiming.set n w }
  | .polarity n => { f with polarity := f.polarity.set n w }
  | .route => { f with route := w }
  | .routeLoc => { f with routeLoc := w }
  | .nandCtrl => { f with nandCtrl := w }
  | .tftCtrl => { f with tftCtrl := w }
  | .tftFrameBase => { f with tftFrameBase := w }
  | .tftSize => { f with tftSize := w }
  | .tftHPorch => { f with tftHPorch := w }
  | .tftVPorch => { f with tftVPorch := w }
  | .tftTiming => { f with tftTiming := w }
  | .tftPolarity => { f with tftPolarity := w }

/-- Every register name of R22. -/
def Reg.all : List Reg :=
  [.ctrl, .route, .routeLoc, .nandCtrl, .tftCtrl, .tftFrameBase, .tftSize, .tftHPorch, .tftVPorch,
    .tftTiming, .tftPolarity]
  ++ [0, 1, 2, 3].map Reg.addrTiming ++ [0, 1, 2, 3].map Reg.rdTiming
  ++ [0, 1, 2, 3].map Reg.wrTiming ++ [0, 1, 2, 3].map Reg.polarity

/-- The TFT registers, whose writes R339 watches. -/
def Reg.isTft : Reg → Bool
  | .tftCtrl | .tftFrameBase | .tftSize | .tftHPorch | .tftVPorch | .tftTiming | .tftPolarity => true
  | .ctrl | .addrTiming _ | .rdTiming _ | .wrTiming _ | .polarity _ | .route | .routeLoc | .nandCtrl =>
    false

/-- Which registers are present in the instance (R22). -/
def Cfg.present (c : Cfg) : Reg → Bool
  | .ctrl => true
  | .addrTiming n => n = 0 || c.perBankTiming
  | .rdTiming n => n = 0 || c.perBankTiming
  | .wrTiming n => n = 0 || c.perBankTiming
  | .polarity n => n = 0 || c.perBankTiming
  | .route => true
  | .routeLoc => c.isModern && c.routeHasLocation
  | .nandCtrl => c.hasNand
  | .tftCtrl => c.hasTft
  | .tftFrameBase => c.hasTft
  | .tftSize => c.hasTft
  | .tftHPorch => c.hasTft
  | .tftVPorch => c.hasTft
  | .tftTiming => c.hasTft
  | .tftPolarity => c.hasTft

/-- "Offsets are distinct and word-aligned in every instance a model may take" (R23): what an instance's offsets
must be, DESIGN CHOICE over the registers present in it (notes/assumptions/25.md). -/
def Cfg.offsetsLegal (c : Cfg) : Bool :=
  (Reg.all.filter c.present).all fun r =>
    c.layout.offset.get r &&& 3 == 0
      && (Reg.all.filter c.present).all fun q => q == r || c.layout.offset.get q != c.layout.offset.get r

/-- `reg_at(off)`: the register present in the instance whose offset equals off (R71, R140). -/
def Cfg.regAt (c : Cfg) (off : Word) : Option Reg :=
  Reg.all.find? fun r => c.present r && c.layout.offset.get r == off

/-- The CPU address of a register: `EBI_REG_BASE + LAYOUT.offset(r)` (R70). -/
def Cfg.regAddress (c : Cfg) (r : Reg) : Word := c.regBase + c.layout.offset.get r

/-- What RegWrite(r, v) leaves in r where r held old: `(v & WMASK(r)) | (old & ~WMASK(r))` (R10). -/
def Cfg.storeWord (c : Cfg) (r : Reg) (old v : Word) : Word :=
  (v &&& c.wmask.get r) ||| (old &&& ~~~(c.wmask.get r))

/-- What BitWrite(r, b, x) leaves in r where r held old: bit b becomes x if WMASK(r) has it (R10). -/
def Cfg.storeBit (c : Cfg) (r : Reg) (old : Word) (b : Nat) (x : Bool) : Word :=
  if (c.wmask.get r).getLsbD b then setBit old b x else old

/-- `LOCREG`: the register that holds LOCATION, ROUTE on LEGACY and ROUTELOC on MODERN (R36). -/
def Cfg.locReg (c : Cfg) : Reg := if c.isModern then .routeLoc else .route

/-- LOCATION within `LOCREG` (R36). -/
def Cfg.locField (c : Cfg) : Field :=
  if c.isModern then c.layout.route.locModern else c.layout.route.locLegacy

/-- `TFT_PIN_GROUP = mask(TFTPEN)` (R36). -/
def Cfg.tftPinGroup (c : Cfg) : Word := c.layout.route.tftPen.mask

end Sys2Proof
end

