-- ==== Sys2Proof/Machine/Operands.lean ====
section
/-! DEFINITION. The operand forms of the commands and their checks: bank masks, walks, lines, polarities,
cycle counts and the timing encoders, TFT values, locations and the window map. -/

namespace Sys2Proof.Machine

/-! ## Bank and chip-select sets -/

/-- `checkBanks(H[15:8])`: the mask m = H[11:8], or BadBankMask where H[15:12] ≠ 0 (R103). -/
def checkBanks (banks : Byte) : Except FaultCause (BitVec 4) :=
  if banks.extractLsb' 4 4 ≠ 0 then .error (.badBankMask banks) else .ok (banks.extractLsb' 0 4)

/-- `banks(m)` as a list, ascending (R11). -/
def members (m : BitVec 4) : List (Fin 4) := [0, 1, 2, 3].filter fun n => m.getLsbD n

/-- A list with every later copy of an element left out. -/
def firsts : List (Fin 4) → List (Fin 4)
  | [] => []
  | x :: xs => x :: (firsts xs).filter fun y => y != x

/-- The members of a set, each once: those the preference names first, in its order, then the others
ascending (R116 "each named bank exactly once", in any order). -/
def walk (pref : List (Fin 4)) (m : BitVec 4) : List (Fin 4) :=
  (firsts (pref ++ [0, 1, 2, 3])).filter fun n => m.getLsbD n

/-- The walk of the j-th loop of a command over a set (notes/assumptions/7.md). -/
def State.walk (s : State) (j : Nat) (m : BitVec 4) : List (Fin 4) :=
  Machine.walk (s.orders.getD j []) m

/-- `max(banks(m))`, 0 for the empty set: the bank ENABLE_NAND selects (R208). -/
def highestBank (m : BitVec 4) : Bank :=
  if m.getLsbD 3 then 3 else if m.getLsbD 2 then 2 else if m.getLsbD 1 then 1 else 0

/-! ## Lines and polarities -/

/-- `POL_BIT(p)`: the bit that stands for active-low (true) or active-high (false) (R29). -/
def polBitValue (c : Cfg) (low : Bool) : Bool := if low then c.polActiveLow else !c.polActiveLow

/-- Whether the line's register field exists in the instance (R180 "present when"). -/
def linePresent (c : Cfg) : Line → Bool
  | .ardy | .ale | .we | .re | .cs => true
  | .bl => c.hasByteLane
  | .tftVSync | .tftHSync | .tftDataEn | .tftDClk | .tftCS => c.hasTft

/-- `checkLine(l)`: the line a code spells, or BadLine for a code that names no line of the instance
(R181). -/
def checkLine (c : Cfg) (l : BitVec 4) : Except FaultCause Line :=
  match c.lineCode.lookup l with
  | none => .error (.badLine l)
  | some line => if linePresent c line then .ok line else .error (.badLine l)

/-- `polBit(l)` (R180). -/
def polBit (c : Cfg) : Line → Nat
  | .ardy => c.layout.pol.ardy.lo
  | .ale => c.layout.pol.ale.lo
  | .we => c.layout.pol.we.lo
  | .re => c.layout.pol.re.lo
  | .cs => c.layout.pol.cs.lo
  | .bl => c.layout.pol.bl.lo
  | .tftVSync => c.layout.tft.polVSync.lo
  | .tftHSync => c.layout.tft.polHSync.lo
  | .tftDataEn => c.layout.tft.polDataEn.lo
  | .tftDClk => c.layout.tft.polDClk.lo
  | .tftCS => c.layout.tft.polCS.lo

/-- The register a line's polarity stands in for bank n: POLARITY(n) for a bus line, TFTPOLARITY for a TFT
line (R180). -/
def polReg (line : Line) (n : Bank) : Reg :=
  match line with
  | .ardy | .ale | .we | .re | .cs | .bl => .polarity n
  | .tftVSync | .tftHSync | .tftDataEn | .tftDClk | .tftCS => .tftPolarity

/-! ## Registers by offset -/

/-- Register resolution of the raw commands (R140). -/
def resolve (c : Cfg) (off : Word) : Except FaultCause Reg :=
  match c.regAt off with
  | none => .error (.badRegister off)
  | some r => .ok r

/-! ## Timing -/

/-- The check of one cycle count against its field (R8, R160). -/
def checkTiming (name : FieldName) (f : Field) (x : Word) : Except FaultCause Unit :=
  if f.max < x.toNat then .error (.badTiming name x) else .ok ()

/-- `encRead` (R160). -/
def encRead (c : Cfg) (s st h : Word) : Except FaultCause Word := do
  checkTiming .rdSetup c.layout.rd.setup s
  checkTiming .rdStrobe c.layout.rd.strobe st
  checkTiming .rdHold c.layout.rd.hold h
  return c.layout.rd.setup.ins s ||| c.layout.rd.strobe.ins st ||| c.layout.rd.hold.ins h

/-- `encWrite` (R161). -/
def encWrite (c : Cfg) (s st h : Word) : Except FaultCause Word := do
  checkTiming .wrSetup c.layout.wr.setup s
  checkTiming .wrStrobe c.layout.wr.strobe st
  checkTiming .wrHold c.layout.wr.hold h
  return c.layout.wr.setup.ins s ||| c.layout.wr.strobe.ins st ||| c.layout.wr.hold.ins h

/-- `encAddr` (R162). -/
def encAddr (c : Cfg) (s h : Word) : Except FaultCause Word := do
  checkTiming .addrSetup c.layout.addr.setup s
  checkTiming .addrHold c.layout.addr.hold h
  return c.layout.addr.setup.ins s ||| c.layout.addr.hold.ins h

/-- `decRead` (R163). -/
def decRead (c : Cfg) (w : Word) : Word × Word × Word :=
  (c.layout.rd.setup.get w, c.layout.rd.strobe.get w, c.layout.rd.hold.get w)

/-- `decWrite` (R163). -/
def decWrite (c : Cfg) (w : Word) : Word × Word × Word :=
  (c.layout.wr.setup.get w, c.layout.wr.strobe.get w, c.layout.wr.hold.get w)

/-- `decAddr` (R163). -/
def decAddr (c : Cfg) (w : Word) : Word × Word :=
  (c.layout.addr.setup.get w, c.layout.addr.hold.get w)

/-- `RDFIELDS` (R33). -/
def rdFields (c : Cfg) : Word :=
  c.layout.rd.setup.mask ||| c.layout.rd.strobe.mask ||| c.layout.rd.hold.mask

/-- `WRFIELDS` (R34). -/
def wrFields (c : Cfg) : Word :=
  c.layout.wr.setup.mask ||| c.layout.wr.strobe.mask ||| c.layout.wr.hold.mask

/-- `ADDRFIELDS` (R32). -/
def addrFields (c : Cfg) : Word := c.layout.addr.setup.mask ||| c.layout.addr.hold.mask

/-- The strobe the bus uses for a stored strobe count: one cycle where 0 is stored (R168, informative). -/
def effectiveStrobe (st : Word) : Word := if st = 0 then 1 else st

/-! ## Modes and byte lanes -/

/-- `isALE(m)`: the modes with ALE semantics, by their codes (R26). -/
def isALE (c : Cfg) (mode : BitVec 2) : Bool :=
  mode == c.modeCode.d16a16ale || mode == c.modeCode.d8a24ale

/-- `anyBL(t)`: whether any bank of a CTRL value requests byte-lane mode (R232). -/
def anyBL (c : Cfg) (t : Word) : Bool :=
  c.layout.ctrl.bl.b0.test t || c.layout.ctrl.bl.b1.test t || c.layout.ctrl.bl.b2.test t
    || c.layout.ctrl.bl.b3.test t

/-- A location index above `max(LOCATION)` is BadLocation (R236, R261). -/
def checkLocation (c : Cfg) (idx : Word) : Except FaultCause Unit :=
  if c.locField.max < idx.toNat then .error (.badLocation idx) else .ok ()

/-! ## TFT values (R301) -/

/-- A value that must be at most its field's maximum. -/
def checkTft (name : FieldName) (f : Field) (x : Word) : Except FaultCause Unit :=
  if f.max < x.toNat then .error (.badTftValue name x) else .ok ()

/-- A dimension or pulse width, stored less one: it must be 1 to the field's maximum + 1. -/
def checkTftLess1 (name : FieldName) (f : Field) (x : Word) : Except FaultCause Unit :=
  if x = 0 ∨ f.max + 1 < x.toNat then .error (.badTftValue name x) else .ok ()

def checkFrameBase (c : Cfg) (off : Word) : Except FaultCause Unit :=
  checkTft .frameBase c.layout.tft.frameBase off

def checkSize (c : Cfg) (w h : Word) : Except FaultCause Unit := do
  checkTftLess1 .hsz c.layout.tft.hsz w
  checkTftLess1 .vsz c.layout.tft.vsz h

def checkHPorch (c : Cfg) (front back pulse : Word) : Except FaultCause Unit := do
  checkTft .hfporch c.layout.tft.hfporch front
  checkTft .hbporch c.layout.tft.hbporch back
  checkTftLess1 .hsync c.layout.tft.hsync pulse

def checkVPorch (c : Cfg) (front back pulse : Word) : Except FaultCause Unit := do
  checkTft .vfporch c.layout.tft.vfporch front
  checkTft .vbporch c.layout.tft.vbporch back
  checkTftLess1 .vsync c.layout.tft.vsync pulse

def checkTftTiming (c : Cfg) (period start setup hold : Word) : Except FaultCause Unit := do
  checkTft .dclkPeriod c.layout.tft.dclkPeriod period
  checkTft .tftStart c.layout.tft.tftStart start
  checkTft .tftSetup c.layout.tft.tftSetup setup
  checkTft .tftHold c.layout.tft.tftHold hold

def checkMaskBlend (c : Cfg) (mode : Word) : Except FaultCause Unit :=
  checkTft .maskBlend c.layout.tftCtrl.maskBlend mode

/-- `sizeWord` (R302). -/
def sizeWord (c : Cfg) (w h : Word) : Word :=
  c.layout.tft.hsz.ins (w - 1) ||| c.layout.tft.vsz.ins (h - 1)

/-- `hporchWord` (R302). -/
def hporchWord (c : Cfg) (front back pulse : Word) : Word :=
  c.layout.tft.hfporch.ins front ||| c.layout.tft.hbporch.ins back ||| c.layout.tft.hsync.ins (pulse - 1)

/-- `vporchWord` (R302). -/
def vporchWord (c : Cfg) (front back pulse : Word) : Word :=
  c.layout.tft.vfporch.ins front ||| c.layout.tft.vbporch.ins back ||| c.layout.tft.vsync.ins (pulse - 1)

/-- `timingWord` (R302). -/
def tftTimingWord (c : Cfg) (period start setup hold : Word) : Word :=
  c.layout.tft.dclkPeriod.ins period ||| c.layout.tft.tftStart.ins start
    ||| c.layout.tft.tftSetup.ins setup ||| c.layout.tft.tftHold.ins hold

/-- `ctrlWord(b, A14)` (R302). -/
def tftCtrlWord (c : Cfg) (bank : BitVec 4) (r : TftRecord) : Word :=
  c.layout.tftCtrl.bankSel.ins (bank.setWidth 32) ||| c.layout.tftCtrl.width.insBit r.pixelWidth
    ||| c.layout.tftCtrl.color1Src.insBit r.colorSource
    ||| c.layout.tftCtrl.interleave.ins (r.interleave.setWidth 32)
    ||| c.layout.tftCtrl.fbcTrig.insBit r.frameTrigger
    ||| c.layout.tftCtrl.shiftDclkEn.insBit r.shiftDclk
    ||| c.layout.tftCtrl.maskBlend.ins (r.maskBlend.setWidth 32)
    ||| c.layout.tftCtrl.dd.ins (r.drive.setWidth 32)

/-! ## The address map -/

/-- `span(t)` (R290). -/
def span (c : Cfg) (t : Word) : Word :=
  if c.hasAltMap && c.layout.ctrl.altMap.test t then 0x10000000 else 0x04000000

/-- `bankBase(n)` computed with the CTRL value t, modulo 2^32 (R290). -/
def bankBase (c : Cfg) (n : Bank) (t : Word) : Word := c.memBase + BitVec.ofNat 32 n.val * span c t

/-- Whether bank n's window contains the address (R78; notes/assumptions/16.md). -/
def inWindow (c : Cfg) (t : Word) (n : Bank) (addr : Word) : Bool :=
  (addr - bankBase c n t).toNat < (span c t).toNat

/-- The bank whose window contains the address (R82). -/
def windowBank (c : Cfg) (t addr : Word) : Option Bank :=
  [0, 1, 2, 3].find? fun n => inWindow c t n addr

end Sys2Proof.Machine
end

