-- ==== Sys2Proof/Machine/Ops.lean ====
section
/-! DEFINITION. The shared operations: register writes (00_scope.md R10, 20_memory.md R76), raising a fault
(60_exceptions.md R366), the micro-steps of the configurator (10_state.md R47, R49), and the issue and run
of a command (30_encoding.md R114). -/

namespace Sys2Proof.Machine

/-! ## Faults -/

/-- Fault entry (R366): the record is written, resp is none, CFGR and every register keep their value. -/
def raise (cause : FaultCause) (opcode : Byte) (agent : Agent) (s : State) : State :=
  { s with fault := some { cause := cause, opcode := opcode, agent := agent }, resp := none }

/-- The only way out of a fault: the reset event (R368, R390). Registers go to RESET_VALUE and the other
state to R56; the inputs clkOn and gpioReady, the steps still to be taken, the record of window events and
the draws are the host's and the model's own and stay (notes/assumptions/2.md, 12.md). -/
def resetEvent (s : State) : State :=
  { s with
    regs := s.cfg.resetValue
    cfgr := .idle
    unfenced := false
    resp := none
    tft := { run := false, h := 0, v := 0, dirty := false }
    fault := none }

/-! ## Register writes -/

/-- A write to register r as the TFT engine sees it: the frame is dirty if the engine runs (R339). -/
def Tft.touch (t : Tft) (r : Reg) : Tft := { t with dirty := t.dirty || (t.run && r.isTft) }

/-- Register r's word becomes w: sets unfenced (R80) and, for a TFT register, dirty (R339). -/
def State.putReg (s : State) (r : Reg) (w : Word) : State :=
  { s with regs := s.regs.set r w, unfenced := true, tft := s.tft.touch r }

/-- Whether a write that leaves w in r makes ROUTE.EBIPEN 1 where it was 0 while gpioReady is false
(R363(b)). -/
def State.gpioBlocks (s : State) (r : Reg) (w : Word) : Bool :=
  r == .route && s.cfg.layout.route.ebiPen.test w && !s.cfg.layout.route.ebiPen.test s.regs.route
    && !s.gpioReady

/-- Leave w in r, unless R363(b) forbids it. -/
def State.store (s : State) (r : Reg) (w : Word) : Except FaultCause State :=
  if s.gpioBlocks r w then .error .hostGpioNotReady else .ok (s.putReg r w)

/-- `RegWrite(r, v)` (R10). -/
def regWrite (r : Reg) (v : Word) (s : State) : Except FaultCause State :=
  s.store r (s.cfg.storeWord r (s.regs.get r) v)

/-- `BitWrite(r, b, x)` (R10). -/
def bitWrite (r : Reg) (b : Nat) (x : Bool) (s : State) : Except FaultCause State :=
  s.store r (s.cfg.storeBit r (s.regs.get r) b x)

/-! ## Micro-steps -/

/-- INIT's local composition of the control word (R264, R265). -/
def compose (edits : List (Word × Word)) (c : Word) : Word :=
  edits.foldl (fun c e => mergeWord c e.1 e.2) c

/-- One micro-step on the command's temporaries and the state; b's todo is what follows it. -/
def perform (op : MicroOp) (b : Busy) (s : State) : Except FaultCause (Busy × State) :=
  match op with
  | .read r => .ok ({ b with t := s.regs.get r }, s)
  | .write r v => (regWrite r v s).map fun s' => (b, s')
  | .writeMerged r clear bits => (regWrite r (mergeWord b.t clear bits) s).map fun s' => (b, s')
  | .bit r i x => (bitWrite r i x s).map fun s' => (b, s')
  | .readUnlessNoBL =>
    .ok ({ b with t := s.regs.ctrl, todo := if anyBL s.cfg s.regs.ctrl then b.todo else [] }, s)
  | .snapshot edits => .ok ({ b with c := compose edits s.regs.ctrl }, s)
  | .commit => (regWrite .ctrl b.c s).map fun s' => (b, s')
  | .blPin => (bitWrite .route s.cfg.layout.route.blPen.lo (anyBL s.cfg b.c) s).map fun s' => (b, s')

/-- The word a command returns (R117). -/
def Busy.result (b : Busy) (c : Cfg) : Option Word :=
  match b.ret with
  | .nothing => none
  | .temp => some b.t
  | .base n => some (bankBase c n b.t)

/-- The end of a command: CFGR is IDLE and resp the returned word or none (R114 (5)). -/
def finish (b : Busy) (s : State) : State := { s with cfgr := .idle, resp := b.result s.cfg }

/-- One step of the configurator: the next micro-step of the command in flight, or its return where none is
left (R49). A fault leaves CFGR as it was (R366). -/
def microStep (s : State) : State :=
  match s.cfgr with
  | .idle => s
  | .busy b =>
    match b.todo with
    | [] => finish b s
    | op :: rest =>
      match perform op { b with todo := rest } s with
      | .ok (b', s') => { s' with cfgr := .busy { b' with k := b.k + 1 } }
      | .error e => raise e b.cmd.code .main s

/-- Up to n steps of the configurator, ending where the command ends or faults. -/
def runBusy : Nat → State → State
  | 0, s => s
  | n + 1, s =>
    if s.fault.isSome then s
    else
      match s.cfgr with
      | .idle => s
      | .busy _ => runBusy n (microStep s)

/-- The configurator performs the command in flight to its end: a micro-step for each one left, and the
return. -/
def runToEnd (s : State) : State :=
  match s.cfgr with
  | .idle => s
  | .busy b => runBusy (b.todo.length + 1) s

/-! ## Commands -/

/-- A command's pseudocode once its checks have passed: its micro-steps and its return. -/
structure Plan where
  ops : List MicroOp
  ret : Ret := .nothing
deriving DecidableEq, Repr

/-- Admission (R49, R114): nothing moves while FAULT is set, and MAIN acts only while CFGR is IDLE. -/
def whenIdle (s : State) (t : State) : Result :=
  if s.fault.isSome then .fault .halted
  else
    match s.cfgr with
    | .busy _ => .refused .notEnabled
    | .idle => .next t

/-- The issue of a command, R114 steps (1) to (4): its gate, the clock, its own checks, then BUSY. -/
def issue (cmd : Instr) (plan : Except FaultCause Plan) (s : State) : State :=
  if !cmd.wellFormed s.cfg then raise (.illegalCommand cmd.header) cmd.code .main s
  else if !s.clkOn then raise .hostClockOff cmd.code .main s
  else
    match plan with
    | .error e => raise e cmd.code .main s
    | .ok p =>
      { s with cfgr := .busy { cmd := cmd, k := 0, todo := p.ops, ret := p.ret, t := 0, c := 0 } }

/-- A command: its issue, then all its micro-steps and its return. -/
def runCommand (cmd : Instr) (plan : Except FaultCause Plan) (s : State) : Result :=
  whenIdle s (runToEnd (issue cmd plan s))

/-- `Merge(r, m, v)` (R10). -/
def mergeOps (r : Reg) (m v : Word) : List MicroOp := [.read r, .writeMerged r m v]

end Sys2Proof.Machine
end

