-- ==== Sys2Proof/Machine/HostEvents.lean ====
section
/-! DEFINITION. The host events BARRIER and WINDOW_ACCESS (20_memory.md R81, R82) and the interrupt-context
steps (60_exceptions.md R377). -/

namespace Sys2Proof.Machine

/-- The effect of BARRIER (R81); it returns none (R117; notes/assumptions/17.md). -/
def barrierEffect (s : State) : State := { s with unfenced := false, resp := none }

def execBarrier (s : State) : Result := whenIdle s (barrierEffect s)

/-- A window access that passes every check of R82: the event is recorded, and a read draws its word. -/
def windowEffect (n : Bank) (addr : Word) (write : Bool) (data : Word) (s : State) : State :=
  if write then
    { s with windowEvents := s.windowEvents ++ [⟨n, addr, .write data⟩], resp := none }
  else
    { s with
      windowEvents := s.windowEvents ++ [⟨n, addr, .read⟩]
      resp := some (Config.windowWord s.windowDraws)
      windowDraws := s.windowDraws + 1 }

/-- The checks of R82, in order, and the bank accessed. -/
def windowCheck (addr : Word) (s : State) : Except FaultCause Bank :=
  if s.unfenced then .error (.hazardNoBarrier addr)
  else
    match windowBank s.cfg s.regs.ctrl addr with
    | none => .error (.badWindow addr)
    | some n =>
      if (s.cfg.layout.ctrl.bankEn.get n).test s.regs.ctrl && s.cfg.layout.route.ebiPen.test s.regs.route
      then .ok n
      else .error (.windowDisabled addr)

/-- WINDOW_ACCESS (R82): a host event, so the clock is not checked (R114). -/
def execWindowAccess (addr : Word) (write : Bool) (data : Word) (s : State) : Result :=
  whenIdle s <|
    match windowCheck addr s with
    | .error e => raise e (Instr.windowAccess addr write data).code .main s
    | .ok n => windowEffect n addr write data s

/-- `IsrBitWrite(off, b, x)` (R377): the accepted single-bit write, or IsrContract. -/
def isrBitWrite (off b : Word) (x : Bool) (s : State) : State :=
  if s.cfg.isrBitWriteAccepted && b.toNat ≤ 31 then
    match s.cfg.regAt off with
    | none => raise .isrContract 0x00 .isr s
    | some r =>
      match bitWrite r b.toNat x s with
      | .ok s' => s'
      | .error e => raise e 0x00 .isr s
  else raise .isrContract 0x00 .isr s

/-- `IsrOther(off)` (R377): always IsrContract, whatever register it names. -/
def isrOther (_off : Word) (s : State) : State := raise .isrContract 0x00 .isr s

end Sys2Proof.Machine
end

