-- ==== Sys2Proof/Machine/Timing.lean ====
section
/-! DEFINITION. The timing merge and the global timing commands (41_timing_encoders.md R164 to R167). -/

namespace Sys2Proof.Machine

/-- `TimingMerge(r, FIELDS, w)` (R164): the timing fields become w's, every other bit of r is kept. -/
def timingMergeOps (r : Reg) (fields w : Word) : List MicroOp := mergeOps r fields w

/-- SET_READ_TIMING (R165). -/
def planSetReadTiming (setup strobe hold : Word) (s : State) : Except FaultCause Plan := do
  let w ← encRead s.cfg setup strobe hold
  return { ops := timingMergeOps (.rdTiming 0) (rdFields s.cfg) w }

def execSetReadTiming (setup strobe hold : Word) (s : State) : Result :=
  runCommand (.setReadTiming setup strobe hold) (planSetReadTiming setup strobe hold s) s

/-- SET_WRITE_TIMING (R166). -/
def planSetWriteTiming (setup strobe hold : Word) (s : State) : Except FaultCause Plan := do
  let w ← encWrite s.cfg setup strobe hold
  return { ops := timingMergeOps (.wrTiming 0) (wrFields s.cfg) w }

def execSetWriteTiming (setup strobe hold : Word) (s : State) : Result :=
  runCommand (.setWriteTiming setup strobe hold) (planSetWriteTiming setup strobe hold s) s

/-- SET_ADDR_TIMING (R167). -/
def planSetAddrTiming (setup hold : Word) (s : State) : Except FaultCause Plan := do
  let w ← encAddr s.cfg setup hold
  return { ops := timingMergeOps (.addrTiming 0) (addrFields s.cfg) w }

def execSetAddrTiming (setup hold : Word) (s : State) : Result :=
  runCommand (.setAddrTiming setup hold) (planSetAddrTiming setup hold s) s

end Sys2Proof.Machine
end

