-- ==== Sys2Proof/Machine/BankConfig.lean ====
section
/-! DEFINITION. The bank configurator (43_bank_config.md R200 to R208). -/

namespace Sys2Proof.Machine

/-- ENABLE_BANK (R200). -/
def planEnableBank (banks : Byte) (en : Bool) (s : State) : Except FaultCause Plan := do
  let m ← checkBanks banks
  return { ops := (s.walk 0 m).map fun n => .bit .ctrl (s.cfg.layout.ctrl.bankEn.get n).lo en }

def execEnableBank (banks : Byte) (en : Bool) (s : State) : Result :=
  runCommand (.enableBank banks en) (planEnableBank banks en s) s

/-- SET_BANK_READ_TIMING (R201). -/
def planSetBankReadTiming (banks : Byte) (setup strobe hold : Word) (s : State) :
    Except FaultCause Plan := do
  let m ← checkBanks banks
  let w ← encRead s.cfg setup strobe hold
  return { ops := (s.walk 0 m).flatMap fun n => timingMergeOps (.rdTiming n) (rdFields s.cfg) w }

def execSetBankReadTiming (banks : Byte) (setup strobe hold : Word) (s : State) : Result :=
  runCommand (.setBankReadTiming banks setup strobe hold)
    (planSetBankReadTiming banks setup strobe hold s) s

/-- SET_BANK_WRITE_TIMING (R202). -/
def planSetBankWriteTiming (banks : Byte) (setup strobe hold : Word) (s : State) :
    Except FaultCause Plan := do
  let m ← checkBanks banks
  let w ← encWrite s.cfg setup strobe hold
  return { ops := (s.walk 0 m).flatMap fun n => timingMergeOps (.wrTiming n) (wrFields s.cfg) w }

def execSetBankWriteTiming (banks : Byte) (setup strobe hold : Word) (s : State) : Result :=
  runCommand (.setBankWriteTiming banks setup strobe hold)
    (planSetBankWriteTiming banks setup strobe hold s) s

/-- SET_BANK_ADDR_TIMING (R203). -/
def planSetBankAddrTiming (banks : Byte) (setup hold : Word) (s : State) : Except FaultCause Plan := do
  let m ← checkBanks banks
  let w ← encAddr s.cfg setup hold
  return { ops := (s.walk 0 m).flatMap fun n => timingMergeOps (.addrTiming n) (addrFields s.cfg) w }

def execSetBankAddrTiming (banks : Byte) (setup hold : Word) (s : State) : Result :=
  runCommand (.setBankAddrTiming banks setup hold) (planSetBankAddrTiming banks setup hold s) s

/-- The flag writes of RDTIMING(n), in the order of R204. -/
def readFlagOps (c : Cfg) (pm pf hr : Bool) (n : Bank) : List MicroOp :=
  [.bit (.rdTiming n) c.layout.rd.pageMode.lo pm, .bit (.rdTiming n) c.layout.rd.prefetch.lo pf,
    .bit (.rdTiming n) c.layout.rd.halfRE.lo hr]

/-- CONFIG_BANK_READ_FLAGS (R204). -/
def planConfigBankReadFlags (banks : Byte) (pm pf hr : Bool) (s : State) : Except FaultCause Plan := do
  let m ← checkBanks banks
  return { ops := (s.walk 0 m).flatMap (readFlagOps s.cfg pm pf hr) }

def execConfigBankReadFlags (banks : Byte) (pm pf hr : Bool) (s : State) : Result :=
  runCommand (.configBankReadFlags banks pm pf hr) (planConfigBankReadFlags banks pm pf hr s) s

/-- The flag writes of WRTIMING(n), in the order of R205. -/
def writeFlagOps (c : Cfg) (wb hw : Bool) (n : Bank) : List MicroOp :=
  [.bit (.wrTiming n) c.layout.wr.wbufDis.lo wb, .bit (.wrTiming n) c.layout.wr.halfWE.lo hw]

/-- CONFIG_BANK_WRITE_FLAGS (R205). -/
def planConfigBankWriteFlags (banks : Byte) (wb hw : Bool) (s : State) : Except FaultCause Plan := do
  let m ← checkBanks banks
  return { ops := (s.walk 0 m).flatMap (writeFlagOps s.cfg wb hw) }

def execConfigBankWriteFlags (banks : Byte) (wb hw : Bool) (s : State) : Result :=
  runCommand (.configBankWriteFlags banks wb hw) (planConfigBankWriteFlags banks wb hw s) s

/-- The flag write of ADDRTIMING(n) (R206). -/
def addrFlagOp (c : Cfg) (ha : Bool) (n : Bank) : MicroOp :=
  .bit (.addrTiming n) c.layout.addr.halfALE.lo ha

/-- CONFIG_BANK_ADDR_FLAGS (R206). -/
def planConfigBankAddrFlags (banks : Byte) (ha : Bool) (s : State) : Except FaultCause Plan := do
  let m ← checkBanks banks
  return { ops := (s.walk 0 m).map (addrFlagOp s.cfg ha) }

def execConfigBankAddrFlags (banks : Byte) (ha : Bool) (s : State) : Result :=
  runCommand (.configBankAddrFlags banks ha) (planConfigBankAddrFlags banks ha s) s

/-- ENABLE_BYTE_LANE (R207). -/
def planEnableByteLane (banks : Byte) (en : Bool) (s : State) : Except FaultCause Plan := do
  let m ← checkBanks banks
  return { ops := (s.walk 0 m).map fun n => .bit .ctrl (s.cfg.layout.ctrl.bl.get n).lo en }

def execEnableByteLane (banks : Byte) (en : Bool) (s : State) : Result :=
  runCommand (.enableByteLane banks en) (planEnableByteLane banks en s) s

/-- The word ENABLE_NAND writes: `ins(BANKSEL, sel) | ins(EN, en)` (R208). -/
def nandWord (c : Cfg) (m : BitVec 4) (en : Bool) : Word :=
  c.layout.nand.bankSel.ins (BitVec.ofNat 32 (highestBank m).val) ||| c.layout.nand.en.insBit en

/-- ENABLE_NAND (R208). -/
def planEnableNand (banks : Byte) (en : Bool) (s : State) : Except FaultCause Plan := do
  let m ← checkBanks banks
  return { ops := [.write .nandCtrl (nandWord s.cfg m en)] }

def execEnableNand (banks : Byte) (en : Bool) (s : State) : Result :=
  runCommand (.enableNand banks en) (planEnableNand banks en s) s

end Sys2Proof.Machine
end

