-- ==== Sys2Proof/Machine/PinRouting.lean ====
section
/-! DEFINITION. The pin-routing matrix (44_pin_routing.md R230 to R237). -/

namespace Sys2Proof.Machine

/-- ENABLE_CHIP_SELECT (R230). -/
def planEnableChipSelect (cs : BitVec 4) (en : Bool) (s : State) : Except FaultCause Plan :=
  .ok { ops := (s.walk 0 cs).map fun k => .bit .route (s.cfg.layout.route.csPen.get k).lo en }

def execEnableChipSelect (cs : BitVec 4) (en : Bool) (s : State) : Result :=
  runCommand (.enableChipSelect cs en) (planEnableChipSelect cs en s) s

/-- ENABLE_ADDRESS_LATCH (R231). -/
def planEnableAddressLatch (on : Bool) (s : State) : Except FaultCause Plan :=
  .ok { ops := [.bit .route s.cfg.layout.route.alePen.lo on] }

def execEnableAddressLatch (on : Bool) (s : State) : Result :=
  runCommand (.enableAddressLatch on) (planEnableAddressLatch on s) s

/-- ENABLE_BYTE_LANE_PIN (R232). -/
def planEnableByteLanePin (on : Bool) (s : State) : Except FaultCause Plan :=
  .ok { ops := [.readUnlessNoBL, .bit .route s.cfg.layout.route.blPen.lo on] }

def execEnableByteLanePin (on : Bool) (s : State) : Result :=
  runCommand (.enableByteLanePin on) (planEnableByteLanePin on s) s

/-- ENABLE_CONTROLLER_PINS (R233). -/
def planEnableControllerPins (on : Bool) (s : State) : Except FaultCause Plan :=
  .ok { ops := [.bit .route s.cfg.layout.route.ebiPen.lo on] }

def execEnableControllerPins (on : Bool) (s : State) : Result :=
  runCommand (.enableControllerPins on) (planEnableControllerPins on s) s

/-- SET_LOW_ADDR_PINS (R234). -/
def planSetLowAddrPins (pattern : Word) (s : State) : Except FaultCause Plan :=
  .ok { ops := mergeOps .route s.cfg.layout.route.alb.mask pattern }

def execSetLowAddrPins (pattern : Word) (s : State) : Result :=
  runCommand (.setLowAddrPins pattern) (planSetLowAddrPins pattern s) s

/-- SET_HIGH_ADDR_PINS (R235). -/
def planSetHighAddrPins (pattern : Word) (s : State) : Except FaultCause Plan :=
  .ok { ops := mergeOps .route s.cfg.layout.route.apen.mask pattern }

def execSetHighAddrPins (pattern : Word) (s : State) : Result :=
  runCommand (.setHighAddrPins pattern) (planSetHighAddrPins pattern s) s

/-- The merge of LOCATION into `LOCREG` (R236, R269). -/
def locationOps (c : Cfg) (idx : Word) : List MicroOp :=
  mergeOps c.locReg c.locField.mask (c.locField.ins idx)

/-- SET_ROUTING_LOCATION (R236). -/
def planSetRoutingLocation (idx : Word) (s : State) : Except FaultCause Plan := do
  checkLocation s.cfg idx
  return { ops := locationOps s.cfg idx }

def execSetRoutingLocation (idx : Word) (s : State) : Result :=
  runCommand (.setRoutingLocation idx) (planSetRoutingLocation idx s) s

/-- ENABLE_TFT_PINS (R237). -/
def planEnableTftPins (on : Bool) (s : State) : Except FaultCause Plan :=
  .ok { ops := if on then mergeOps .route 0 s.cfg.tftPinGroup else mergeOps .route s.cfg.tftPinGroup 0 }

def execEnableTftPins (on : Bool) (s : State) : Result :=
  runCommand (.enableTftPins on) (planEnableTftPins on s) s

end Sys2Proof.Machine
end

