-- ==== Sys2Proof/Machine/Polarity.lean ====
section
/-! DEFINITION. The polarity-bit matrix (42_polarity.md R180 to R183). -/

namespace Sys2Proof.Machine

/-- The single-bit write of a line's polarity for bank n (R180). -/
def polOp (c : Cfg) (line : Line) (low : Bool) (n : Bank) : MicroOp :=
  .bit (polReg line n) (polBit c line) (polBitValue c low)

/-- SET_GLOBAL_POLARITY (R182). -/
def planSetGlobalPolarity (line : BitVec 4) (low : Bool) (s : State) : Except FaultCause Plan := do
  let l ← checkLine s.cfg line
  return { ops := [polOp s.cfg l low 0] }

def execSetGlobalPolarity (line : BitVec 4) (low : Bool) (s : State) : Result :=
  runCommand (.setGlobalPolarity line low) (planSetGlobalPolarity line low s) s

/-- SET_BANK_POLARITY (R183). -/
def planSetBankPolarity (banks : Byte) (line : BitVec 4) (low : Bool) (s : State) :
    Except FaultCause Plan := do
  let m ← checkBanks banks
  let l ← checkLine s.cfg line
  return { ops := (s.walk 0 m).map (polOp s.cfg l low) }

def execSetBankPolarity (banks : Byte) (line : BitVec 4) (low : Bool) (s : State) : Result :=
  runCommand (.setBankPolarity banks line low) (planSetBankPolarity banks line low s) s

end Sys2Proof.Machine
end

