-- ==== Sys2Proof/Machine/InitDisable.lean ====
section
/-! DEFINITION. INIT and DISABLE (45_init_disable.md R260 to R276). -/

namespace Sys2Proof.Machine

/-- The polarity a record gives each of the bus lines INIT sets, in the order of step 2 (R263). -/
def InitRecord.busPolarities (c : Cfg) (r : InitRecord) : List (Line × Bool) :=
  [(.ardy, r.polARDY), (.ale, r.polALE), (.we, r.polWE), (.re, r.polRE), (.cs, r.polCS)]
    ++ if c.hasByteLane then [(.bl, r.polBL)] else []

/-- Step 2 (R263): global on LEGACY, per bank on MODERN, where the j-th line's loop walks in order j. -/
def initPolarityOps (s : State) (m : BitVec 4) (r : InitRecord) : List MicroOp :=
  if s.cfg.isModern then
    (InitRecord.busPolarities s.cfg r).zipIdx.flatMap fun p =>
      (s.walk p.2 m).map (polOp s.cfg p.1.1 p.1.2)
  else (InitRecord.busPolarities s.cfg r).map fun p => polOp s.cfg p.1 p.2 0

/-- `sliceMask(n)` (R31). -/
def sliceMask (c : Cfg) (n : Bank) : Word :=
  (c.layout.ctrl.mode.get n).mask ||| (c.layout.ctrl.ardyEn.get n).mask
    ||| (c.layout.ctrl.ardyToDis.get n).mask ||| (c.layout.ctrl.bankEn.get n).mask
    ||| (if c.hasByteLane then (c.layout.ctrl.bl.get n).mask else 0)
    ||| (if c.hasNoIdle then (c.layout.ctrl.noIdle.get n).mask else 0)

/-- `globalSliceMask` of LEGACY (R31). -/
def globalSliceMask (c : Cfg) : Word :=
  (c.layout.ctrl.mode.get 0).mask ||| (c.layout.ctrl.ardyEn.get 0).mask
    ||| (c.layout.ctrl.ardyToDis.get 0).mask

/-- The configured values of bank n's slice (R265). -/
def sliceWord (c : Cfg) (r : InitRecord) (en : Bool) (n : Bank) : Word :=
  (c.layout.ctrl.mode.get n).ins (r.mode.setWidth 32) ||| (c.layout.ctrl.ardyEn.get n).insBit r.ardyEnable
    ||| (c.layout.ctrl.ardyToDis.get n).insBit r.ardyDisableTimeout
    ||| (c.layout.ctrl.bankEn.get n).insBit en
    ||| (if c.hasByteLane then (c.layout.ctrl.bl.get n).insBit r.byteLane else 0)
    ||| (if c.hasNoIdle then (c.layout.ctrl.noIdle.get n).insBit r.noIdle else 0)

/-- The configured values of LEGACY's global slice (R265). -/
def globalSliceWord (c : Cfg) (r : InitRecord) : Word :=
  (c.layout.ctrl.mode.get 0).ins (r.mode.setWidth 32) ||| (c.layout.ctrl.ardyEn.get 0).insBit r.ardyEnable
    ||| (c.layout.ctrl.ardyToDis.get 0).insBit r.ardyDisableTimeout

/-- The composition of the control word, steps 3 and 4 (R264, R265). -/
def initEdits (c : Cfg) (m : BitVec 4) (en : Bool) (r : InitRecord) : List (Word × Word) :=
  (if c.hasITS then [(0, c.layout.ctrl.its.mask)] else [])
  ++ if c.isModern then (members m).map fun n => (sliceMask c n, sliceWord c r en n)
     else (globalSliceMask c, globalSliceWord c r)
       :: (members m).map fun n =>
            ((c.layout.ctrl.bankEn.get n).mask, (c.layout.ctrl.bankEn.get n).insBit en)

/-- Step 5 for one bank on MODERN, in the order of R266. -/
def initBankTimingOps (c : Cfg) (r : InitRecord) (rw ww aw : Word) (n : Bank) : List MicroOp :=
  timingMergeOps (.rdTiming n) (rdFields c) rw ++ readFlagOps c r.pageMode r.prefetch r.halfRE n
    ++ timingMergeOps (.wrTiming n) (wrFields c) ww ++ writeFlagOps c r.writeBufferDisable r.halfWE n
    ++ timingMergeOps (.addrTiming n) (addrFields c) aw ++ [addrFlagOp c r.halfALE n]

/-- Step 5 (R266): per bank on MODERN, the global registers on LEGACY. -/
def initTimingOps (s : State) (m : BitVec 4) (r : InitRecord) (rw ww aw : Word) : List MicroOp :=
  if s.cfg.isModern then (s.walk 6 m).flatMap (initBankTimingOps s.cfg r rw ww aw)
  else
    timingMergeOps (.rdTiming 0) (rdFields s.cfg) rw ++ timingMergeOps (.wrTiming 0) (wrFields s.cfg) ww
      ++ timingMergeOps (.addrTiming 0) (addrFields s.cfg) aw

/-- Step 8 (R269): each sub-step where its field exists. -/
def initRouteOps (c : Cfg) (r : InitRecord) : List MicroOp :=
  (if c.hasAddrPinCtl then
    mergeOps .route c.layout.route.alb.mask r.aLow ++ mergeOps .route c.layout.route.apen.mask r.aHigh
    else [])
  ++ (if c.routeHasLocation then locationOps c r.loc else [])
  ++ (if c.hasByteLane then [.blPin] else [])

/-- The ten steps of INIT for a mask that is not empty (R262 to R271). -/
def initOps (s : State) (m : BitVec 4) (cs : BitVec 4) (en : Bool) (r : InitRecord) (rw ww aw : Word) :
    List MicroOp :=
  [.snapshot (initEdits s.cfg m en r)]
  ++ initPolarityOps s m r
  ++ initTimingOps s m r rw ww aw
  ++ [.commit, .bit .route s.cfg.layout.route.alePen.lo (isALE s.cfg r.mode)]
  ++ initRouteOps s.cfg r
  ++ [.bit .route s.cfg.layout.route.ebiPen.lo true]
  ++ (s.walk 7 cs).map fun k => .bit .route (s.cfg.layout.route.csPen.get k).lo true

/-- The checks that follow the empty-mask return of INIT, with the three timing words (R261). -/
def initChecks (c : Cfg) (r : InitRecord) : Except FaultCause (Word × Word × Word) := do
  let rw ← encRead c r.rdSetup r.rdStrobe r.rdHold
  let ww ← encWrite c r.wrSetup r.wrStrobe r.wrHold
  let aw ← encAddr c r.addrSetup r.addrHold
  if c.routeHasLocation then checkLocation c r.loc
  return (rw, ww, aw)

/-- INIT (R260, R261): an empty bank mask makes it a no-op. -/
def planInit (banks : Byte) (cs : BitVec 4) (en : Bool) (r : InitRecord) (s : State) :
    Except FaultCause Plan := do
  let m ← checkBanks banks
  if m = 0 then return { ops := [] }
  let w ← initChecks s.cfg r
  return { ops := initOps s m cs en r w.1 w.2.1 w.2.2 }

def execInit (banks : Byte) (cs : BitVec 4) (en : Bool) (r : InitRecord) (s : State) : Result :=
  runCommand (.init banks cs en r) (planInit banks cs en r s) s

/-- DISABLE (R275). -/
def planDisable (s : State) : Except FaultCause Plan :=
  .ok { ops := [.write .route s.cfg.resetValue.route, .write .ctrl s.cfg.resetValue.ctrl] }

def execDisable (s : State) : Result := runCommand .disable (planDisable s) s

end Sys2Proof.Machine
end

