-- ==== Sys2Proof/Machine/Mapper.lean ====
section
/-! DEFINITION. The address-space mapper's command (46_address_mapper.md R291); its function is in
Operands.lean (R290). -/

namespace Sys2Proof.Machine

/-- BANK_BASE (R291). With hasAltMap false it takes no micro-step and t stays 0. -/
def planBankBase (banks : Byte) (s : State) : Except FaultCause Plan := do
  let m ← checkBanks banks
  match members m with
  | [n] => return { ops := if s.cfg.hasAltMap then [.read .ctrl] else [], ret := .base n }
  | _ => throw (.badBankIndex banks)

def execBankBase (banks : Byte) (s : State) : Result :=
  runCommand (.bankBase banks) (planBankBase banks s) s

end Sys2Proof.Machine
end

