-- ==== Sys2Proof/Machine/RegAccess.lean ====
section
/-! DEFINITION. The raw register commands (40_register_access.md R140 to R144). -/

namespace Sys2Proof.Machine

/-- REG_READ (R141). -/
def planRegRead (off : Word) (s : State) : Except FaultCause Plan := do
  let r ← resolve s.cfg off
  return { ops := [.read r], ret := .temp }

def execRegRead (off : Word) (s : State) : Result := runCommand (.regRead off) (planRegRead off s) s

/-- REG_WRITE (R142). -/
def planRegWrite (off val : Word) (s : State) : Except FaultCause Plan := do
  let r ← resolve s.cfg off
  return { ops := [.write r val] }

def execRegWrite (off val : Word) (s : State) : Result :=
  runCommand (.regWrite off val) (planRegWrite off val s) s

/-- REG_BITWRITE (R143). -/
def planRegBitwrite (off bit : Word) (x : Bool) (s : State) : Except FaultCause Plan := do
  let r ← resolve s.cfg off
  if 31 < bit.toNat then throw (.badBitIndex bit)
  return { ops := [.bit r bit.toNat x] }

def execRegBitwrite (off bit : Word) (x : Bool) (s : State) : Result :=
  runCommand (.regBitwrite off bit x) (planRegBitwrite off bit x s) s

/-- REG_MERGE (R144). -/
def planRegMerge (off mask bits : Word) (s : State) : Except FaultCause Plan := do
  let r ← resolve s.cfg off
  return { ops := mergeOps r mask bits }

def execRegMerge (off mask bits : Word) (s : State) : Result :=
  runCommand (.regMerge off mask bits) (planRegMerge off mask bits s) s

end Sys2Proof.Machine
end

