-- ==== Sys2Proof/Machine/TftConfig.lean ====
section
/-! DEFINITION. TFT direct-drive configuration (47_tft_config.md R300 to R315). -/

namespace Sys2Proof.Machine

/-- The checks of TFT_INIT, in the order of R301. -/
def tftChecks (c : Cfg) (bank : BitVec 4) (r : TftRecord) : Except FaultCause Unit := do
  if 3 < bank.toNat then throw (.badBankIndex (bank.setWidth 8))
  checkFrameBase c r.offset
  checkSize c r.width r.height
  checkHPorch c r.hFront r.hBack r.hPulse
  checkVPorch c r.vFront r.vBack r.vPulse
  checkTftTiming c r.period r.start r.setup r.hold
  checkMaskBlend c (r.maskBlend.setWidth 32)

/-- The single-bit polarity writes of step 6 (R303). -/
def tftPolarityOps (c : Cfg) (r : TftRecord) : List MicroOp :=
  [.bit .tftPolarity c.layout.tft.polCS.lo (polBitValue c r.polCS),
    .bit .tftPolarity c.layout.tft.polDClk.lo (polBitValue c r.polDClk),
    .bit .tftPolarity c.layout.tft.polDataEn.lo (polBitValue c r.polDataEn),
    .bit .tftPolarity c.layout.tft.polVSync.lo (polBitValue c r.polVSync),
    .bit .tftPolarity c.layout.tft.polHSync.lo (polBitValue c r.polHSync)]

/-- The steps of TFT_INIT (R303). -/
def tftInitOps (c : Cfg) (bank : BitVec 4) (r : TftRecord) : List MicroOp :=
  [.write .tftFrameBase (c.layout.tft.frameBase.ins r.offset),
    .write .tftSize (sizeWord c r.width r.height),
    .write .tftHPorch (hporchWord c r.hFront r.hBack r.hPulse),
    .write .tftVPorch (vporchWord c r.vFront r.vBack r.vPulse),
    .write .tftTiming (tftTimingWord c r.period r.start r.setup r.hold)]
  ++ tftPolarityOps c r
  ++ [.write .tftCtrl (tftCtrlWord c bank r)]
  ++ if r.drive = c.driveCode.disabled then [] else mergeOps .route 0 c.tftPinGroup

/-- TFT_INIT (R303). -/
def planTftInit (bank : BitVec 4) (r : TftRecord) (s : State) : Except FaultCause Plan := do
  tftChecks s.cfg bank r
  return { ops := tftInitOps s.cfg bank r }

def execTftInit (bank : BitVec 4) (r : TftRecord) (s : State) : Result :=
  runCommand (.tftInit bank r) (planTftInit bank r s) s

/-- TFT_SET_FRAME_BASE (R310). -/
def planTftSetFrameBase (off : Word) (s : State) : Except FaultCause Plan := do
  checkFrameBase s.cfg off
  return { ops := [.write .tftFrameBase (s.cfg.layout.tft.frameBase.ins off)] }

def execTftSetFrameBase (off : Word) (s : State) : Result :=
  runCommand (.tftSetFrameBase off) (planTftSetFrameBase off s) s

/-- TFT_SET_SIZE (R311). -/
def planTftSetSize (width height : Word) (s : State) : Except FaultCause Plan := do
  checkSize s.cfg width height
  return { ops := [.write .tftSize (sizeWord s.cfg width height)] }

def execTftSetSize (width height : Word) (s : State) : Result :=
  runCommand (.tftSetSize width height) (planTftSetSize width height s) s

/-- TFT_SET_HPORCH (R312). -/
def planTftSetHPorch (front back pulse : Word) (s : State) : Except FaultCause Plan := do
  checkHPorch s.cfg front back pulse
  return { ops := [.write .tftHPorch (hporchWord s.cfg front back pulse)] }

def execTftSetHPorch (front back pulse : Word) (s : State) : Result :=
  runCommand (.tftSetHPorch front back pulse) (planTftSetHPorch front back pulse s) s

/-- TFT_SET_VPORCH (R313). -/
def planTftSetVPorch (front back pulse : Word) (s : State) : Except FaultCause Plan := do
  checkVPorch s.cfg front back pulse
  return { ops := [.write .tftVPorch (vporchWord s.cfg front back pulse)] }

def execTftSetVPorch (front back pulse : Word) (s : State) : Result :=
  runCommand (.tftSetVPorch front back pulse) (planTftSetVPorch front back pulse s) s

/-- TFT_SET_TIMING (R314). -/
def planTftSetTiming (period start setup hold : Word) (s : State) : Except FaultCause Plan := do
  checkTftTiming s.cfg period start setup hold
  return { ops := [.write .tftTiming (tftTimingWord s.cfg period start setup hold)] }

def execTftSetTiming (period start setup hold : Word) (s : State) : Result :=
  runCommand (.tftSetTiming period start setup hold) (planTftSetTiming period start setup hold s) s

/-- TFT_SET_MASK_BLEND (R315): a merge, since MASKBLEND shares TFTCTRL. -/
def planTftSetMaskBlend (mode : Word) (s : State) : Except FaultCause Plan := do
  checkMaskBlend s.cfg mode
  return {
    ops := mergeOps .tftCtrl s.cfg.layout.tftCtrl.maskBlend.mask (s.cfg.layout.tftCtrl.maskBlend.ins mode) }

def execTftSetMaskBlend (mode : Word) (s : State) : Result :=
  runCommand (.tftSetMaskBlend mode) (planTftSetMaskBlend mode s) s

end Sys2Proof.Machine
end

