-- ==== Sys2Proof/Machine/TftEngine.lean ====
section
/-! DEFINITION. The TFT sync, porch and DCLK timing state machine and its pins (48_tft_timing_fsm.md R330 to
R339). -/

namespace Sys2Proof.Machine

/-- One axis of the timing of R331: sync pulse, back porch, active region, front porch. -/
structure Axis where
  sync : Nat
  back : Nat
  active : Nat
  front : Nat
deriving DecidableEq, Repr

/-- `Htot` or `Vtot` (R331). -/
def Axis.total (a : Axis) : Nat := a.sync + a.back + a.active + a.front

/-- `HS`, `HB`, `HA`, `HF` from TFTHPORCH and TFTSIZE (R331). -/
def State.hAxis (s : State) : Axis where
  sync := (s.cfg.layout.tft.hsync.get s.regs.tftHPorch).toNat + 1
  back := (s.cfg.layout.tft.hbporch.get s.regs.tftHPorch).toNat
  active := (s.cfg.layout.tft.hsz.get s.regs.tftSize).toNat + 1
  front := (s.cfg.layout.tft.hfporch.get s.regs.tftHPorch).toNat

/-- `VS`, `VB`, `VA`, `VF` from TFTVPORCH and TFTSIZE (R331). -/
def State.vAxis (s : State) : Axis where
  sync := (s.cfg.layout.tft.vsync.get s.regs.tftVPorch).toNat + 1
  back := (s.cfg.layout.tft.vbporch.get s.regs.tftVPorch).toNat
  active := (s.cfg.layout.tft.vsz.get s.regs.tftSize).toNat + 1
  front := (s.cfg.layout.tft.vfporch.get s.regs.tftVPorch).toNat

/-- Whether the sync pulse is on at a position (R333). -/
def Axis.inSync (a : Axis) (x : Nat) : Bool := x < a.sync

/-- Whether a position is in the active region (R333). -/
def Axis.inActive (a : Axis) (x : Nat) : Bool :=
  a.sync + a.back ≤ x && x < a.sync + a.back + a.active

/-- Whether the drive mode in TFTCTRL is DISABLED (R334). -/
def State.driveDisabled (s : State) : Bool :=
  s.cfg.layout.tftCtrl.dd.get s.regs.tftCtrl == s.cfg.driveCode.disabled.setWidth 32

/-- The counters after one tick (R334). -/
def State.tftAfterTick (s : State) : Tft :=
  if s.driveDisabled then { run := false, h := 0, v := 0, dirty := false }
  else if !s.tft.run then { run := true, h := 0, v := 0, dirty := false }
  else if s.tft.h + 1 < s.hAxis.total then { s.tft with h := s.tft.h + 1 }
  else if s.tft.v + 1 < s.vAxis.total then { s.tft with h := 0, v := s.tft.v + 1 }
  else { s.tft with h := 0, v := 0, dirty := false }

/-- One tick of the TFT engine (R334); each tick draws the unspecified pin levels anew (R339). -/
def tick (s : State) : State := { s with tft := s.tftAfterTick, pinDraws := s.pinDraws + 1 }

/-- When a tick is enabled, FAULT apart (R334). -/
def State.tickEnabled (s : State) : Bool := s.cfg.hasTft && s.clkOn

/-- The asserted output of a TFT line (R333). -/
def State.asserted (s : State) (p : TftPin) : Bool :=
  s.tft.run &&
    match p with
    | .vSync => s.vAxis.inSync s.tft.v
    | .hSync => s.hAxis.inSync s.tft.h
    | .dataEn => s.hAxis.inActive s.tft.h && s.vAxis.inActive s.tft.v
    | .cs => true

/-- The pixel shown, where dataEn is asserted (R333, informative). -/
def State.pixel (s : State) : Option (Nat × Nat) :=
  if s.asserted .dataEn then
    some (s.tft.h - s.hAxis.sync - s.hAxis.back, s.tft.v - s.vAxis.sync - s.vAxis.back)
  else none

/-- The polarity bit of a TFT line (R337, R44). -/
def State.pinPolarity (s : State) : TftPin → Bool
  | .vSync => s.cfg.layout.tft.polVSync.test s.regs.tftPolarity
  | .hSync => s.cfg.layout.tft.polHSync.test s.regs.tftPolarity
  | .dataEn => s.cfg.layout.tft.polDataEn.test s.regs.tftPolarity
  | .cs => s.cfg.layout.tft.polCS.test s.regs.tftPolarity

/-- Whether the TFT pins are driven: the instance has them (R7), and ROUTE has every bit of TFT_PIN_GROUP
(R338). -/
def State.pinsDriven (s : State) : Bool := s.cfg.hasTft && s.regs.route &&& s.cfg.tftPinGroup == s.cfg.tftPinGroup

/-- Whether the level of a driven TFT pin is unspecified: in a dirty frame (R339), or with gpioReady
cleared while EBIPEN is 1 (R405). -/
def State.pinsUnspecified (s : State) : Bool :=
  s.tft.dirty || (s.cfg.layout.route.ebiPen.test s.regs.route && !s.gpioReady)

/-- The level of a TFT pin, none where the block does not drive it (R337 to R339; notes/assumptions/9.md,
18.md). -/
def State.pinLevel (s : State) (p : TftPin) : Option Bool :=
  if !s.pinsDriven then none
  else if s.pinsUnspecified then some (Config.pinDraw s.pinDraws p)
  else some (if s.pinPolarity p == s.cfg.polActiveLow then !s.asserted p else s.asserted p)

/-- The bank whose timing and polarity registers bank n's bus cycles use (R53, informative). -/
def State.timingBank (s : State) (n : Bank) : Bank :=
  if s.cfg.hasITS && s.cfg.layout.ctrl.its.test s.regs.ctrl then n else 0

end Sys2Proof.Machine
end

