-- ==== Sys2Proof/Machine/Plans.lean ====
section
/-! DEFINITION. What MAIN's issue of each opcode begins: a command's plan, or a host event done at once
(30_encoding.md R114). It serves the micro-step stepping of 10_state.md R49. -/

namespace Sys2Proof.Machine

/-- The plan of a command, none for the two host events. -/
def planOf (i : Instr) (s : State) : Option (Except FaultCause Plan) :=
  match i with
  | .regRead off => some (planRegRead off s)
  | .regWrite off val => some (planRegWrite off val s)
  | .regBitwrite off bit x => some (planRegBitwrite off bit x s)
  | .regMerge off mask bits => some (planRegMerge off mask bits s)
  | .windowAccess _ _ _ => none
  | .barrier => none
  | .setReadTiming setup strobe hold => some (planSetReadTiming setup strobe hold s)
  | .setWriteTiming setup strobe hold => some (planSetWriteTiming setup strobe hold s)
  | .setAddrTiming setup hold => some (planSetAddrTiming setup hold s)
  | .setGlobalPolarity line low => some (planSetGlobalPolarity line low s)
  | .setBankPolarity banks line low => some (planSetBankPolarity banks line low s)
  | .enableBank banks en => some (planEnableBank banks en s)
  | .setBankReadTiming banks setup strobe hold => some (planSetBankReadTiming banks setup strobe hold s)
  | .setBankWriteTiming banks setup strobe hold => some (planSetBankWriteTiming banks setup strobe hold s)
  | .setBankAddrTiming banks setup hold => some (planSetBankAddrTiming banks setup hold s)
  | .configBankReadFlags banks pm pf hr => some (planConfigBankReadFlags banks pm pf hr s)
  | .configBankWriteFlags banks wb hw => some (planConfigBankWriteFlags banks wb hw s)
  | .configBankAddrFlags banks ha => some (planConfigBankAddrFlags banks ha s)
  | .enableByteLane banks en => some (planEnableByteLane banks en s)
  | .enableNand banks en => some (planEnableNand banks en s)
  | .enableChipSelect cs en => some (planEnableChipSelect cs en s)
  | .enableAddressLatch on => some (planEnableAddressLatch on s)
  | .enableByteLanePin on => some (planEnableByteLanePin on s)
  | .enableControllerPins on => some (planEnableControllerPins on s)
  | .setLowAddrPins pattern => some (planSetLowAddrPins pattern s)
  | .setHighAddrPins pattern => some (planSetHighAddrPins pattern s)
  | .setRoutingLocation idx => some (planSetRoutingLocation idx s)
  | .enableTftPins on => some (planEnableTftPins on s)
  | .init banks cs en r => some (planInit banks cs en r s)
  | .disable => some (planDisable s)
  | .bankBase banks => some (planBankBase banks s)
  | .tftInit bank r => some (planTftInit bank r s)
  | .tftSetFrameBase off => some (planTftSetFrameBase off s)
  | .tftSetSize width height => some (planTftSetSize width height s)
  | .tftSetHPorch front back pulse => some (planTftSetHPorch front back pulse s)
  | .tftSetVPorch front back pulse => some (planTftSetVPorch front back pulse s)
  | .tftSetTiming period start setup hold => some (planTftSetTiming period start setup hold s)
  | .tftSetMaskBlend mode => some (planTftSetMaskBlend mode s)

end Sys2Proof.Machine
end

