-- ==== Sys2Proof/Machine/Dispatch.lean ====
section
/-! DEFINITION. The meaning of each command: one arm per constructor of Instr. -/

namespace Sys2Proof.Machine

def exec (i : Instr) (s : State) : Host.Outcome State Fault Refusal :=
  match i with
  | .regRead off => Sys2Proof.Machine.execRegRead off s
  | .regWrite off val => Sys2Proof.Machine.execRegWrite off val s
  | .regBitwrite off bit x => Sys2Proof.Machine.execRegBitwrite off bit x s
  | .regMerge off mask bits => Sys2Proof.Machine.execRegMerge off mask bits s
  | .windowAccess addr write data => Sys2Proof.Machine.execWindowAccess addr write data s
  | .barrier => Sys2Proof.Machine.execBarrier s
  | .setReadTiming setup strobe hold => Sys2Proof.Machine.execSetReadTiming setup strobe hold s
  | .setWriteTiming setup strobe hold => Sys2Proof.Machine.execSetWriteTiming setup strobe hold s
  | .setAddrTiming setup hold => Sys2Proof.Machine.execSetAddrTiming setup hold s
  | .setGlobalPolarity line low => Sys2Proof.Machine.execSetGlobalPolarity line low s
  | .setBankPolarity banks line low => Sys2Proof.Machine.execSetBankPolarity banks line low s
  | .enableBank banks en => Sys2Proof.Machine.execEnableBank banks en s
  | .setBankReadTiming banks setup strobe hold => Sys2Proof.Machine.execSetBankReadTiming banks setup strobe hold s
  | .setBankWriteTiming banks setup strobe hold => Sys2Proof.Machine.execSetBankWriteTiming banks setup strobe hold s
  | .setBankAddrTiming banks setup hold => Sys2Proof.Machine.execSetBankAddrTiming banks setup hold s
  | .configBankReadFlags banks pm pf hr => Sys2Proof.Machine.execConfigBankReadFlags banks pm pf hr s
  | .configBankWriteFlags banks wb hw => Sys2Proof.Machine.execConfigBankWriteFlags banks wb hw s
  | .configBankAddrFlags banks ha => Sys2Proof.Machine.execConfigBankAddrFlags banks ha s
  | .enableByteLane banks en => Sys2Proof.Machine.execEnableByteLane banks en s
  | .enableNand banks en => Sys2Proof.Machine.execEnableNand banks en s
  | .enableChipSelect cs en => Sys2Proof.Machine.execEnableChipSelect cs en s
  | .enableAddressLatch on => Sys2Proof.Machine.execEnableAddressLatch on s
  | .enableByteLanePin on => Sys2Proof.Machine.execEnableByteLanePin on s
  | .enableControllerPins on => Sys2Proof.Machine.execEnableControllerPins on s
  | .setLowAddrPins pattern => Sys2Proof.Machine.execSetLowAddrPins pattern s
  | .setHighAddrPins pattern => Sys2Proof.Machine.execSetHighAddrPins pattern s
  | .setRoutingLocation idx => Sys2Proof.Machine.execSetRoutingLocation idx s
  | .enableTftPins on => Sys2Proof.Machine.execEnableTftPins on s
  | .init banks cs en r => Sys2Proof.Machine.execInit banks cs en r s
  | .disable => Sys2Proof.Machine.execDisable s
  | .bankBase banks => Sys2Proof.Machine.execBankBase banks s
  | .tftInit bank r => Sys2Proof.Machine.execTftInit bank r s
  | .tftSetFrameBase off => Sys2Proof.Machine.execTftSetFrameBase off s
  | .tftSetSize width height => Sys2Proof.Machine.execTftSetSize width height s
  | .tftSetHPorch front back pulse => Sys2Proof.Machine.execTftSetHPorch front back pulse s
  | .tftSetVPorch front back pulse => Sys2Proof.Machine.execTftSetVPorch front back pulse s
  | .tftSetTiming period start setup hold => Sys2Proof.Machine.execTftSetTiming period start setup hold s
  | .tftSetMaskBlend mode => Sys2Proof.Machine.execTftSetMaskBlend mode s

end Sys2Proof.Machine
end

