-- ==== Sys2Proof/Machine/Stepping.lean ====
section
/-! DEFINITION. What each step of an agent does (10_state.md R48, R49, 30_encoding.md R114, 48_tft_timing_fsm.md
R334, 60_exceptions.md R366, R377). -/

namespace Sys2Proof.Machine

/-- MAIN presents a frame at the command port (R112, R114): decode, then what `meaning` does with the
command. An illegal frame raises IllegalCommand; words that are no frame are refused. -/
def present (meaning : Instr → State → Result) (frame : List Word) (s : State) : Result :=
  match decode s.cfg frame with
  | .command i => meaning i s
  | .illegal h => whenIdle s (raise (.illegalCommand h) (headerOp h) .main s)
  | .notFrame => .refused .notAFrame

/-- The issue of a command and nothing more; a host event is done at once (R49). -/
def issueOnly (meaning : Instr → State → Result) (i : Instr) (s : State) : Result :=
  match planOf i s with
  | none => meaning i s
  | some p => whenIdle s (issue i p s)

/-- One step of the configurator, enabled while a command is in flight (R49). -/
def microEvent (s : State) : Result :=
  match s.cfgr with
  | .idle => .refused .notEnabled
  | .busy _ => .next (microStep s)

/-- The step of an agent while FAULT is none. `meaning` is the meaning of commands and host events. -/
def agentStep (meaning : Instr → State → Result) (e : Event) (s : State) : Result :=
  match e with
  | .command frame => present meaning frame s
  | .issue frame => present (issueOnly meaning) frame s
  | .micro => microEvent s
  | .tick => if s.tickEnabled then .next (tick s) else .refused .notEnabled
  | .isrBitWrite off b x => .next (isrBitWrite off b x s)
  | .isrOther off => .next (isrOther off s)
  | .setClk on => whenIdle s { s with clkOn := on }
  | .setGpio ready => whenIdle s { s with gpioReady := ready }
  | .setOrders orders => .next { s with orders := orders }
  | .reset => .next (resetEvent s)

/-- A step: while FAULT is set only the reset event is enabled (R366, R390). -/
def takeStep (meaning : Instr → State → Result) (e : Event) (s : State) : Result :=
  match e, s.fault with
  | .reset, _ => .next (resetEvent s)
  | _, some _ => .fault .halted
  | e, none => agentStep meaning e s

end Sys2Proof.Machine
end

