-- ==== Sys2Proof/Machine/Step.lean ====
section
/-! DEFINITION. One step of the machine: the next step of the agenda is taken (10_state.md R49). -/

namespace Sys2Proof.Machine

/-- One step. With nothing on the agenda no agent moves (notes/assumptions/3.md). -/
def step (s : State) : Host.Outcome State Fault Refusal :=
  match s.agenda with
  | [] => .next s
  | e :: rest => takeStep exec e { s with agenda := rest }

/-- s with the command frame of the bits w next on the agenda, and what its issue needs: CFGR IDLE, no
FAULT, the clocks on (R114; notes/assumptions/4.md). -/
def State.withFetchWord (s : State) (nbits w : Nat) : State :=
  { s with
    agenda := .command (frameOf nbits w) :: s.agenda
    cfgr := .idle
    fault := none
    clkOn := true }

end Sys2Proof.Machine
end

