-- ==== Sys2Proof/Safety.lean ====
section
/-! DEFINITION. What a safe run is, and the states in which commands and host events are admitted. -/

namespace Sys2Proof.Machine

/-- MAIN may act: no FAULT, and CFGR is IDLE (R49, R114). -/
def State.idleOk (s : State) : Prop := s.fault = none ∧ s.cfgr = .idle

/-- MAIN may issue a command and its checks are reached: idle, no FAULT, the clocks on (R114). -/
def State.ready (s : State) : Prop := s.idleOk ∧ s.clkOn = true

/-- No contract was broken so far: FAULT is none. -/
def State.faultFree (s : State) : Prop := s.fault = none

/-- A state that some number of steps reaches from another. -/
inductive Reaches : State → State → Prop where
  | refl (s : State) : Reaches s s
  | tail {s t u : State} : Reaches s t → step t = .next u → Reaches s u

/-- A run is safe when every state it passes is free of faults: no host, ordering or interrupt contract was
broken, no command was illegal, and no operand was out of range (R360). -/
def SafeFrom (s : State) : Prop := ∀ t, Reaches s t → t.faultFree

end Sys2Proof.Machine
end

