-- ==== Sys2Proof/Certificates/Slice0/Obligations.lean ====
section
/-! DEFINITION. The statements for the provers, with the words they are stated in. Every next state is
written out whole, so each such statement says its instruction's frame: what the written state does not
name is unchanged. -/

namespace Sys2Proof.Claims

open Sys2Proof.Machine

/-! ## Runs -/

/-- The state after n steps, none where one of them stops. -/
def runs : Nat → State → Option State
  | 0, s => some s
  | n + 1, s =>
    match step s with
    | .next t => runs n t
    | .fault _ => none
    | .refused _ => none

/-! ## Next states -/

/-- Fault entry (R366) of a command that MAIN issued. -/
def faulted (i : Instr) (e : FaultCause) (s : State) : State :=
  { s with fault := some { cause := e, opcode := i.code, agent := .main }, resp := none }

/-- s with w in register r: `unfenced` is set (R80), and a TFT register written while the engine runs makes
the frame dirty (R339). -/
def written (s : State) (r : Reg) (w : Word) : State :=
  { s with
    regs := s.regs.set r w
    unfenced := true
    tft := { s.tft with dirty := s.tft.dirty || (s.tft.run && r.isTft) } }

/-- s after a command that left w in register r and returned nothing. -/
def stored (s : State) (r : Reg) (w : Word) : State := { written s r w with resp := none }

/-- s after a command of the bus side that left the register file f, `any` telling whether it wrote at all. -/
def rewritten (s : State) (f : RegFile) (any : Bool) : State :=
  { s with regs := f, unfenced := s.unfenced || any, resp := none }

/-- Whether leaving w in r would make ROUTE.EBIPEN 1 where it is 0, while gpioReady is false (R363(b)). -/
def forbidden (s : State) (r : Reg) (w : Word) : Prop :=
  r = .route ∧ s.cfg.layout.route.ebiPen.test w = true
    ∧ s.cfg.layout.route.ebiPen.test s.regs.route = false ∧ s.gpioReady = false

/-- Command i stopped in HostGpioNotReady with k micro-steps performed, s otherwise unchanged: CFGR keeps the
command in flight (R366, R367). -/
def stuck (i : Instr) (k : Nat) (s : State) (t : State) : Prop :=
  ∃ b, b.cmd = i ∧ b.k = k ∧ t = faulted i .hostGpioNotReady { s with cfgr := .busy b }

/-- Command i leaves w in r, unless R363(b) forbids that write: then it stops there, after k micro-steps. -/
def LeavesIn (i : Instr) (k : Nat) (s : State) (r : Reg) (w : Word) : Prop :=
  (¬ forbidden s r w → exec i s = .next (stored s r w))
    ∧ (forbidden s r w → ∃ t, exec i s = .next t ∧ stuck i k s t)

/-! ## Words -/

/-- BitWrite of x to every bit of a mask at once, in a register r that holds old (R10). -/
def setBits (c : Cfg) (r : Reg) (mask : Word) (x : Bool) (old : Word) : Word :=
  c.storeWord r old (if x then old ||| mask else old &&& ~~~mask)

/-- The word with bit b set. -/
def bitMask (b : Nat) : Word := 1#32 <<< b

/-- x at bit b. -/
def bitAt (b : Nat) (x : Bool) : Word := if x then 1#32 <<< b else 0

/-- The OR of a word for each bank of m. -/
def orBanks (m : BitVec 4) (f : Bank → Word) : Word :=
  (if m.getLsbD 0 then f 0 else 0) ||| (if m.getLsbD 1 then f 1 else 0)
    ||| (if m.getLsbD 2 then f 2 else 0) ||| (if m.getLsbD 3 then f 3 else 0)

/-- The words of a per-bank family with those of the banks of m replaced. -/
def mapBanks (m : BitVec 4) (f : Bank → Word → Word) (p : PerBank Word) : PerBank Word where
  b0 := if m.getLsbD 0 then f 0 p.b0 else p.b0
  b1 := if m.getLsbD 1 then f 1 p.b1 else p.b1
  b2 := if m.getLsbD 2 then f 2 p.b2 else p.b2
  b3 := if m.getLsbD 3 then f 3 p.b3 else p.b3

/-- The bank mask m = H[11:8] of a BANKS field (R103). -/
def maskOf (banks : Byte) : BitVec 4 := banks.extractLsb' 0 4

/-- A BANKS field with a bit outside B0..B3 (R103). -/
def strayBanks (banks : Byte) : Prop := banks.extractLsb' 4 4 ≠ 0

/-! ## Checks -/

/-- The first value above its field's maximum, with its field's name (R160 to R162, R301). -/
def firstAbove : List (FieldName × Field × Word) → Option (FieldName × Word)
  | [] => none
  | (name, f, x) :: rest => if f.max < x.toNat then some (name, x) else firstAbove rest

/-- The values of a read triple with their fields. -/
def readTriple (c : Cfg) (setup strobe hold : Word) : List (FieldName × Field × Word) :=
  [(.rdSetup, c.layout.rd.setup, setup), (.rdStrobe, c.layout.rd.strobe, strobe),
    (.rdHold, c.layout.rd.hold, hold)]

/-- The values of a write triple with their fields. -/
def writeTriple (c : Cfg) (setup strobe hold : Word) : List (FieldName × Field × Word) :=
  [(.wrSetup, c.layout.wr.setup, setup), (.wrStrobe, c.layout.wr.strobe, strobe),
    (.wrHold, c.layout.wr.hold, hold)]

/-- The values of an address pair with their fields. -/
def addrPair (c : Cfg) (setup hold : Word) : List (FieldName × Field × Word) :=
  [(.addrSetup, c.layout.addr.setup, setup), (.addrHold, c.layout.addr.hold, hold)]

/-- A read triple packed, merged into a word that holds old (R160, R164). -/
def mergedRead (c : Cfg) (setup strobe hold old : Word) : Word :=
  (old &&& ~~~(c.layout.rd.setup.mask ||| c.layout.rd.strobe.mask ||| c.layout.rd.hold.mask))
    ||| (c.layout.rd.setup.ins setup ||| c.layout.rd.strobe.ins strobe ||| c.layout.rd.hold.ins hold)

/-- A write triple packed, merged into a word that holds old (R161, R164). -/
def mergedWrite (c : Cfg) (setup strobe hold old : Word) : Word :=
  (old &&& ~~~(c.layout.wr.setup.mask ||| c.layout.wr.strobe.mask ||| c.layout.wr.hold.mask))
    ||| (c.layout.wr.setup.ins setup ||| c.layout.wr.strobe.ins strobe ||| c.layout.wr.hold.ins hold)

/-- An address pair packed, merged into a word that holds old (R162, R164). -/
def mergedAddr (c : Cfg) (setup hold old : Word) : Word :=
  (old &&& ~~~(c.layout.addr.setup.mask ||| c.layout.addr.hold.mask))
    ||| (c.layout.addr.setup.ins setup ||| c.layout.addr.hold.ins hold)

/-- One TFT value: its name, its field, the value, and whether it is stored less one, so that 0 is illegal and
the field's maximum + 1 legal (R301). -/
structure TftValue where
  name : FieldName
  field : Field
  value : Word
  less1 : Bool

/-- Whether a TFT value is out of range (R301). -/
def TftValue.bad (v : TftValue) : Prop :=
  if v.less1 then v.value.toNat = 0 ∨ v.field.max + 1 < v.value.toNat else v.field.max < v.value.toNat

/-- e is the cause that the first bad value of a list raises (R301). -/
def FirstBad (vs : List TftValue) (e : FaultCause) : Prop :=
  ∃ a v b, vs = a ++ v :: b ∧ (∀ u ∈ a, ¬ u.bad) ∧ v.bad ∧ e = .badTftValue v.name v.value

/-- No value of a list is out of range. -/
def AllLegal (vs : List TftValue) : Prop := ∀ v ∈ vs, ¬ v.bad

def sizeValues (c : Cfg) (w h : Word) : List TftValue :=
  [⟨.hsz, c.layout.tft.hsz, w, true⟩, ⟨.vsz, c.layout.tft.vsz, h, true⟩]

def hporchValues (c : Cfg) (front back pulse : Word) : List TftValue :=
  [⟨.hfporch, c.layout.tft.hfporch, front, false⟩, ⟨.hbporch, c.layout.tft.hbporch, back, false⟩,
    ⟨.hsync, c.layout.tft.hsync, pulse, true⟩]

def vporchValues (c : Cfg) (front back pulse : Word) : List TftValue :=
  [⟨.vfporch, c.layout.tft.vfporch, front, false⟩, ⟨.vbporch, c.layout.tft.vbporch, back, false⟩,
    ⟨.vsync, c.layout.tft.vsync, pulse, true⟩]

def dclkValues (c : Cfg) (period start setup hold : Word) : List TftValue :=
  [⟨.dclkPeriod, c.layout.tft.dclkPeriod, period, false⟩, ⟨.tftStart, c.layout.tft.tftStart, start, false⟩,
    ⟨.tftSetup, c.layout.tft.tftSetup, setup, false⟩, ⟨.tftHold, c.layout.tft.tftHold, hold, false⟩]

/-- The values of TFT_INIT after its bank index, in the order of R301. -/
def tftInitValues (c : Cfg) (r : TftRecord) : List TftValue :=
  [⟨.frameBase, c.layout.tft.frameBase, r.offset, false⟩] ++ sizeValues c r.width r.height
    ++ hporchValues c r.hFront r.hBack r.hPulse ++ vporchValues c r.vFront r.vBack r.vPulse
    ++ dclkValues c r.period r.start r.setup r.hold
    ++ [⟨.maskBlend, c.layout.tftCtrl.maskBlend, r.maskBlend.setWidth 32, false⟩]

/-! ## The TFT timing in the layout of CFG_REF -/

/-- HS, HB, HA, HF from the bits of TFTHPORCH and TFTSIZE (R331, R40, R41). -/
def hAxisRef (f : RegFile) : Axis where
  sync := (f.tftHPorch &&& 0x7F).toNat + 1
  back := ((f.tftHPorch >>> 18) &&& 0xFF).toNat
  active := (f.tftSize &&& 0x3FF).toNat + 1
  front := ((f.tftHPorch >>> 8) &&& 0xFF).toNat

/-- VS, VB, VA, VF from the bits of TFTVPORCH and TFTSIZE (R331, R40, R42). -/
def vAxisRef (f : RegFile) : Axis where
  sync := (f.tftVPorch &&& 0x7F).toNat + 1
  back := ((f.tftVPorch >>> 18) &&& 0xFF).toNat
  active := ((f.tftSize >>> 16) &&& 0x3FF).toNat + 1
  front := ((f.tftVPorch >>> 8) &&& 0xFF).toNat

/-- Htot in the layout of CFG_REF (R331). -/
def hTotRef (f : RegFile) : Nat :=
  (hAxisRef f).sync + (hAxisRef f).back + (hAxisRef f).active + (hAxisRef f).front

/-- Vtot in the layout of CFG_REF (R331). -/
def vTotRef (f : RegFile) : Nat :=
  (vAxisRef f).sync + (vAxisRef f).back + (vAxisRef f).active + (vAxisRef f).front

/-- The asserted output of a TFT line at (h, v), the engine running (R333). -/
def assertedRef (f : RegFile) (h v : Nat) : TftPin → Bool
  | .hSync => decide (h < (hAxisRef f).sync)
  | .vSync => decide (v < (vAxisRef f).sync)
  | .dataEn =>
    decide ((hAxisRef f).sync + (hAxisRef f).back ≤ h
        ∧ h < (hAxisRef f).sync + (hAxisRef f).back + (hAxisRef f).active)
      && decide ((vAxisRef f).sync + (vAxisRef f).back ≤ v
        ∧ v < (vAxisRef f).sync + (vAxisRef f).back + (vAxisRef f).active)
  | .cs => true

/-- The bit of TFTPOLARITY that belongs to a TFT pin (R44). -/
def pinBitRef : TftPin → Nat
  | .cs => 0
  | .dataEn => 2
  | .hSync => 3
  | .vSync => 4

/-! ## INIT in the layout of CFG_REF, on MODERN and on LEGACY -/

/-- The instances of a revision whose layout, write masks and codes are those of CFG_REF; every other parameter is
open. -/
def likeRef (rev : Rev) (c : Cfg) : Prop :=
  c.rev = rev ∧ c.layout = Layout.ref ∧ c.wmask = Cfg.ref.wmask ∧ c.polActiveLow = true
    ∧ c.modeCode = Cfg.ref.modeCode

/-- The values of an INIT record that R261 checks, with their fields. -/
def initValues (c : Cfg) (r : InitRecord) : List (FieldName × Field × Word) :=
  readTriple c r.rdSetup r.rdStrobe r.rdHold ++ writeTriple c r.wrSetup r.wrStrobe r.wrHold
    ++ addrPair c r.addrSetup r.addrHold

/-- CTRL as INIT commits it in CFG_REF: ITS set, the slices of the banks of m replaced (R264, R265). -/
def initCtrl (m : BitVec 4) (en : Bool) (r : InitRecord) (old : Word) : Word :=
  ((old ||| 0x40000000#32) &&& ~~~(orBanks m fun n =>
      (0x00030003#32 <<< (2 * n.val)) ||| (0x01001100#32 <<< n.val)))
    ||| orBanks m fun n =>
      ((r.mode.setWidth 32 ||| bitAt 16 r.ardyEnable ||| bitAt 17 r.ardyDisableTimeout) <<< (2 * n.val))
        ||| ((bitAt 8 en ||| bitAt 12 r.noIdle ||| bitAt 24 r.byteLane) <<< n.val)

/-- POLARITY(n) as INIT leaves it in CFG_REF (R263). -/
def initPolarity (r : InitRecord) (old : Word) : Word :=
  (old &&& ~~~(0x3F : Word)) ||| bitAt 0 r.polCS ||| bitAt 1 r.polRE ||| bitAt 2 r.polWE ||| bitAt 3 r.polALE
    ||| bitAt 4 r.polARDY ||| bitAt 5 r.polBL

/-- RDTIMING(n) as INIT leaves it in CFG_REF (R266). -/
def initRead (r : InitRecord) (old : Word) : Word :=
  (old &&& ~~~(0x70073F0F : Word)) ||| r.rdSetup ||| (r.rdStrobe <<< 8) ||| (r.rdHold <<< 16)
    ||| bitAt 28 r.halfRE ||| bitAt 29 r.prefetch ||| bitAt 30 r.pageMode

/-- WRTIMING(n) as INIT leaves it in CFG_REF (R266). -/
def initWrite (r : InitRecord) (old : Word) : Word :=
  (old &&& ~~~(0x30073F0F : Word)) ||| r.wrSetup ||| (r.wrStrobe <<< 8) ||| (r.wrHold <<< 16)
    ||| bitAt 28 r.halfWE ||| bitAt 29 r.writeBufferDisable

/-- ADDRTIMING(n) as INIT leaves it in CFG_REF (R266). -/
def initAddr (r : InitRecord) (old : Word) : Word :=
  (old &&& ~~~(0x1000070F : Word)) ||| r.addrSetup ||| (r.addrHold <<< 8) ||| bitAt 28 r.halfALE

/-- Whether a mode code of CFG_REF has ALE semantics: D16A16ALE = 1 and D8A24ALE = 2 (R26). -/
def modeIsALE (mode : BitVec 2) : Bool := mode == 1 || mode == 2

/-- ROUTE after step 7 of INIT (R268). -/
def initRoute7 (r : InitRecord) (old : Word) : Word := (old &&& ~~~(0x20 : Word)) ||| bitAt 5 (modeIsALE r.mode)

/-- ROUTE after the merge of the low-address pattern in step 8 of INIT (R269). -/
def initRouteLow (r : InitRecord) (old : Word) : Word := (initRoute7 r old &&& ~~~(0x00030000 : Word)) ||| r.aLow

/-- ROUTE after steps 7 and 8 of INIT in CFG_REF, where CTRL has been committed as ctrl (R268, R269). -/
def initRoute8 (r : InitRecord) (ctrl old : Word) : Word :=
  let rB := (initRouteLow r old &&& ~~~(0x007C0000 : Word)) ||| r.aHigh
  (rB &&& ~~~(0x80 : Word)) ||| bitAt 7 (ctrl &&& 0x0F000000 != 0)

/-- The registers after steps 1 to 7 of INIT on MODERN (R262 to R268). -/
def initRegs7 (m : BitVec 4) (en : Bool) (r : InitRecord) (f : RegFile) : RegFile :=
  { f with
    polarity := mapBanks m (fun _ => initPolarity r) f.polarity
    ctrl := initCtrl m en r f.ctrl
    rdTiming := mapBanks m (fun _ => initRead r) f.rdTiming
    wrTiming := mapBanks m (fun _ => initWrite r) f.wrTiming
    addrTiming := mapBanks m (fun _ => initAddr r) f.addrTiming
    route := initRoute7 r f.route }

/-- The registers after steps 1 to 8 of INIT on MODERN, `location` telling whether the instance has LOCATION
(R262 to R269). -/
def initRegs8 (location : Bool) (m : BitVec 4) (en : Bool) (r : InitRecord) (f : RegFile) : RegFile :=
  { initRegs7 m en r f with
    routeLoc := if location then (f.routeLoc &&& ~~~(7 : Word)) ||| r.loc else f.routeLoc
    route := initRoute8 r (initCtrl m en r f.ctrl) f.route }

/-- The registers after INIT on MODERN: EBIPEN and the chip-selects of cs are set (R270, R271). -/
def initRegs (location : Bool) (m : BitVec 4) (cs : BitVec 4) (en : Bool) (r : InitRecord) (f : RegFile) : RegFile :=
  { initRegs8 location m en r f with
    route := initRoute8 r (initCtrl m en r f.ctrl) f.route ||| 1#32 ||| (cs.setWidth 32 <<< 1) }

/-- The registers after steps 1 to 8 of INIT on LEGACY: one global slice, the global registers, LOCATION in ROUTE,
and none of the MODERN fields (R263 to R269). -/
def initRegsLegacy8 (m : BitVec 4) (en : Bool) (r : InitRecord) (f : RegFile) : RegFile :=
  let enables : Word := m.setWidth 32 <<< 8
  { f with
    polarity := { f.polarity with
      b0 := (f.polarity.b0 &&& ~~~(0x1F : Word)) ||| bitAt 0 r.polCS ||| bitAt 1 r.polRE ||| bitAt 2 r.polWE
        ||| bitAt 3 r.polALE ||| bitAt 4 r.polARDY }
    ctrl := (((f.ctrl &&& ~~~(0x00030003 : Word)) ||| r.mode.setWidth 32 ||| bitAt 16 r.ardyEnable
        ||| bitAt 17 r.ardyDisableTimeout) &&& ~~~enables) ||| (if en then enables else 0)
    rdTiming := { f.rdTiming with
      b0 := (f.rdTiming.b0 &&& ~~~(0x00073F0F : Word)) ||| r.rdSetup ||| (r.rdStrobe <<< 8) ||| (r.rdHold <<< 16) }
    wrTiming := { f.wrTiming with
      b0 := (f.wrTiming.b0 &&& ~~~(0x00073F0F : Word)) ||| r.wrSetup ||| (r.wrStrobe <<< 8) ||| (r.wrHold <<< 16) }
    addrTiming := { f.addrTiming with
      b0 := (f.addrTiming.b0 &&& ~~~(0x0000070F : Word)) ||| r.addrSetup ||| (r.addrHold <<< 8) }
    route := (initRoute7 r f.route &&& ~~~(0x70000000 : Word)) ||| (r.loc <<< 28) }

/-- The registers after INIT on LEGACY: EBIPEN and the chip-selects of cs are set (R270, R271). -/
def initRegsLegacy (m : BitVec 4) (cs : BitVec 4) (en : Bool) (r : InitRecord) (f : RegFile) : RegFile :=
  { initRegsLegacy8 m en r f with
    route := (initRegsLegacy8 m en r f).route ||| 1#32 ||| (cs.setWidth 32 <<< 1) }

/-- The number of members of a 4-bit mask. -/
def count (m : BitVec 4) : Nat := (m.getLsbD 0).toNat + (m.getLsbD 1).toNat + (m.getLsbD 2).toNat + (m.getLsbD 3).toNat

/-! ## Whole-machine properties -/

/-- A command in flight has at most 87 micro-steps, performed and left together (R412). -/
def Bounded (s : State) : Prop := ∀ b, s.cfgr = .busy b → b.k + b.todo.length ≤ 87

/-- What a fault record can say (R51, R366): no response is held; an interrupt-context fault has opcode 0 and is
IsrContract or HostGpioNotReady; HostGpioNotReady of MAIN names the command in flight; every other fault of MAIN
stands where no command is in flight. -/
def FaultFits (s : State) : Prop :=
  ∀ f, s.fault = some f →
    s.resp = none
      ∧ match f.agent with
        | .isr => f.opcode = 0 ∧ (f.cause = .isrContract ∨ f.cause = .hostGpioNotReady)
        | .main =>
          f.cause ≠ .isrContract
            ∧ ((∃ b, s.cfgr = .busy b ∧ f.opcode = b.cmd.code ∧ f.cause = .hostGpioNotReady)
              ∨ (s.cfgr = .idle ∧ f.cause ≠ .hostGpioNotReady))

/-- The header field of an opcode that a frame must leave 0 (R103 to R105, R112). -/
def unusedFieldSet (o : Opcode) (h : Word) : Prop :=
  (o.row.uses &&& usesBanks = 0 ∧ headerBanks h ≠ 0) ∨ (o.row.uses &&& usesSel = 0 ∧ headerSel h ≠ 0)
    ∨ (o.row.uses &&& usesV = 0 ∧ headerV h = true) ∨ (o.row.uses &&& usesF1 = 0 ∧ headerF1 h = true)
    ∨ (o.row.uses &&& usesF2 = 0 ∧ headerF2 h = true) ∨ (o.row.uses &&& usesF3 = 0 ∧ headerF3 h = true)

/-- The bytes that R111 assigns to no command (R112). -/
def unassigned (b : Byte) : Prop :=
  b = 0x00 ∨ (0x05 ≤ b ∧ b ≤ 0x0D) ∨ (0x13 ≤ b ∧ b ≤ 0x1F) ∨ (0x22 ≤ b ∧ b ≤ 0x2F) ∨ (0x39 ≤ b ∧ b ≤ 0x3F)
    ∨ (0x48 ≤ b ∧ b ≤ 0x4F) ∨ (0x52 ≤ b ∧ b ≤ 0x5F) ∨ (0x61 ≤ b ∧ b ≤ 0x6F) ∨ 0x77 ≤ b

/-- The feature gate of an opcode (R111 "present when"). -/
def gate (c : Cfg) : Opcode → Bool
  | .setBankPolarity | .setBankReadTiming | .setBankWriteTiming | .setBankAddrTiming | .configBankReadFlags
  | .configBankWriteFlags | .configBankAddrFlags => c.perBankTiming
  | .enableByteLane | .enableByteLanePin => c.hasByteLane
  | .enableNand => c.hasNand
  | .setLowAddrPins | .setHighAddrPins => c.hasAddrPinCtl
  | .setRoutingLocation => c.routeHasLocation
  | .enableTftPins | .tftInit | .tftSetFrameBase | .tftSetSize | .tftSetHPorch | .tftSetVPorch | .tftSetTiming
  | .tftSetMaskBlend => c.hasTft
  | _ => true

/-- The commands of 42_polarity.md and 43_bank_config.md that take a bank mask, with it (R184, R209). -/
def bankMask : Instr → Option Byte
  | .setBankPolarity banks _ _ | .enableBank banks _ | .setBankReadTiming banks _ _ _
  | .setBankWriteTiming banks _ _ _ | .setBankAddrTiming banks _ _ | .configBankReadFlags banks _ _ _
  | .configBankWriteFlags banks _ _ | .configBankAddrFlags banks _ | .enableByteLane banks _
  | .enableNand banks _ => some banks
  | _ => none

/-- The slice of bank n in CTRL, in CFG_REF (R31). -/
def sliceRef (n : Bank) : Word := (0x00030003#32 <<< (2 * n.val)) ||| (0x01001100#32 <<< n.val)

/-- The commands that can set or clear ROUTE.NANDPEN, bit 12 in CFG_REF: raw access, DISABLE, and a routing
pattern that carries the bit (R238). -/
def namesNandPen : Instr → Bool
  | .regWrite _ _ | .regBitwrite _ _ _ | .regMerge _ _ _ | .disable => true
  | .setLowAddrPins p | .setHighAddrPins p => p.getLsbD 12
  | .init _ _ _ r => r.aLow.getLsbD 12 || r.aHigh.getLsbD 12
  | _ => false

end Sys2Proof.Claims

section

open Sys2Proof Sys2Proof.Machine Sys2Proof.Claims

/-! ## Encoding -/

/-- Decoding the frame of any command of the instance gives the command back, with every operand. -/
def Obligations.DecodeEncodeRoundTrip : Prop :=
  ∀ (c : Cfg) (i : Instr), i.wellFormed c = true → decode c (encode i) = .command i

/-- Every legal frame is the encoding of the command it decodes to, and that command is one of the instance. -/
def Obligations.LegalFramesAreEncodings : Prop :=
  ∀ (c : Cfg) (frame : List Word) (i : Instr),
    decode c frame = .command i → frame = encode i ∧ i.wellFormed c = true

/-- R113. Each header with the argument words of its opcode has exactly one verdict, a command or
IllegalCommand of that header; and no two frames decode to one command. -/
def Obligations.DecodingIsTotalAndInjective : Prop :=
  (∀ (c : Cfg) (h : Word) (args : List Word),
      (∀ o, Opcode.ofCode (headerOp h) = some o → args.length = o.row.nargs) →
      (∃ i, decode c (h :: args) = .command i) ∨ decode c (h :: args) = .illegal h)
    ∧ ∀ (c : Cfg) (f g : List Word) (i : Instr), decode c f = .command i → decode c g = .command i → f = g

/-- R112. With the argument words of its opcode, a frame is illegal exactly when its OP is unassigned, RSV is
not 0, a field its opcode does not use is not 0, a flags word has a bit outside its fields, or its feature gate
is false. That an unassigned OP, for which R111 has no number of argument words, is illegal whatever follows it is the
model's choice (notes/assumptions/11.md). -/
def Obligations.IllegalFramesAreThoseOfR112 : Prop :=
  ∀ (c : Cfg) (h : Word) (args : List Word),
    (unassigned (headerOp h) → decode c (h :: args) = .illegal h)
    ∧ (¬ unassigned (headerOp h) →
        ∃ o, o.row.code = headerOp h ∧
          (args.length = o.row.nargs →
            (decode c (h :: args) = .illegal h ↔
              (h.extractLsb' 24 8 ≠ 0 ∨ unusedFieldSet o h ∨ gate c o = false
                ∨ (o = .init ∧ args.getD 0 0 &&& ~~~(0x003F0FFF : Word) ≠ 0)
                ∨ (o = .tftInit ∧ args.getD 13 0 &&& ~~~(0x003F3F1F : Word) ≠ 0)))))

/-- A word of each of several families, written out from R102 and R111, decodes to its command in CFG_REF. -/
def Obligations.WrittenWordsDecode : Prop :=
  decode Cfg.ref [0x00000001, 0x008] = .command (.regRead 0x008)
  ∧ decode Cfg.ref [0x00100003, 0x014, 2] = .command (.regBitwrite 0x014 2 true)
  ∧ decode Cfg.ref [0x0010000E, 0x80000000, 7] = .command (.windowAccess 0x80000000 true 7)
  ∧ decode Cfg.ref [0x00000010, 2, 4, 1] = .command (.setReadTiming 2 4 1)
  ∧ decode Cfg.ref [0x00130521] = .command (.setBankPolarity 0x05 3 true)
  ∧ decode Cfg.ref [0x00A00134] = .command (.configBankReadFlags 0x01 true false true)
  ∧ decode Cfg.ref [0x00190040] = .command (.enableChipSelect 0x9 true)
  ∧ decode Cfg.ref [0x00000860] = .command (.bankBase 0x08)
  ∧ decode Cfg.ref [0x00000072, 320, 240] = .command (.tftSetSize 320 240)
  ∧ decode Cfg.legacyRef [0x00130521] = .illegal 0x00130521

/-! ## The machine -/

/-- Where the frame next on the agenda decodes to a command, the step is the meaning of that command, at the
state with that frame taken off the agenda. The agenda, and this event that runs a command whole, are the model's
(notes/assumptions/3.md, 5.md). -/
def Obligations.StepRunsTheDecodedCommand : Prop :=
  ∀ (s : State) (frame : List Word) (rest : List Event) (i : Instr),
    s.fault = none → s.agenda = .command frame :: rest → decode s.cfg frame = .command i →
    step s = exec i { s with agenda := rest }

/-- R112, R51. Where MAIN issues an illegal frame, the step raises IllegalCommand with OP as the opcode, and
nothing else changes. -/
def Obligations.IllegalFramesRaiseIllegalCommand : Prop :=
  ∀ (s : State) (frame : List Word) (rest : List Event) (h : Word),
    s.idleOk → (s.agenda = .command frame :: rest ∨ s.agenda = .issue frame :: rest) →
    decode s.cfg frame = .illegal h →
    step s = .next
      { s with
        agenda := rest
        fault := some { cause := .illegalCommand h, opcode := headerOp h, agent := .main }
        resp := none }

/-- A command run in one step is its issue followed by steps of the configurator alone (R49): the same state is
reached. The one-step form is the model's (notes/assumptions/5.md). -/
def Obligations.CommandIsIssueThenMicroSteps : Prop :=
  ∀ (s t : State) (frame : List Word) (rest : List Event) (i : Instr),
    s.idleOk → decode s.cfg frame = .command i → i ≠ .barrier →
    (∀ addr write data, i ≠ .windowAccess addr write data) →
    step { s with agenda := .command frame :: rest } = .next t →
    ∃ n, runs (n + 1) { s with agenda := .issue frame :: (List.replicate n .micro ++ rest) } = some t

/-- R49, R366, R368, R390. While FAULT is set only the reset event moves the machine, and no command has a next state.
That every other event, the host's and the model's own included, answers the fault halted is the model's
(notes/assumptions/6.md). -/
def Obligations.OnlyResetLeavesAFault : Prop :=
  (∀ (s : State) (f : FaultRecord) (e : Event) (rest : List Event),
      s.fault = some f → s.agenda = e :: rest → e ≠ .reset → step s = .fault .halted)
    ∧ (∀ (s : State) (f : FaultRecord) (i : Instr), s.fault = some f → exec i s = .fault .halted)
    ∧ (∀ (s : State) (rest : List Event), s.agenda = .reset :: rest → ∃ t, step s = .next t ∧ t.fault = none)

/-- R390. The reset event, in every state, puts every register at RESET_VALUE and the non-register state at the
values of R56; the host's inputs and the model's own fields stay (notes/assumptions/2.md, 12.md). -/
def Obligations.ResetEventRestoresReset : Prop :=
  ∀ (s : State) (rest : List Event), s.agenda = .reset :: rest →
    step s = .next
      { s with
        regs := s.cfg.resetValue
        cfgr := .idle
        unfenced := false
        resp := none
        tft := { run := false, h := 0, v := 0, dirty := false }
        fault := none
        agenda := rest }

/-- R55, R56. The state after reset of CFG_REF: every register 0, CFGR idle, nothing unfenced, no response, the
TFT engine stopped, no fault. The values of clkOn and gpioReady there are the model's (notes/assumptions/2.md)
and are not stated. -/
def Obligations.ResetStateIsR391 : Prop :=
  State.reset.cfg = Cfg.ref ∧ (∀ r, State.reset.regs.get r = 0) ∧ State.reset.cfgr = .idle
    ∧ State.reset.unfenced = false ∧ State.reset.resp = none
    ∧ State.reset.tft = { run := false, h := 0, v := 0, dirty := false } ∧ State.reset.fault = none

/-- R3, R6. No step changes the parameters of the instance. -/
def Obligations.StepKeepsTheParameters : Prop :=
  ∀ s t : State, step s = .next t → t.cfg = s.cfg

/-- R363(b). No step but the reset event makes ROUTE.EBIPEN 1 where it was 0 while gpioReady is false. -/
def Obligations.ControllerPinsNeedGpioReady : Prop :=
  ∀ s t : State, step s = .next t → s.agenda.head? ≠ some .reset →
    s.cfg.layout.route.ebiPen.test s.regs.route = false →
    t.cfg.layout.route.ebiPen.test t.regs.route = true → s.gpioReady = true

/-- R80. A step that changes a register, and is not the reset event, leaves `unfenced` set. -/
def Obligations.RegisterWritesSetUnfenced : Prop :=
  ∀ s t : State, step s = .next t → s.agenda.head? ≠ some .reset → t.regs ≠ s.regs → t.unfenced = true

/-- R412. Every step keeps the bound on the micro-steps of the command in flight, for every instance. -/
def Obligations.StepKeepsBounded : Prop :=
  ∀ s t : State, Bounded s → step s = .next t → Bounded t

/-- R51, R366. Every step keeps the form of the fault record. -/
def Obligations.StepKeepsFaultFits : Prop :=
  ∀ s t : State, FaultFits s → step s = .next t → FaultFits t

/-- The invariants hold after reset: the two that every step keeps, and, of the parameters that no step changes,
R23's distinct and word-aligned offsets. -/
def Obligations.InvariantsHoldAtReset : Prop :=
  Bounded State.reset ∧ FaultFits State.reset ∧ State.reset.cfg.offsetsLegal = true

/-- R366, R367. Every fault a command raises, but HostGpioNotReady, leaves everything but FAULT and resp as it was
before the command; HostGpioNotReady leaves the command in flight and EBIPEN 0. -/
def Obligations.FaultsArePrecise : Prop :=
  ∀ (i : Instr) (s t : State) (f : FaultRecord),
    exec i s = .next t → t.fault = some f →
    f.agent = .main ∧ f.opcode = i.code
      ∧ (f.cause ≠ .hostGpioNotReady → t = { s with fault := some f, resp := none })
      ∧ (f.cause = .hostGpioNotReady →
          t.resp = none ∧ (∃ b, t.cfgr = .busy b ∧ b.cmd = i)
            ∧ t.cfg.layout.route.ebiPen.test t.regs.route = false ∧ t.gpioReady = false)

/-- R363(a), R114, R48, R84(3), R406. A command of the instance issued while the clocks are off raises HostClockOff
before its own checks; the two host events do not check the clocks. The host environment's clkOn and gpioReady change
only while CFGR is IDLE, and nothing else with them. While a command is in flight no command, host event or input
change is taken; that it is then refused by name is the model's (notes/assumptions/20.md). -/
def Obligations.AdmissionClockAndInputs : Prop :=
  (∀ (i : Instr) (s : State),
      s.idleOk → s.clkOn = false → i.wellFormed s.cfg = true → i ≠ .barrier →
      (∀ addr write data, i ≠ .windowAccess addr write data) →
      exec i s = .next (faulted i .hostClockOff s))
    ∧ (∀ (s : State) (on : Bool) (rest : List Event), s.idleOk →
        (s.agenda = .setClk on :: rest → step s = .next { s with agenda := rest, clkOn := on })
          ∧ (s.agenda = .setGpio on :: rest → step s = .next { s with agenda := rest, gpioReady := on }))
    ∧ ∀ (s : State) (b : Busy), s.fault = none → s.cfgr = .busy b →
        (∀ i, exec i s = .refused .notEnabled)
          ∧ (∀ (frame : List Word) (rest : List Event), decode s.cfg frame ≠ .notFrame →
              (s.agenda = .command frame :: rest ∨ s.agenda = .issue frame :: rest) →
              step s = .refused .notEnabled)
          ∧ ∀ (on : Bool) (rest : List Event),
              (s.agenda = .setClk on :: rest ∨ s.agenda = .setGpio on :: rest) → step s = .refused .notEnabled

/-- R362, R112. The frame of a command whose feature the instance lacks is illegal. That exec, given such a command
directly, raises IllegalCommand of its header before the clock check (R114, R365) is the model's choice, since no
frame decodes to one (notes/assumptions/19.md). -/
def Obligations.AbsentCommandsAreIllegal : Prop :=
  ∀ (i : Instr) (s : State), s.idleOk → i.wellFormed s.cfg = false →
    exec i s = .next (faulted i (.illegalCommand i.header) s)
      ∧ decode s.cfg (encode i) = .illegal i.header

/-! ## Raw register access -/

/-- R23, R71, R140. In every instance whose offsets are legal, that is word-aligned and distinct, an offset names a
register exactly when it is the offset of a register present in the instance; and the offsets of R23 are legal in every
instance. -/
def Obligations.OffsetsNameThePresentRegisters : Prop :=
  (∀ c : Cfg, c.offsetsLegal = true →
      (∀ (off : Word) (r : Reg), c.regAt off = some r ↔ c.present r = true ∧ c.layout.offset.get r = off)
        ∧ (∀ r, c.present r = true → c.layout.offset.get r &&& 3 = 0)
        ∧ ∀ r q, c.present r = true → c.present q = true →
            c.layout.offset.get r = c.layout.offset.get q → r = q)
    ∧ (∀ c : Cfg, c.layout.offset = offsetsRef → c.offsetsLegal = true)
    ∧ ∀ r, offsetsRef.get r &&& 3 = 0

/-- R141. REG_READ returns the word of the register the offset names and changes nothing; an offset that names
none raises BadRegister. -/
def Obligations.RegReadReturnsTheRegister : Prop :=
  ∀ (off : Word) (s : State), s.ready →
    (∀ r, s.cfg.regAt off = some r → exec (.regRead off) s = .next { s with resp := some (s.regs.get r) })
      ∧ (s.cfg.regAt off = none → exec (.regRead off) s = .next (faulted (.regRead off) (.badRegister off) s))

/-- R142. REG_WRITE stores the bits of WMASK, subject to R363(b); an offset that names no register raises
BadRegister. -/
def Obligations.RegWriteStoresTheWord : Prop :=
  ∀ (off val : Word) (s : State), s.ready →
    (∀ r, s.cfg.regAt off = some r →
        LeavesIn (.regWrite off val) 0 s r
          ((val &&& s.cfg.wmask.get r) ||| (s.regs.get r &&& ~~~(s.cfg.wmask.get r))))
      ∧ (s.cfg.regAt off = none →
          exec (.regWrite off val) s = .next (faulted (.regWrite off val) (.badRegister off) s))

/-- R143. REG_BITWRITE sets the one bit to x, if WMASK has it, subject to R363(b); BadRegister, then
BadBitIndex for a bit above 31. -/
def Obligations.RegBitwriteSetsOneBit : Prop :=
  ∀ (off bit : Word) (x : Bool) (s : State), s.ready →
    (∀ r, s.cfg.regAt off = some r → bit.toNat ≤ 31 →
        LeavesIn (.regBitwrite off bit x) 0 s r (setBits s.cfg r (bitMask bit.toNat) x (s.regs.get r)))
      ∧ (∀ r, s.cfg.regAt off = some r → 31 < bit.toNat →
          exec (.regBitwrite off bit x) s = .next (faulted (.regBitwrite off bit x) (.badBitIndex bit) s))
      ∧ (s.cfg.regAt off = none →
          exec (.regBitwrite off bit x) s = .next (faulted (.regBitwrite off bit x) (.badRegister off) s))

/-- R144. REG_MERGE clears the mask, ORs the bits as they are, and writes back, in two micro-steps. -/
def Obligations.RegMergeClearsThenSets : Prop :=
  ∀ (off mask bits : Word) (s : State), s.ready →
    (∀ r, s.cfg.regAt off = some r →
        LeavesIn (.regMerge off mask bits) 1 s r
          (s.cfg.storeWord r (s.regs.get r) ((s.regs.get r &&& ~~~mask) ||| bits)))
      ∧ (s.cfg.regAt off = none →
          exec (.regMerge off mask bits) s = .next (faulted (.regMerge off mask bits) (.badRegister off) s))

/-! ## Timing -/

/-- R163. In CFG_REF's layout every in-bounds triple or pair round-trips through its encoder and decoder, every
other one is rejected, and encoding a decoded word gives back its timing fields. -/
def Obligations.TimingEncodersRoundTrip : Prop :=
  ∀ c : Cfg, c.layout = Layout.ref →
    (∀ s st h : Word, s.toNat ≤ 15 → st.toNat ≤ 63 → h.toNat ≤ 7 →
        (∃ w, encRead c s st h = .ok w ∧ decRead c w = (s, st, h))
          ∧ ∃ w, encWrite c s st h = .ok w ∧ decWrite c w = (s, st, h))
      ∧ (∀ s h : Word, s.toNat ≤ 15 → h.toNat ≤ 7 → ∃ w, encAddr c s h = .ok w ∧ decAddr c w = (s, h))
      ∧ (∀ s st h : Word, (15 < s.toNat ∨ 63 < st.toNat ∨ 7 < h.toNat) →
          (∃ e, encRead c s st h = .error e) ∧ ∃ e, encWrite c s st h = .error e)
      ∧ (∀ s h : Word, (15 < s.toNat ∨ 7 < h.toNat) → ∃ e, encAddr c s h = .error e)
      ∧ ∀ w : Word,
          encRead c (decRead c w).1 (decRead c w).2.1 (decRead c w).2.2 = .ok (w &&& 0x00073F0F)
            ∧ encWrite c (decWrite c w).1 (decWrite c w).2.1 (decWrite c w).2.2 = .ok (w &&& 0x00073F0F)
            ∧ encAddr c (decAddr c w).1 (decAddr c w).2 = .ok (w &&& 0x0000070F)

/-- R165, R166, R167 with R164. The global timing commands merge the packed counts into the index-0 register,
keeping every bit outside the timing fields; the first count above its field's maximum raises BadTiming. -/
def Obligations.GlobalTimingCommandsMergeTheirFields : Prop :=
  ∀ (setup strobe hold : Word) (s : State), s.ready →
    (firstAbove (readTriple s.cfg setup strobe hold) = none →
        exec (.setReadTiming setup strobe hold) s
          = .next (stored s (.rdTiming 0) (s.cfg.storeWord (.rdTiming 0) s.regs.rdTiming.b0
              (mergedRead s.cfg setup strobe hold s.regs.rdTiming.b0))))
    ∧ (∀ f x, firstAbove (readTriple s.cfg setup strobe hold) = some (f, x) →
        exec (.setReadTiming setup strobe hold) s
          = .next (faulted (.setReadTiming setup strobe hold) (.badTiming f x) s))
    ∧ (firstAbove (writeTriple s.cfg setup strobe hold) = none →
        exec (.setWriteTiming setup strobe hold) s
          = .next (stored s (.wrTiming 0) (s.cfg.storeWord (.wrTiming 0) s.regs.wrTiming.b0
              (mergedWrite s.cfg setup strobe hold s.regs.wrTiming.b0))))
    ∧ (∀ f x, firstAbove (writeTriple s.cfg setup strobe hold) = some (f, x) →
        exec (.setWriteTiming setup strobe hold) s
          = .next (faulted (.setWriteTiming setup strobe hold) (.badTiming f x) s))
    ∧ (firstAbove (addrPair s.cfg setup hold) = none →
        exec (.setAddrTiming setup hold) s
          = .next (stored s (.addrTiming 0) (s.cfg.storeWord (.addrTiming 0) s.regs.addrTiming.b0
              (mergedAddr s.cfg setup hold s.regs.addrTiming.b0))))
    ∧ (∀ f x, firstAbove (addrPair s.cfg setup hold) = some (f, x) →
        exec (.setAddrTiming setup hold) s
          = .next (faulted (.setAddrTiming setup hold) (.badTiming f x) s))

/-! ## Polarity -/

/-- R180, R181, R28. With the codes and layout of CFG_REF: the line each code names, its register and its bit,
and which codes raise BadLine. -/
def Obligations.PolarityMatrix : Prop :=
  ∀ (c : Cfg) (n : Bank), c.lineCode = lineCodesRef → c.layout = Layout.ref →
    (∀ l : BitVec 4,
        10 < l.toNat ∨ (l = 5 ∧ c.hasByteLane = false) ∨ (6 ≤ l.toNat ∧ c.hasTft = false) →
        checkLine c l = .error (.badLine l))
    ∧ (checkLine c 0 = .ok .ardy ∧ polReg .ardy n = .polarity n ∧ polBit c .ardy = 4)
    ∧ (checkLine c 1 = .ok .ale ∧ polReg .ale n = .polarity n ∧ polBit c .ale = 3)
    ∧ (checkLine c 2 = .ok .we ∧ polReg .we n = .polarity n ∧ polBit c .we = 2)
    ∧ (checkLine c 3 = .ok .re ∧ polReg .re n = .polarity n ∧ polBit c .re = 1)
    ∧ (checkLine c 4 = .ok .cs ∧ polReg .cs n = .polarity n ∧ polBit c .cs = 0)
    ∧ (c.hasByteLane = true → checkLine c 5 = .ok .bl ∧ polReg .bl n = .polarity n ∧ polBit c .bl = 5)
    ∧ (c.hasTft = true →
        (checkLine c 6 = .ok .tftVSync ∧ polReg .tftVSync n = .tftPolarity ∧ polBit c .tftVSync = 4)
          ∧ (checkLine c 7 = .ok .tftHSync ∧ polReg .tftHSync n = .tftPolarity ∧ polBit c .tftHSync = 3)
          ∧ (checkLine c 8 = .ok .tftDataEn ∧ polReg .tftDataEn n = .tftPolarity ∧ polBit c .tftDataEn = 2)
          ∧ (checkLine c 9 = .ok .tftDClk ∧ polReg .tftDClk n = .tftPolarity ∧ polBit c .tftDClk = 1)
          ∧ (checkLine c 10 = .ok .tftCS ∧ polReg .tftCS n = .tftPolarity ∧ polBit c .tftCS = 0))

/-- R182. SET_GLOBAL_POLARITY writes POL_BIT(p) to the line's bit, in POLARITY(0) for a bus line and in
TFTPOLARITY for a TFT line; an unknown line raises BadLine. -/
def Obligations.SetGlobalPolarityWritesOneBit : Prop :=
  ∀ (line : BitVec 4) (low : Bool) (s : State), s.ready →
    (∀ l, checkLine s.cfg line = .ok l →
        exec (.setGlobalPolarity line low) s
          = .next (stored s (polReg l 0)
              (setBits s.cfg (polReg l 0) (bitMask (polBit s.cfg l)) (low == s.cfg.polActiveLow)
                (s.regs.get (polReg l 0)))))
    ∧ (∀ e, checkLine s.cfg line = .error e →
        exec (.setGlobalPolarity line low) s = .next (faulted (.setGlobalPolarity line low) e s))

/-- R183. SET_BANK_POLARITY writes the line's bit of POLARITY(n) for each bank of the mask, or the one bit of
TFTPOLARITY where the line is a TFT line and the mask is not empty; BadBankMask, then BadLine. -/
def Obligations.SetBankPolarityWritesEachNamedBank : Prop :=
  ∀ (banks : Byte) (line : BitVec 4) (low : Bool) (s : State), s.ready → s.cfg.perBankTiming = true →
    (strayBanks banks →
        exec (.setBankPolarity banks line low) s
          = .next (faulted (.setBankPolarity banks line low) (.badBankMask banks) s))
    ∧ (¬ strayBanks banks → ∀ e, checkLine s.cfg line = .error e →
        exec (.setBankPolarity banks line low) s = .next (faulted (.setBankPolarity banks line low) e s))
    ∧ (¬ strayBanks banks → ∀ l, checkLine s.cfg line = .ok l →
        (polReg l 0 = .polarity 0 →
          exec (.setBankPolarity banks line low) s
            = .next (rewritten s
                { s.regs with
                  polarity := mapBanks (maskOf banks)
                    (fun n w => setBits s.cfg (.polarity n) (bitMask (polBit s.cfg l))
                      (low == s.cfg.polActiveLow) w) s.regs.polarity }
                (maskOf banks != 0)))
        ∧ (polReg l 0 = .tftPolarity →
          exec (.setBankPolarity banks line low) s
            = .next (if maskOf banks = 0 then { s with resp := none }
                else stored s .tftPolarity
                  (setBits s.cfg .tftPolarity (bitMask (polBit s.cfg l)) (low == s.cfg.polActiveLow)
                    s.regs.tftPolarity))))

/-! ## Banks -/

/-- R200, R207. ENABLE_BANK and ENABLE_BYTE_LANE set BANKEN(n) or BL(n) of CTRL to en for each bank of the mask,
and no other bit; a stray BANKS bit raises BadBankMask. -/
def Obligations.BankEnablesSetTheNamedBits : Prop :=
  ∀ (banks : Byte) (en : Bool) (s : State), s.ready →
    (¬ strayBanks banks →
        exec (.enableBank banks en) s
          = .next (rewritten s
              { s.regs with
                ctrl := setBits s.cfg .ctrl
                  (orBanks (maskOf banks) fun n => bitMask (s.cfg.layout.ctrl.bankEn.get n).lo) en s.regs.ctrl }
              (maskOf banks != 0)))
    ∧ (strayBanks banks →
        exec (.enableBank banks en) s = .next (faulted (.enableBank banks en) (.badBankMask banks) s))
    ∧ (s.cfg.hasByteLane = true → ¬ strayBanks banks →
        exec (.enableByteLane banks en) s
          = .next (rewritten s
              { s.regs with
                ctrl := setBits s.cfg .ctrl
                  (orBanks (maskOf banks) fun n => bitMask (s.cfg.layout.ctrl.bl.get n).lo) en s.regs.ctrl }
              (maskOf banks != 0)))
    ∧ (s.cfg.hasByteLane = true → strayBanks banks →
        exec (.enableByteLane banks en) s
          = .next (faulted (.enableByteLane banks en) (.badBankMask banks) s))

/-- R201, R202, R203. The per-bank timing commands merge the packed counts into the timing register of each bank
of the mask; BadBankMask, then BadTiming, even for an empty mask. -/
def Obligations.BankTimingCommandsMergeEachNamedBank : Prop :=
  ∀ (banks : Byte) (setup strobe hold : Word) (s : State), s.ready → s.cfg.perBankTiming = true →
    (strayBanks banks →
        exec (.setBankReadTiming banks setup strobe hold) s
            = .next (faulted (.setBankReadTiming banks setup strobe hold) (.badBankMask banks) s)
          ∧ exec (.setBankWriteTiming banks setup strobe hold) s
            = .next (faulted (.setBankWriteTiming banks setup strobe hold) (.badBankMask banks) s)
          ∧ exec (.setBankAddrTiming banks setup hold) s
            = .next (faulted (.setBankAddrTiming banks setup hold) (.badBankMask banks) s))
    ∧ (¬ strayBanks banks →
        (firstAbove (readTriple s.cfg setup strobe hold) = none →
          exec (.setBankReadTiming banks setup strobe hold) s
            = .next (rewritten s
                { s.regs with
                  rdTiming := mapBanks (maskOf banks)
                    (fun n w => s.cfg.storeWord (.rdTiming n) w (mergedRead s.cfg setup strobe hold w))
                    s.regs.rdTiming }
                (maskOf banks != 0)))
        ∧ (∀ f x, firstAbove (readTriple s.cfg setup strobe hold) = some (f, x) →
          exec (.setBankReadTiming banks setup strobe hold) s
            = .next (faulted (.setBankReadTiming banks setup strobe hold) (.badTiming f x) s))
        ∧ (firstAbove (writeTriple s.cfg setup strobe hold) = none →
          exec (.setBankWriteTiming banks setup strobe hold) s
            = .next (rewritten s
                { s.regs with
                  wrTiming := mapBanks (maskOf banks)
                    (fun n w => s.cfg.storeWord (.wrTiming n) w (mergedWrite s.cfg setup strobe hold w))
                    s.regs.wrTiming }
                (maskOf banks != 0)))
        ∧ (∀ f x, firstAbove (writeTriple s.cfg setup strobe hold) = some (f, x) →
          exec (.setBankWriteTiming banks setup strobe hold) s
            = .next (faulted (.setBankWriteTiming banks setup strobe hold) (.badTiming f x) s))
        ∧ (firstAbove (addrPair s.cfg setup hold) = none →
          exec (.setBankAddrTiming banks setup hold) s
            = .next (rewritten s
                { s.regs with
                  addrTiming := mapBanks (maskOf banks)
                    (fun n w => s.cfg.storeWord (.addrTiming n) w (mergedAddr s.cfg setup hold w))
                    s.regs.addrTiming }
                (maskOf banks != 0)))
        ∧ (∀ f x, firstAbove (addrPair s.cfg setup hold) = some (f, x) →
          exec (.setBankAddrTiming banks setup hold) s
            = .next (faulted (.setBankAddrTiming banks setup hold) (.badTiming f x) s)))

/-- R204, R205, R206. The flag commands write the ancillary flags of the timing register of each bank of the
mask, bit by bit; a stray BANKS bit raises BadBankMask. -/
def Obligations.BankFlagCommandsWriteEachNamedBank : Prop :=
  ∀ (banks : Byte) (x y z : Bool) (s : State), s.ready → s.cfg.perBankTiming = true →
    (strayBanks banks →
        exec (.configBankReadFlags banks x y z) s
            = .next (faulted (.configBankReadFlags banks x y z) (.badBankMask banks) s)
          ∧ exec (.configBankWriteFlags banks x y) s
            = .next (faulted (.configBankWriteFlags banks x y) (.badBankMask banks) s)
          ∧ exec (.configBankAddrFlags banks x) s
            = .next (faulted (.configBankAddrFlags banks x) (.badBankMask banks) s))
    ∧ (¬ strayBanks banks →
        exec (.configBankReadFlags banks x y z) s
            = .next (rewritten s
                { s.regs with
                  rdTiming := mapBanks (maskOf banks)
                    (fun n w =>
                      setBits s.cfg (.rdTiming n) (bitMask s.cfg.layout.rd.halfRE.lo) z
                        (setBits s.cfg (.rdTiming n) (bitMask s.cfg.layout.rd.prefetch.lo) y
                          (setBits s.cfg (.rdTiming n) (bitMask s.cfg.layout.rd.pageMode.lo) x w)))
                    s.regs.rdTiming }
                (maskOf banks != 0))
          ∧ exec (.configBankWriteFlags banks x y) s
            = .next (rewritten s
                { s.regs with
                  wrTiming := mapBanks (maskOf banks)
                    (fun n w =>
                      setBits s.cfg (.wrTiming n) (bitMask s.cfg.layout.wr.halfWE.lo) y
                        (setBits s.cfg (.wrTiming n) (bitMask s.cfg.layout.wr.wbufDis.lo) x w))
                    s.regs.wrTiming }
                (maskOf banks != 0))
          ∧ exec (.configBankAddrFlags banks x) s
            = .next (rewritten s
                { s.regs with
                  addrTiming := mapBanks (maskOf banks)
                    (fun n w => setBits s.cfg (.addrTiming n) (bitMask s.cfg.layout.addr.halfALE.lo) x w)
                    s.regs.addrTiming }
                (maskOf banks != 0)))

/-- R208. ENABLE_NAND writes NANDCTRL whole: BANKSEL is the highest bank of the mask, 0 for the empty mask, and
EN is en. -/
def Obligations.EnableNandSelectsTheHighestBank : Prop :=
  ∀ (banks : Byte) (en : Bool) (s : State), s.ready → s.cfg.hasNand = true →
    (strayBanks banks →
        exec (.enableNand banks en) s = .next (faulted (.enableNand banks en) (.badBankMask banks) s))
    ∧ (¬ strayBanks banks → ∀ sel : Bank,
        ((maskOf banks = 0 ∧ sel = 0)
          ∨ ((maskOf banks).getLsbD sel = true ∧ ∀ n : Bank, sel < n → (maskOf banks).getLsbD n = false)) →
        exec (.enableNand banks en) s
          = .next (stored s .nandCtrl (s.cfg.storeWord .nandCtrl s.regs.nandCtrl
              (s.cfg.layout.nand.bankSel.ins (BitVec.ofNat 32 sel.val)
                ||| s.cfg.layout.nand.en.ins (if en then 1 else 0)))))

/-- R184, R209. In the layout of CFG_REF no command of 42_polarity.md or 43_bank_config.md with a bank mask
changes a register or the CTRL slice of a bank outside its mask. -/
def Obligations.BankCommandsLeaveOtherBanksAlone : Prop :=
  ∀ (i : Instr) (banks : Byte) (n : Bank) (s t : State),
    s.cfg.layout = Layout.ref → bankMask i = some banks → (maskOf banks).getLsbD n = false →
    exec i s = .next t →
    t.regs.addrTiming.get n = s.regs.addrTiming.get n ∧ t.regs.rdTiming.get n = s.regs.rdTiming.get n
      ∧ t.regs.wrTiming.get n = s.regs.wrTiming.get n ∧ t.regs.polarity.get n = s.regs.polarity.get n
      ∧ t.regs.ctrl &&& sliceRef n = s.regs.ctrl &&& sliceRef n

/-! ## Pins -/

/-- R230. ENABLE_CHIP_SELECT sets CSPEN(k) to en for each k of the mask, and no other bit of ROUTE. -/
def Obligations.EnableChipSelectSetsTheNamedBits : Prop :=
  ∀ (cs : BitVec 4) (en : Bool) (s : State), s.ready → s.cfg.layout = Layout.ref →
    exec (.enableChipSelect cs en) s
      = .next (rewritten s
          { s.regs with route := setBits s.cfg .route (cs.setWidth 32 <<< 1) en s.regs.route } (cs != 0))

/-- R231, R232. ENABLE_ADDRESS_LATCH sets ALEPEN to on. ENABLE_BYTE_LANE_PIN sets BLPEN to on where some BL(n) of
CTRL is 1, and writes nothing otherwise. -/
def Obligations.LatchAndByteLanePins : Prop :=
  ∀ (on : Bool) (s : State), s.ready → s.cfg.layout = Layout.ref →
    exec (.enableAddressLatch on) s = .next (stored s .route (setBits s.cfg .route 0x20 on s.regs.route))
    ∧ (s.cfg.hasByteLane = true →
        exec (.enableByteLanePin on) s
          = .next (if s.regs.ctrl &&& 0x0F000000 = 0 then { s with resp := none }
              else stored s .route (setBits s.cfg .route 0x80 on s.regs.route)))

/-- R233. ENABLE_CONTROLLER_PINS sets EBIPEN to on; with on = 1, EBIPEN = 0 and gpioReady false it stops in
HostGpioNotReady with nothing written. -/
def Obligations.EnableControllerPinsNeedsGpio : Prop :=
  ∀ (on : Bool) (s : State), s.ready →
    LeavesIn (.enableControllerPins on) 0 s .route
      (setBits s.cfg .route (bitMask s.cfg.layout.route.ebiPen.lo) on s.regs.route)

/-- R234, R235. The address-pin commands merge the raw pattern into ROUTE, clearing ALB or APEN first. -/
def Obligations.AddressPinPatternsMerge : Prop :=
  ∀ (pattern : Word) (s : State), s.ready → s.cfg.hasAddrPinCtl = true →
    LeavesIn (.setLowAddrPins pattern) 1 s .route
      (s.cfg.storeWord .route s.regs.route ((s.regs.route &&& ~~~s.cfg.layout.route.alb.mask) ||| pattern))
    ∧ LeavesIn (.setHighAddrPins pattern) 1 s .route
      (s.cfg.storeWord .route s.regs.route ((s.regs.route &&& ~~~s.cfg.layout.route.apen.mask) ||| pattern))

/-- R236, R36. SET_ROUTING_LOCATION replaces LOCATION, in ROUTELOC on MODERN and in ROUTE on LEGACY; an index
above 7 raises BadLocation. -/
def Obligations.SetRoutingLocationReplacesLocation : Prop :=
  ∀ (idx : Word) (s : State), s.ready → s.cfg.layout = Layout.ref → s.cfg.routeHasLocation = true →
    (7 < idx.toNat →
        exec (.setRoutingLocation idx) s = .next (faulted (.setRoutingLocation idx) (.badLocation idx) s))
    ∧ (idx.toNat ≤ 7 → s.cfg.rev = .modern →
        exec (.setRoutingLocation idx) s
          = .next (stored s .routeLoc (s.cfg.storeWord .routeLoc s.regs.routeLoc
              ((s.regs.routeLoc &&& ~~~(7 : Word)) ||| idx))))
    ∧ (idx.toNat ≤ 7 → s.cfg.rev = .legacy →
        exec (.setRoutingLocation idx) s
          = .next (stored s .route (s.cfg.storeWord .route s.regs.route
              ((s.regs.route &&& ~~~(0x70000000 : Word)) ||| (idx <<< 28)))))

/-- R237. ENABLE_TFT_PINS sets or clears the TFT pin group of ROUTE. -/
def Obligations.EnableTftPinsSetsTheGroup : Prop :=
  ∀ (on : Bool) (s : State), s.ready → s.cfg.hasTft = true → s.cfg.layout = Layout.ref →
    exec (.enableTftPins on) s = .next (stored s .route (setBits s.cfg .route 0x01000000 on s.regs.route))

/-- R238. In the layout of CFG_REF only raw access, DISABLE and a routing pattern that carries the bit change
ROUTE.NANDPEN. That a pattern may is R238's "may set any bit the pattern carries". -/
def Obligations.NandPenIsLeftAlone : Prop :=
  ∀ (i : Instr) (s t : State), s.cfg.layout = Layout.ref → namesNandPen i = false →
    exec i s = .next t → t.regs.route.getLsbD 12 = s.regs.route.getLsbD 12

/-! ## INIT and DISABLE -/

/-- R261. INIT's checks in order: BadBankMask; an empty mask returns with no register written and no further
check; then BadTiming for the first count above its field's maximum; then BadLocation. -/
def Obligations.InitChecksInOrder : Prop :=
  ∀ (banks : Byte) (cs : BitVec 4) (en : Bool) (r : InitRecord) (s : State), s.ready →
    (strayBanks banks → exec (.init banks cs en r) s = .next (faulted (.init banks cs en r) (.badBankMask banks) s))
    ∧ (banks = 0 → exec (.init banks cs en r) s = .next { s with resp := none })
    ∧ (¬ strayBanks banks → banks ≠ 0 → ∀ f x, firstAbove (initValues s.cfg r) = some (f, x) →
        exec (.init banks cs en r) s = .next (faulted (.init banks cs en r) (.badTiming f x) s))
    ∧ (¬ strayBanks banks → banks ≠ 0 → firstAbove (initValues s.cfg r) = none →
        s.cfg.routeHasLocation = true → s.cfg.locField.max < r.loc.toNat →
        exec (.init banks cs en r) s = .next (faulted (.init banks cs en r) (.badLocation r.loc) s))

/-- R262 to R271. On MODERN, in the layout and codes of CFG_REF, with LOCATION or without, with a mask that is not
empty, a record in bounds, and gpioReady true or EBIPEN already 1, INIT ends with the registers that its ten steps
leave. -/
def Obligations.InitConfiguresTheBanks : Prop :=
  ∀ (banks : Byte) (cs : BitVec 4) (en : Bool) (r : InitRecord) (s : State),
    s.ready → likeRef .modern s.cfg → ¬ strayBanks banks → banks ≠ 0 →
    firstAbove (initValues s.cfg r) = none → (s.cfg.routeHasLocation = true → r.loc.toNat ≤ 7) →
    (s.gpioReady = true ∨ s.regs.route.getLsbD 0 = true) →
    exec (.init banks cs en r) s
      = .next (rewritten s (initRegs s.cfg.routeHasLocation (maskOf banks) cs en r s.regs) true)

/-- R263 to R271 on LEGACY. On LEGACY, in the layout and codes of CFG_REF, INIT writes one global slice, the global
registers and LOCATION in ROUTE, and ignores the record's MODERN fields. -/
def Obligations.InitOnLegacyIsGlobal : Prop :=
  ∀ (banks : Byte) (cs : BitVec 4) (en : Bool) (r : InitRecord) (s : State),
    s.ready → likeRef .legacy s.cfg → ¬ strayBanks banks → banks ≠ 0 →
    firstAbove (initValues s.cfg r) = none → r.loc.toNat ≤ 7 →
    (s.gpioReady = true ∨ s.regs.route.getLsbD 0 = true) →
    exec (.init banks cs en r) s = .next (rewritten s (initRegsLegacy (maskOf banks) cs en r s.regs) true)

/-- R269, R270, R363, R367. With gpioReady false and EBIPEN 0, in the layout and codes of CFG_REF, INIT stops in
HostGpioNotReady where EBIPEN would become 1. On MODERN that is step 9, after 10 + 18 |m| micro-steps (2 fewer without
LOCATION) with steps 1 to 8 done, unless a pattern carries EBIPEN: then it is the write of that pattern's merge in
step 8, after 4 + 18 |m| micro-steps for the low-address pattern and after 6 + 18 |m| for the high-address one. On LEGACY, where
the patterns are ignored, it is step 9 after 16 micro-steps. -/
def Obligations.InitWithoutGpioStops : Prop :=
  ∀ (banks : Byte) (cs : BitVec 4) (en : Bool) (r : InitRecord) (s : State),
    s.ready → ¬ strayBanks banks → banks ≠ 0 → firstAbove (initValues s.cfg r) = none →
    s.gpioReady = false → s.regs.route.getLsbD 0 = false →
    let stops := fun (k : Nat) (f : RegFile) =>
      ∃ t, exec (.init banks cs en r) s = .next t
        ∧ stuck (.init banks cs en r) k { s with regs := f, unfenced := true } t
    (likeRef .modern s.cfg → (s.cfg.routeHasLocation = true → r.loc.toNat ≤ 7) →
        (r.aLow.getLsbD 0 = false → r.aHigh.getLsbD 0 = false →
          stops ((if s.cfg.routeHasLocation then 10 else 8) + 18 * count (maskOf banks))
            (initRegs8 s.cfg.routeHasLocation (maskOf banks) en r s.regs))
        ∧ (r.aLow.getLsbD 0 = true →
          stops (4 + 18 * count (maskOf banks)) (initRegs7 (maskOf banks) en r s.regs))
        ∧ (r.aLow.getLsbD 0 = false → r.aHigh.getLsbD 0 = true →
          stops (6 + 18 * count (maskOf banks))
            { initRegs7 (maskOf banks) en r s.regs with route := initRouteLow r s.regs.route }))
    ∧ (likeRef .legacy s.cfg → r.loc.toNat ≤ 7 → stops 16 (initRegsLegacy8 (maskOf banks) en r s.regs))

/-- R275. DISABLE writes the reset values to ROUTE and then to CTRL, and leaves every other register alone; a
ROUTE reset value with EBIPEN 1 is subject to R363(b). -/
def Obligations.DisableRestoresRouteAndCtrl : Prop :=
  ∀ s : State, s.ready →
    let route := s.cfg.storeWord .route s.regs.route s.cfg.resetValue.route
    (¬ forbidden s .route route →
        exec .disable s
          = .next (rewritten s
              { s.regs with
                route := route
                ctrl := s.cfg.storeWord .ctrl s.regs.ctrl s.cfg.resetValue.ctrl } true))
    ∧ (forbidden s .route route → ∃ t, exec .disable s = .next t ∧ stuck .disable 0 s t)

/-! ## The address map -/

/-- R290, R291. BANK_BASE of one bank returns EBI_MEM_BASE + n * span, span being 256 MiB where the instance has
ALTMAP and it is 1, else 64 MiB, and changes nothing; BadBankMask, then BadBankIndex for an empty mask or several
banks. -/
def Obligations.BankBaseReturnsTheWindow : Prop :=
  ∀ (banks : Byte) (s : State), s.ready →
    (∀ n : Bank, banks = 1#8 <<< n.val →
        exec (.bankBase banks) s
          = .next { s with
              resp := some (s.cfg.memBase
                + BitVec.ofNat 32 n.val
                  * (if s.cfg.hasAltMap = true ∧ s.cfg.layout.ctrl.altMap.test s.regs.ctrl = true
                      then 0x10000000 else 0x04000000)) })
    ∧ (strayBanks banks → exec (.bankBase banks) s = .next (faulted (.bankBase banks) (.badBankMask banks) s))
    ∧ (¬ strayBanks banks → (∀ n : Bank, banks ≠ 1#8 <<< n.val) →
        exec (.bankBase banks) s = .next (faulted (.bankBase banks) (.badBankIndex banks) s))

/-- R292. For every instance and CTRL value: the span, the first base and the distance of the bank bases, that no
address lies in two windows, and that where no wrap occurs the four windows cover exactly EBI_MEM_BASE to
EBI_MEM_BASE + 4 * span. Where windows wrap, that a window goes on at address 0 is the model's reading
(notes/assumptions/16.md). -/
def Obligations.BankWindowsAreDisjoint : Prop :=
  (∀ (c : Cfg) (t : Word) (n : Bank),
      span c t = (if c.hasAltMap = true ∧ c.layout.ctrl.altMap.test t = true then 0x10000000 else 0x04000000)
        ∧ bankBase c 0 t = c.memBase
        ∧ bankBase c n t - bankBase c 0 t = BitVec.ofNat 32 n.val * span c t)
    ∧ (∀ (c : Cfg) (t addr : Word) (n m : Bank),
        inWindow c t n addr = true → inWindow c t m addr = true → n = m)
    ∧ ∀ (c : Cfg) (t addr : Word), c.memBase.toNat + 4 * (span c t).toNat ≤ 2 ^ 32 →
        ((∃ n, inWindow c t n addr = true)
          ↔ c.memBase.toNat ≤ addr.toNat ∧ addr.toNat < c.memBase.toNat + 4 * (span c t).toNat)

/-! ## TFT -/

/-- R301, R303. TFT_INIT: BadBankIndex, then BadTftValue for the first illegal value; otherwise the seven TFT
registers as composed, and the TFT pin group of ROUTE set where the drive mode is not DISABLED. -/
def Obligations.TftInitWritesTheRecord : Prop :=
  ∀ (bank : BitVec 4) (r : TftRecord) (s : State), s.ready → s.cfg.hasTft = true → s.cfg.layout = Layout.ref →
    (3 < bank.toNat →
        exec (.tftInit bank r) s = .next (faulted (.tftInit bank r) (.badBankIndex (bank.setWidth 8)) s))
    ∧ (bank.toNat ≤ 3 → ∀ e, FirstBad (tftInitValues s.cfg r) e →
        exec (.tftInit bank r) s = .next (faulted (.tftInit bank r) e s))
    ∧ (bank.toNat ≤ 3 → AllLegal (tftInitValues s.cfg r) →
        exec (.tftInit bank r) s
          = .next
            { s with
              regs := { s.regs with
                tftFrameBase := s.cfg.storeWord .tftFrameBase s.regs.tftFrameBase r.offset
                tftSize := s.cfg.storeWord .tftSize s.regs.tftSize ((r.width - 1#32) ||| ((r.height - 1#32) <<< 16))
                tftHPorch := s.cfg.storeWord .tftHPorch s.regs.tftHPorch
                  ((r.hPulse - 1#32) ||| (r.hFront <<< 8) ||| (r.hBack <<< 18))
                tftVPorch := s.cfg.storeWord .tftVPorch s.regs.tftVPorch
                  ((r.vPulse - 1#32) ||| (r.vFront <<< 8) ||| (r.vBack <<< 18))
                tftTiming := s.cfg.storeWord .tftTiming s.regs.tftTiming
                  (r.period ||| (r.start <<< 12) ||| (r.setup <<< 24) ||| (r.hold <<< 28))
                tftPolarity :=
                  setBits s.cfg .tftPolarity 0x08 (r.polHSync == s.cfg.polActiveLow)
                    (setBits s.cfg .tftPolarity 0x10 (r.polVSync == s.cfg.polActiveLow)
                      (setBits s.cfg .tftPolarity 0x04 (r.polDataEn == s.cfg.polActiveLow)
                        (setBits s.cfg .tftPolarity 0x02 (r.polDClk == s.cfg.polActiveLow)
                          (setBits s.cfg .tftPolarity 0x01 (r.polCS == s.cfg.polActiveLow)
                            s.regs.tftPolarity))))
                tftCtrl := s.cfg.storeWord .tftCtrl s.regs.tftCtrl
                  (r.drive.setWidth 32 ||| (r.maskBlend.setWidth 32 <<< 2) ||| bitAt 8 r.shiftDclk
                    ||| bitAt 9 r.frameTrigger ||| (r.interleave.setWidth 32 <<< 10) ||| bitAt 12 r.colorSource
                    ||| bitAt 16 r.pixelWidth ||| (bank.setWidth 32 <<< 20))
                route := if r.drive = s.cfg.driveCode.disabled then s.regs.route
                  else setBits s.cfg .route 0x01000000 true s.regs.route }
              unfenced := true
              resp := none
              tft := { s.tft with dirty := s.tft.dirty || s.tft.run } })

/-- R310 to R314. Each TFT sub-operation writes its register whole with its composed word; the first illegal
value raises BadTftValue. -/
def Obligations.TftSubOperationsWriteTheirRegister : Prop :=
  ∀ (a b d e : Word) (s : State), s.ready → s.cfg.hasTft = true → s.cfg.layout = Layout.ref →
    ((a.toNat ≤ 0x0FFFFFFF →
        exec (.tftSetFrameBase a) s
          = .next (stored s .tftFrameBase (s.cfg.storeWord .tftFrameBase s.regs.tftFrameBase a)))
      ∧ (0x0FFFFFFF < a.toNat →
        exec (.tftSetFrameBase a) s = .next (faulted (.tftSetFrameBase a) (.badTftValue .frameBase a) s)))
    ∧ ((AllLegal (sizeValues s.cfg a b) →
        exec (.tftSetSize a b) s
          = .next (stored s .tftSize (s.cfg.storeWord .tftSize s.regs.tftSize ((a - 1#32) ||| ((b - 1#32) <<< 16)))))
      ∧ ∀ x, FirstBad (sizeValues s.cfg a b) x →
        exec (.tftSetSize a b) s = .next (faulted (.tftSetSize a b) x s))
    ∧ ((AllLegal (hporchValues s.cfg a b d) →
        exec (.tftSetHPorch a b d) s
          = .next (stored s .tftHPorch (s.cfg.storeWord .tftHPorch s.regs.tftHPorch
              ((d - 1#32) ||| (a <<< 8) ||| (b <<< 18)))))
      ∧ ∀ x, FirstBad (hporchValues s.cfg a b d) x →
        exec (.tftSetHPorch a b d) s = .next (faulted (.tftSetHPorch a b d) x s))
    ∧ ((AllLegal (vporchValues s.cfg a b d) →
        exec (.tftSetVPorch a b d) s
          = .next (stored s .tftVPorch (s.cfg.storeWord .tftVPorch s.regs.tftVPorch
              ((d - 1#32) ||| (a <<< 8) ||| (b <<< 18)))))
      ∧ ∀ x, FirstBad (vporchValues s.cfg a b d) x →
        exec (.tftSetVPorch a b d) s = .next (faulted (.tftSetVPorch a b d) x s))
    ∧ ((AllLegal (dclkValues s.cfg a b d e) →
        exec (.tftSetTiming a b d e) s
          = .next (stored s .tftTiming (s.cfg.storeWord .tftTiming s.regs.tftTiming
              (a ||| (b <<< 12) ||| (d <<< 24) ||| (e <<< 28)))))
      ∧ ∀ x, FirstBad (dclkValues s.cfg a b d e) x →
        exec (.tftSetTiming a b d e) s = .next (faulted (.tftSetTiming a b d e) x s))

/-- R315. TFT_SET_MASK_BLEND replaces MASKBLEND of TFTCTRL and keeps every other bit; a mode above 7 raises
BadTftValue. -/
def Obligations.TftSetMaskBlendMerges : Prop :=
  ∀ (mode : Word) (s : State), s.ready → s.cfg.hasTft = true → s.cfg.layout = Layout.ref →
    (mode.toNat ≤ 7 →
        exec (.tftSetMaskBlend mode) s
          = .next (stored s .tftCtrl (s.cfg.storeWord .tftCtrl s.regs.tftCtrl
              ((s.regs.tftCtrl &&& ~~~(0x1C : Word)) ||| (mode <<< 2)))))
    ∧ (7 < mode.toNat →
        exec (.tftSetMaskBlend mode) s
          = .next (faulted (.tftSetMaskBlend mode) (.badTftValue .maskBlend mode) s))

/-- R334, R331. One tick, where the instance has the TFT engine and the clocks are on; otherwise no tick is enabled, and
that a tick asked for all the same is then refused by name is the model's (notes/assumptions/20.md). The engine's TFT
state is all that a tick changes but for the model's own count of pin draws, left open here. In the layout of CFG_REF
the totals and the drive mode are those of the register bits. -/
def Obligations.TickAdvancesTheCounters : Prop :=
  ∀ (s : State) (rest : List Event), s.fault = none → s.agenda = .tick :: rest →
    (s.cfg.hasTft = true → s.clkOn = true →
        ∃ tft draws, step s = .next { s with agenda := rest, tft := tft, pinDraws := draws }
          ∧ (s.driveDisabled = true → tft = { run := false, h := 0, v := 0, dirty := false })
          ∧ (s.driveDisabled = false → s.tft.run = false →
              tft = { run := true, h := 0, v := 0, dirty := false })
          ∧ (s.driveDisabled = false → s.tft.run = true → s.tft.h + 1 < s.hAxis.total →
              tft = { s.tft with h := s.tft.h + 1 })
          ∧ (s.driveDisabled = false → s.tft.run = true → s.hAxis.total ≤ s.tft.h + 1 →
              s.tft.v + 1 < s.vAxis.total → tft = { s.tft with h := 0, v := s.tft.v + 1 })
          ∧ (s.driveDisabled = false → s.tft.run = true → s.hAxis.total ≤ s.tft.h + 1 →
              s.vAxis.total ≤ s.tft.v + 1 → tft = { s.tft with h := 0, v := 0, dirty := false }))
    ∧ (s.cfg.hasTft = false ∨ s.clkOn = false → step s = .refused .notEnabled)
    ∧ (s.cfg.layout = Layout.ref → s.cfg.driveCode = Cfg.ref.driveCode →
        s.hAxis.total = hTotRef s.regs ∧ s.vAxis.total = vTotRef s.regs
          ∧ (s.driveDisabled = true ↔ s.regs.tftCtrl &&& 3 = 0))

/-- R340(1), (2). From a frame start, k ticks with no other step put the engine at column k mod Htot of line
(k / Htot) mod Vtot: the counters stay in range and a frame is exactly Htot * Vtot ticks. In the layout of CFG_REF the
totals are the sums of the register bits of R331. -/
def Obligations.FrameIsHtotTimesVtotTicks : Prop :=
  ∀ (s : State) (k : Nat) (rest : List Event),
    s.fault = none → s.cfg.hasTft = true → s.clkOn = true → s.driveDisabled = false →
    s.tft.run = true → s.tft.h = 0 → s.tft.v = 0 → s.agenda = List.replicate k .tick ++ rest →
    ∃ t, runs k s = some t ∧ t.regs = s.regs ∧ t.tft.run = true
      ∧ t.tft.h = k % s.hAxis.total ∧ t.tft.v = (k / s.hAxis.total) % s.vAxis.total
      ∧ t.tft.h < s.hAxis.total ∧ t.tft.v < s.vAxis.total
      ∧ (s.cfg.layout = Layout.ref →
          t.tft.h = k % hTotRef s.regs ∧ t.tft.v = (k / hTotRef s.regs) % vTotRef s.regs
            ∧ 2 ≤ hTotRef s.regs ∧ 2 ≤ vTotRef s.regs)

/-- R340(3), (4), (5). Over the Htot * Vtot positions of a frame, in the order the counters take them, the pixels shown
are every pixel of the HA by VA display once, in row-major order; horizontal sync is asserted at the first HS positions
of each line and vertical sync at the first VS * Htot of the frame, and nowhere else. -/
def Obligations.FrameShowsEveryPixelOnceInRowOrder : Prop :=
  ∀ s : State, s.tft.run = true →
    let at_ := fun k => { s with tft := { s.tft with h := k % s.hAxis.total, v := k / s.hAxis.total } }
    (List.range (s.hAxis.total * s.vAxis.total)).filterMap (fun k => State.pixel (at_ k))
        = (List.range (s.hAxis.active * s.vAxis.active)).map
            (fun j => (j % s.hAxis.active, j / s.hAxis.active))
      ∧ ∀ k, k < s.hAxis.total * s.vAxis.total →
          (State.asserted (at_ k) .hSync = true ↔ k % s.hAxis.total < s.hAxis.sync)
            ∧ (State.asserted (at_ k) .vSync = true ↔ k < s.vAxis.sync * s.hAxis.total)

/-- R331, R333, R337, R338, R340(6). In CFG_REF's sense of polarity, a driven TFT pin outside a dirty frame, with the
controller pins' contract kept, is at the asserted level or its opposite by its polarity bit. That a pin which is not
driven (R338), or which the instance lacks (R7), has no level is the model's reading (notes/assumptions/18.md). Stopped,
nothing is asserted, and data enable never coincides with a sync pulse. In the layout of CFG_REF the timing values, the
asserted outputs and the polarity bits are those of the register bits. -/
def Obligations.TftPinLevels : Prop :=
  ∀ (s : State) (p : TftPin),
    (s.cfg.hasTft = false ∨ s.regs.route &&& s.cfg.tftPinGroup ≠ s.cfg.tftPinGroup → s.pinLevel p = none)
    ∧ (s.cfg.hasTft = true → s.regs.route &&& s.cfg.tftPinGroup = s.cfg.tftPinGroup →
        s.cfg.polActiveLow = true → s.tft.dirty = false →
        (s.cfg.layout.route.ebiPen.test s.regs.route = true → s.gpioReady = true) →
        s.pinLevel p = some (if s.pinPolarity p then !s.asserted p else s.asserted p))
    ∧ (s.tft.run = false → s.asserted p = false)
    ∧ (s.asserted .dataEn = true → s.asserted .hSync = false ∧ s.asserted .vSync = false)
    ∧ (s.cfg.layout = Layout.ref →
        s.hAxis = hAxisRef s.regs ∧ s.vAxis = vAxisRef s.regs
          ∧ s.asserted p = (s.tft.run && assertedRef s.regs s.tft.h s.tft.v p)
          ∧ s.pinPolarity p = s.regs.tftPolarity.getLsbD (pinBitRef p)
          ∧ s.cfg.tftPinGroup = 0x01000000)

/-! ## Interrupt context, barrier, windows -/

/-- R377. IsrBitWrite with the contract accepted, an offset that names a register and a bit up to 31 writes that
bit, at any time and subject to R363(b), and answers nothing on the command port; every other interrupt-context
access raises IsrContract with opcode 0 and touches no register. In CFG_REF the contract is not accepted. -/
def Obligations.InterruptContextContract : Prop :=
  Cfg.ref.isrBitWriteAccepted = false ∧ ∀ (s : State) (off b : Word) (x : Bool) (rest : List Event), s.fault = none →
    (s.agenda = .isrBitWrite off b x :: rest →
        (∀ r, s.cfg.isrBitWriteAccepted = true → s.cfg.regAt off = some r → b.toNat ≤ 31 →
          let w := setBits s.cfg r (bitMask b.toNat) x (s.regs.get r)
          (¬ forbidden s r w → step s = .next { written s r w with agenda := rest })
          ∧ (forbidden s r w → step s = .next
              { s with
                agenda := rest
                resp := none
                fault := some { cause := .hostGpioNotReady, opcode := 0, agent := .isr } }))
        ∧ (s.cfg.isrBitWriteAccepted = false ∨ s.cfg.regAt off = none ∨ 31 < b.toNat →
          step s = .next
            { s with
              agenda := rest
              resp := none
              fault := some { cause := .isrContract, opcode := 0, agent := .isr } }))
    ∧ (s.agenda = .isrOther off :: rest →
        step s = .next
          { s with
            agenda := rest
            resp := none
            fault := some { cause := .isrContract, opcode := 0, agent := .isr } })

/-- R400, R401. A bit that interrupt context writes to a register, ROUTE included, between the two micro-steps of a
REG_MERGE of that register is lost: the merge's write stores the value computed from its own earlier read, or stops in
HostGpioNotReady where R363(b) forbids that value. A bit that it writes to CTRL between the first micro-step of INIT on
MODERN and its commit is lost: INIT ends with the registers it leaves with no such write. -/
def Obligations.MergeOverwritesAnInterruptWrite : Prop :=
  (∀ (s : State) (off mask bits b : Word) (x : Bool) (r : Reg) (rest : List Event),
      s.ready → s.cfg.isrBitWriteAccepted = true → s.cfg.regAt off = some r → b.toNat ≤ 31 →
      s.agenda = [.issue (encode (.regMerge off mask bits)), .micro, .isrBitWrite off b x, .micro, .micro] ++ rest →
      let isr := setBits s.cfg r (bitMask b.toNat) x (s.regs.get r)
      let merged := s.cfg.storeWord r (s.regs.get r) ((s.regs.get r &&& ~~~mask) ||| bits)
      ¬ forbidden s r isr →
      (¬ forbidden (written s r isr) r merged →
          ∃ t, runs 5 s = some t ∧ t.cfgr = .idle ∧ t.fault = none ∧ t.regs = s.regs.set r merged)
        ∧ (forbidden (written s r isr) r merged →
          ∃ t, runs 4 s = some t ∧ t.regs = s.regs.set r isr
            ∧ t.fault = some { cause := .hostGpioNotReady, opcode := 0x04, agent := .main }))
    ∧ ∀ (banks : Byte) (cs : BitVec 4) (en : Bool) (r : InitRecord) (s : State) (off b : Word) (x : Bool) (j : Nat)
        (rest : List Event),
      s.ready → likeRef .modern s.cfg → ¬ strayBanks banks → banks ≠ 0 →
      firstAbove (initValues s.cfg r) = none → (s.cfg.routeHasLocation = true → r.loc.toNat ≤ 7) →
      (s.gpioReady = true ∨ s.regs.route.getLsbD 0 = true) →
      s.cfg.isrBitWriteAccepted = true → s.cfg.regAt off = some .ctrl → b.toNat ≤ 31 →
      1 ≤ j → j ≤ 1 + 18 * count (maskOf banks) →
      let total := (if s.cfg.routeHasLocation then 11 else 9) + 18 * count (maskOf banks) + count cs
      s.agenda = .issue (encode (.init banks cs en r)) :: (List.replicate j .micro
        ++ .isrBitWrite off b x :: (List.replicate (total + 1 - j) .micro ++ rest)) →
      ∃ t, runs (total + 3) s = some t ∧ t.cfgr = .idle ∧ t.fault = none
        ∧ t.regs = initRegs s.cfg.routeHasLocation (maskOf banks) cs en r s.regs

/-- R81, R82. BARRIER clears `unfenced` and touches nothing else but the response. WINDOW_ACCESS checks, in order,
the barrier, the window and the enables; then it records the event, and a read returns some word. That the two
host events that return no word leave no response is the model's reading of R117 (notes/assumptions/17.md), and that a
window that wraps goes on at address 0 is its reading of R78 (notes/assumptions/16.md). -/
def Obligations.BarrierAndWindowAccess : Prop :=
  ∀ (addr data : Word) (write : Bool) (s : State), s.idleOk →
    exec .barrier s = .next { s with unfenced := false, resp := none }
    ∧ (s.unfenced = true →
        exec (.windowAccess addr write data) s
          = .next (faulted (.windowAccess addr write data) (.hazardNoBarrier addr) s))
    ∧ (s.unfenced = false → (∀ n, inWindow s.cfg s.regs.ctrl n addr = false) →
        exec (.windowAccess addr write data) s
          = .next (faulted (.windowAccess addr write data) (.badWindow addr) s))
    ∧ (s.unfenced = false → ∀ n, inWindow s.cfg s.regs.ctrl n addr = true →
        ((s.cfg.layout.ctrl.bankEn.get n).test s.regs.ctrl = false
            ∨ s.cfg.layout.route.ebiPen.test s.regs.route = false →
          exec (.windowAccess addr write data) s
            = .next (faulted (.windowAccess addr write data) (.windowDisabled addr) s))
        ∧ ((s.cfg.layout.ctrl.bankEn.get n).test s.regs.ctrl = true →
          s.cfg.layout.route.ebiPen.test s.regs.route = true →
          exec (.windowAccess addr true data) s
              = .next { s with windowEvents := s.windowEvents ++ [⟨n, addr, .write data⟩], resp := none }
            ∧ ∃ w draws, exec (.windowAccess addr false data) s
              = .next { s with
                  windowEvents := s.windowEvents ++ [⟨n, addr, .read⟩]
                  resp := some w
                  windowDraws := draws }))

/-! ## Walk orders -/

/-- R116. In the layout of CFG_REF the order in which a command walks its banks and chip-selects is not seen in
its end state: run with other walk orders, every command that ends without a fault ends in the same state. -/
def Obligations.WalkOrderIsInvisible : Prop :=
  ∀ (i : Instr) (s t : State) (orders : List (List (Fin 4))),
    s.cfg.layout = Layout.ref → exec i s = .next t → t.fault = none →
    exec i { s with orders := orders } = .next { t with orders := orders }

end
end

