-- ==== Sys2Proof/Laws/Registers.lean ====
section
/-! SUPPORT. The register file: a read after a write, and the bits of a word. -/

namespace Sys2Proof

@[simp] theorem PerBank.get_set_self {α : Type} (p : PerBank α) (n : Bank) (x : α) :
    (p.set n x).get n = x := by
  fin_cases n <;> rfl

theorem PerBank.get_set_of_ne {α : Type} (p : PerBank α) {m n : Bank} (x : α) (h : m ≠ n) :
    (p.set n x).get m = p.get m := by
  fin_cases m <;> fin_cases n <;> first | rfl | exact absurd rfl h

theorem PerBank.get_set {α : Type} (p : PerBank α) (m n : Bank) (x : α) :
    (p.set n x).get m = if m = n then x else p.get m := by
  split
  · subst_vars; simp
  · exact p.get_set_of_ne x ‹_›

@[simp] theorem PerBank.set_set_self {α : Type} (p : PerBank α) (n : Bank) (x y : α) :
    (p.set n x).set n y = p.set n y := by
  fin_cases n <;> rfl

@[simp] theorem PerBank.set_get_self {α : Type} (p : PerBank α) (n : Bank) : p.set n (p.get n) = p := by
  fin_cases n <;> rfl

theorem PerBank.ext_get {α : Type} {p q : PerBank α} (h : ∀ n, p.get n = q.get n) : p = q := by
  have h0 := h 0; have h1 := h 1; have h2 := h 2; have h3 := h 3
  cases p; cases q
  simp_all [PerBank.get]

@[simp] theorem RegFile.get_set_self (f : RegFile) (r : Reg) (w : Word) : (f.set r w).get r = w := by
  cases r <;> simp [RegFile.get, RegFile.set]

/-- A write leaves every other register alone (R76). -/
theorem RegFile.get_set_of_ne (f : RegFile) {r q : Reg} (w : Word) (h : q ≠ r) :
    (f.set r w).get q = f.get q := by
  cases r <;> cases q <;>
    first
    | exact absurd rfl h
    | rfl
    | exact PerBank.get_set_of_ne _ _ (fun e => h (by rw [e]))

theorem RegFile.get_set (f : RegFile) (q r : Reg) (w : Word) :
    (f.set r w).get q = if q = r then w else f.get q := by
  split
  · subst_vars; simp
  · exact f.get_set_of_ne w ‹_›

@[simp] theorem RegFile.set_set_self (f : RegFile) (r : Reg) (v w : Word) :
    (f.set r v).set r w = f.set r w := by
  cases r <;> simp [RegFile.set]

@[simp] theorem RegFile.set_get_self (f : RegFile) (r : Reg) : f.set r (f.get r) = f := by
  cases r <;> simp [RegFile.set, RegFile.get]

theorem RegFile.ext_get {f g : RegFile} (h : ∀ r, f.get r = g.get r) : f = g := by
  have h1 := h .ctrl
  have h2 := PerBank.ext_get (p := f.addrTiming) (q := g.addrTiming) fun n => h (.addrTiming n)
  have h3 := PerBank.ext_get (p := f.rdTiming) (q := g.rdTiming) fun n => h (.rdTiming n)
  have h4 := PerBank.ext_get (p := f.wrTiming) (q := g.wrTiming) fun n => h (.wrTiming n)
  have h5 := PerBank.ext_get (p := f.polarity) (q := g.polarity) fun n => h (.polarity n)
  have h6 := h .route
  have h7 := h .routeLoc
  have h8 := h .nandCtrl
  have h9 := h .tftCtrl
  have h10 := h .tftFrameBase
  have h11 := h .tftSize
  have h12 := h .tftHPorch
  have h13 := h .tftVPorch
  have h14 := h .tftTiming
  have h15 := h .tftPolarity
  cases f; cases g
  simp_all [RegFile.get]

/-- Two writes to different registers may be made in either order (R116). -/
theorem RegFile.set_comm (f : RegFile) {q r : Reg} (h : q ≠ r) (v w : Word) :
    (f.set q v).set r w = (f.set r w).set q v := by
  apply RegFile.ext_get
  intro x
  simp only [RegFile.get_set]
  by_cases hr : x = r
  · subst hr; simp [Ne.symm h]
  · simp [hr]

@[simp] theorem RegFile.get_route (f : RegFile) : f.get .route = f.route := rfl
@[simp] theorem RegFile.get_ctrl (f : RegFile) : f.get .ctrl = f.ctrl := rfl

theorem RegFile.set_route_of_ne (f : RegFile) {r : Reg} (w : Word) (h : r ≠ .route) :
    (f.set r w).route = f.route := by
  have := f.get_set_of_ne w (Ne.symm h)
  simpa using this

/-! ## Bits -/

theorem getLsbD_one_shift (b i : Nat) (hb : i < 32) : (1#32 <<< b).getLsbD i = decide (i = b) := by
  simp only [BitVec.getLsbD_shiftLeft, BitVec.getLsbD_one, hb, decide_true, Bool.true_and]
  by_cases h : i = b
  · subst h; simp
  · by_cases h' : i < b
    · simp [h, h']
    · have : i - b ≠ 0 := by omega
      simp [h, this]

/-- A single-bit write changes that bit and no other (R10). -/
theorem getLsbD_setBit (v : Word) (b i : Nat) (x : Bool) (hi : i < 32) :
    (setBit v b x).getLsbD i = if i = b then x else v.getLsbD i := by
  unfold setBit
  cases x
  · simp only [Bool.false_eq_true, ↓reduceIte, BitVec.getLsbD_and, BitVec.getLsbD_not, hi, decide_true,
      Bool.true_and, getLsbD_one_shift b i hi]
    by_cases h : i = b <;> simp [h]
  · simp only [↓reduceIte, BitVec.getLsbD_or, getLsbD_one_shift b i hi]
    by_cases h : i = b <;> simp [h]

/-- The bits of a field's mask (R9). -/
theorem getLsbD_mask (f : Field) (i : Nat) (hi : i < 32) :
    f.mask.getLsbD i = decide (f.lo ≤ i ∧ i < f.lo + f.width) := by
  simp only [Field.mask, BitVec.getLsbD_ofNat, hi, decide_true, Bool.true_and, Nat.testBit_shiftLeft,
    Nat.testBit_two_pow_sub_one]
  by_cases h1 : f.lo ≤ i
  · have : (i - f.lo < f.width) ↔ (i < f.lo + f.width) := by omega
    simp [h1, this]
  · simp [h1]

/-- The bits of a value put into a field (R9). -/
theorem getLsbD_ins (f : Field) (x : Word) (i : Nat) (hi : i < 32) :
    (f.ins x).getLsbD i = (decide (f.lo ≤ i ∧ i < f.lo + f.width) && x.getLsbD (i - f.lo)) := by
  simp only [Field.ins, BitVec.getLsbD_and, BitVec.getLsbD_shiftLeft, getLsbD_mask f i hi, hi, decide_true,
    Bool.true_and]
  by_cases h1 : f.lo ≤ i
  · have : ¬ i < f.lo := by omega
    simp [this, Bool.and_comm]
  · simp [h1]

/-- The bits of a field read from a word (R9). -/
theorem getLsbD_get (f : Field) (v : Word) (i : Nat) :
    (f.get v).getLsbD i = (decide (f.lo + i < 32 ∧ i < f.width) && v.getLsbD (f.lo + i)) := by
  simp only [Field.get, BitVec.getLsbD_ushiftRight, BitVec.getLsbD_and]
  by_cases h : f.lo + i < 32
  · rw [getLsbD_mask f _ h]
    by_cases h2 : i < f.width <;> simp [h, h2]
  · simp [h, BitVec.getLsbD_of_ge v (f.lo + i) (by omega)]

/-- The bits of a masked merge (R10). -/
theorem getLsbD_mergeWord (t m v : Word) (i : Nat) (hi : i < 32) :
    (mergeWord t m v).getLsbD i = ((t.getLsbD i && !m.getLsbD i) || v.getLsbD i) := by
  simp [mergeWord, hi]

/-- With every bit of WMASK(r) set, RegWrite stores the word as it is (R45). -/
theorem Cfg.storeWord_of_allOnes (c : Cfg) (r : Reg) (old v : Word)
    (h : c.wmask.get r = BitVec.allOnes 32) : c.storeWord r old v = v := by
  unfold Cfg.storeWord
  rw [h, BitVec.and_allOnes]
  simp

/-- With every bit of WMASK(r) set, BitWrite stores the bit (R45). -/
theorem Cfg.storeBit_of_allOnes (c : Cfg) (r : Reg) (old : Word) (b : Nat) (x : Bool)
    (h : c.wmask.get r = BitVec.allOnes 32) : c.storeBit r old b x = if b < 32 then setBit old b x else old := by
  unfold Cfg.storeBit
  rw [h, BitVec.getLsbD_allOnes]
  by_cases hb : b < 32 <;> simp [hb]

end Sys2Proof
end

