-- ==== Sys2Proof/Laws/State.lean ====
section
/-! SUPPORT. One lemma per field of State per update. -/

namespace Sys2Proof.Machine

@[simp] theorem raise_cfg (e : FaultCause) (o : Byte) (a : Agent) (s : State) : (raise e o a s).cfg = s.cfg := rfl
@[simp] theorem raise_regs (e : FaultCause) (o : Byte) (a : Agent) (s : State) : (raise e o a s).regs = s.regs := rfl
@[simp] theorem raise_cfgr (e : FaultCause) (o : Byte) (a : Agent) (s : State) : (raise e o a s).cfgr = s.cfgr := rfl
@[simp] theorem raise_clkOn (e : FaultCause) (o : Byte) (a : Agent) (s : State) : (raise e o a s).clkOn = s.clkOn := rfl
@[simp] theorem raise_gpioReady (e : FaultCause) (o : Byte) (a : Agent) (s : State) : (raise e o a s).gpioReady = s.gpioReady := rfl
@[simp] theorem raise_unfenced (e : FaultCause) (o : Byte) (a : Agent) (s : State) : (raise e o a s).unfenced = s.unfenced := rfl
@[simp] theorem raise_resp (e : FaultCause) (o : Byte) (a : Agent) (s : State) : (raise e o a s).resp = none := rfl
@[simp] theorem raise_tft (e : FaultCause) (o : Byte) (a : Agent) (s : State) : (raise e o a s).tft = s.tft := rfl
@[simp] theorem raise_fault (e : FaultCause) (o : Byte) (a : Agent) (s : State) : (raise e o a s).fault = some { cause := e, opcode := o, agent := a } := rfl
@[simp] theorem raise_windowEvents (e : FaultCause) (o : Byte) (a : Agent) (s : State) : (raise e o a s).windowEvents = s.windowEvents := rfl
@[simp] theorem raise_agenda (e : FaultCause) (o : Byte) (a : Agent) (s : State) : (raise e o a s).agenda = s.agenda := rfl
@[simp] theorem raise_orders (e : FaultCause) (o : Byte) (a : Agent) (s : State) : (raise e o a s).orders = s.orders := rfl
@[simp] theorem raise_windowDraws (e : FaultCause) (o : Byte) (a : Agent) (s : State) : (raise e o a s).windowDraws = s.windowDraws := rfl
@[simp] theorem raise_pinDraws (e : FaultCause) (o : Byte) (a : Agent) (s : State) : (raise e o a s).pinDraws = s.pinDraws := rfl

@[simp] theorem resetEvent_cfg (s : State) : (resetEvent s).cfg = s.cfg := rfl
@[simp] theorem resetEvent_regs (s : State) : (resetEvent s).regs = s.cfg.resetValue := rfl
@[simp] theorem resetEvent_cfgr (s : State) : (resetEvent s).cfgr = .idle := rfl
@[simp] theorem resetEvent_clkOn (s : State) : (resetEvent s).clkOn = s.clkOn := rfl
@[simp] theorem resetEvent_gpioReady (s : State) : (resetEvent s).gpioReady = s.gpioReady := rfl
@[simp] theorem resetEvent_unfenced (s : State) : (resetEvent s).unfenced = false := rfl
@[simp] theorem resetEvent_resp (s : State) : (resetEvent s).resp = none := rfl
@[simp] theorem resetEvent_tft (s : State) : (resetEvent s).tft = { run := false, h := 0, v := 0, dirty := false } := rfl
@[simp] theorem resetEvent_fault (s : State) : (resetEvent s).fault = none := rfl
@[simp] theorem resetEvent_windowEvents (s : State) : (resetEvent s).windowEvents = s.windowEvents := rfl
@[simp] theorem resetEvent_agenda (s : State) : (resetEvent s).agenda = s.agenda := rfl
@[simp] theorem resetEvent_orders (s : State) : (resetEvent s).orders = s.orders := rfl
@[simp] theorem resetEvent_windowDraws (s : State) : (resetEvent s).windowDraws = s.windowDraws := rfl
@[simp] theorem resetEvent_pinDraws (s : State) : (resetEvent s).pinDraws = s.pinDraws := rfl

@[simp] theorem putReg_cfg (s : State) (r : Reg) (w : Word) : (s.putReg r w).cfg = s.cfg := rfl
@[simp] theorem putReg_regs (s : State) (r : Reg) (w : Word) : (s.putReg r w).regs = s.regs.set r w := rfl
@[simp] theorem putReg_cfgr (s : State) (r : Reg) (w : Word) : (s.putReg r w).cfgr = s.cfgr := rfl
@[simp] theorem putReg_clkOn (s : State) (r : Reg) (w : Word) : (s.putReg r w).clkOn = s.clkOn := rfl
@[simp] theorem putReg_gpioReady (s : State) (r : Reg) (w : Word) : (s.putReg r w).gpioReady = s.gpioReady := rfl
@[simp] theorem putReg_unfenced (s : State) (r : Reg) (w : Word) : (s.putReg r w).unfenced = true := rfl
@[simp] theorem putReg_resp (s : State) (r : Reg) (w : Word) : (s.putReg r w).resp = s.resp := rfl
@[simp] theorem putReg_tft (s : State) (r : Reg) (w : Word) : (s.putReg r w).tft = s.tft.touch r := rfl
@[simp] theorem putReg_fault (s : State) (r : Reg) (w : Word) : (s.putReg r w).fault = s.fault := rfl
@[simp] theorem putReg_windowEvents (s : State) (r : Reg) (w : Word) : (s.putReg r w).windowEvents = s.windowEvents := rfl
@[simp] theorem putReg_agenda (s : State) (r : Reg) (w : Word) : (s.putReg r w).agenda = s.agenda := rfl
@[simp] theorem putReg_orders (s : State) (r : Reg) (w : Word) : (s.putReg r w).orders = s.orders := rfl
@[simp] theorem putReg_windowDraws (s : State) (r : Reg) (w : Word) : (s.putReg r w).windowDraws = s.windowDraws := rfl
@[simp] theorem putReg_pinDraws (s : State) (r : Reg) (w : Word) : (s.putReg r w).pinDraws = s.pinDraws := rfl

@[simp] theorem finish_cfg (b : Busy) (s : State) : (finish b s).cfg = s.cfg := rfl
@[simp] theorem finish_regs (b : Busy) (s : State) : (finish b s).regs = s.regs := rfl
@[simp] theorem finish_cfgr (b : Busy) (s : State) : (finish b s).cfgr = .idle := rfl
@[simp] theorem finish_clkOn (b : Busy) (s : State) : (finish b s).clkOn = s.clkOn := rfl
@[simp] theorem finish_gpioReady (b : Busy) (s : State) : (finish b s).gpioReady = s.gpioReady := rfl
@[simp] theorem finish_unfenced (b : Busy) (s : State) : (finish b s).unfenced = s.unfenced := rfl
@[simp] theorem finish_resp (b : Busy) (s : State) : (finish b s).resp = b.result s.cfg := rfl
@[simp] theorem finish_tft (b : Busy) (s : State) : (finish b s).tft = s.tft := rfl
@[simp] theorem finish_fault (b : Busy) (s : State) : (finish b s).fault = s.fault := rfl
@[simp] theorem finish_windowEvents (b : Busy) (s : State) : (finish b s).windowEvents = s.windowEvents := rfl
@[simp] theorem finish_agenda (b : Busy) (s : State) : (finish b s).agenda = s.agenda := rfl
@[simp] theorem finish_orders (b : Busy) (s : State) : (finish b s).orders = s.orders := rfl
@[simp] theorem finish_windowDraws (b : Busy) (s : State) : (finish b s).windowDraws = s.windowDraws := rfl
@[simp] theorem finish_pinDraws (b : Busy) (s : State) : (finish b s).pinDraws = s.pinDraws := rfl

@[simp] theorem barrierEffect_cfg (s : State) : (barrierEffect s).cfg = s.cfg := rfl
@[simp] theorem barrierEffect_regs (s : State) : (barrierEffect s).regs = s.regs := rfl
@[simp] theorem barrierEffect_cfgr (s : State) : (barrierEffect s).cfgr = s.cfgr := rfl
@[simp] theorem barrierEffect_clkOn (s : State) : (barrierEffect s).clkOn = s.clkOn := rfl
@[simp] theorem barrierEffect_gpioReady (s : State) : (barrierEffect s).gpioReady = s.gpioReady := rfl
@[simp] theorem barrierEffect_unfenced (s : State) : (barrierEffect s).unfenced = false := rfl
@[simp] theorem barrierEffect_resp (s : State) : (barrierEffect s).resp = none := rfl
@[simp] theorem barrierEffect_tft (s : State) : (barrierEffect s).tft = s.tft := rfl
@[simp] theorem barrierEffect_fault (s : State) : (barrierEffect s).fault = s.fault := rfl
@[simp] theorem barrierEffect_windowEvents (s : State) : (barrierEffect s).windowEvents = s.windowEvents := rfl
@[simp] theorem barrierEffect_agenda (s : State) : (barrierEffect s).agenda = s.agenda := rfl
@[simp] theorem barrierEffect_orders (s : State) : (barrierEffect s).orders = s.orders := rfl
@[simp] theorem barrierEffect_windowDraws (s : State) : (barrierEffect s).windowDraws = s.windowDraws := rfl
@[simp] theorem barrierEffect_pinDraws (s : State) : (barrierEffect s).pinDraws = s.pinDraws := rfl

@[simp] theorem tick_cfg (s : State) : (tick s).cfg = s.cfg := rfl
@[simp] theorem tick_regs (s : State) : (tick s).regs = s.regs := rfl
@[simp] theorem tick_cfgr (s : State) : (tick s).cfgr = s.cfgr := rfl
@[simp] theorem tick_clkOn (s : State) : (tick s).clkOn = s.clkOn := rfl
@[simp] theorem tick_gpioReady (s : State) : (tick s).gpioReady = s.gpioReady := rfl
@[simp] theorem tick_unfenced (s : State) : (tick s).unfenced = s.unfenced := rfl
@[simp] theorem tick_resp (s : State) : (tick s).resp = s.resp := rfl
@[simp] theorem tick_tft (s : State) : (tick s).tft = s.tftAfterTick := rfl
@[simp] theorem tick_fault (s : State) : (tick s).fault = s.fault := rfl
@[simp] theorem tick_windowEvents (s : State) : (tick s).windowEvents = s.windowEvents := rfl
@[simp] theorem tick_agenda (s : State) : (tick s).agenda = s.agenda := rfl
@[simp] theorem tick_orders (s : State) : (tick s).orders = s.orders := rfl
@[simp] theorem tick_windowDraws (s : State) : (tick s).windowDraws = s.windowDraws := rfl
@[simp] theorem tick_pinDraws (s : State) : (tick s).pinDraws = s.pinDraws + 1 := rfl

@[simp] theorem touch_run (t : Tft) (r : Reg) : (t.touch r).run = t.run := rfl
@[simp] theorem touch_h (t : Tft) (r : Reg) : (t.touch r).h = t.h := rfl
@[simp] theorem touch_v (t : Tft) (r : Reg) : (t.touch r).v = t.v := rfl
@[simp] theorem touch_dirty (t : Tft) (r : Reg) :
    (t.touch r).dirty = (t.dirty || (t.run && r.isTft)) := rfl

/-- A write to a register that is none of the TFT's leaves the engine alone (R339). -/
theorem touch_of_not_isTft (t : Tft) (r : Reg) (h : r.isTft = false) : t.touch r = t := by
  simp [Tft.touch, h]

theorem touch_touch (t : Tft) (r : Reg) : (t.touch r).touch r = t.touch r := by
  simp [Tft.touch]

end Sys2Proof.Machine
end

