-- ==== Sys2Proof/Laws/Ops.lean ====
section
/-! SUPPORT. What each shared operation can do, said once: a register write, a micro-step, a command run to
its end, a step. -/

namespace Sys2Proof.Machine

/-! ## Register writes -/

@[simp] theorem gpioBlocks_of_ne_route (s : State) {r : Reg} (w : Word) (h : r ≠ .route) :
    s.gpioBlocks r w = false := by
  simp [State.gpioBlocks, h]

/-- A register write stores its word, or R363(b) forbids it. -/
theorem store_eq_ok {s s' : State} {r : Reg} {w : Word} (h : s.store r w = .ok s') :
    s.gpioBlocks r w = false ∧ s' = s.putReg r w := by
  unfold State.store at h
  split at h
  case isTrue => cases h
  case isFalse hb =>
    cases h
    exact ⟨by simpa using hb, rfl⟩

theorem store_eq_error {s : State} {r : Reg} {w : Word} {e : FaultCause} (h : s.store r w = .error e) :
    s.gpioBlocks r w = true ∧ e = .hostGpioNotReady := by
  unfold State.store at h
  split at h
  · cases h
    exact ⟨‹_›, rfl⟩
  · cases h

theorem bitWrite_eq_ok {s s' : State} {r : Reg} {b : Nat} {x : Bool} (h : bitWrite r b x s = .ok s') :
    ∃ w, s.gpioBlocks r w = false ∧ s' = s.putReg r w := ⟨_, store_eq_ok h⟩

/-! ## Micro-steps -/

/-- The write a micro-step makes, if it is a write: the register and the word left in it. -/
def MicroOp.target (op : MicroOp) (b : Busy) (s : State) : Option (Reg × Word) :=
  match op with
  | .read _ => none
  | .write r v => some (r, s.cfg.storeWord r (s.regs.get r) v)
  | .writeMerged r clear bits => some (r, s.cfg.storeWord r (s.regs.get r) (mergeWord b.t clear bits))
  | .bit r i x => some (r, s.cfg.storeBit r (s.regs.get r) i x)
  | .readUnlessNoBL => none
  | .snapshot _ => none
  | .commit => some (.ctrl, s.cfg.storeWord .ctrl (s.regs.get .ctrl) b.c)
  | .blPin =>
    some (.route, s.cfg.storeBit .route (s.regs.get .route) s.cfg.layout.route.blPen.lo (anyBL s.cfg b.c))

/-- A micro-step that succeeds writes at most one register, and only where R363(b) allows it; it keeps the
command, its count and its return, and only shortens what is left to do. -/
theorem perform_eq_ok {op : MicroOp} {b b' : Busy} {s s' : State} (h : perform op b s = .ok (b', s')) :
    (b'.cmd = b.cmd ∧ b'.k = b.k ∧ b'.ret = b.ret ∧ (b'.todo = b.todo ∨ b'.todo = []))
      ∧ (s' = s ∨ ∃ r w, op.target b s = some (r, w) ∧ s.gpioBlocks r w = false ∧ s' = s.putReg r w) := by
  have key : ∀ {r : Reg} {w : Word} (_ : (s.store r w).map (fun t => (b, t)) = Except.ok (b', s')),
      b' = b ∧ s.gpioBlocks r w = false ∧ s' = s.putReg r w := by
    intro r w h
    cases hst : s.store r w with
    | error e => rw [hst] at h; cases h
    | ok t =>
      rw [hst] at h
      cases h
      exact ⟨rfl, store_eq_ok hst⟩
  cases op <;> simp only [perform, regWrite, bitWrite] at h
  case read r => cases h; simp
  case write r v => obtain ⟨rfl, h1, rfl⟩ := key h; exact ⟨by simp, .inr ⟨_, _, rfl, h1, rfl⟩⟩
  case writeMerged r m v => obtain ⟨rfl, h1, rfl⟩ := key h; exact ⟨by simp, .inr ⟨_, _, rfl, h1, rfl⟩⟩
  case bit r i x => obtain ⟨rfl, h1, rfl⟩ := key h; exact ⟨by simp, .inr ⟨_, _, rfl, h1, rfl⟩⟩
  case readUnlessNoBL => cases h; refine ⟨⟨rfl, rfl, rfl, ?_⟩, .inl rfl⟩; dsimp only; split <;> simp
  case snapshot edits => cases h; simp
  case commit => obtain ⟨rfl, h1, rfl⟩ := key h; exact ⟨by simp, .inr ⟨_, _, rfl, h1, rfl⟩⟩
  case blPin => obtain ⟨rfl, h1, rfl⟩ := key h; exact ⟨by simp, .inr ⟨_, _, rfl, h1, rfl⟩⟩

/-- A micro-step that faults does so because R363(b) forbids its write. -/
theorem perform_eq_error {op : MicroOp} {b : Busy} {s : State} {e : FaultCause}
    (h : perform op b s = .error e) :
    e = .hostGpioNotReady ∧ ∃ r w, op.target b s = some (r, w) ∧ s.gpioBlocks r w = true := by
  have key : ∀ {r : Reg} {w : Word} (_ : (s.store r w).map (fun t => (b, t)) = Except.error e),
      e = .hostGpioNotReady ∧ s.gpioBlocks r w = true := by
    intro r w h
    cases hst : s.store r w with
    | error e' =>
      rw [hst] at h
      cases h
      exact (store_eq_error hst).symm
    | ok t => rw [hst] at h; cases h
  cases op <;> simp only [perform, regWrite, bitWrite] at h
  case read r => cases h
  case write r v => exact ⟨(key h).1, _, _, rfl, (key h).2⟩
  case writeMerged r m v => exact ⟨(key h).1, _, _, rfl, (key h).2⟩
  case bit r i x => exact ⟨(key h).1, _, _, rfl, (key h).2⟩
  case readUnlessNoBL => cases h
  case snapshot edits => cases h
  case commit => exact ⟨(key h).1, _, _, rfl, (key h).2⟩
  case blPin => exact ⟨(key h).1, _, _, rfl, (key h).2⟩

/-- Everything one step of the configurator can do (R49): nothing while idle; the return of the command; a
fault of R363(b) at its next micro-step; or that micro-step, which writes at most one register. -/
theorem microStep_cases (s : State) :
    (s.cfgr = .idle ∧ microStep s = s)
    ∨ (∃ b, s.cfgr = .busy b ∧ b.todo = [] ∧ microStep s = finish b s)
    ∨ (∃ b op rest, s.cfgr = .busy b ∧ b.todo = op :: rest
        ∧ (∃ r w, s.gpioBlocks r w = true) ∧ microStep s = raise .hostGpioNotReady b.cmd.code .main s)
    ∨ (∃ b op rest b', s.cfgr = .busy b ∧ b.todo = op :: rest
        ∧ b'.cmd = b.cmd ∧ b'.k = b.k + 1 ∧ b'.ret = b.ret ∧ (b'.todo = rest ∨ b'.todo = [])
        ∧ (microStep s = { s with cfgr := .busy b' }
          ∨ ∃ r w, s.gpioBlocks r w = false ∧ microStep s = { s.putReg r w with cfgr := .busy b' })) := by
  cases hc : s.cfgr with
  | idle => left; exact ⟨rfl, by simp [microStep, hc]⟩
  | busy b =>
    right
    cases ht : b.todo with
    | nil => left; exact ⟨b, rfl, ht, by simp [microStep, hc, ht]⟩
    | cons op rest =>
      right
      cases hp : perform op { b with todo := rest } s with
      | error e =>
        left
        obtain ⟨rfl, r, w, -, hb⟩ := perform_eq_error hp
        exact ⟨b, op, rest, rfl, ht, ⟨r, w, hb⟩, by simp [microStep, hc, ht, hp]⟩
      | ok p =>
        right
        obtain ⟨b1, s1⟩ := p
        obtain ⟨⟨h1, h2, h3, h4⟩, h5⟩ := perform_eq_ok hp
        refine ⟨b, op, rest, { b1 with k := b.k + 1 }, rfl, ht, h1, rfl, h3, h4, ?_⟩
        rcases h5 with rfl | ⟨r, w, -, h6, rfl⟩
        · left; simp only [microStep, hc, ht, hp]
        · right; exact ⟨r, w, h6, by simp only [microStep, hc, ht, hp]⟩

/-! ## Commands -/

/-- What every micro-step keeps, a command run to its end keeps. -/
theorem runBusy_keeps {P : State → Prop}
    (hstep : ∀ s, P s → s.fault = none → s.cfgr ≠ .idle → P (microStep s)) :
    ∀ (n : Nat) (s : State), P s → P (runBusy n s)
  | 0, _, h => h
  | n + 1, s, h => by
    unfold runBusy
    split
    case isTrue => exact h
    case isFalse hf =>
      split
      · exact h
      · exact runBusy_keeps hstep n _ (hstep s h (by simpa using hf) (by simp [*]))

theorem runToEnd_keeps {P : State → Prop}
    (hstep : ∀ s, P s → s.fault = none → s.cfgr ≠ .idle → P (microStep s)) {s : State} (h : P s) :
    P (runToEnd s) := by
  unfold runToEnd
  split
  · exact h
  · exact runBusy_keeps hstep _ _ h

/-- What an issue can do (R114): raise a fault, or make the configurator BUSY with the plan's micro-steps. -/
theorem issue_cases (cmd : Instr) (plan : Except FaultCause Plan) (s : State) :
    (∃ e, issue cmd plan s = raise e cmd.code .main s ∧
        (e = .illegalCommand cmd.header ∨ e = .hostClockOff ∨ plan = .error e))
    ∨ ∃ p, plan = .ok p ∧ issue cmd plan s
        = { s with cfgr := .busy { cmd := cmd, k := 0, todo := p.ops, ret := p.ret, t := 0, c := 0 } } := by
  unfold issue
  split
  · exact .inl ⟨_, rfl, .inl rfl⟩
  · split
    · exact .inl ⟨_, rfl, .inr (.inl rfl)⟩
    · split
      · exact .inl ⟨_, rfl, .inr (.inr rfl)⟩
      · exact .inr ⟨_, rfl, rfl⟩

/-- Admission answers a next state only while FAULT is none and CFGR is IDLE (R114). -/
theorem whenIdle_eq_next {s t u : State} (h : whenIdle s t = .next u) : s.idleOk ∧ u = t := by
  unfold whenIdle at h
  split at h
  case isTrue => cases h
  case isFalse hf =>
    split at h
    · cases h
    · cases h
      exact ⟨⟨by simpa using hf, ‹_›⟩, rfl⟩

theorem whenIdle_of_idleOk {s : State} (t : State) (h : s.idleOk) : whenIdle s t = .next t := by
  simp [whenIdle, h.1, h.2]

/-- A command or host event (R114): the two host events have their own meanings, and every command runs its
plan. -/
theorem exec_eq (i : Instr) (s : State) :
    (∃ p, planOf i s = some p ∧ exec i s = runCommand i p s)
    ∨ (planOf i s = none ∧ i = .barrier ∧ exec i s = execBarrier s)
    ∨ (planOf i s = none ∧ ∃ addr write data,
        i = .windowAccess addr write data ∧ exec i s = execWindowAccess addr write data s) := by
  cases i
  case barrier => exact .inr (.inl ⟨rfl, rfl, rfl⟩)
  case windowAccess addr write data => exact .inr (.inr ⟨rfl, addr, write, data, rfl, rfl⟩)
  all_goals exact .inl ⟨_, rfl, rfl⟩

/-- A command runs its plan. -/
theorem exec_of_planOf {i : Instr} {s : State} {p : Except FaultCause Plan} (h : planOf i s = some p) :
    exec i s = runCommand i p s := by
  rcases exec_eq i s with ⟨q, hq, he⟩ | ⟨hq, -⟩ | ⟨hq, -⟩
  · rw [h] at hq; cases hq; exact he
  · rw [h] at hq; cases hq
  · rw [h] at hq; cases hq

/-! ## A plan as one recursion -/

/-- The micro-steps `ops` of a command, from its temporaries t and c and its count k, to its end or its
fault. -/
def play (cmd : Instr) (ret : Ret) : Nat → List MicroOp → Word → Word → State → State
  | k, [], t, c, s => finish ⟨cmd, k, [], ret, t, c⟩ s
  | k, op :: rest, t, c, s =>
    match op with
    | .read r => play cmd ret (k + 1) rest (s.regs.get r) c s
    | .readUnlessNoBL =>
      if anyBL s.cfg s.regs.ctrl then play cmd ret (k + 1) rest s.regs.ctrl c s
      else finish ⟨cmd, k + 1, [], ret, s.regs.ctrl, c⟩ s
    | .snapshot edits => play cmd ret (k + 1) rest t (compose edits s.regs.ctrl) s
    | op =>
      match op.target ⟨cmd, k, op :: rest, ret, t, c⟩ s with
      | none => s
      | some (r, w) =>
        if s.gpioBlocks r w then
          raise .hostGpioNotReady cmd.code .main { s with cfgr := .busy ⟨cmd, k, op :: rest, ret, t, c⟩ }
        else play cmd ret (k + 1) rest t c (s.putReg r w)

theorem runBusy_of_idle {s : State} (h : s.cfgr = .idle) : ∀ n, runBusy n s = s
  | 0 => rfl
  | n + 1 => by unfold runBusy; split <;> simp [h]

/-- Running the configurator to the end of its command is one recursion over the micro-steps left. -/
theorem runBusy_eq_play (cmd : Instr) (ret : Ret) :
    ∀ (ops : List MicroOp) (k : Nat) (t c : Word) (s : State), s.fault = none →
      runBusy (ops.length + 1) { s with cfgr := .busy ⟨cmd, k, ops, ret, t, c⟩ } = play cmd ret k ops t c s
  | [], k, t, c, s, hf => by simp [runBusy, hf, microStep, play, finish, Busy.result]
  | op :: rest, k, t, c, s, hf => by
    have ih := runBusy_eq_play cmd ret rest (k + 1)
    have hstore : ∀ (r : Reg) (w : Word),
        State.store { s with cfgr := .busy ⟨cmd, k, op :: rest, ret, t, c⟩ } r w
          = if s.gpioBlocks r w then .error .hostGpioNotReady
            else .ok { s.putReg r w with cfgr := .busy ⟨cmd, k, op :: rest, ret, t, c⟩ } := fun _ _ => rfl
    rw [List.length_cons, runBusy, if_neg (by simp [hf])]
    cases op
    case read r => exact ih _ c s hf
    case readUnlessNoBL =>
      simp only [microStep, perform, play]
      split
      · exact ih _ c s hf
      · rw [runBusy, if_neg (by simp [hf])]
        exact runBusy_of_idle rfl _
    case snapshot edits => exact ih t _ s hf
    all_goals
      simp only [microStep, perform, play, MicroOp.target, regWrite, bitWrite]
      rw [hstore]
      split_ifs
      · simp only [Except.map]
        rw [runBusy, if_pos (by rfl)]
      · exact Eq.trans (by rfl) (ih t c (s.putReg _ _) hf)

/-- A command whose checks pass runs its micro-steps (R114). -/
theorem runCommand_ok {cmd : Instr} {p : Plan} {s : State} (hs : s.ready)
    (hw : cmd.wellFormed s.cfg = true) :
    runCommand cmd (.ok p) s = .next (play cmd p.ret 0 p.ops 0 0 s) := by
  obtain ⟨hi, hc⟩ := hs
  rw [runCommand, whenIdle_of_idleOk _ hi, issue, if_neg (by simp [hw]), if_neg (by simp [hc])]
  exact congrArg _ (runBusy_eq_play cmd p.ret p.ops 0 0 0 s hi.1)

/-- A command that fails a check raises its fault with no micro-step (R367). -/
theorem runCommand_error {cmd : Instr} {e : FaultCause} {s : State} (hs : s.ready)
    (hw : cmd.wellFormed s.cfg = true) :
    runCommand cmd (.error e) s = .next (raise e cmd.code .main s) := by
  obtain ⟨hi, hc⟩ := hs
  rw [runCommand, whenIdle_of_idleOk _ hi]
  simp [issue, hw, hc, runToEnd, hi.2]

/-! ## The agenda and the walk orders are not read by the block -/

/-- s with other steps still to be taken and other walk orders. -/
def State.reframe (s : State) (l : List Event) (o : List (List (Fin 4))) : State :=
  { s with agenda := l, orders := o }

variable (l : List Event) (o : List (List (Fin 4)))

theorem store_reframe (s : State) (r : Reg) (w : Word) :
    (s.reframe l o).store r w = (s.store r w).map fun u => u.reframe l o := by
  unfold State.store
  rw [show (s.reframe l o).gpioBlocks r w = s.gpioBlocks r w from rfl]
  split <;> rfl

theorem perform_reframe (op : MicroOp) (b : Busy) (s : State) :
    perform op b (s.reframe l o) = (perform op b s).map fun q => (q.1, q.2.reframe l o) := by
  cases op <;> simp only [perform, regWrite, bitWrite, store_reframe] <;>
    first
    | rfl
    | (simp only [State.reframe]; cases State.store _ _ _ <;> rfl)

/-- A step of the configurator neither reads nor changes the agenda and the walk orders. -/
theorem microStep_reframe (s : State) : microStep (s.reframe l o) = (microStep s).reframe l o := by
  unfold microStep
  rw [show (s.reframe l o).cfgr = s.cfgr from rfl]
  split
  · rfl
  · split
    · rfl
    · rw [perform_reframe]
      cases perform _ _ s <;> rfl

theorem runBusy_reframe : ∀ (n : Nat) (s : State), runBusy n (s.reframe l o) = (runBusy n s).reframe l o
  | 0, _ => rfl
  | n + 1, s => by
    unfold runBusy
    rw [show (s.reframe l o).cfgr = s.cfgr from rfl, show (s.reframe l o).fault = s.fault from rfl]
    split
    · rfl
    · split
      · rfl
      · rw [microStep_reframe, runBusy_reframe n]

theorem runToEnd_reframe (s : State) : runToEnd (s.reframe l o) = (runToEnd s).reframe l o := by
  unfold runToEnd
  rw [show (s.reframe l o).cfgr = s.cfgr from rfl]
  split
  · rfl
  · exact runBusy_reframe l o _ s

theorem issue_reframe (cmd : Instr) (plan : Except FaultCause Plan) (s : State) :
    issue cmd plan (s.reframe l o) = (issue cmd plan s).reframe l o := by
  unfold issue
  rw [show (s.reframe l o).cfg = s.cfg from rfl, show (s.reframe l o).clkOn = s.clkOn from rfl]
  split
  · rfl
  · split
    · rfl
    · split <;> rfl

@[simp] theorem microStep_orders (s : State) : (microStep s).orders = s.orders := by
  have h := congrArg State.orders (microStep_reframe s.agenda s.orders s)
  exact h

@[simp] theorem issue_orders (cmd : Instr) (plan : Except FaultCause Plan) (s : State) :
    (issue cmd plan s).orders = s.orders := by
  have h := congrArg State.orders (issue_reframe s.agenda s.orders cmd plan s)
  exact h

theorem microStep_with_agenda (s : State) (l : List Event) :
    microStep { s with agenda := l } = { microStep s with agenda := l } :=
  (microStep_reframe l s.orders s).trans (by rw [State.reframe, ← microStep_orders])

theorem issue_with_agenda (cmd : Instr) (plan : Except FaultCause Plan) (s : State) (l : List Event) :
    issue cmd plan { s with agenda := l } = { issue cmd plan s with agenda := l } :=
  (issue_reframe l s.orders cmd plan s).trans (by rw [State.reframe, ← issue_orders cmd plan s])

@[simp] theorem microStep_agenda (s : State) : (microStep s).agenda = s.agenda := by
  have h := congrArg State.agenda (microStep_reframe s.agenda s.orders s)
  exact h

@[simp] theorem issue_agenda (cmd : Instr) (plan : Except FaultCause Plan) (s : State) :
    (issue cmd plan s).agenda = s.agenda := by
  have h := congrArg State.agenda (issue_reframe s.agenda s.orders cmd plan s)
  exact h

/-! ## One step -/

/-- A step other than the reset event, while FAULT is none, is that of its agent (R49). -/
theorem step_cons {s : State} {e : Event} {rest : List Event} (ha : s.agenda = e :: rest) (hf : s.fault = none)
    (he : e ≠ .reset) : step s = agentStep exec e { s with agenda := rest } := by
  unfold step
  rw [ha]
  dsimp only
  unfold takeStep
  split
  · exact absurd rfl he
  case h_2 h => exact absurd (hf.symm.trans h) (by simp)
  case h_3 => rfl

/-- A plan does not depend on the agenda. -/
theorem planOf_agenda (i : Instr) (s : State) (l : List Event) :
    planOf i { s with agenda := l } = planOf i s := by cases i <;> rfl

/-! ## Straight-line parts of a plan -/

/-- The micro-steps `ops` take the registers of s to those of s', with no fault, whatever command they stand
in and whatever follows them. -/
def Does (ops : List MicroOp) (s s' : State) : Prop :=
  ∀ cmd ret k rest t c, ∃ t', play cmd ret k (ops ++ rest) t c s = play cmd ret (k + ops.length) rest t' c s'

theorem Does.nil (s : State) : Does [] s s := fun _ _ _ _ t _ => ⟨t, rfl⟩

theorem Does.append {a b : List MicroOp} {s s' s'' : State} (h : Does a s s') (h' : Does b s' s'') :
    Does (a ++ b) s s'' := by
  intro cmd ret k rest t c
  obtain ⟨t1, h1⟩ := h cmd ret k (b ++ rest) t c
  obtain ⟨t2, h2⟩ := h' cmd ret (k + a.length) rest t1 c
  exact ⟨t2, by rw [List.append_assoc, h1, h2, List.length_append, Nat.add_assoc]⟩

theorem Does.cons {op : MicroOp} {b : List MicroOp} {s s' s'' : State} (h : Does [op] s s')
    (h' : Does b s' s'') : Does (op :: b) s s'' := h.append h'

/-- A plan that does its micro-steps with no fault ends in the state they leave. -/
theorem Does.play_eq {ops : List MicroOp} {s s' : State} (h : Does ops s s') (cmd : Instr) (k : Nat)
    (t c : Word) : play cmd .nothing k ops t c s = { s' with cfgr := .idle, resp := none } := by
  obtain ⟨t', h⟩ := h cmd .nothing k [] t c
  rw [List.append_nil] at h
  rw [h]
  rfl

theorem Does.write {s : State} {r : Reg} {v : Word}
    (h : s.gpioBlocks r (s.cfg.storeWord r (s.regs.get r) v) = false) :
    Does [.write r v] s (s.putReg r (s.cfg.storeWord r (s.regs.get r) v)) := by
  intro cmd ret k rest t c
  exact ⟨t, by simp [play, MicroOp.target, h]⟩

theorem Does.bit {s : State} {r : Reg} {b : Nat} {x : Bool}
    (h : s.gpioBlocks r (s.cfg.storeBit r (s.regs.get r) b x) = false) :
    Does [.bit r b x] s (s.putReg r (s.cfg.storeBit r (s.regs.get r) b x)) := by
  intro cmd ret k rest t c
  exact ⟨t, by simp [play, MicroOp.target, h]⟩

theorem Does.merge {s : State} {r : Reg} {m v : Word}
    (h : s.gpioBlocks r (s.cfg.storeWord r (s.regs.get r) (mergeWord (s.regs.get r) m v)) = false) :
    Does (mergeOps r m v) s
      (s.putReg r (s.cfg.storeWord r (s.regs.get r) (mergeWord (s.regs.get r) m v))) := by
  intro cmd ret k rest t c
  exact ⟨s.regs.get r, by simp [play, mergeOps, MicroOp.target, h]⟩

end Sys2Proof.Machine
end

