-- ==== Sys2Proof/Laws/Walk.lean ====
section
/-! SUPPORT. Walks over a bank or chip-select set: each member exactly once, in any order (R116). -/

namespace Sys2Proof.Machine

theorem mem_firsts (x : Fin 4) : ∀ l : List (Fin 4), x ∈ firsts l ↔ x ∈ l
  | [] => by simp [firsts]
  | y :: ys => by
    rw [firsts, List.mem_cons, List.mem_filter, mem_firsts x ys, List.mem_cons]
    by_cases h : x = y <;> simp [h]

theorem firsts_nodup : ∀ l : List (Fin 4), (firsts l).Nodup
  | [] => List.nodup_nil
  | x :: xs => by
    rw [firsts, List.nodup_cons]
    exact ⟨by simp, (firsts_nodup xs).filter _⟩

/-- A walk visits exactly the members of its set (R116). -/
@[simp] theorem mem_walk (s : State) (j : Nat) (m : BitVec 4) (n : Fin 4) :
    n ∈ s.walk j m ↔ m.getLsbD n = true := by
  have : n ∈ ([0, 1, 2, 3] : List (Fin 4)) := by fin_cases n <;> decide
  simp only [State.walk, walk, List.mem_filter, mem_firsts, List.mem_append, this, or_true, true_and]

/-- A walk visits no member twice (R116). -/
theorem walk_nodup (s : State) (j : Nat) (m : BitVec 4) : (s.walk j m).Nodup :=
  (firsts_nodup _).filter _

theorem walk_length_le (s : State) (j : Nat) (m : BitVec 4) : (s.walk j m).length ≤ 4 := by
  simpa using (walk_nodup s j m).length_le_card

theorem walk_eq_nil_iff (s : State) (j : Nat) (m : BitVec 4) : s.walk j m = [] ↔ m = 0 := by
  rw [List.eq_nil_iff_forall_not_mem]
  simp only [mem_walk, Bool.not_eq_true]
  constructor
  · intro h
    apply BitVec.eq_of_getLsbD_eq
    intro i hi
    simpa using h ⟨i, hi⟩
  · rintro rfl n
    simp

/-- Two walks over one set are the same members in another order. -/
theorem walk_perm (s t : State) (j k : Nat) (m : BitVec 4) : (s.walk j m).Perm (t.walk k m) :=
  (List.perm_ext_iff_of_nodup (walk_nodup s j m) (walk_nodup t k m)).2 fun n => by simp

theorem length_flatMap_walk (s : State) (j : Nat) (m : BitVec 4) {α : Type} (f : Fin 4 → List α) (k : Nat)
    (h : ∀ n, (f n).length = k) : ((s.walk j m).flatMap f).length = (s.walk j m).length * k := by
  rw [List.length_flatMap, List.map_congr_left (g := fun _ => k) fun n _ => h n]
  simp

@[simp] theorem mem_members (m : BitVec 4) (n : Fin 4) : n ∈ members m ↔ m.getLsbD n = true := by
  have : n ∈ ([0, 1, 2, 3] : List (Fin 4)) := by fin_cases n <;> decide
  simp only [members, List.mem_filter, this, true_and]

end Sys2Proof.Machine
end

