-- ==== Sys2Proof/Laws/Commands.lean ====
section
/-! SUPPORT. Running a command: from its plan to its next state, its checks, and the loops over a bank or
chip-select set. -/

namespace Sys2Proof.Machine

/-! ## From a plan to a next state -/

theorem exec_ok {i : Instr} {s t : State} {p : Plan} (hs : s.ready) (hw : i.wellFormed s.cfg = true)
    (hp : planOf i s = some (.ok p)) (ht : play i p.ret 0 p.ops 0 0 s = t) : exec i s = .next t := by
  rw [exec_of_planOf hp, runCommand_ok hs hw, ht]

theorem exec_error {i : Instr} {s : State} {e : FaultCause} (hs : s.ready) (hw : i.wellFormed s.cfg = true)
    (hp : planOf i s = some (.error e)) : exec i s = .next (raise e i.code .main s) := by
  rw [exec_of_planOf hp, runCommand_error hs hw]

/-- A command that returns nothing ends in the state its micro-steps leave. -/
theorem exec_does {i : Instr} {s t : State} {ops : List MicroOp} (hs : s.ready)
    (hw : i.wellFormed s.cfg = true) (hp : planOf i s = some (.ok { ops := ops })) (ht : Does ops s t) :
    exec i s = .next { t with cfgr := .idle, resp := none } :=
  exec_ok hs hw hp (ht.play_eq i 0 0 0)

/-! ## The registers of the bus side -/

/-- Whether a write that leaves w in r is forbidden where the registers are f (R363(b)). -/
def blocksAt (c : Cfg) (ready : Bool) (f : RegFile) (r : Reg) (w : Word) : Bool :=
  r == .route && c.layout.route.ebiPen.test w && !c.layout.route.ebiPen.test f.route && !ready

@[simp] theorem blocksAt_of_ne (c : Cfg) (ready : Bool) (f : RegFile) {r : Reg} (w : Word) (h : r ≠ .route) :
    blocksAt c ready f r w = false := by
  simp [blocksAt, h]

/-- The micro-steps `ops`, none of which writes a TFT register, take the register file f to g with no fault;
`unfenced` is set if there is any of them. -/
def Bus (c : Cfg) (ready : Bool) (ops : List MicroOp) (f g : RegFile) : Prop :=
  ∀ s : State, s.cfg = c → s.gpioReady = ready → s.regs = f →
    Does ops s { s with regs := g, unfenced := s.unfenced || !ops.isEmpty }

variable {c : Cfg} {ready : Bool} {f g k : RegFile} {a b : List MicroOp}

theorem Bus.nil : Bus c ready [] f f := by
  rintro s rfl rfl rfl
  simpa using Does.nil s

theorem Bus.append (h : Bus c ready a f g) (h' : Bus c ready b g k) : Bus c ready (a ++ b) f k := by
  intro s hc hr hf
  have h1 := h s hc hr hf
  have h2 := h' { s with regs := g, unfenced := s.unfenced || !a.isEmpty } hc hr rfl
  have h3 := h1.append h2
  rw [show ((s.unfenced || !(a ++ b).isEmpty)) = ((s.unfenced || !a.isEmpty) || !b.isEmpty) by
    cases a <;> simp]
  exact h3

theorem Bus.cons {op : MicroOp} (h : Bus c ready [op] f g) (h' : Bus c ready b g k) :
    Bus c ready (op :: b) f k := h.append h'

theorem Bus.write {r : Reg} {v : Word} (ht : r.isTft = false)
    (hb : blocksAt c ready f r (c.storeWord r (f.get r) v) = false) :
    Bus c ready [.write r v] f (f.set r (c.storeWord r (f.get r) v)) := by
  rintro s rfl rfl rfl
  have h := Does.write (s := s) (r := r) (v := v) hb
  simpa [State.putReg, Tft.touch, ht] using h

theorem Bus.bit {r : Reg} {i : Nat} {x : Bool} (ht : r.isTft = false)
    (hb : blocksAt c ready f r (c.storeBit r (f.get r) i x) = false) :
    Bus c ready [.bit r i x] f (f.set r (c.storeBit r (f.get r) i x)) := by
  rintro s rfl rfl rfl
  have h := Does.bit (s := s) (r := r) (b := i) (x := x) hb
  simpa [State.putReg, Tft.touch, ht] using h

theorem Bus.merge {r : Reg} {m v : Word} (ht : r.isTft = false)
    (hb : blocksAt c ready f r (c.storeWord r (f.get r) (mergeWord (f.get r) m v)) = false) :
    Bus c ready (mergeOps r m v) f (f.set r (c.storeWord r (f.get r) (mergeWord (f.get r) m v))) := by
  rintro s rfl rfl rfl
  have h := Does.merge (s := s) (r := r) (m := m) (v := v) hb
  simpa [State.putReg, Tft.touch, ht, mergeOps] using h

/-- A loop: one part for each element of a list. -/
theorem Bus.flatMap {α : Type} {ops : α → List MicroOp} {upd : RegFile → α → RegFile} :
    ∀ (l : List α) (f : RegFile), (∀ n ∈ l, ∀ f, Bus c ready (ops n) f (upd f n)) →
      Bus c ready (l.flatMap ops) f (l.foldl upd f)
  | [], _, _ => Bus.nil
  | n :: l, f, h => by
    rw [List.flatMap_cons, List.foldl_cons]
    exact (h n (by simp) f).append (Bus.flatMap l _ fun m hm => h m (by simp [hm]))

theorem Bus.map {α : Type} {op : α → MicroOp} {upd : RegFile → α → RegFile} (l : List α) (f : RegFile)
    (h : ∀ n ∈ l, ∀ f, Bus c ready [op n] f (upd f n)) : Bus c ready (l.map op) f (l.foldl upd f) := by
  have := Bus.flatMap (ops := fun n => [op n]) l f h
  rwa [← List.map_eq_flatMap] at this

/-- A command whose micro-steps are of the bus side ends with the registers they leave. -/
theorem exec_bus {i : Instr} {s : State} {ops : List MicroOp} {g : RegFile} (hs : s.ready)
    (hw : i.wellFormed s.cfg = true) (hp : planOf i s = some (.ok { ops := ops }))
    (h : Bus s.cfg s.gpioReady ops s.regs g) :
    exec i s = .next { s with regs := g, unfenced := s.unfenced || !ops.isEmpty, resp := none } := by
  rw [exec_does hs hw hp (h s rfl rfl rfl), ← show s.cfgr = .idle from hs.1.2]

/-! ## Loops over a set -/

/-- The entries of a per-bank family after a loop that replaces each entry it visits. -/
theorem PerBank.get_foldl_set {α : Type} (h : Bank → α → α) :
    ∀ (l : List Bank) (p : PerBank α) (m : Bank), l.Nodup →
      (l.foldl (fun p n => p.set n (h n (p.get n))) p).get m = if m ∈ l then h m (p.get m) else p.get m
  | [], _, _, _ => by simp
  | n :: l, p, m, hn => by
    rw [List.nodup_cons] at hn
    rw [List.foldl_cons, PerBank.get_foldl_set h l _ m hn.2]
    by_cases hm : m = n
    · subst hm
      simp [hn.1]
    · simp [hm, PerBank.get_set_of_ne]

/-- BitWrite of one value to every bit of a mask. -/
def setMask (c : Cfg) (r : Reg) (mask : Word) (x : Bool) (old : Word) : Word :=
  c.storeWord r old (if x then old ||| mask else old &&& ~~~mask)

theorem getLsbD_setMask (c : Cfg) (r : Reg) (mask : Word) (x : Bool) (old : Word) (i : Nat) (hi : i < 32) :
    (setMask c r mask x old).getLsbD i
      = if (c.wmask.get r).getLsbD i && mask.getLsbD i then x else old.getLsbD i := by
  unfold setMask Cfg.storeWord
  cases x <;> cases h : (c.wmask.get r).getLsbD i <;> cases h' : mask.getLsbD i <;>
    simp only [if_true, if_false, Bool.false_eq_true, BitVec.getLsbD_or, BitVec.getLsbD_and,
      BitVec.getLsbD_not, h, h', hi, decide_true, Bool.and_true, Bool.and_false, Bool.not_true,
      Bool.not_false, Bool.or_false, Bool.false_or, Bool.or_true]

theorem storeBit_eq_setMask (c : Cfg) (r : Reg) (old : Word) (b : Nat) (x : Bool) :
    c.storeBit r old b x = setMask c r (1#32 <<< b) x old := by
  apply BitVec.eq_of_getLsbD_eq
  intro i hi
  rw [getLsbD_setMask c r _ x old i hi, getLsbD_one_shift b i hi]
  unfold Cfg.storeBit
  by_cases hb : i = b
  · subst hb
    cases h : (c.wmask.get r).getLsbD i
    · simp
    · simp only [if_true, getLsbD_setBit _ _ _ _ hi]
      simp
  · split
    · rw [getLsbD_setBit _ _ _ _ hi]
      simp [hb]
    · simp [hb]

theorem setMask_setMask (c : Cfg) (r : Reg) (m n : Word) (x : Bool) (old : Word) :
    setMask c r n x (setMask c r m x old) = setMask c r (m ||| n) x old := by
  apply BitVec.eq_of_getLsbD_eq
  intro i hi
  rw [getLsbD_setMask _ _ _ _ _ _ hi, getLsbD_setMask _ _ _ _ _ _ hi, getLsbD_setMask _ _ _ _ _ _ hi,
    BitVec.getLsbD_or]
  cases (c.wmask.get r).getLsbD i <;> cases m.getLsbD i <;> cases n.getLsbD i <;> simp

theorem setMask_zero (c : Cfg) (r : Reg) (x : Bool) (old : Word) : setMask c r 0 x old = old := by
  apply BitVec.eq_of_getLsbD_eq
  intro i hi
  rw [getLsbD_setMask _ _ _ _ _ _ hi]
  simp

/-- A loop of single-bit writes of one value is one write to the OR of their bits. -/
theorem foldl_storeBit (c : Cfg) (r : Reg) (x : Bool) (pos : Fin 4 → Nat) :
    ∀ (l : List (Fin 4)) (w : Word),
      l.foldl (fun w n => c.storeBit r w (pos n) x) w
        = setMask c r (l.foldr (fun n m => (1#32 <<< pos n) ||| m) 0) x w
  | [], w => (setMask_zero c r x w).symm
  | n :: l, w => by
    rw [List.foldl_cons, foldl_storeBit c r x pos l, storeBit_eq_setMask, setMask_setMask, List.foldr_cons]

/-- The bits of an OR over a list. -/
theorem getLsbD_foldr_or (h : Fin 4 → Word) (i : Nat) :
    ∀ l : List (Fin 4), (l.foldr (fun n m => h n ||| m) 0).getLsbD i = l.any fun n => (h n).getLsbD i
  | [] => by simp
  | n :: l => by rw [List.foldr_cons, BitVec.getLsbD_or, getLsbD_foldr_or h i l, List.any_cons]

/-- Where a loop ends in the register file, if each part replaces one register's word. -/
theorem foldl_set_reg (r : Reg) (upd : Word → Fin 4 → Word) :
    ∀ (l : List (Fin 4)) (f : RegFile),
      l.foldl (fun f n => f.set r (upd (f.get r) n)) f = f.set r (l.foldl upd (f.get r))
  | [], f => by simp
  | n :: l, f => by
    rw [List.foldl_cons, foldl_set_reg r upd l, List.foldl_cons]
    simp

/-- A loop of single-bit writes to a register of the bus side. -/
theorem Bus.bits {r : Reg} {x : Bool} {pos : Fin 4 → Nat} (ht : r.isTft = false) (hr : r ≠ .route)
    (l : List (Fin 4)) (f : RegFile) :
    Bus c ready (l.map fun n => .bit r (pos n) x) f
      (f.set r (setMask c r (l.foldr (fun n m => (1#32 <<< pos n) ||| m) 0) x (f.get r))) := by
  have := Bus.map (c := c) (ready := ready) (op := fun n => MicroOp.bit r (pos n) x)
    (upd := fun f n => f.set r (c.storeBit r (f.get r) (pos n) x)) l f
    fun n _ f => Bus.bit ht (blocksAt_of_ne c ready f _ hr)
  rwa [foldl_set_reg r (fun w n => c.storeBit r w (pos n) x), foldl_storeBit] at this

/-- A loop of single-bit writes to ROUTE that do not touch EBIPEN. -/
theorem Bus.routeBits {x : Bool} {pos : Fin 4 → Nat} (l : List (Fin 4)) (f : RegFile)
    (h : ∀ n ∈ l, pos n ≠ c.layout.route.ebiPen.lo) :
    Bus c ready (l.map fun n => .bit .route (pos n) x) f
      (f.set .route (setMask c .route (l.foldr (fun n m => (1#32 <<< pos n) ||| m) 0) x f.route)) := by
  have := Bus.map (c := c) (ready := ready) (op := fun n => MicroOp.bit .route (pos n) x)
    (upd := fun f n => f.set .route (c.storeBit .route (f.get .route) (pos n) x)) l f
    fun n hn f => Bus.bit rfl (by
      have : c.layout.route.ebiPen.test (c.storeBit .route (f.get .route) (pos n) x)
          = c.layout.route.ebiPen.test f.route := by
        unfold Field.test Cfg.storeBit
        split
        · by_cases hi : c.layout.route.ebiPen.lo < 32
          · rw [getLsbD_setBit _ _ _ _ hi, if_neg (Ne.symm (h n hn))]
            rfl
          · rw [BitVec.getLsbD_of_ge _ _ (by omega), BitVec.getLsbD_of_ge _ _ (by omega)]
        · rfl
      unfold blocksAt
      rw [this]
      cases c.layout.route.ebiPen.test f.route <;> simp)
  rwa [foldl_set_reg .route (fun w n => c.storeBit .route w (pos n) x), foldl_storeBit] at this

/-! ## Checks -/

theorem checkBanks_eq (banks : Byte) :
    checkBanks banks
      = if banks.extractLsb' 4 4 ≠ 0 then .error (.badBankMask banks) else .ok (banks.extractLsb' 0 4) := rfl

/-- A read triple is packed if each count is within its field, and the first count above its field is
BadTiming (R160). -/
theorem encRead_eq (c : Cfg) (s st h : Word) :
    encRead c s st h
      = if c.layout.rd.setup.max < s.toNat then .error (.badTiming .rdSetup s)
        else if c.layout.rd.strobe.max < st.toNat then .error (.badTiming .rdStrobe st)
        else if c.layout.rd.hold.max < h.toNat then .error (.badTiming .rdHold h)
        else .ok (c.layout.rd.setup.ins s ||| c.layout.rd.strobe.ins st ||| c.layout.rd.hold.ins h) := by
  unfold encRead checkTiming
  split_ifs <;> rfl

/-- A write triple, likewise (R161). -/
theorem encWrite_eq (c : Cfg) (s st h : Word) :
    encWrite c s st h
      = if c.layout.wr.setup.max < s.toNat then .error (.badTiming .wrSetup s)
        else if c.layout.wr.strobe.max < st.toNat then .error (.badTiming .wrStrobe st)
        else if c.layout.wr.hold.max < h.toNat then .error (.badTiming .wrHold h)
        else .ok (c.layout.wr.setup.ins s ||| c.layout.wr.strobe.ins st ||| c.layout.wr.hold.ins h) := by
  unfold encWrite checkTiming
  split_ifs <;> rfl

/-- An address pair, likewise (R162). -/
theorem encAddr_eq (c : Cfg) (s h : Word) :
    encAddr c s h
      = if c.layout.addr.setup.max < s.toNat then .error (.badTiming .addrSetup s)
        else if c.layout.addr.hold.max < h.toNat then .error (.badTiming .addrHold h)
        else .ok (c.layout.addr.setup.ins s ||| c.layout.addr.hold.ins h) := by
  unfold encAddr checkTiming
  split_ifs <;> rfl

end Sys2Proof.Machine
end

