-- ==== Sys2Proof/Laws/Decode.lean ====
section
/-! SUPPORT. The header word's fields, and the decoder on the encoder's words. -/

namespace Sys2Proof

theorem Opcode.ofCode_code (o : Opcode) : Opcode.ofCode o.row.code = some o := by cases o <;> rfl

theorem Opcode.code_of_ofCode {b : Byte} {o : Opcode} (h : Opcode.ofCode b = some o) : o.row.code = b := by
  simpa [Opcode.ofCode] using List.find?_some h

variable (o : Opcode) (banks : Byte) (sel : BitVec 4) (v f1 f2 f3 : Bool)

/-- The bits of a header word (R102). -/
theorem getLsbD_headerOf (i : Nat) :
    (headerOf o banks sel v f1 f2 f3).getLsbD i =
      if i < 8 then o.row.code.getLsbD i else if i < 16 then banks.getLsbD (i - 8)
      else if i < 20 then sel.getLsbD (i - 16) else if i = 20 then v else if i = 21 then f1
      else if i = 22 then f2 else if i = 23 then f3 else false := by
  rcases Nat.lt_or_ge i 32 with hi | hi
  · change BitVec.getLsbD (w := 8 + 1 + 1 + 1 + 1 + 4 + 8 + 8) _ i = _
    simp only [headerOf, BitVec.getLsbD_append]
    interval_cases i <;> simp
  · rw [BitVec.getLsbD_of_ge _ _ hi]
    have : ¬ i < 8 ∧ ¬ i < 16 ∧ ¬ i < 20 ∧ i ≠ 20 ∧ i ≠ 21 ∧ i ≠ 22 ∧ i ≠ 23 := by omega
    simp [this]

@[simp] theorem headerOp_headerOf : headerOp (headerOf o banks sel v f1 f2 f3) = o.row.code := by
  apply BitVec.eq_of_getLsbD_eq
  intro i hi
  simp [headerOp, getLsbD_headerOf, hi]

@[simp] theorem headerBanks_headerOf : headerBanks (headerOf o banks sel v f1 f2 f3) = banks := by
  apply BitVec.eq_of_getLsbD_eq
  intro i hi
  simp only [headerBanks, BitVec.getLsbD_extractLsb', hi, decide_true, Bool.true_and, getLsbD_headerOf]
  interval_cases i <;> simp

@[simp] theorem headerSel_headerOf : headerSel (headerOf o banks sel v f1 f2 f3) = sel := by
  apply BitVec.eq_of_getLsbD_eq
  intro i hi
  simp only [headerSel, BitVec.getLsbD_extractLsb', hi, decide_true, Bool.true_and, getLsbD_headerOf]
  interval_cases i <;> simp

@[simp] theorem headerV_headerOf : headerV (headerOf o banks sel v f1 f2 f3) = v := by
  rw [headerV, getLsbD_headerOf]; simp

@[simp] theorem headerF1_headerOf : headerF1 (headerOf o banks sel v f1 f2 f3) = f1 := by
  rw [headerF1, getLsbD_headerOf]; simp

@[simp] theorem headerF2_headerOf : headerF2 (headerOf o banks sel v f1 f2 f3) = f2 := by
  rw [headerF2, getLsbD_headerOf]; simp

@[simp] theorem headerF3_headerOf : headerF3 (headerOf o banks sel v f1 f2 f3) = f3 := by
  rw [headerF3, getLsbD_headerOf]; simp

/-- A header word is determined by its fields: OP, BANKS, SEL, V, F1 to F3 and RSV (R102). -/
theorem header_ext {h : Word} (hop : headerOp h = o.row.code) (hrsv : h.extractLsb' 24 8 = 0) :
    h = headerOf o (headerBanks h) (headerSel h) (headerV h) (headerF1 h) (headerF2 h) (headerF3 h) := by
  apply BitVec.eq_of_getLsbD_eq
  intro i hi
  rw [getLsbD_headerOf]
  have h1 := fun j => congrArg (BitVec.getLsbD · j) hop
  have h2 := fun j => congrArg (BitVec.getLsbD · j) hrsv
  simp only [headerOp, BitVec.getLsbD_extractLsb'] at h1 h2
  have h3 := h1 i
  have h4 := h2 (i - 24)
  interval_cases i <;> simp_all [headerBanks, headerSel, headerV, headerF1, headerF2, headerF3]

/-! ## Fields an opcode does not use -/

/-- The header fields of an opcode, by bit (R111 "uses"). -/
theorem Opcode.uses_bits (o : Opcode) : ∀ i : Fin 32,
    o.row.uses.getLsbD i =
      if i.val < 8 then false else if i.val < 16 then o.row.uses.getLsbD 8
      else if i.val < 20 then o.row.uses.getLsbD 16 else if i.val < 24 then o.row.uses.getLsbD i else false := by
  cases o <;> decide

/-- The decoder's test for fields that must be 0, field by field (R103 to R105, R112). -/
theorem stray_eq_zero_iff (o : Opcode) (h : Word) :
    h &&& ~~~(0xFF ||| o.row.uses) = 0 ↔
      h.extractLsb' 24 8 = 0 ∧ (o.row.uses.getLsbD 8 = false → headerBanks h = 0)
        ∧ (o.row.uses.getLsbD 16 = false → headerSel h = 0)
        ∧ (o.row.uses.getLsbD 20 = false → headerV h = false)
        ∧ (o.row.uses.getLsbD 21 = false → headerF1 h = false)
        ∧ (o.row.uses.getLsbD 22 = false → headerF2 h = false)
        ∧ (o.row.uses.getLsbD 23 = false → headerF3 h = false) := by
  have hb := o.uses_bits
  have key : h &&& ~~~(0xFF ||| o.row.uses) = 0 ↔
      ∀ i : Fin 32, 8 ≤ i.val → o.row.uses.getLsbD i = false → h.getLsbD i = false := by
    have h255 : ∀ i : Fin 32, (0xFF : Word).getLsbD i = decide (i.val < 8) := by decide
    have hbit : ∀ i : Fin 32, (h &&& ~~~(0xFF ||| o.row.uses)).getLsbD i
        = (h.getLsbD i && !(decide (i.val < 8) || o.row.uses.getLsbD i)) := by
      intro i
      simp only [BitVec.getLsbD_and, BitVec.getLsbD_not, BitVec.getLsbD_or, h255, i.isLt, decide_true,
        Bool.true_and]
    constructor
    · intro e i hi hu
      have z := hbit i
      rw [e, hu, decide_eq_false (by omega)] at z
      simpa only [BitVec.ofNat_eq_ofNat, BitVec.getLsbD_zero, Bool.or_self, Bool.not_false, Bool.and_true]
        using z.symm
    · intro e
      apply BitVec.eq_of_getLsbD_eq
      intro i hi
      refine (hbit ⟨i, hi⟩).trans ?_
      have z := e ⟨i, hi⟩
      simp only [BitVec.ofNat_eq_ofNat, BitVec.getLsbD_zero]
      rcases Nat.lt_or_ge i 8 with h8 | h8
      · simp only [h8, decide_true, Bool.true_or, Bool.not_true, Bool.and_false]
      · cases hu : o.row.uses.getLsbD i
        · simp only [z h8 hu, Bool.false_and]
        · simp only [Bool.or_true, Bool.not_true, Bool.and_false]
  rw [key]
  constructor
  · intro e
    refine ⟨?_, ?_, ?_, fun u => e 20 (by decide) u, fun u => e 21 (by decide) u, fun u => e 22 (by decide) u,
      fun u => e 23 (by decide) u⟩
    · apply BitVec.eq_of_getLsbD_eq
      intro i hi
      have hlt : 24 + i < 32 := by omega
      have hu := hb ⟨24 + i, hlt⟩
      have n1 : ¬ 24 + i < 8 ∧ ¬ 24 + i < 16 ∧ ¬ 24 + i < 20 ∧ ¬ 24 + i < 24 := by omega
      have := e ⟨24 + i, hlt⟩ (by simp; omega) (by simpa [n1] using hu)
      simpa [hi] using this
    · intro u
      apply BitVec.eq_of_getLsbD_eq
      intro i hi
      have hlt : 8 + i < 32 := by omega
      have hu := hb ⟨8 + i, hlt⟩
      have n1 : ¬ 8 + i < 8 ∧ 8 + i < 16 := by omega
      have := e ⟨8 + i, hlt⟩ (by simp) (by simpa only [n1, not_false_iff, if_false, if_true, ite_true, ite_false, u] using hu)
      simpa [headerBanks, hi] using this
    · intro u
      apply BitVec.eq_of_getLsbD_eq
      intro i hi
      have hlt : 16 + i < 32 := by omega
      have hu := hb ⟨16 + i, hlt⟩
      have n1 : ¬ 16 + i < 8 ∧ ¬ 16 + i < 16 ∧ 16 + i < 20 := by omega
      have := e ⟨16 + i, hlt⟩ (by simp; omega) (by simpa only [n1, not_false_iff, if_false, if_true, ite_true, ite_false, u] using hu)
      simpa [headerSel, hi] using this
  · rintro ⟨hr, hB, hS, hV, h1, h2, h3⟩ i hi8 hu
    have hbi := hb i
    rw [hu] at hbi
    have c : (8 ≤ i.val ∧ i.val < 16) ∨ (16 ≤ i.val ∧ i.val < 20) ∨ i = 20 ∨ i = 21 ∨ i = 22 ∨ i = 23
        ∨ 24 ≤ i.val := by omega
    rcases c with c | c | rfl | rfl | rfl | rfl | c
    · have n1 : ¬ i.val < 8 ∧ i.val < 16 := by omega
      have z := congrArg (BitVec.getLsbD · (i.val - 8)) (hB (by simpa [n1] using hbi.symm))
      have e1 : 8 + (i.val - 8) = i.val := by omega
      have e2 : i.val - 8 < 8 := by omega
      simpa [headerBanks, e1, e2] using z
    · have n1 : ¬ i.val < 8 ∧ ¬ i.val < 16 ∧ i.val < 20 := by omega
      have z := congrArg (BitVec.getLsbD · (i.val - 16)) (hS (by simpa [n1] using hbi.symm))
      have e1 : 16 + (i.val - 16) = i.val := by omega
      have e2 : i.val - 16 < 4 := by omega
      simpa [headerSel, e1, e2] using z
    · exact hV hu
    · exact h1 hu
    · exact h2 hu
    · exact h3 hu
    · have z := congrArg (BitVec.getLsbD · (i.val - 24)) hr
      have e1 : 24 + (i.val - 24) = i.val := by omega
      have e2 : i.val - 24 < 8 := by omega
      simpa [e1, e2] using z

/-- A header whose unused fields are 0 passes the decoder's test (R112). -/
theorem headerOf_clean (hB : o.row.uses.getLsbD 8 = false → banks = 0)
    (hS : o.row.uses.getLsbD 16 = false → sel = 0) (hV : o.row.uses.getLsbD 20 = false → v = false)
    (h1 : o.row.uses.getLsbD 21 = false → f1 = false) (h2 : o.row.uses.getLsbD 22 = false → f2 = false)
    (h3 : o.row.uses.getLsbD 23 = false → f3 = false) :
    headerOf o banks sel v f1 f2 f3 &&& ~~~(0xFF ||| o.row.uses) = 0 := by
  rw [stray_eq_zero_iff, headerBanks_headerOf, headerSel_headerOf, headerV_headerOf, headerF1_headerOf,
    headerF2_headerOf, headerF3_headerOf]
  refine ⟨?_, hB, hS, hV, h1, h2, h3⟩
  apply BitVec.eq_of_getLsbD_eq
  intro i hi
  simp only [BitVec.getLsbD_extractLsb', hi, decide_true, Bool.true_and, getLsbD_headerOf]
  have : ¬ 24 + i < 8 ∧ ¬ 24 + i < 16 ∧ ¬ 24 + i < 20 ∧ 24 + i ≠ 20 ∧ 24 + i ≠ 21 ∧ 24 + i ≠ 22
      ∧ 24 + i ≠ 23 := by omega
  simp [this]

/-- The decoder on a header of an assigned opcode whose unused fields are 0 (R112). -/
theorem decode_header (c : Cfg) (o : Opcode) (h : Word) (args : List Word) (ho : headerOp h = o.row.code)
    (hs : h &&& ~~~(0xFF ||| o.row.uses) = 0) :
    decode c (h :: args) =
      if o.present c then
        match o.build h args with
        | none => .notFrame
        | some i => if o.strayFlags args then .illegal h else .command i
      else .illegal h := by
  unfold decode
  simp only [ho, Opcode.ofCode_code, hs]
  cases o.present c <;> rfl

/-- The gate of an opcode is the well-formedness of its commands (R111). -/
theorem wellFormed_eq_present (c : Cfg) (i : Instr) : i.wellFormed c = i.opcode.present c := by cases i <;> rfl

/-- A command is built by its own opcode (R111). -/
theorem opcode_of_build {o : Opcode} {h : Word} {args : List Word} {i : Instr} (hb : o.build h args = some i) :
    i.opcode = o := by
  cases o
  all_goals iterate 16
    all_goals try first | (cases hb; done) | (cases hb; rfl) | (rcases args with _ | ⟨a, args⟩)

/-- The decoder on a header of an assigned opcode with a field it does not use set (R112). -/
theorem decode_stray (c : Cfg) (o : Opcode) (h : Word) (args : List Word) (ho : headerOp h = o.row.code)
    (hs : h &&& ~~~(0xFF ||| o.row.uses) ≠ 0) : decode c (h :: args) = .illegal h := by
  unfold decode
  simp only [ho, Opcode.ofCode_code]
  rw [if_pos (by simp at hs; simp [hs])]

/-- The decoder on a header put together from its fields (R102, R112). -/
theorem decode_headerOf (c : Cfg) (args : List Word) (hB : o.row.uses.getLsbD 8 = false → banks = 0)
    (hS : o.row.uses.getLsbD 16 = false → sel = 0) (hV : o.row.uses.getLsbD 20 = false → v = false)
    (h1 : o.row.uses.getLsbD 21 = false → f1 = false) (h2 : o.row.uses.getLsbD 22 = false → f2 = false)
    (h3 : o.row.uses.getLsbD 23 = false → f3 = false) :
    decode c (headerOf o banks sel v f1 f2 f3 :: args) =
      if o.present c then
        match o.build (headerOf o banks sel v f1 f2 f3) args with
        | none => .notFrame
        | some i => if o.strayFlags args then .illegal (headerOf o banks sel v f1 f2 f3) else .command i
      else .illegal (headerOf o banks sel v f1 f2 f3) :=
  decode_header c o _ args (headerOp_headerOf ..) (headerOf_clean o banks sel v f1 f2 f3 hB hS hV h1 h2 h3)

/-! ## The flags words -/

theorem getLsbD_initFlags (r : InitRecord) (i : Nat) (hi : i < 32) :
    r.flags.getLsbD i =
      [r.mode.getLsbD 0, r.mode.getLsbD 1, r.ardyEnable, r.ardyDisableTimeout, r.byteLane, r.noIdle, r.pageMode,
        r.prefetch, r.halfRE, r.writeBufferDisable, r.halfWE, r.halfALE, false, false, false, false, r.polARDY,
        r.polALE, r.polWE, r.polRE, r.polCS, r.polBL].getD i false := by
  change BitVec.getLsbD (w := 10 + 1 + 1 + 1 + 1 + 1 + 1 + 4 + 1 + 1 + 1 + 1 + 1 + 1 + 1 + 1 + 1 + 1 + 2) _ i = _
  simp only [InitRecord.flags, BitVec.getLsbD_append]
  interval_cases i <;> simp

theorem getLsbD_tftFlags (r : TftRecord) (i : Nat) (hi : i < 32) :
    r.flags.getLsbD i =
      [r.polCS, r.polDClk, r.polDataEn, r.polVSync, r.polHSync, false, false, false, r.pixelWidth, r.colorSource,
        r.interleave.getLsbD 0, r.interleave.getLsbD 1, r.frameTrigger, r.shiftDclk, false, false,
        r.maskBlend.getLsbD 0, r.maskBlend.getLsbD 1, r.maskBlend.getLsbD 2, r.maskBlend.getLsbD 3,
        r.drive.getLsbD 0, r.drive.getLsbD 1].getD i false := by
  change BitVec.getLsbD (w := 10 + 2 + 4 + 2 + 1 + 1 + 2 + 1 + 1 + 3 + 1 + 1 + 1 + 1 + 1) _ i = _
  simp only [TftRecord.flags, BitVec.getLsbD_append]
  interval_cases i <;> simp

/-- INIT's flags word and its other argument words give the record back (R107, R108). -/
theorem initRecordOf_flags (r : InitRecord) :
    initRecordOf r.flags r.rdSetup r.rdStrobe r.rdHold r.wrSetup r.wrStrobe r.wrHold r.addrSetup r.addrHold
      r.aLow r.aHigh r.loc = r := by
  have hm : r.flags.extractLsb' 0 2 = r.mode := by
    apply BitVec.eq_of_getLsbD_eq
    intro i hi
    rw [BitVec.getLsbD_extractLsb', getLsbD_initFlags r _ (by omega)]
    interval_cases i <;> simp
  simp only [initRecordOf, hm]
  cases r
  simp only [InitRecord.mk.injEq, true_and, and_true]
  refine ⟨?_, ?_, ?_, ?_, ?_, ?_, ?_, ?_, ?_, ?_, ?_, ?_, ?_, ?_, ?_, ?_⟩ <;>
    (rw [getLsbD_initFlags _ _ (by decide)]; rfl)

/-- TFT_INIT's control word and its other argument words give the record back (R109, R110). -/
theorem tftRecordOf_flags (r : TftRecord) :
    tftRecordOf r.offset r.width r.height r.hFront r.hBack r.hPulse r.vFront r.vBack r.vPulse r.period r.start
      r.setup r.hold r.flags = r := by
  have h1 : r.flags.extractLsb' 10 2 = r.interleave := by
    apply BitVec.eq_of_getLsbD_eq
    intro i hi
    rw [BitVec.getLsbD_extractLsb', getLsbD_tftFlags r _ (by omega)]
    interval_cases i <;> simp
  have h2 : r.flags.extractLsb' 16 4 = r.maskBlend := by
    apply BitVec.eq_of_getLsbD_eq
    intro i hi
    rw [BitVec.getLsbD_extractLsb', getLsbD_tftFlags r _ (by omega)]
    interval_cases i <;> simp
  have h3 : r.flags.extractLsb' 20 2 = r.drive := by
    apply BitVec.eq_of_getLsbD_eq
    intro i hi
    rw [BitVec.getLsbD_extractLsb', getLsbD_tftFlags r _ (by omega)]
    interval_cases i <;> simp
  simp only [tftRecordOf, h1, h2, h3]
  cases r
  simp only [TftRecord.mk.injEq, true_and, and_true]
  refine ⟨?_, ?_, ?_, ?_, ?_, ?_, ?_, ?_, ?_⟩ <;>
    (rw [getLsbD_tftFlags _ _ (by decide)]; rfl)

theorem initFlags_not_stray (r : InitRecord) : r.flags &&& ~~~initFlagBits = 0 := by
  apply BitVec.eq_of_getLsbD_eq
  intro i hi
  rw [BitVec.getLsbD_and, getLsbD_initFlags r i hi]
  interval_cases i <;> simp [initFlagBits]

theorem tftFlags_not_stray (r : TftRecord) : r.flags &&& ~~~tftFlagBits = 0 := by
  apply BitVec.eq_of_getLsbD_eq
  intro i hi
  rw [BitVec.getLsbD_and, getLsbD_tftFlags r i hi]
  interval_cases i <;> simp [tftFlagBits]

/-- A flags word of INIT with no stray bit is that of its record (R107). -/
theorem flags_initRecordOf (a1 a2 a3 a4 a5 a6 a7 a8 a9 a10 a11 a12 : Word)
    (h : a1 &&& ~~~initFlagBits = 0) :
    (initRecordOf a1 a2 a3 a4 a5 a6 a7 a8 a9 a10 a11 a12).flags = a1 := by
  apply BitVec.eq_of_getLsbD_eq
  intro i hi
  replace h := congrArg (BitVec.getLsbD · i) h
  rw [getLsbD_initFlags _ i hi]
  interval_cases i <;>
    first
    | (simp [initRecordOf]; done)
    | simpa [initFlagBits, initRecordOf] using h

/-- A control word of TFT_INIT with no stray bit is that of its record (R110). -/
theorem flags_tftRecordOf (a1 a2 a3 a4 a5 a6 a7 a8 a9 a10 a11 a12 a13 a14 : Word)
    (h : a14 &&& ~~~tftFlagBits = 0) :
    (tftRecordOf a1 a2 a3 a4 a5 a6 a7 a8 a9 a10 a11 a12 a13 a14).flags = a14 := by
  apply BitVec.eq_of_getLsbD_eq
  intro i hi
  replace h := congrArg (BitVec.getLsbD · i) h
  rw [getLsbD_tftFlags _ i hi]
  interval_cases i <;>
    first
    | (simp [tftRecordOf]; done)
    | simpa [tftFlagBits, tftRecordOf] using h

/-! ## The encoder's frames -/

theorem encode_eq_cons (i : Instr) : encode i = i.header :: (encode i).tail := by cases i <;> rfl

/-- Building a command from its own header and argument words gives it back (R107 to R111). -/
theorem build_encode (i : Instr) : i.opcode.build i.header (encode i).tail = some i := by
  cases i
  case init banks cs en r =>
    refine (rfl : _ = some (Instr.init (headerBanks _) (headerSel _) (headerV _) (initRecordOf _ _ _ _ _ _ _ _ _ _ _ _))).trans ?_
    rw [initRecordOf_flags]
    simp only [Instr.header, encode, List.headD, headerBanks_headerOf, headerSel_headerOf, headerV_headerOf]
  case tftInit bank r =>
    refine (rfl : _ = some (Instr.tftInit (headerSel _) (tftRecordOf _ _ _ _ _ _ _ _ _ _ _ _ _ _))).trans ?_
    rw [tftRecordOf_flags]
    simp only [Instr.header, encode, List.headD, headerSel_headerOf]
  all_goals
    refine Eq.trans (by rfl) (congrArg some ?_)
    first
    | rfl
    | (simp only [Instr.header, encode, List.headD, headerBanks_headerOf, headerSel_headerOf,
        headerV_headerOf, headerF1_headerOf, headerF2_headerOf, headerF3_headerOf])

/-- A command's own header leaves the fields its opcode does not use 0 (R112). -/
theorem header_clean (i : Instr) :
    headerOp i.header = i.opcode.row.code ∧ i.header &&& ~~~(0xFF ||| i.opcode.row.uses) = 0 := by
  cases i <;>
    exact ⟨headerOp_headerOf .., headerOf_clean _ _ _ _ _ _ _
      (fun h => by first | rfl | exact absurd h (by decide)) (fun h => by first | rfl | exact absurd h (by decide))
      (fun h => by first | rfl | exact absurd h (by decide)) (fun h => by first | rfl | exact absurd h (by decide))
      (fun h => by first | rfl | exact absurd h (by decide)) (fun h => by first | rfl | exact absurd h (by decide))⟩

/-- A command's own flags word has no stray bit (R112). -/
theorem strayFlags_encode (i : Instr) : i.opcode.strayFlags (encode i).tail = false := by
  cases i
  case init banks cs en r =>
    exact (rfl : _ = (r.flags &&& ~~~initFlagBits != 0)).trans (by rw [initFlags_not_stray]; rfl)
  case tftInit bank r =>
    exact (rfl : _ = (r.flags &&& ~~~tftFlagBits != 0)).trans (by rw [tftFlags_not_stray]; rfl)
  all_goals rfl

end Sys2Proof
end

