-- ==== Sys2Proof/Laws/Step.lean ====
section
/-! SUPPORT. Everything a step can do, said once, as one principle: what each elementary change keeps, every step
keeps. -/

namespace Sys2Proof.Machine

/-! ## The faults of a command's own checks -/

/-- A check that raises neither of the two faults that are not checks of a command (R363(b), R377). -/
structure ChecksOnly {α : Type} (x : Except FaultCause α) : Prop where
  ne : ∀ e, x = .error e → e ≠ .hostGpioNotReady ∧ e ≠ .isrContract

theorem ChecksOnly.ok {α : Type} (a : α) : ChecksOnly (.ok a) := ⟨fun _ h => by cases h⟩

theorem ChecksOnly.error {α : Type} {e : FaultCause} (h1 : e ≠ .hostGpioNotReady) (h2 : e ≠ .isrContract) :
    ChecksOnly (.error e : Except FaultCause α) :=
  ⟨fun _ h => by cases h; exact ⟨h1, h2⟩⟩

theorem ChecksOnly.bind {α β : Type} {x : Except FaultCause α} {f : α → Except FaultCause β}
    (h : ChecksOnly x) (h' : ∀ a, ChecksOnly (f a)) : ChecksOnly (x >>= f) := by
  cases x with
  | error e => exact ⟨fun e' he => h.ne e' (by cases he; rfl)⟩
  | ok a => exact h' a

theorem ChecksOnly.ite {α : Type} {p : Prop} [Decidable p] {x y : Except FaultCause α} (h : ChecksOnly x)
    (h' : ChecksOnly y) : ChecksOnly (if p then x else y) := by
  split
  · exact h
  · exact h'

theorem checkBanks_checksOnly (banks : Byte) : ChecksOnly (checkBanks banks) :=
  .ite (.error (by simp) (by simp)) (.ok _)

theorem checkLine_checksOnly (c : Cfg) (l : BitVec 4) : ChecksOnly (checkLine c l) := by
  unfold checkLine
  split
  · exact .error (by simp) (by simp)
  · exact .ite (.ok _) (.error (by simp) (by simp))

theorem resolve_checksOnly (c : Cfg) (off : Word) : ChecksOnly (resolve c off) := by
  unfold resolve
  split
  · exact .error (by simp) (by simp)
  · exact .ok _

theorem checkTiming_checksOnly (n : FieldName) (f : Field) (x : Word) : ChecksOnly (checkTiming n f x) :=
  .ite (.error (by simp) (by simp)) (.ok _)

theorem checkTft_checksOnly (n : FieldName) (f : Field) (x : Word) : ChecksOnly (checkTft n f x) :=
  .ite (.error (by simp) (by simp)) (.ok _)

theorem checkTftLess1_checksOnly (n : FieldName) (f : Field) (x : Word) : ChecksOnly (checkTftLess1 n f x) :=
  .ite (.error (by simp) (by simp)) (.ok _)

theorem checkLocation_checksOnly (c : Cfg) (idx : Word) : ChecksOnly (checkLocation c idx) :=
  .ite (.error (by simp) (by simp)) (.ok _)

theorem encRead_checksOnly (c : Cfg) (s st h : Word) : ChecksOnly (encRead c s st h) :=
  (checkTiming_checksOnly ..).bind fun _ => (checkTiming_checksOnly ..).bind fun _ =>
    (checkTiming_checksOnly ..).bind fun _ => .ok _

theorem encWrite_checksOnly (c : Cfg) (s st h : Word) : ChecksOnly (encWrite c s st h) :=
  (checkTiming_checksOnly ..).bind fun _ => (checkTiming_checksOnly ..).bind fun _ =>
    (checkTiming_checksOnly ..).bind fun _ => .ok _

theorem encAddr_checksOnly (c : Cfg) (s h : Word) : ChecksOnly (encAddr c s h) :=
  (checkTiming_checksOnly ..).bind fun _ => (checkTiming_checksOnly ..).bind fun _ => .ok _

theorem checkSize_checksOnly (c : Cfg) (w h : Word) : ChecksOnly (checkSize c w h) :=
  (checkTftLess1_checksOnly ..).bind fun _ => checkTftLess1_checksOnly ..

theorem checkHPorch_checksOnly (c : Cfg) (f b p : Word) : ChecksOnly (checkHPorch c f b p) :=
  (checkTft_checksOnly ..).bind fun _ => (checkTft_checksOnly ..).bind fun _ => checkTftLess1_checksOnly ..

theorem checkVPorch_checksOnly (c : Cfg) (f b p : Word) : ChecksOnly (checkVPorch c f b p) :=
  (checkTft_checksOnly ..).bind fun _ => (checkTft_checksOnly ..).bind fun _ => checkTftLess1_checksOnly ..

theorem checkTftTiming_checksOnly (c : Cfg) (p st su h : Word) : ChecksOnly (checkTftTiming c p st su h) :=
  (checkTft_checksOnly ..).bind fun _ => (checkTft_checksOnly ..).bind fun _ =>
    (checkTft_checksOnly ..).bind fun _ => checkTft_checksOnly ..

theorem initChecks_checksOnly (c : Cfg) (r : InitRecord) : ChecksOnly (initChecks c r) := by
  refine (encRead_checksOnly ..).bind fun _ => (encWrite_checksOnly ..).bind fun _ =>
    (encAddr_checksOnly ..).bind fun _ => ?_
  dsimp only
  split
  · exact (checkLocation_checksOnly ..).bind fun _ => .ok _
  · exact .ok _

theorem tftChecks_checksOnly (c : Cfg) (b : BitVec 4) (r : TftRecord) : ChecksOnly (tftChecks c b r) := by
  unfold tftChecks
  have rest : ∀ x : PUnit, ChecksOnly (do
      checkFrameBase c r.offset
      checkSize c r.width r.height
      checkHPorch c r.hFront r.hBack r.hPulse
      checkVPorch c r.vFront r.vBack r.vPulse
      checkTftTiming c r.period r.start r.setup r.hold
      checkMaskBlend c (r.maskBlend.setWidth 32)) := fun _ =>
    (checkTft_checksOnly ..).bind fun _ => (checkSize_checksOnly ..).bind fun _ =>
      (checkHPorch_checksOnly ..).bind fun _ => (checkVPorch_checksOnly ..).bind fun _ =>
        (checkTftTiming_checksOnly ..).bind fun _ => checkTft_checksOnly ..
  split
  · exact .error (by simp) (by simp)
  · exact rest ()

/-- A command's own checks raise neither HostGpioNotReady nor IsrContract (R365). -/
theorem planOf_checksOnly {i : Instr} {s : State} {p : Except FaultCause Plan} (h : planOf i s = some p) :
    ChecksOnly p := by
  cases i <;> simp only [planOf, Option.some.injEq, reduceCtorEq] at h <;> subst h
  case regRead => exact (resolve_checksOnly ..).bind fun _ => .ok _
  case regWrite => exact (resolve_checksOnly ..).bind fun _ => .ok _
  case regBitwrite =>
    refine (resolve_checksOnly ..).bind fun _ => ?_
    dsimp only
    split
    · exact .error (by simp) (by simp)
    · exact .ok _
  case regMerge => exact (resolve_checksOnly ..).bind fun _ => .ok _
  case setReadTiming => exact (encRead_checksOnly ..).bind fun _ => .ok _
  case setWriteTiming => exact (encWrite_checksOnly ..).bind fun _ => .ok _
  case setAddrTiming => exact (encAddr_checksOnly ..).bind fun _ => .ok _
  case setGlobalPolarity => exact (checkLine_checksOnly ..).bind fun _ => .ok _
  case setBankPolarity =>
    exact (checkBanks_checksOnly ..).bind fun _ => (checkLine_checksOnly ..).bind fun _ => .ok _
  case enableBank => exact (checkBanks_checksOnly ..).bind fun _ => .ok _
  case setBankReadTiming =>
    exact (checkBanks_checksOnly ..).bind fun _ => (encRead_checksOnly ..).bind fun _ => .ok _
  case setBankWriteTiming =>
    exact (checkBanks_checksOnly ..).bind fun _ => (encWrite_checksOnly ..).bind fun _ => .ok _
  case setBankAddrTiming =>
    exact (checkBanks_checksOnly ..).bind fun _ => (encAddr_checksOnly ..).bind fun _ => .ok _
  case configBankReadFlags => exact (checkBanks_checksOnly ..).bind fun _ => .ok _
  case configBankWriteFlags => exact (checkBanks_checksOnly ..).bind fun _ => .ok _
  case configBankAddrFlags => exact (checkBanks_checksOnly ..).bind fun _ => .ok _
  case enableByteLane => exact (checkBanks_checksOnly ..).bind fun _ => .ok _
  case enableNand => exact (checkBanks_checksOnly ..).bind fun _ => .ok _
  case enableChipSelect => exact .ok _
  case enableAddressLatch => exact .ok _
  case enableByteLanePin => exact .ok _
  case enableControllerPins => exact .ok _
  case setLowAddrPins => exact .ok _
  case setHighAddrPins => exact .ok _
  case setRoutingLocation => exact (checkLocation_checksOnly ..).bind fun _ => .ok _
  case enableTftPins => exact .ok _
  case init =>
    refine (checkBanks_checksOnly ..).bind fun _ => ?_
    split
    · exact .ok _
    · exact (initChecks_checksOnly ..).bind fun _ => .ok _
  case disable => exact .ok _
  case bankBase =>
    refine (checkBanks_checksOnly ..).bind fun _ => ?_
    split
    · exact .ok _
    · exact .error (by simp) (by simp)
  case tftInit => exact (tftChecks_checksOnly ..).bind fun _ => .ok _
  case tftSetFrameBase => exact (checkTft_checksOnly ..).bind fun _ => .ok _
  case tftSetSize => exact (checkSize_checksOnly ..).bind fun _ => .ok _
  case tftSetHPorch => exact (checkHPorch_checksOnly ..).bind fun _ => .ok _
  case tftSetVPorch => exact (checkVPorch_checksOnly ..).bind fun _ => .ok _
  case tftSetTiming => exact (checkTftTiming_checksOnly ..).bind fun _ => .ok _
  case tftSetMaskBlend => exact (checkTft_checksOnly ..).bind fun _ => .ok _

theorem windowCheck_checksOnly (addr : Word) (s : State) : ChecksOnly (windowCheck addr s) := by
  unfold windowCheck
  split
  · exact .error (by simp) (by simp)
  · split
    · exact .error (by simp) (by simp)
    · exact .ite (.ok _) (.error (by simp) (by simp))

/-! ## Commands -/

/-- What every elementary change of a command keeps: the change of its issue, of its micro-steps, and of the two
host events. -/
structure CommandKeeps (P : State → Prop) (s : State) : Prop where
  start : P s
  /-- A fault raised before the first micro-step. -/
  raise : ∀ e o, e ≠ .hostGpioNotReady → e ≠ .isrContract → P (raise e o .main s)
  /-- The issue of a command whose checks pass. -/
  busy : ∀ i p, planOf i s = some (.ok p) →
    P { s with cfgr := .busy { cmd := i, k := 0, todo := p.ops, ret := p.ret, t := 0, c := 0 } }
  micro : ∀ u, P u → u.fault = none → u.cfgr ≠ .idle → P (microStep u)
  barrier : P (barrierEffect s)
  window : ∀ n addr write data, P (windowEffect n addr write data s)

theorem issue_keeps {P : State → Prop} {s : State} (h : CommandKeeps P s) {i : Instr}
    {p : Except FaultCause Plan} (hp : planOf i s = some p) : P (issue i p s) := by
  unfold issue
  split
  · exact h.raise _ _ (by simp) (by simp)
  · split
    · exact h.raise _ _ (by simp) (by simp)
    · split
      · exact h.raise _ _ ((planOf_checksOnly hp).ne _ rfl).1 ((planOf_checksOnly hp).ne _ rfl).2
      · exact h.busy i _ hp

/-- A command or host event that has a next state was admitted, and keeps what its elementary changes keep. -/
theorem exec_keeps {P : State → Prop} {s t : State} {i : Instr} (hx : exec i s = .next t)
    (h : s.idleOk → CommandKeeps P s) : s.idleOk ∧ P t := by
  rcases exec_eq i s with ⟨p, hp, he⟩ | ⟨-, -, he⟩ | ⟨-, addr, write, data, -, he⟩
  · rw [he, runCommand] at hx
    obtain ⟨hi, rfl⟩ := whenIdle_eq_next hx
    exact ⟨hi, runToEnd_keeps (h hi).micro (issue_keeps (h hi) hp)⟩
  · rw [he, execBarrier] at hx
    obtain ⟨hi, rfl⟩ := whenIdle_eq_next hx
    exact ⟨hi, (h hi).barrier⟩
  · rw [he, execWindowAccess] at hx
    obtain ⟨hi, rfl⟩ := whenIdle_eq_next hx
    refine ⟨hi, ?_⟩
    cases hw : windowCheck addr s with
    | error e =>
      exact (h hi).raise _ _ ((windowCheck_checksOnly addr s).ne e hw).1
        ((windowCheck_checksOnly addr s).ne e hw).2
    | ok n => exact (h hi).window n addr write data

/-! ## Steps -/

/-- What every elementary change of a step other than the reset event keeps. -/
structure StepKeeps (P : State → Prop) (s : State) : Prop where
  start : P s
  command : s.cfgr = .idle → CommandKeeps P s
  micro : s.cfgr ≠ .idle → P (microStep s)
  tick : P (tick s)
  isrWrite : ∀ r w, s.gpioBlocks r w = false → P (s.putReg r w)
  isrRaise : ∀ e, e = .isrContract ∨ e = .hostGpioNotReady → P (raise e 0x00 .isr s)
  setClk : s.cfgr = .idle → ∀ on, P { s with clkOn := on }
  setGpio : s.cfgr = .idle → ∀ ready, P { s with gpioReady := ready }
  setOrders : ∀ orders, P { s with orders := orders }

theorem isrBitWrite_keeps {P : State → Prop} {s : State} (h : StepKeeps P s) (off b : Word) (x : Bool) :
    P (isrBitWrite off b x s) := by
  unfold isrBitWrite
  split
  · split
    · exact h.isrRaise _ (.inl rfl)
    · split
      case h_1 hw =>
        obtain ⟨w, hb, rfl⟩ := bitWrite_eq_ok hw
        exact h.isrWrite _ w hb
      case h_2 hw =>
        unfold bitWrite at hw
        rw [(store_eq_error hw).2]
        exact h.isrRaise _ (.inr rfl)
  · exact h.isrRaise _ (.inl rfl)

theorem present_keeps {P : State → Prop} {s t : State} {frame : List Word} {meaning : Instr → State → Result}
    (hx : present meaning frame s = .next t) (h : StepKeeps P s)
    (hm : ∀ i, meaning i s = .next t → P t) : P t := by
  unfold present at hx
  split at hx
  · exact hm _ hx
  · obtain ⟨hi, rfl⟩ := whenIdle_eq_next hx
    exact (h.command hi.2).raise _ _ (by simp) (by simp)
  · cases hx

/-- A step other than the reset event that has a next state keeps what its elementary changes keep. -/
theorem agentStep_keeps {P : State → Prop} {s t : State} {e : Event} (hx : agentStep exec e s = .next t)
    (hr : e ≠ .reset) (h : StepKeeps P s) : P t := by
  cases e <;> simp only [agentStep] at hx
  case command frame =>
    exact present_keeps hx h fun i hi => (exec_keeps hi fun hid => h.command hid.2).2
  case issue frame =>
    refine present_keeps hx h fun i hi => ?_
    unfold issueOnly at hi
    split at hi
    · exact (exec_keeps hi fun hid => h.command hid.2).2
    case h_2 p hp =>
      obtain ⟨hid, rfl⟩ := whenIdle_eq_next hi
      exact issue_keeps (h.command hid.2) hp
  case micro =>
    unfold microEvent at hx
    split at hx
    · cases hx
    · cases hx
      exact h.micro (by simp [*])
  case tick =>
    split at hx
    · cases hx; exact h.tick
    · cases hx
  case isrBitWrite off b x => cases hx; exact isrBitWrite_keeps h off b x
  case isrOther off => cases hx; exact h.isrRaise _ (.inl rfl)
  case setClk on =>
    obtain ⟨hi, rfl⟩ := whenIdle_eq_next hx
    exact h.setClk hi.2 on
  case setGpio ready =>
    obtain ⟨hi, rfl⟩ := whenIdle_eq_next hx
    exact h.setGpio hi.2 ready
  case setOrders orders => cases hx; exact h.setOrders orders
  case reset => exact absurd rfl hr

/-- Everything a step that has a next state can be: no agent moves; the reset event; or, with no fault, a step of
another agent. -/
theorem step_eq_next {s t : State} (hx : step s = .next t) :
    (s.agenda = [] ∧ t = s)
    ∨ (∃ rest, s.agenda = .reset :: rest ∧ t = resetEvent { s with agenda := rest })
    ∨ ∃ e rest, s.agenda = e :: rest ∧ e ≠ .reset ∧ s.fault = none
        ∧ agentStep exec e { s with agenda := rest } = .next t := by
  unfold step at hx
  split at hx
  case h_1 ha => cases hx; exact .inl ⟨ha, rfl⟩
  case h_2 e rest ha =>
    right
    cases hf : s.fault with
    | none =>
      by_cases he : e = .reset
      · subst he
        simp only [takeStep] at hx
        cases hx
        exact .inl ⟨rest, ha, rfl⟩
      · right
        refine ⟨e, rest, ha, he, rfl, ?_⟩
        cases e <;> simp_all [takeStep]
    | some f =>
      cases e <;> simp only [takeStep, hf] at hx <;> cases hx
      exact .inl ⟨rest, ha, rfl⟩

/-- A step keeps what its elementary changes keep. -/
theorem step_keeps {P : State → Prop} {s t : State} (hx : step s = .next t) (h0 : P s)
    (hreset : ∀ rest, s.agenda = .reset :: rest → P (resetEvent { s with agenda := rest }))
    (h : ∀ e rest, s.agenda = e :: rest → e ≠ .reset → s.fault = none → StepKeeps P { s with agenda := rest }) :
    P t := by
  rcases step_eq_next hx with ⟨-, rfl⟩ | ⟨rest, ha, rfl⟩ | ⟨e, rest, ha, he, hf, hx'⟩
  · exact h0
  · exact hreset rest ha
  · exact agentStep_keeps hx' he (h e rest ha he hf)

end Sys2Proof.Machine
end

