-- ==== Sys2Proof/Tests/Slice0.lean ====
section
/-! SUPPORT. The model's own tests. Expected results are those of spec/95_test_vectors.md, named in each comment,
or worked by hand from the rule named; then, for each statement of Obligations.lean with hypotheses, a state and
operands that meet them. -/

namespace Sys2Proof.Tests

open Sys2Proof.Machine Sys2Proof.Claims

set_option Elab.async false

/-! ## Helpers -/

/-- The reset state with the collaborators' inputs on: the start state "reset" of the vectors. -/
def live : State := { State.reset with clkOn := true, gpioReady := true }

/-- The same of the LEGACY instance of the vectors. -/
def legacy : State := { live with cfg := Cfg.legacyRef }

/-- The same with the interrupt-context contract accepted. -/
def accepting : State := { live with cfg := { Cfg.ref with isrBitWriteAccepted := true } }

/-- s with w in r. -/
def having (s : State) (r : Reg) (w : Word) : State := { s with regs := s.regs.set r w }

/-- s with a list of steps still to be taken. -/
def about (s : State) (es : List Event) : State := { s with agenda := es }

/-- What a property says of the next state; false where there is none. -/
def nextHas (r : Result) (p : State → Bool) : Bool :=
  match r with
  | .next t => p t
  | .fault _ => false
  | .refused _ => false

theorem exists_next_of_nextHas {r : Result} {p : State → Bool} (h : nextHas r p = true) :
    ∃ t, r = .next t ∧ p t = true := by
  cases r with
  | next t => exact ⟨t, rfl, h⟩
  | fault f => cases h
  | refused f => cases h

/-- Whether the frame runs without a fault and leaves w in r. -/
def leaves (s : State) (frame : List Word) (r : Reg) (w : Word) : Bool :=
  nextHas (step (about s [.command frame])) fun t => t.fault.isNone && t.cfgr == .idle && t.regs.get r == w

/-- Whether the frame runs without a fault and answers w, the registers unchanged. -/
def answers (s : State) (frame : List Word) (w : Option Word) : Bool :=
  nextHas (step (about s [.command frame])) fun t => t.fault.isNone && t.resp == w && t.regs == s.regs

/-- Whether the frame raises a fault of that cause, with that code and opcode, the registers unchanged. -/
def raises (s : State) (frame : List Word) (cause : FaultCause) (code : Nat) (op : Byte) : Bool :=
  nextHas (step (about s [.command frame])) fun t =>
    t.fault == some { cause := cause, opcode := op, agent := .main } && cause.code == code
      && t.regs == s.regs && t.resp.isNone

/-- The argument words of V-INIT-1. -/
def initArgs : List Word := [0x003F0001, 2, 4, 1, 2, 4, 1, 1, 1, 0, 0, 0]

/-- INIT's record with a flags word, one triple for reads and writes, one address pair, and the patterns. -/
def rec' (flags setup strobe hold aSetup aHold aLow aHigh loc : Word) : InitRecord :=
  initRecordOf flags setup strobe hold setup strobe hold aSetup aHold aLow aHigh loc

/-- The record of V-INIT-1. -/
def initRec : InitRecord := rec' 0x003F0001 2 4 1 1 1 0 0 0

/-- The argument words of V-TFT-1. -/
def tftArgs : List Word := [0, 320, 240, 10, 20, 4, 4, 2, 2, 3, 0, 1, 1, 0x00100100]

/-- The record of V-TFT-1, with another width, drive mode word or mask and blend mode where asked. -/
def tftRec (width flags : Word) : TftRecord := tftRecordOf 0 width 240 10 20 4 4 2 2 3 0 1 1 flags

/-! ## Well-formedness: each gate refuses a command of an instance without the feature (R7, R111) -/

theorem test_wf_perBankTiming :
    (Instr.setBankPolarity 1 0 true).wellFormed Cfg.legacyRef = false
      ∧ (Instr.setBankReadTiming 1 0 0 0).wellFormed Cfg.legacyRef = false
      ∧ (Instr.setBankWriteTiming 1 0 0 0).wellFormed Cfg.legacyRef = false
      ∧ (Instr.setBankAddrTiming 1 0 0).wellFormed Cfg.legacyRef = false
      ∧ (Instr.configBankReadFlags 1 true true true).wellFormed Cfg.legacyRef = false
      ∧ (Instr.configBankWriteFlags 1 true true).wellFormed Cfg.legacyRef = false
      ∧ (Instr.configBankAddrFlags 1 true).wellFormed Cfg.legacyRef = false := by decide

theorem test_wf_hasByteLane :
    (Instr.enableByteLane 1 true).wellFormed Cfg.legacyRef = false
      ∧ (Instr.enableByteLanePin true).wellFormed Cfg.legacyRef = false := by decide

theorem test_wf_hasNand : (Instr.enableNand 1 true).wellFormed Cfg.legacyRef = false := by decide

theorem test_wf_hasAddrPinCtl :
    (Instr.setLowAddrPins 0).wellFormed Cfg.legacyRef = false
      ∧ (Instr.setHighAddrPins 0).wellFormed Cfg.legacyRef = false := by decide

theorem test_wf_routeHasLocation :
    (Instr.setRoutingLocation 0).wellFormed { Cfg.ref with modernHasLocation := false } = false
      ∧ (Instr.setRoutingLocation 0).wellFormed { Cfg.legacyRef with modernHasLocation := false } = true := by decide

theorem test_wf_hasTft :
    (Instr.enableTftPins true).wellFormed Cfg.legacyRef = false
      ∧ (Instr.tftInit 0 (tftRec 320 0x00100100)).wellFormed Cfg.legacyRef = false
      ∧ (Instr.tftSetFrameBase 0).wellFormed Cfg.legacyRef = false
      ∧ (Instr.tftSetSize 1 1).wellFormed Cfg.legacyRef = false
      ∧ (Instr.tftSetHPorch 0 0 1).wellFormed Cfg.legacyRef = false
      ∧ (Instr.tftSetVPorch 0 0 1).wellFormed Cfg.legacyRef = false
      ∧ (Instr.tftSetTiming 0 0 0 0).wellFormed Cfg.legacyRef = false
      ∧ (Instr.tftSetMaskBlend 0).wellFormed Cfg.legacyRef = false := by decide

/-! ## Decoding: a frame of each command, written out from R102 and R111 -/

theorem test_decode_regRead : decode Cfg.ref [0x00000001, 8] = .command (.regRead 8) := by decide
theorem test_decode_regWrite : decode Cfg.ref [0x00000002, 0x10, 2] = .command (.regWrite 0x10 2) := by decide
theorem test_decode_regBitwrite : decode Cfg.ref [0x00100003, 0x14, 2] = .command (.regBitwrite 0x14 2 true) := by decide
theorem test_decode_regMerge : decode Cfg.ref [0x00000004, 0x14, 0x30000, 0x10000]
    = .command (.regMerge 0x14 0x30000 0x10000) := by decide
theorem test_decode_windowAccess : decode Cfg.ref [0x0010000E, 0x80000000, 0x12345678]
    = .command (.windowAccess 0x80000000 true 0x12345678) := by decide
theorem test_decode_barrier : decode Cfg.ref [0x0000000F] = .command .barrier := by decide
theorem test_decode_setReadTiming : decode Cfg.ref [0x00000010, 2, 4, 1] = .command (.setReadTiming 2 4 1) := by decide
theorem test_decode_setWriteTiming : decode Cfg.ref [0x00000011, 15, 63, 7]
    = .command (.setWriteTiming 15 63 7) := by decide
theorem test_decode_setAddrTiming : decode Cfg.ref [0x00000012, 1, 2] = .command (.setAddrTiming 1 2) := by decide
theorem test_decode_setGlobalPolarity : decode Cfg.ref [0x001A0020] = .command (.setGlobalPolarity 10 true) := by decide
theorem test_decode_setBankPolarity : decode Cfg.ref [0x00130521] = .command (.setBankPolarity 5 3 true) := by decide
theorem test_decode_enableBank : decode Cfg.ref [0x00100330] = .command (.enableBank 3 true) := by decide
theorem test_decode_setBankReadTiming : decode Cfg.ref [0x00000431, 5, 4, 1]
    = .command (.setBankReadTiming 4 5 4 1) := by decide
theorem test_decode_setBankWriteTiming : decode Cfg.ref [0x00000232, 1, 2, 3]
    = .command (.setBankWriteTiming 2 1 2 3) := by decide
theorem test_decode_setBankAddrTiming : decode Cfg.ref [0x00000833, 2, 3]
    = .command (.setBankAddrTiming 8 2 3) := by decide
theorem test_decode_configBankReadFlags : decode Cfg.ref [0x00A00134]
    = .command (.configBankReadFlags 1 true false true) := by decide
theorem test_decode_configBankWriteFlags : decode Cfg.ref [0x00400135]
    = .command (.configBankWriteFlags 1 false true) := by decide
theorem test_decode_configBankAddrFlags : decode Cfg.ref [0x00200236]
    = .command (.configBankAddrFlags 2 true) := by decide
theorem test_decode_enableByteLane : decode Cfg.ref [0x00100137] = .command (.enableByteLane 1 true) := by decide
theorem test_decode_enableNand : decode Cfg.ref [0x00100A38] = .command (.enableNand 10 true) := by decide
theorem test_decode_enableChipSelect : decode Cfg.ref [0x00190040] = .command (.enableChipSelect 9 true) := by decide
theorem test_decode_enableAddressLatch : decode Cfg.ref [0x00100041] = .command (.enableAddressLatch true) := by decide
theorem test_decode_enableByteLanePin : decode Cfg.ref [0x00000042] = .command (.enableByteLanePin false) := by decide
theorem test_decode_enableControllerPins : decode Cfg.ref [0x00100043]
    = .command (.enableControllerPins true) := by decide
theorem test_decode_setLowAddrPins : decode Cfg.ref [0x00000044, 0x10000] = .command (.setLowAddrPins 0x10000) := by decide
theorem test_decode_setHighAddrPins : decode Cfg.ref [0x00000045, 0x7C0000]
    = .command (.setHighAddrPins 0x7C0000) := by decide
theorem test_decode_setRoutingLocation : decode Cfg.ref [0x00000046, 1] = .command (.setRoutingLocation 1) := by decide
theorem test_decode_enableTftPins : decode Cfg.ref [0x00100047] = .command (.enableTftPins true) := by decide
/-- V-DEC-2, with A1 of V-INIT-9: bl, pm, and WE active-low. -/
theorem test_decode_init : decode Cfg.ref [0x00110150, 0x00040051, 2, 4, 1, 3, 5, 2, 6, 7, 8, 9, 10]
    = .command (.init 1 1 true
        { mode := 1, ardyEnable := false, ardyDisableTimeout := false, byteLane := true, noIdle := false
          pageMode := true, prefetch := false, halfRE := false, writeBufferDisable := false, halfWE := false
          halfALE := false, polARDY := false, polALE := false, polWE := true, polRE := false, polCS := false
          polBL := false, rdSetup := 2, rdStrobe := 4, rdHold := 1, wrSetup := 3, wrStrobe := 5, wrHold := 2
          addrSetup := 6, addrHold := 7, aLow := 8, aHigh := 9, loc := 10 }) := by decide
theorem test_decode_disable : decode Cfg.ref [0x00000051] = .command .disable := by decide
theorem test_decode_bankBase : decode Cfg.ref [0x00000860] = .command (.bankBase 8) := by decide
/-- The frame of V-TFT-1 with the argument words told apart, and A14 = 0x0015_3501: CS active-low, width,
interleave 1, frame trigger, shift, mask and blend 5, INTERNAL (R110). -/
theorem test_decode_tftInit :
    decode Cfg.ref [0x00020070, 1, 2, 3, 4, 5, 6, 7, 8, 9, 10, 11, 12, 13, 0x00153501]
      = .command (.tftInit 2
          { offset := 1, width := 2, height := 3, hFront := 4, hBack := 5, hPulse := 6, vFront := 7, vBack := 8
            vPulse := 9, period := 10, start := 11, setup := 12, hold := 13, polCS := true, polDClk := false
            polDataEn := false, polVSync := false, polHSync := false, pixelWidth := true, colorSource := false
            interleave := 1, frameTrigger := true, shiftDclk := true, maskBlend := 5, drive := 1 }) := by decide
theorem test_decode_tftSetFrameBase : decode Cfg.ref [0x00000071, 7] = .command (.tftSetFrameBase 7) := by decide
theorem test_decode_tftSetSize : decode Cfg.ref [0x00000072, 480, 272] = .command (.tftSetSize 480 272) := by decide
theorem test_decode_tftSetHPorch : decode Cfg.ref [0x00000073, 10, 20, 4] = .command (.tftSetHPorch 10 20 4) := by decide
theorem test_decode_tftSetVPorch : decode Cfg.ref [0x00000074, 4, 2, 3] = .command (.tftSetVPorch 4 2 3) := by decide
theorem test_decode_tftSetTiming : decode Cfg.ref [0x00000075, 3, 0, 1, 2] = .command (.tftSetTiming 3 0 1 2) := by decide
theorem test_decode_tftSetMaskBlend : decode Cfg.ref [0x00000076, 5] = .command (.tftSetMaskBlend 5) := by decide

/-- V-DEC-4 to V-DEC-10, V-DEC-16 to V-DEC-18: what R112 makes illegal. -/
theorem test_decode_illegal :
    decode Cfg.ref [0x00000000] = .illegal 0x00000000
      ∧ decode Cfg.ref [0x00000005] = .illegal 0x00000005
      ∧ decode Cfg.ref [0x00000077] = .illegal 0x00000077
      ∧ decode Cfg.ref [0x000000FF] = .illegal 0x000000FF
      ∧ decode Cfg.ref [0x01000001, 0] = .illegal 0x01000001
      ∧ decode Cfg.ref [0x00000101, 0] = .illegal 0x00000101
      ∧ decode Cfg.ref [0x00100001, 0] = .illegal 0x00100001
      ∧ decode Cfg.ref [0x0000010F] = .illegal 0x0000010F
      ∧ decode Cfg.ref [0x00800035] = .illegal 0x00800035
      ∧ decode Cfg.ref (0x00110150 :: 0x00001001 :: initArgs.tail) = .illegal 0x00110150
      ∧ decode Cfg.ref (0x00110150 :: 0x00400001 :: initArgs.tail) = .illegal 0x00110150
      ∧ decode Cfg.ref (0x00000070 :: tftArgs.take 13 ++ [0x00100020]) = .illegal 0x00000070 := by decide

/-- The model's choice where the number of words is not NARGS (notes/assumptions/11.md): a header that is illegal by
itself, a gated opcode's included, is illegal; any other is no frame. -/
theorem test_decode_wrong_length :
    decode Cfg.legacyRef [0x00000044] = .illegal 0x00000044
      ∧ decode Cfg.ref [0x01000001] = .illegal 0x01000001
      ∧ decode Cfg.ref [0x00000044] = .notFrame
      ∧ decode Cfg.ref [0x00000001, 8, 8] = .notFrame := by decide

/-- V-DEC-14, V-DEC-15: the gates at the decoder. -/
theorem test_decode_gated :
    decode Cfg.legacyRef [0x00130521] = .illegal 0x00130521
      ∧ decode Cfg.legacyRef (0x00000070 :: tftArgs) = .illegal 0x00000070
      ∧ decode Cfg.legacyRef [0x00100038] = .illegal 0x00100038
      ∧ decode Cfg.legacyRef [0x00100037] = .illegal 0x00100037
      ∧ decode Cfg.legacyRef [0x00000044, 0] = .illegal 0x00000044 := by decide

/-- The opcode table's numbering: the header is the low word, the next word counts on from bit 32. -/
theorem test_decodeTableWord :
    decodeTableWord 96 0x0000001000000014_00000002 = some (.regWrite 0x14 0x10)
      ∧ decodeTableWord 32 0x00000010 = some (.setReadTiming 0 0 0) := by decide

/-! ## One step of each command -/

/-- V-RAW-2's register, and V-RAW-3. -/
theorem test_regRead : answers (having live (.rdTiming 1) 7) [0x00000001, 0x1C] (some 7) = true
    ∧ raises live [0x00000001, 0x002] (.badRegister 2) 8 0x01 = true := by decide +kernel
/-- V-RAW-7, V-RAW-9. -/
theorem test_regWrite : leaves live [0x00000002, 0x10, 2] (.polarity 0) 2 = true
    ∧ raises { live with gpioReady := false } [0x00000002, 0x14, 1] .hostGpioNotReady 11 0x02 = true := by decide +kernel
/-- V-RAW-12, V-RAW-13. -/
theorem test_regBitwrite : leaves (having live .route 0x25) [0x00000003, 0x14, 2] .route 0x21 = true
    ∧ raises live [0x00100003, 0x14, 32] (.badBitIndex 32) 5 0x03 = true := by decide +kernel
/-- V-RAW-19, V-RAW-20. -/
theorem test_regMerge : leaves (having live (.rdTiming 0) 0xF00) [0x00000004, 8, 0xF, 0x10] (.rdTiming 0) 0xF10 = true
    ∧ raises { live with gpioReady := false } [0x00000004, 0x14, 0, 1] .hostGpioNotReady 11 0x04 = true := by decide +kernel
/-- V-WIN-4. -/
theorem test_windowAccess :
    nextHas (step (about (having (having live .ctrl 0x40000101) .route 0x23) [.command [0x0010000E, 0x83FFFFFC, 0xDEADBEEF]]))
      (fun t => t.windowEvents == [⟨0, 0x83FFFFFC, .write 0xDEADBEEF⟩] && t.resp.isNone && !t.unfenced) = true := by
  decide +kernel
/-- V-WIN-1 and V-WIN-5 to V-WIN-7. -/
theorem test_windowAccess_faults :
    raises { live with unfenced := true } [0x0000000E, 0x80000000, 0] (.hazardNoBarrier 0x80000000) 13 0x0E = true
      ∧ raises live [0x0000000E, 0x7FFFFFFC, 0] (.badWindow 0x7FFFFFFC) 14 0x0E = true
      ∧ raises live [0x0000000E, 0x90000000, 0] (.badWindow 0x90000000) 14 0x0E = true
      ∧ raises (having (having live .ctrl 0x40000101) .route 0x23) [0x0000000E, 0x84000000, 0]
          (.windowDisabled 0x84000000) 15 0x0E = true := by decide +kernel
/-- V-WIN-2, and V-WIN-13 for the clock. -/
theorem test_barrier :
    nextHas (step (about { live with unfenced := true, clkOn := false } [.command [0x0000000F]]))
      (fun t => t.fault.isNone && !t.unfenced && t.regs == live.regs) = true := by decide +kernel
/-- V-TIM-2, V-TIM-3. -/
theorem test_setReadTiming :
    leaves (having live (.rdTiming 0) 0xFFFFFFFF) [0x00000010, 0, 0, 0] (.rdTiming 0) 0xFFF8C0F0 = true
      ∧ raises live [0x00000010, 0, 0, 8] (.badTiming .rdHold 8) 3 0x10 = true := by decide +kernel
/-- V-TIM-4. -/
theorem test_setWriteTiming :
    leaves (having live (.wrTiming 0) 0x30000000) [0x00000011, 15, 63, 7] (.wrTiming 0) 0x30073F0F = true := by decide +kernel
/-- V-TIM-5. -/
theorem test_setAddrTiming :
    leaves (having live (.addrTiming 0) 0x10000303) [0x00000012, 1, 1] (.addrTiming 0) 0x10000101 = true := by decide +kernel
/-- V-POL-2, V-POL-4. -/
theorem test_setGlobalPolarity : leaves (having live (.polarity 0) 0x3F) [0x00020020] (.polarity 0) 0x3B = true
    ∧ leaves live [0x00170020] .tftPolarity 8 = true := by decide +kernel
/-- V-POL-9 to V-POL-11. -/
theorem test_setGlobalPolarity_faults : raises live [0x001B0020] (.badLine 11) 2 0x20 = true
    ∧ raises legacy [0x00150020] (.badLine 5) 2 0x20 = true
    ∧ raises legacy [0x00160020] (.badLine 6) 2 0x20 = true := by decide +kernel
/-- V-POL-6, V-POL-12. -/
theorem test_setBankPolarity : leaves live [0x00130521] (.polarity 2) 2 = true
    ∧ leaves live [0x00130521] (.polarity 1) 0 = true
    ∧ raises live [0x001C1021] (.badBankMask 0x10) 1 0x21 = true := by decide +kernel
/-- V-BANK-1, V-BANK-2. -/
theorem test_enableBank : leaves (having live .ctrl 0x40000101) [0x00100330] .ctrl 0x40000301 = true
    ∧ leaves (having live .ctrl 0x40000301) [0x00000130] .ctrl 0x40000201 = true := by decide +kernel
/-- V-BANK-4, V-BANK-6. -/
theorem test_setBankReadTiming :
    leaves (having live (.rdTiming 2) 0x40000000) [0x00000431, 5, 4, 1] (.rdTiming 2) 0x40010405 = true
      ∧ raises live [0x00000031, 16, 0, 0] (.badTiming .rdSetup 16) 3 0x31 = true := by decide +kernel
/-- V-BANK-8. -/
theorem test_setBankWriteTiming : leaves live [0x00000232, 1, 2, 3] (.wrTiming 1) 0x00030201 = true := by decide +kernel
/-- V-BANK-9. -/
theorem test_setBankAddrTiming : leaves live [0x00000833, 2, 3] (.addrTiming 3) 0x00000302 = true := by decide +kernel
/-- V-BANK-10, V-BANK-11. -/
theorem test_configBankReadFlags :
    leaves (having live (.rdTiming 0) 0x00010402) [0x00A00134] (.rdTiming 0) 0x50010402 = true
      ∧ leaves (having live (.rdTiming 0) 0x70010402) [0x00000134] (.rdTiming 0) 0x00010402 = true := by decide +kernel
/-- V-BANK-12. -/
theorem test_configBankWriteFlags :
    leaves (having live (.wrTiming 0) 0x00010402) [0x00600135] (.wrTiming 0) 0x30010402 = true := by decide +kernel
/-- V-BANK-13. -/
theorem test_configBankAddrFlags :
    leaves (having live (.addrTiming 1) 0x00000101) [0x00200236] (.addrTiming 1) 0x10000101 = true := by decide +kernel
/-- V-BANK-17, V-BANK-18. -/
theorem test_enableByteLane : leaves (having live .ctrl 0x40000101) [0x00100137] .ctrl 0x41000101 = true
    ∧ raises live [0x00102037] (.badBankMask 0x20) 1 0x37 = true := by decide +kernel
/-- V-BANK-14, V-BANK-16. -/
theorem test_enableNand : leaves live [0x00100A38] .nandCtrl 0x31 = true
    ∧ leaves (having live .nandCtrl 0x31) [0x00000438] .nandCtrl 0x20 = true := by decide +kernel
/-- V-PIN-1, V-PIN-2. -/
theorem test_enableChipSelect : leaves (having live .route 0x21) [0x00190040] .route 0x33 = true
    ∧ leaves (having live .route 0x33) [0x00010040] .route 0x31 = true := by decide +kernel
/-- V-PIN-4. -/
theorem test_enableAddressLatch : leaves live [0x00100041] .route 0x20 = true := by decide +kernel
/-- V-PIN-5, V-PIN-7. -/
theorem test_enableByteLanePin :
    leaves (having (having live .ctrl 0x41000101) .route 0x23) [0x00100042] .route 0xA3 = true
      ∧ leaves (having (having live .ctrl 0x40000101) .route 0xA3) [0x00000042] .route 0xA3 = true := by decide +kernel
/-- V-PIN-9, V-PIN-10. -/
theorem test_enableControllerPins :
    raises { having live .route 0x20 with gpioReady := false } [0x00100043] .hostGpioNotReady 11 0x43 = true
      ∧ leaves { having live .route 0x21 with gpioReady := false } [0x00000043] .route 0x20 = true := by decide +kernel
/-- V-PIN-11, V-PIN-12. -/
theorem test_setLowAddrPins : leaves (having live .route 0x00030023) [0x00000044, 0x10000] .route 0x00010023 = true
    ∧ leaves live [0x00000044, 2] .route 2 = true := by decide +kernel
/-- V-PIN-14. -/
theorem test_setHighAddrPins : leaves (having live .route 0x23) [0x00000045, 0x7C0000] .route 0x007C0023 = true := by decide +kernel
/-- V-PIN-15, V-PIN-17. -/
theorem test_setRoutingLocation : leaves live [0x00000046, 1] .routeLoc 1 = true
    ∧ leaves (having legacy .route 0x10000023) [0x00000046, 7] .route 0x70000023 = true := by decide +kernel
/-- V-PIN-19, V-PIN-20. -/
theorem test_enableTftPins : leaves (having live .route 0x23) [0x00100047] .route 0x01000023 = true
    ∧ leaves (having live .route 0x01000023) [0x00000047] .route 0x23 = true := by decide +kernel
/-- V-INIT-1 and, for the other fields, V-INIT-9. -/
theorem test_init :
    leaves live (0x00110150 :: initArgs) .ctrl 0x40000101 = true
      ∧ leaves live (0x00110150 :: initArgs) .route 0x23 = true
      ∧ leaves live [0x00130350, 0x00040051, 2, 4, 1, 3, 5, 2, 1, 1, 0x10000, 0x7C0000, 3] .ctrl 0x43000305 = true
      ∧ leaves live [0x00130350, 0x00040051, 2, 4, 1, 3, 5, 2, 1, 1, 0x10000, 0x7C0000, 3] .route 0x007D00A7 = true := by
  decide +kernel
/-- V-INIT-3, V-INIT-5, V-INIT-15. -/
theorem test_init_corners :
    answers live [0x00110050, 0x003F0001, 16, 4, 1, 2, 4, 1, 1, 1, 0, 0, 0] none = true
      ∧ raises live [0x00110150, 0x003F0001, 2, 64, 1, 2, 4, 1, 1, 1, 0, 0, 0] (.badTiming .rdStrobe 64) 3 0x50 = true
      ∧ leaves legacy [0x00100150, 0x00200010, 0, 0, 0, 0, 0, 0, 0, 0, 0, 0, 0] .ctrl 0x100 = true
      ∧ leaves legacy [0x00100150, 0x00200010, 0, 0, 0, 0, 0, 0, 0, 0, 0, 0, 0] .route 1 = true := by decide +kernel
/-- V-DIS-1. -/
theorem test_disable : leaves (having (having live .ctrl 0x40000101) .route 0x23) [0x00000051] .ctrl 0 = true
    ∧ leaves (having (having live (.rdTiming 0) 0x10402) .route 0x23) [0x00000051] (.rdTiming 0) 0x10402 = true := by
  decide +kernel
/-- V-MAP-2, V-MAP-3, V-MAP-5, V-MAP-9. -/
theorem test_bankBase : answers live [0x00000860] (some 0x8C000000) = true
    ∧ answers (having live .ctrl 0x80000000) [0x00000860] (some 0xB0000000) = true
    ∧ answers (having legacy .ctrl 0x80000000) [0x00000260] (some 0x84000000) = true
    ∧ answers { having live .ctrl 0x80000000 with cfg := { Cfg.ref with memBase := 0xF0000000 } } [0x00000260] (some 0) = true := by
  decide +kernel
/-- V-MAP-6 to V-MAP-8. -/
theorem test_bankBase_faults : raises live [0x00000060] (.badBankIndex 0) 4 0x60 = true
    ∧ raises live [0x00000360] (.badBankIndex 3) 4 0x60 = true
    ∧ raises live [0x00001060] (.badBankMask 0x10) 1 0x60 = true := by decide +kernel
/-- V-TFT-1. -/
theorem test_tftInit : leaves live (0x00020070 :: tftArgs) .tftCtrl 0x00210001 = true
    ∧ leaves live (0x00020070 :: tftArgs) .tftSize 0x00EF013F = true
    ∧ leaves live (0x00020070 :: tftArgs) .tftVPorch 0x00080401 = true
    ∧ leaves live (0x00020070 :: tftArgs) .route 0x01000000 = true := by decide +kernel
/-- V-TFT-4, V-TFT-7. -/
theorem test_tftInit_faults : raises live (0x00040070 :: tftArgs) (.badBankIndex 4) 4 0x70 = true
    ∧ raises live (0x00020070 :: tftArgs.take 13 ++ [0x00180100]) (.badTftValue .maskBlend 8) 7 0x70 = true := by
  decide +kernel
/-- V-TFT-20. -/
theorem test_tftSetFrameBase : leaves live [0x00000071, 0x0FFFFFFF] .tftFrameBase 0x0FFFFFFF = true
    ∧ raises live [0x00000071, 0x10000000] (.badTftValue .frameBase 0x10000000) 7 0x71 = true := by decide +kernel
/-- V-TFT-8, V-TFT-10. -/
theorem test_tftSetSize : leaves live [0x00000072, 480, 272] .tftSize 0x010F01DF = true
    ∧ raises live [0x00000072, 0, 240] (.badTftValue .hsz 0) 7 0x72 = true := by decide +kernel
/-- V-TFT-12, V-TFT-13. -/
theorem test_tftSetHPorch : leaves live [0x00000073, 255, 255, 128] .tftHPorch 0x03FCFF7F = true
    ∧ raises live [0x00000073, 0, 0, 129] (.badTftValue .hsync 129) 7 0x73 = true := by decide +kernel
/-- V-TFT-14, V-TFT-15. -/
theorem test_tftSetVPorch : leaves live [0x00000074, 4, 2, 2] .tftVPorch 0x00080401 = true
    ∧ raises live [0x00000074, 0, 256, 1] (.badTftValue .vbporch 256) 7 0x74 = true := by decide +kernel
/-- V-TFT-17, V-TFT-18. -/
theorem test_tftSetTiming : leaves live [0x00000075, 2047, 2047, 3, 3] .tftTiming 0x337FF7FF = true
    ∧ raises live [0x00000075, 0, 0, 4, 0] (.badTftValue .tftSetup 4) 7 0x75 = true := by decide +kernel
/-- V-TFT-21, V-TFT-23. -/
theorem test_tftSetMaskBlend : leaves (having live .tftCtrl 0x00210001) [0x00000076, 5] .tftCtrl 0x00210015 = true
    ∧ raises live [0x00000076, 8] (.badTftValue .maskBlend 8) 7 0x76 = true := by decide +kernel

/-! ## The other steps -/

/-- The registers of V-FSM-1 with the engine at a position. -/
def frame (h v : Nat) : State :=
  { live with
    tft := { run := true, h := h, v := v, dirty := false }
    regs := { live.regs with
      tftSize := 0x00010001, tftHPorch := 0x00040100, tftVPorch := 0x00040100, tftPolarity := 8, tftCtrl := 1
      route := 0x01000000 } }

/-- V-FSM-1, ticks 6, 13 and 26, and V-FSM-2. -/
theorem test_tick :
    nextHas (step (about (frame 4 0) [.tick])) (fun t => t.tft == { run := true, h := 0, v := 1, dirty := false }) = true
      ∧ nextHas (step (about (frame 1 2) [.tick])) (fun t => t.pixel == some (0, 0)) = true
      ∧ nextHas (step (about (frame 4 4) [.tick])) (fun t => t.tft == { run := true, h := 0, v := 0, dirty := false }) = true
      ∧ nextHas (step (about live [.tick])) (fun t => t.tft == { run := false, h := 0, v := 0, dirty := false }) = true := by
  decide +kernel

/-- V-FSM-1, the pin levels at tick 1. -/
theorem test_pinLevel : (frame 0 0).pinLevel .hSync = some false ∧ (frame 0 0).pinLevel .vSync = some true
    ∧ (frame 0 0).pinLevel .dataEn = some false ∧ (frame 0 0).pinLevel .cs = some true := by decide +kernel

/-- V-FLT-3, V-FLT-4. -/
theorem test_isrBitWrite :
    nextHas (step (about live [.isrBitWrite 0x14 1 true]))
        (fun t => t.fault == some { cause := .isrContract, opcode := 0, agent := .isr } && t.regs == live.regs) = true
      ∧ nextHas (step (about accepting [.isrBitWrite 0x14 4 true]))
        (fun t => t.fault.isNone && t.regs.route == 0x10 && t.unfenced) = true := by decide +kernel

/-- V-FLT-1, V-FLT-2 and V-DEC-19: decode, then the clock, then the command's own checks. -/
theorem test_clock :
    raises { live with clkOn := false } [0x00101030] .hostClockOff 10 0x30 = true
      ∧ raises { live with clkOn := false } [0x01000030] (.illegalCommand 0x01000030) 9 0x30 = true := by decide +kernel

/-- R412, R272: INIT of four banks and four chip-selects has 87 micro-steps. -/
theorem test_init_micro_steps :
    nextHas (step (about live [.issue (0x001F0F50 :: initArgs)]))
      (fun t => match t.cfgr with | .idle => false | .busy b => b.todo.length == 87 && b.k == 0) = true := by
  decide +kernel

/-! ## Hypotheses that something meets, statement by statement -/

theorem test_live_ready : live.ready := ⟨⟨rfl, rfl⟩, rfl⟩
theorem test_legacy_ready : legacy.ready := ⟨⟨rfl, rfl⟩, rfl⟩

/-- A state with a fault of MAIN. -/
def stopped : State := { live with fault := some { cause := .badRegister 2, opcode := 1, agent := .main } }

/-- The state right after the issue of INIT of every bank and chip-select, with one micro-step next. -/
def inFlight : State :=
  match step (about live [.issue (0x001F0F50 :: initArgs), .micro]) with
  | .next t => t
  | .fault _ => live
  | .refused _ => live

theorem test_met_DecodeEncodeRoundTrip : (Instr.tftSetMaskBlend 7).wellFormed Cfg.ref = true := by decide
theorem test_met_LegalFramesAreEncodings : decode Cfg.legacyRef [0x00000046, 7] = .command (.setRoutingLocation 7) := by
  decide
theorem test_met_DecodingIsTotalAndInjective :
    (∀ o, Opcode.ofCode (headerOp 0x00000001) = some o → ([8] : List Word).length = o.row.nargs)
      ∧ (∀ o, Opcode.ofCode (headerOp 0x000000FF) = some o → ([] : List Word).length = o.row.nargs) := by
  constructor
  · intro o h
    have e : Opcode.ofCode (headerOp 0x00000001) = some .regRead := by decide
    rw [e] at h; cases h; rfl
  · intro o h
    have e : Opcode.ofCode (headerOp 0x000000FF) = none := by decide
    rw [e] at h; cases h
theorem test_met_IllegalFrames_unassigned :
    ∀ b ∈ ([0x00, 0x05, 0x0D, 0x13, 0x1F, 0x22, 0x2F, 0x39, 0x3F, 0x48, 0x4F, 0x52, 0x5F, 0x61, 0x6F, 0x77, 0xFF]
      : List Byte), unassigned (headerOp (b.setWidth 32)) := by unfold unassigned; decide
theorem test_met_IllegalFrames_assigned :
    (∀ b ∈ ([0x01, 0x04, 0x0E, 0x0F, 0x12, 0x20, 0x21, 0x30, 0x38, 0x40, 0x47, 0x50, 0x51, 0x60, 0x70, 0x76]
      : List Byte), ¬ unassigned (headerOp (b.setWidth 32)))
      ∧ ([8] : List Word).length = Opcode.regRead.row.nargs := by unfold unassigned; decide
theorem test_met_StepRunsTheDecodedCommand :
    (about live [.command [0x00000051]]).fault = none
      ∧ (about live [.command [0x00000051]]).agenda = .command [0x00000051] :: []
      ∧ decode (about live [.command [0x00000051]]).cfg [0x00000051] = .command .disable :=
  ⟨rfl, rfl, by decide⟩
theorem test_met_IllegalFramesRaiseIllegalCommand :
    (about live [.command [0]]).idleOk ∧ (about live [.command [0]]).agenda = .command [0] :: []
      ∧ (about live [.issue [0]]).agenda = .issue [0] :: [] ∧ decode live.cfg [0] = .illegal 0 :=
  ⟨⟨rfl, rfl⟩, rfl, rfl, by decide⟩
theorem test_met_CommandIsIssueThenMicroSteps :
    live.idleOk ∧ decode live.cfg [0x00000051] = .command .disable
      ∧ ∃ t, step (about live [.command [0x00000051]]) = .next t ∧ t.fault.isNone = true :=
  ⟨⟨rfl, rfl⟩, by decide, exists_next_of_nextHas (by decide +kernel)⟩
theorem test_met_OnlyResetLeavesAFault :
    (about stopped [.tick]).fault = some { cause := .badRegister 2, opcode := 1, agent := .main }
      ∧ (about stopped [.tick]).agenda = .tick :: [] ∧ Event.tick ≠ .reset
      ∧ (about stopped [.reset]).agenda = .reset :: [] := ⟨rfl, rfl, by decide, rfl⟩
theorem test_met_ResetEventRestoresReset : (about stopped [.reset]).agenda = .reset :: [] := rfl
theorem test_met_StepKeepsTheParameters : ∃ t, step (about live [.tick]) = .next t ∧ t.fault.isNone = true :=
  exists_next_of_nextHas (by decide +kernel)
theorem test_met_ControllerPinsNeedGpioReady :
    (about live [.command [0x00100043]]).agenda.head? ≠ some .reset
      ∧ live.cfg.layout.route.ebiPen.test live.regs.route = false
      ∧ ∃ t, step (about live [.command [0x00100043]]) = .next t
        ∧ t.cfg.layout.route.ebiPen.test t.regs.route = true :=
  ⟨by decide, by decide, exists_next_of_nextHas (by decide +kernel)⟩
theorem test_met_RegisterWritesSetUnfenced :
    (about live [.command [0x00100041]]).agenda.head? ≠ some .reset
      ∧ ∃ t, step (about live [.command [0x00100041]]) = .next t ∧ (t.regs != live.regs) = true :=
  ⟨by decide, exists_next_of_nextHas (by decide +kernel)⟩
theorem test_met_StepKeepsBounded :
    (∃ b, inFlight.cfgr = .busy b ∧ b.k + b.todo.length = 87)
      ∧ ∃ t, step inFlight = .next t ∧ (t.cfgr != .idle) = true := by
  constructor
  · have h : (match inFlight.cfgr with | .idle => false | .busy b => b.k + b.todo.length == 87) = true := by
      decide +kernel
    cases hc : inFlight.cfgr with
    | idle => rw [hc] at h; cases h
    | busy b => rw [hc] at h; exact ⟨b, rfl, by simpa using h⟩
  · exact exists_next_of_nextHas (by decide +kernel)
theorem test_met_StepKeepsFaultFits :
    FaultFits (about stopped [.reset]) ∧ ∃ t, step (about stopped [.reset]) = .next t ∧ t.fault.isNone = true := by
  refine ⟨fun f h => ?_, exists_next_of_nextHas (by decide +kernel)⟩
  cases h
  exact ⟨rfl, nofun, .inr ⟨rfl, nofun⟩⟩
theorem test_met_FaultsArePrecise :
    (∃ t, exec (.regRead 2) live = .next t ∧ (t.fault.map (·.cause) == some (.badRegister 2)) = true)
      ∧ ∃ t, exec (.enableControllerPins true) { live with gpioReady := false } = .next t
        ∧ (t.fault.map (·.cause) == some .hostGpioNotReady) = true :=
  ⟨exists_next_of_nextHas (by decide +kernel), exists_next_of_nextHas (by decide +kernel)⟩
theorem test_met_AdmissionClockAndInputs :
    State.reset.idleOk ∧ State.reset.clkOn = false ∧ Instr.disable.wellFormed State.reset.cfg = true
      ∧ Instr.disable ≠ .barrier ∧ (about live [.setClk false]).agenda = .setClk false :: []
      ∧ (about live [.setGpio false]).agenda = .setGpio false :: [] := ⟨⟨rfl, rfl⟩, rfl, rfl, by decide, rfl, rfl⟩
/-- The clause on a command in flight: a frame that decodes, an illegal one, and an input. -/
theorem test_met_AdmissionClockAndInputs_busy :
    inFlight.fault = none ∧ (∃ b, inFlight.cfgr = .busy b)
      ∧ decode inFlight.cfg [0x0000000F] ≠ .notFrame ∧ decode inFlight.cfg [0] ≠ .notFrame
      ∧ (match step (about inFlight [.setClk false]) with | .refused .notEnabled => true | _ => false) = true := by
  have h : (match inFlight.cfgr with | .idle => false | .busy _ => true) = true := by decide +kernel
  have e : inFlight.fault.isNone = true := by decide +kernel
  have c : inFlight.cfg = Cfg.ref := by decide +kernel
  refine ⟨Option.isNone_iff_eq_none.1 e, ?_, by rw [c]; decide, by rw [c]; decide, by decide +kernel⟩
  cases hc : inFlight.cfgr with
  | idle => rw [hc] at h; cases h
  | busy b => exact ⟨b, rfl⟩
theorem test_met_AbsentCommandsAreIllegal :
    legacy.idleOk ∧ (Instr.enableNand 1 true).wellFormed legacy.cfg = false := ⟨⟨rfl, rfl⟩, by decide⟩
theorem test_met_OffsetsNameThePresentRegisters :
    Cfg.ref.offsetsLegal = true ∧ Cfg.legacyRef.offsetsLegal = true ∧ Cfg.ref.layout.offset = offsetsRef
      ∧ Cfg.ref.present .nandCtrl = true ∧ Cfg.legacyRef.present .nandCtrl = false :=
  ⟨by decide +kernel, by decide +kernel, rfl, rfl, rfl⟩
/-- R23 tells instances apart: two registers at one offset, or an offset that is no multiple of 4, are refused; an
absent register's offset does not count. -/
theorem test_offsets_illegal :
    { Cfg.ref with layout := { Layout.ref with offset := offsetsRef.set .route 0x000 } }.offsetsLegal = false
      ∧ { Cfg.ref with layout := { Layout.ref with offset := offsetsRef.set .route 0x3FE } }.offsetsLegal = false
      ∧ { Cfg.legacyRef with layout := { Layout.ref with offset := offsetsRef.set .nandCtrl 0x002 } }.offsetsLegal
          = true := by decide +kernel

/-- The offsets of the raw commands: the first and last register, a misaligned one and one past the last. -/
theorem test_met_offsets :
    live.cfg.regAt 0x000 = some .ctrl ∧ live.cfg.regAt 0x07C = some .tftPolarity ∧ live.cfg.regAt 0x014 = some .route
      ∧ live.cfg.regAt 0x002 = none ∧ live.cfg.regAt 0x080 = none := by decide +kernel
theorem test_met_RegRead : live.ready ∧ live.cfg.regAt 0x07C = some .tftPolarity ∧ live.cfg.regAt 0x080 = none :=
  ⟨test_live_ready, by decide +kernel, by decide +kernel⟩
/-- The clauses of LeavesIn: a write of EBIPEN that R363(b) forbids, and one it does not. -/
theorem test_met_forbidden :
    { live with gpioReady := false }.ready ∧ forbidden { live with gpioReady := false } .route 1
      ∧ live.ready ∧ ¬ forbidden live .route 1 := by
  refine ⟨⟨⟨rfl, rfl⟩, rfl⟩, ⟨rfl, by decide, by decide, rfl⟩, test_live_ready, ?_⟩
  rintro ⟨-, -, -, h⟩; cases h
theorem test_met_RegWrite : live.ready ∧ live.cfg.regAt 0x014 = some .route ∧ live.cfg.regAt 0x080 = none :=
  ⟨test_live_ready, by decide +kernel, by decide +kernel⟩
theorem test_met_RegBitwrite : live.ready ∧ live.cfg.regAt 0x014 = some .route ∧ (31 : Word).toNat ≤ 31
    ∧ 31 < (32 : Word).toNat ∧ live.cfg.regAt 0x080 = none :=
  ⟨test_live_ready, by decide +kernel, by decide, by decide, by decide +kernel⟩
theorem test_met_RegMerge : live.ready ∧ live.cfg.regAt 0x014 = some .route ∧ live.cfg.regAt 0x080 = none :=
  ⟨test_live_ready, by decide +kernel, by decide +kernel⟩
theorem test_met_TimingEncodersRoundTrip :
    Cfg.ref.layout = Layout.ref ∧ (15 : Word).toNat ≤ 15 ∧ (63 : Word).toNat ≤ 63 ∧ (7 : Word).toNat ≤ 7
      ∧ 15 < (16 : Word).toNat ∧ 63 < (64 : Word).toNat ∧ 7 < (8 : Word).toNat :=
  ⟨rfl, by decide, by decide, by decide, by decide, by decide, by decide⟩
theorem test_met_timing_values :
    firstAbove (readTriple live.cfg 15 63 7) = none ∧ firstAbove (readTriple live.cfg 15 64 8) = some (.rdStrobe, 64)
      ∧ firstAbove (writeTriple live.cfg 15 63 7) = none
      ∧ firstAbove (writeTriple live.cfg 16 63 7) = some (.wrSetup, 16)
      ∧ firstAbove (addrPair live.cfg 15 7) = none ∧ firstAbove (addrPair live.cfg 15 8) = some (.addrHold, 8) := by
  decide +kernel
theorem test_met_GlobalTimingCommands : live.ready ∧ firstAbove (readTriple live.cfg 15 63 7) = none :=
  ⟨test_live_ready, by decide +kernel⟩
theorem test_met_PolarityMatrix : Cfg.ref.lineCode = lineCodesRef ∧ Cfg.ref.layout = Layout.ref
    ∧ Cfg.ref.hasByteLane = true ∧ Cfg.ref.hasTft = true ∧ Cfg.legacyRef.hasByteLane = false
    ∧ Cfg.legacyRef.hasTft = false ∧ 10 < (11 : BitVec 4).toNat ∧ 6 ≤ (6 : BitVec 4).toNat := by decide +kernel
theorem test_met_SetGlobalPolarity : live.ready ∧ checkLine live.cfg 10 = .ok .tftCS
    ∧ checkLine live.cfg 11 = .error (.badLine 11) := ⟨test_live_ready, by rfl, by rfl⟩
theorem test_met_banks :
    strayBanks 0x10 ∧ ¬ strayBanks 0x0F ∧ maskOf 0x0F = 15 ∧ ¬ strayBanks 0 ∧ maskOf 0 = 0 := by
  unfold strayBanks maskOf; decide
theorem test_met_SetBankPolarity : live.ready ∧ live.cfg.perBankTiming = true ∧ strayBanks 0x10 ∧ ¬ strayBanks 0x0F
    ∧ checkLine live.cfg 12 = .error (.badLine 12) ∧ checkLine live.cfg 5 = .ok .bl ∧ polReg .bl 0 = .polarity 0
    ∧ checkLine live.cfg 6 = .ok .tftVSync ∧ polReg .tftVSync 0 = .tftPolarity :=
  ⟨test_live_ready, rfl, test_met_banks.1, test_met_banks.2.1, by rfl, by rfl, by rfl, by rfl, by rfl⟩
theorem test_met_BankEnables : live.ready ∧ live.cfg.hasByteLane = true ∧ strayBanks 0x10 ∧ ¬ strayBanks 0x0F :=
  ⟨test_live_ready, rfl, test_met_banks.1, test_met_banks.2.1⟩
theorem test_met_BankTimingCommands : live.ready ∧ live.cfg.perBankTiming = true ∧ strayBanks 0x10
    ∧ ¬ strayBanks 0x0F ∧ firstAbove (readTriple live.cfg 15 63 7) = none
    ∧ firstAbove (readTriple live.cfg 16 0 0) = some (.rdSetup, 16) :=
  ⟨test_live_ready, rfl, test_met_banks.1, test_met_banks.2.1, by decide +kernel, by decide +kernel⟩
theorem test_met_BankFlagCommands : live.ready ∧ live.cfg.perBankTiming = true ∧ strayBanks 0x10 ∧ ¬ strayBanks 0x0F :=
  ⟨test_live_ready, rfl, test_met_banks.1, test_met_banks.2.1⟩
theorem test_met_EnableNand : live.ready ∧ live.cfg.hasNand = true ∧ strayBanks 0x10 ∧ ¬ strayBanks 0x0A
    ∧ (maskOf 0x00 = 0 ∧ (0 : Bank) = 0)
    ∧ ((maskOf 0x0A).getLsbD (3 : Bank).val = true ∧ ∀ n : Bank, 3 < n → (maskOf 0x0A).getLsbD n = false)
    ∧ ((maskOf 0x03).getLsbD (1 : Bank).val = true ∧ ∀ n : Bank, 1 < n → (maskOf 0x03).getLsbD n = false) :=
  ⟨test_live_ready, rfl, test_met_banks.1, by unfold strayBanks; decide, by decide, by decide, by decide⟩
theorem test_met_BankCommandsLeaveOtherBanksAlone :
    live.cfg.layout = Layout.ref ∧ bankMask (.enableBank 0x07 true) = some 0x07
      ∧ (maskOf 0x07).getLsbD (3 : Bank).val = false
      ∧ ∃ t, exec (.enableBank 0x07 true) live = .next t ∧ t.fault.isNone = true :=
  ⟨rfl, rfl, by decide, exists_next_of_nextHas (by decide +kernel)⟩
theorem test_met_Pins : live.ready ∧ live.cfg.layout = Layout.ref ∧ live.cfg.hasByteLane = true
    ∧ live.cfg.hasAddrPinCtl = true ∧ live.cfg.hasTft = true := ⟨test_live_ready, rfl, rfl, rfl, rfl⟩
theorem test_met_SetRoutingLocation : live.ready ∧ live.cfg.layout = Layout.ref ∧ live.cfg.routeHasLocation = true
    ∧ live.cfg.rev = .modern ∧ legacy.ready ∧ legacy.cfg.layout = Layout.ref
    ∧ legacy.cfg.routeHasLocation = true ∧ legacy.cfg.rev = .legacy ∧ (7 : Word).toNat ≤ 7 ∧ 7 < (8 : Word).toNat :=
  ⟨test_live_ready, rfl, rfl, rfl, test_legacy_ready, rfl, rfl, rfl, by decide, by decide⟩
theorem test_met_NandPenIsLeftAlone : live.cfg.layout = Layout.ref ∧ namesNandPen (.enableNand 1 true) = false
    ∧ ∃ t, exec (.enableNand 1 true) live = .next t ∧ t.fault.isNone = true :=
  ⟨rfl, rfl, exists_next_of_nextHas (by decide +kernel)⟩
theorem test_met_InitChecksInOrder : live.ready ∧ strayBanks 0x10 ∧ ¬ strayBanks 0x0F ∧ (0x0F : Byte) ≠ 0
    ∧ firstAbove (initValues live.cfg (rec' 0 15 63 8 0 0 0 0 0)) = some (.rdHold, 8)
    ∧ firstAbove (initValues live.cfg (rec' 0 15 63 7 15 7 0 0 8)) = none
    ∧ live.cfg.routeHasLocation = true ∧ live.cfg.locField.max < (8 : Word).toNat :=
  ⟨test_live_ready, test_met_banks.1, test_met_banks.2.1, by decide, by decide +kernel, by decide +kernel, rfl,
    by decide +kernel⟩
theorem test_met_InitConfiguresTheBanks : live.ready ∧ likeRef .modern live.cfg ∧ ¬ strayBanks 0x0F
    ∧ (0x0F : Byte) ≠ 0 ∧ firstAbove (initValues live.cfg (rec' 0x003F0FFF 15 63 7 15 7 0 0 7)) = none
    ∧ (rec' 0x003F0FFF 15 63 7 15 7 0 0 7).loc.toNat ≤ 7 ∧ live.gpioReady = true :=
  ⟨test_live_ready, ⟨rfl, rfl, rfl, rfl, rfl⟩, test_met_banks.2.1, by decide, by decide +kernel, by decide, rfl⟩
/-- The other disjunct: EBIPEN already 1 with gpioReady false. -/
theorem test_met_InitConfiguresTheBanks_routed :
    { having live .route 1 with gpioReady := false }.ready
      ∧ likeRef .modern { having live .route 1 with gpioReady := false }.cfg
      ∧ { having live .route 1 with gpioReady := false }.regs.route.getLsbD 0 = true :=
  ⟨⟨⟨rfl, rfl⟩, rfl⟩, ⟨rfl, rfl, rfl, rfl, rfl⟩, by decide⟩

/-- The MODERN instance without LOCATION, where an index above 7 is no error, and gpioReady false. -/
def unplaced : State := { live with gpioReady := false, cfg := { Cfg.ref with modernHasLocation := false } }

theorem test_met_InitConfiguresTheBanks_noLocation : { unplaced with gpioReady := true }.ready
    ∧ likeRef .modern { unplaced with gpioReady := true }.cfg
    ∧ { unplaced with gpioReady := true }.cfg.routeHasLocation = false
    ∧ firstAbove (initValues unplaced.cfg (rec' 0x003F0FFF 15 63 7 15 7 0 0 8)) = none :=
  ⟨⟨⟨rfl, rfl⟩, rfl⟩, ⟨rfl, rfl, rfl, rfl, rfl⟩, rfl, by decide +kernel⟩
theorem test_met_InitOnLegacyIsGlobal : legacy.ready ∧ likeRef .legacy legacy.cfg ∧ ¬ strayBanks 0x0F
    ∧ (0x0F : Byte) ≠ 0 ∧ firstAbove (initValues legacy.cfg (rec' 0x003F0FFF 15 63 7 15 7 0 0 7)) = none
    ∧ (rec' 0x003F0FFF 15 63 7 15 7 0 0 7).loc.toNat ≤ 7 ∧ legacy.gpioReady = true :=
  ⟨test_legacy_ready, ⟨rfl, rfl, rfl, rfl, rfl⟩, test_met_banks.2.1, by decide, by decide +kernel, by decide, rfl⟩
/-- The four stops of INIT: step 9 on MODERN with and without LOCATION, the two patterns that carry EBIPEN (the
low-address one alone, and the high-address one alone), and step 9 on LEGACY. -/
theorem test_met_InitWithoutGpioStops :
    { live with gpioReady := false }.ready ∧ likeRef .modern { live with gpioReady := false }.cfg
      ∧ unplaced.ready ∧ likeRef .modern unplaced.cfg
      ∧ { legacy with gpioReady := false }.ready ∧ likeRef .legacy { legacy with gpioReady := false }.cfg
      ∧ ¬ strayBanks 0x0F ∧ (0x0F : Byte) ≠ 0
      ∧ (∀ r ∈ [initRec, rec' 0 2 4 1 1 1 1 0 0, rec' 0 2 4 1 1 1 0 1 0],
          firstAbove (initValues Cfg.ref r) = none ∧ r.loc.toNat ≤ 7)
      ∧ live.regs.route.getLsbD 0 = false ∧ initRec.aLow.getLsbD 0 = false ∧ initRec.aHigh.getLsbD 0 = false
      ∧ (rec' 0 2 4 1 1 1 1 0 0).aLow.getLsbD 0 = true
      ∧ (rec' 0 2 4 1 1 1 0 1 0).aLow.getLsbD 0 = false ∧ (rec' 0 2 4 1 1 1 0 1 0).aHigh.getLsbD 0 = true :=
  ⟨⟨⟨rfl, rfl⟩, rfl⟩, ⟨rfl, rfl, rfl, rfl, rfl⟩, ⟨⟨rfl, rfl⟩, rfl⟩, ⟨rfl, rfl, rfl, rfl, rfl⟩, ⟨⟨rfl, rfl⟩, rfl⟩,
    ⟨rfl, rfl, rfl, rfl, rfl⟩, test_met_banks.2.1, by decide, by decide +kernel, by decide, by decide, by decide,
    by decide, by decide, by decide⟩
/-- DISABLE's two clauses: CFG_REF's ROUTE reset value, and one with EBIPEN 1 while gpioReady is false. -/
theorem test_met_DisableRestoresRouteAndCtrl :
    live.ready ∧ ¬ forbidden live .route (live.cfg.storeWord .route live.regs.route live.cfg.resetValue.route)
      ∧ (let s : State := { live with
           gpioReady := false, cfg := { Cfg.ref with resetValue := { RegFile.const 0 with route := 1 } } }
         s.ready ∧ forbidden s .route (s.cfg.storeWord .route s.regs.route s.cfg.resetValue.route)) := by
  refine ⟨test_live_ready, ?_, ⟨⟨rfl, rfl⟩, rfl⟩, rfl, by decide, by decide, rfl⟩
  rintro ⟨-, -, -, h⟩; cases h
theorem test_met_BankBaseReturnsTheWindow : live.ready ∧ (0x08 : Byte) = 1#8 <<< (3 : Bank).val ∧ strayBanks 0x10
    ∧ ¬ strayBanks 0x0F ∧ (∀ n : Bank, (0x0F : Byte) ≠ 1#8 <<< n.val)
    ∧ (¬ strayBanks 0 ∧ ∀ n : Bank, (0 : Byte) ≠ 1#8 <<< n.val) :=
  ⟨test_live_ready, by decide, test_met_banks.1, test_met_banks.2.1, by decide, test_met_banks.2.2.2.1, by decide⟩
theorem test_met_BankWindowsAreDisjoint : inWindow Cfg.ref 0 3 0x8FFFFFFF = true
    ∧ Cfg.ref.memBase.toNat + 4 * (span Cfg.ref 0).toNat ≤ 2 ^ 32
    ∧ Cfg.ref.memBase.toNat + 4 * (span Cfg.ref 0x80000000).toNat ≤ 2 ^ 32 := by decide +kernel
theorem test_met_TftInit_legal : live.ready ∧ live.cfg.hasTft = true ∧ live.cfg.layout = Layout.ref
    ∧ (3 : BitVec 4).toNat ≤ 3 ∧ AllLegal (tftInitValues live.cfg (tftRec 1024 0x00170100)) :=
  ⟨test_live_ready, rfl, rfl, by decide, by unfold AllLegal TftValue.bad; decide +kernel⟩
theorem test_met_TftInit_bad : 3 < (4 : BitVec 4).toNat
    ∧ FirstBad (tftInitValues live.cfg (tftRec 1025 0x00180100)) (.badTftValue .hsz 1025) := by
  refine ⟨by decide, [⟨.frameBase, live.cfg.layout.tft.frameBase, 0, false⟩], ⟨.hsz, live.cfg.layout.tft.hsz, 1025, true⟩,
    (tftInitValues live.cfg (tftRec 1025 0x00180100)).drop 2, by rfl, ?_, ?_, rfl⟩
  · unfold TftValue.bad; decide +kernel
  · unfold TftValue.bad; decide +kernel
theorem test_met_TftSubOperations_legal :
    (0x0FFFFFFF : Word).toNat ≤ 0x0FFFFFFF ∧ AllLegal (sizeValues live.cfg 1024 1)
      ∧ AllLegal (hporchValues live.cfg 255 255 128) ∧ AllLegal (vporchValues live.cfg 255 255 1)
      ∧ AllLegal (dclkValues live.cfg 2047 2047 3 3) := by unfold AllLegal TftValue.bad; decide +kernel
theorem test_met_TftSubOperations_bad :
    0x0FFFFFFF < (0x10000000 : Word).toNat ∧ FirstBad (sizeValues live.cfg 1025 0) (.badTftValue .hsz 1025)
      ∧ FirstBad (hporchValues live.cfg 256 0 0) (.badTftValue .hfporch 256)
      ∧ FirstBad (vporchValues live.cfg 256 0 0) (.badTftValue .vfporch 256)
      ∧ FirstBad (dclkValues live.cfg 2048 0 0 0) (.badTftValue .dclkPeriod 2048) := by
  refine ⟨by decide, ⟨[], _, _, rfl, by simp, ?_, rfl⟩, ⟨[], _, _, rfl, by simp, ?_, rfl⟩,
    ⟨[], _, _, rfl, by simp, ?_, rfl⟩, ⟨[], _, _, rfl, by simp, ?_, rfl⟩⟩ <;>
  · unfold TftValue.bad; decide +kernel
theorem test_met_TftSetMaskBlend : live.ready ∧ live.cfg.hasTft = true ∧ live.cfg.layout = Layout.ref
    ∧ (7 : Word).toNat ≤ 7 ∧ 7 < (8 : Word).toNat := ⟨test_live_ready, rfl, rfl, by decide, by decide⟩
theorem test_met_TickAdvancesTheCounters :
    (about live [.tick]).fault = none ∧ (about live [.tick]).agenda = .tick :: [] ∧ live.cfg.hasTft = true
      ∧ live.clkOn = true ∧ live.driveDisabled = true
      ∧ (frame 4 4).driveDisabled = false ∧ (frame 4 4).tft.run = true ∧ (frame 3 4).tft.h + 1 < (frame 3 4).hAxis.total
      ∧ (frame 4 3).hAxis.total ≤ (frame 4 3).tft.h + 1 ∧ (frame 4 3).tft.v + 1 < (frame 4 3).vAxis.total
      ∧ (frame 4 4).vAxis.total ≤ (frame 4 4).tft.v + 1
      ∧ { frame 0 0 with tft := live.tft }.driveDisabled = false ∧ legacy.cfg.hasTft = false
      ∧ State.reset.clkOn = false ∧ (frame 4 4).cfg.layout = Layout.ref
      ∧ (frame 4 4).cfg.driveCode = Cfg.ref.driveCode := by decide +kernel
theorem test_met_FrameIsHtotTimesVtotTicks :
    (frame 0 0).fault = none ∧ (frame 0 0).cfg.hasTft = true ∧ (frame 0 0).clkOn = true
      ∧ (frame 0 0).driveDisabled = false ∧ (frame 0 0).tft.run = true ∧ (frame 0 0).tft.h = 0 ∧ (frame 0 0).tft.v = 0
      ∧ (about (frame 0 0) (List.replicate 26 .tick)).agenda = List.replicate 26 .tick ++ [] := by decide +kernel
theorem test_met_FrameShowsEveryPixelOnceInRowOrder : (frame 0 0).tft.run = true := rfl
theorem test_met_TftPinLevels :
    (live.regs.route &&& live.cfg.tftPinGroup ≠ live.cfg.tftPinGroup)
      ∧ (frame 2 2).regs.route &&& (frame 2 2).cfg.tftPinGroup = (frame 2 2).cfg.tftPinGroup
      ∧ (frame 2 2).cfg.hasTft = true ∧ (frame 2 2).cfg.polActiveLow = true ∧ (frame 2 2).tft.dirty = false
      ∧ (frame 2 2).gpioReady = true ∧ live.tft.run = false ∧ (frame 2 2).asserted .dataEn = true
      ∧ (frame 2 2).cfg.layout = Layout.ref := by decide +kernel
/-- An instance without TFT lines (R7): bit 24 of ROUTE, set by raw access, drives no pin. -/
theorem test_met_TftPinLevels_absent : legacy.cfg.hasTft = false
    ∧ ∀ p ∈ [TftPin.vSync, .hSync, .dataEn, .cs], (having legacy .route 0x01000000).pinLevel p = none := by
  decide +kernel
theorem test_met_InterruptContextContract :
    (about accepting [.isrBitWrite 0x014 31 true]).agenda = .isrBitWrite 0x014 31 true :: []
      ∧ accepting.fault = none ∧ accepting.cfg.isrBitWriteAccepted = true ∧ accepting.cfg.regAt 0x014 = some .route
      ∧ (31 : Word).toNat ≤ 31 ∧ 31 < (32 : Word).toNat ∧ live.cfg.isrBitWriteAccepted = false
      ∧ accepting.cfg.regAt 0x050 = none
      ∧ (about live [.isrOther 0]).agenda = .isrOther 0 :: [] :=
  ⟨rfl, rfl, rfl, by decide +kernel, by decide, by decide, rfl, by decide +kernel, rfl⟩
theorem test_met_InterruptContextContract_gpio :
    (let s : State := { accepting with gpioReady := false }
     forbidden s .route (setBits s.cfg .route (bitMask 0) true (s.regs.get .route)))
      ∧ ¬ forbidden accepting .route (setBits accepting.cfg .route (bitMask 31) true (accepting.regs.get .route)) := by
  refine ⟨⟨rfl, by decide, by decide, rfl⟩, ?_⟩
  rintro ⟨-, -, -, h⟩; cases h
theorem test_met_MergeOverwritesAnInterruptWrite :
    accepting.ready ∧ accepting.cfg.isrBitWriteAccepted = true ∧ accepting.cfg.regAt 0x014 = some .route
      ∧ (9 : Word).toNat ≤ 31
      ∧ (let isr := setBits accepting.cfg .route (bitMask 9) true (accepting.regs.get .route)
         ¬ forbidden accepting .route isr ∧ ¬ forbidden (written accepting .route isr) .route 1)
      ∧ (let s : State := { accepting with gpioReady := false }
         let isr := setBits s.cfg .route (bitMask 9) true (s.regs.get .route)
         s.ready ∧ ¬ forbidden s .route isr ∧ forbidden (written s .route isr) .route 1) := by
  refine ⟨⟨⟨rfl, rfl⟩, rfl⟩, rfl, by decide +kernel, by decide, ⟨?_, ?_⟩, ⟨⟨rfl, rfl⟩, rfl⟩, ?_, rfl, by decide, by decide, rfl⟩
  · rintro ⟨-, -, -, h⟩; cases h
  · rintro ⟨-, -, -, h⟩; cases h
  · rintro ⟨-, h, -, -⟩; revert h; decide
/-- The clause on INIT: an interrupt write of CTRL after the first micro-step, and after the last one before the
commit. -/
theorem test_met_MergeOverwritesAnInterruptWrite_init :
    likeRef .modern accepting.cfg ∧ ¬ strayBanks 0x0F ∧ (0x0F : Byte) ≠ 0
      ∧ firstAbove (initValues accepting.cfg initRec) = none ∧ initRec.loc.toNat ≤ 7 ∧ accepting.gpioReady = true
      ∧ accepting.cfg.regAt 0 = some .ctrl
      ∧ (∀ j ∈ [1, 73], 1 ≤ j ∧ j ≤ 1 + 18 * count (maskOf 0x0F))
      ∧ (accepting.cfg.routeHasLocation = true ∧ 11 + 18 * count (maskOf 0x0F) + count 0 = 83) :=
  ⟨⟨rfl, rfl, rfl, rfl, rfl⟩, test_met_banks.2.1, by decide, by decide +kernel, by decide, rfl, by decide +kernel,
    by decide, rfl, by decide⟩
theorem test_met_BarrierAndWindowAccess :
    live.idleOk ∧ { live with unfenced := true }.idleOk ∧ live.unfenced = false
      ∧ (∀ n, inWindow live.cfg live.regs.ctrl n 0x7FFFFFFF = false)
      ∧ inWindow live.cfg live.regs.ctrl 0 0x80000000 = true ∧ inWindow live.cfg live.regs.ctrl 3 0x8FFFFFFF = true
      ∧ (live.cfg.layout.ctrl.bankEn.get 0).test live.regs.ctrl = false
      ∧ (let s := having (having live .ctrl 0x40000101) .route 0x23
         s.idleOk ∧ inWindow s.cfg s.regs.ctrl 0 0x83FFFFFF = true
           ∧ (s.cfg.layout.ctrl.bankEn.get 0).test s.regs.ctrl = true
           ∧ s.cfg.layout.route.ebiPen.test s.regs.route = true) :=
  ⟨⟨rfl, rfl⟩, ⟨rfl, rfl⟩, rfl, by decide +kernel, by decide +kernel, by decide +kernel, by decide +kernel,
    ⟨rfl, rfl⟩, by decide +kernel, by decide +kernel, by decide +kernel⟩
theorem test_met_WalkOrderIsInvisible : live.cfg.layout = Layout.ref
    ∧ ∃ t, exec (.enableBank 0x0F true) live = .next t ∧ t.fault.isNone = true :=
  ⟨rfl, exists_next_of_nextHas (by decide +kernel)⟩

end Sys2Proof.Tests
end

/-! # Proofs: what every step leaves unchanged (00_scope.md R3, R6) -/

namespace Sys2Proof.Proofs

open Sys2Proof Sys2Proof.Machine

/-! ## The parameters of the instance -/

@[simp] theorem windowEffect_cfg (n : Bank) (addr : Word) (write : Bool) (data : Word) (s : State) :
    (windowEffect n addr write data s).cfg = s.cfg := by
  cases write <;> rfl

@[simp] theorem microStep_cfg (s : State) : (microStep s).cfg = s.cfg := by
  rcases microStep_cases s with
    ⟨-, hidle⟩ | ⟨b, -, -, hreturn⟩ | ⟨b, op, rest, -, -, -, hfault⟩
      | ⟨b, op, rest, b', -, -, -, -, -, -, hlocal | ⟨r, w, -, hwrite⟩⟩
  · rw [hidle]
  · rw [hreturn, finish_cfg]
  · rw [hfault, raise_cfg]
  · rw [hlocal]
  · rw [hwrite]
    exact putReg_cfg s r w

/-- The issue, the micro-steps and the host events of MAIN keep the parameters. -/
theorem commandKeeps_cfg {c : Cfg} {s : State} (h : s.cfg = c) : CommandKeeps (fun u => u.cfg = c) s where
  start := h
  raise _ _ _ _ := h
  busy _ _ _ := h
  micro u hu _ _ := (microStep_cfg u).trans hu
  barrier := h
  window n addr write data := (windowEffect_cfg n addr write data s).trans h

/-- Every elementary change of a step other than the reset event keeps the parameters. -/
theorem stepKeeps_cfg {c : Cfg} {s : State} (h : s.cfg = c) : StepKeeps (fun u => u.cfg = c) s where
  start := h
  command _ := commandKeeps_cfg h
  micro _ := (microStep_cfg s).trans h
  tick := h
  isrWrite _ _ _ := h
  isrRaise _ _ := h
  setClk _ _ := h
  setGpio _ _ := h
  setOrders _ := h

/-- Settles O12: each elementary change of a step keeps CFG, the reset event included. -/
theorem stepKeepsTheParameters : Obligations.StepKeepsTheParameters := by
  unfold Obligations.StepKeepsTheParameters
  intro s t hstep
  exact step_keeps (P := fun u => u.cfg = s.cfg) hstep rfl
    (fun rest _ => resetEvent_cfg { s with agenda := rest })
    (fun _ _ _ _ _ => stepKeeps_cfg rfl)

end Sys2Proof.Proofs

/-! # Proofs: how the machine moves and stops (10_state.md R28, R49, R51, 60_exceptions.md R366, R368) -/

namespace Sys2Proof.Proofs

open Sys2Proof Sys2Proof.Machine Sys2Proof.Claims

/-! ## A command is its issue and its micro-steps (R49) -/

theorem runs_succ {s u : State} (hstep : step s = .next u) (n : Nat) : runs (n + 1) s = runs n u := by
  rw [runs, hstep]

/-- Only the two host events have no plan. -/
theorem planOf_isSome {i : Instr} (hb : i ≠ .barrier)
    (hw : ∀ addr write data, i ≠ .windowAccess addr write data) (s : State) : ∃ p, planOf i s = some p := by
  rcases exec_eq i s with ⟨p, hp, -⟩ | ⟨-, h, -⟩ | ⟨-, addr, write, data, h, -⟩
  · exact ⟨p, hp⟩
  · exact absurd h hb
  · exact absurd h (hw addr write data)

theorem step_with_agenda {s : State} {e : Event} (hf : s.fault = none) (he : e ≠ .reset) (l : List Event) :
    step { s with agenda := e :: l } = agentStep exec e { s with agenda := l } := step_cons rfl hf he

theorem step_command {s : State} {frame : List Word} {i : Instr} {p : Except FaultCause Plan}
    (hid : s.idleOk) (hd : decode s.cfg frame = .command i) (hp : planOf i s = some p) (l : List Event) :
    step { s with agenda := .command frame :: l } = .next (runToEnd { issue i p s with agenda := l }) := by
  have hpl : planOf i { s with agenda := l } = some p := (planOf_agenda i s l).trans hp
  rw [step_with_agenda (e := .command frame) hid.1 nofun]
  simp only [agentStep, present, hd]
  rw [exec_of_planOf hpl, runCommand, issue_with_agenda]
  exact whenIdle_of_idleOk _ hid

theorem step_issue {s : State} {frame : List Word} {i : Instr} {p : Except FaultCause Plan}
    (hid : s.idleOk) (hd : decode s.cfg frame = .command i) (hp : planOf i s = some p) (l : List Event) :
    step { s with agenda := .issue frame :: l } = .next { issue i p s with agenda := l } := by
  have hpl : planOf i { s with agenda := l } = some p := (planOf_agenda i s l).trans hp
  rw [step_with_agenda (e := .issue frame) hid.1 nofun]
  simp only [agentStep, present, hd, issueOnly, hpl]
  rw [issue_with_agenda]
  exact whenIdle_of_idleOk _ hid

theorem microEvent_of_busy {s : State} {b : Busy} (hc : s.cfgr = .busy b) :
    microEvent s = .next (microStep s) := by
  rw [microEvent, hc]

theorem step_micro {s : State} {b : Busy} (hf : s.fault = none) (hc : s.cfgr = .busy b) (l : List Event) :
    step { s with agenda := .micro :: l } = .next { microStep s with agenda := l } := by
  rw [step_with_agenda (e := .micro) hf nofun, ← microStep_with_agenda]
  exact microEvent_of_busy hc

/-- Running the configurator is some number of its steps, taken one by one from the agenda. -/
theorem exists_runs_eq_runBusy (m : Nat) : ∀ s : State,
    ∃ n, runs n { s with agenda := List.replicate n .micro ++ s.agenda } = some (runBusy m s) := by
  induction m with
  | zero => exact fun s => ⟨0, rfl⟩
  | succ m ih =>
    intro s
    rw [runBusy]
    split
    case isTrue => exact ⟨0, rfl⟩
    case isFalse hf =>
      have hf' : s.fault = none := by simpa using hf
      split
      case h_1 => exact ⟨0, rfl⟩
      case h_2 b hc =>
        obtain ⟨n, hn⟩ := ih (microStep s)
        refine ⟨n + 1, ?_⟩
        rw [List.replicate_succ, List.cons_append, runs_succ (step_micro hf' hc _), ← microStep_agenda s]
        exact hn

theorem exists_runs_eq_runToEnd (s : State) :
    ∃ n, runs n { s with agenda := List.replicate n .micro ++ s.agenda } = some (runToEnd s) := by
  unfold runToEnd
  split
  · exact ⟨0, rfl⟩
  · exact exists_runs_eq_runBusy _ s

/-- Settles O8: the issue leaves the same state in both forms, and the run to the end from it is as many
`micro` events as it has steps. -/
theorem commandIsIssueThenMicroSteps : Obligations.CommandIsIssueThenMicroSteps := by
  unfold Obligations.CommandIsIssueThenMicroSteps
  intro s t frame rest i hid hd hb hw hx
  obtain ⟨p, hp⟩ := planOf_isSome hb hw s
  rw [step_command hid hd hp] at hx
  cases hx
  obtain ⟨n, hn⟩ := exists_runs_eq_runToEnd { issue i p s with agenda := rest }
  exact ⟨n, (runs_succ (step_issue hid hd hp _) n).trans hn⟩

/-! ## The form of the fault record (R51, R366) -/

theorem faultFits_of_no_fault {s : State} (hf : s.fault = none) : FaultFits s := by
  intro f h
  rw [hf] at h
  cases h

/-- MAIN's fault of a check, before any micro-step. -/
theorem faultFits_raise_check {s : State} {e : FaultCause} (hc : s.cfgr = .idle) (hg : e ≠ .hostGpioNotReady)
    (hi : e ≠ .isrContract) (o : Byte) : FaultFits (raise e o .main s) := by
  rintro f ⟨⟩
  exact ⟨rfl, hi, .inr ⟨hc, hg⟩⟩

/-- MAIN's fault of a micro-step (R363(b)). -/
theorem faultFits_raise_micro {s : State} {b : Busy} (hc : s.cfgr = .busy b) :
    FaultFits (raise .hostGpioNotReady b.cmd.code .main s) := by
  rintro f ⟨⟩
  exact ⟨rfl, nofun, .inl ⟨b, hc, rfl, rfl⟩⟩

theorem faultFits_raise_isr {s : State} {e : FaultCause} (he : e = .isrContract ∨ e = .hostGpioNotReady) :
    FaultFits (raise e 0x00 .isr s) := by
  rintro f ⟨⟩
  exact ⟨rfl, rfl, he⟩

theorem faultFits_microStep {s : State} (hf : s.fault = none) : FaultFits (microStep s) := by
  rcases microStep_cases s with
    ⟨-, hidle⟩ | ⟨b, -, -, hreturn⟩ | ⟨b, op, rest, hc, -, -, hfault⟩
      | ⟨b, op, rest, b', -, -, -, -, -, -, hlocal | ⟨r, w, -, hwrite⟩⟩
  · rw [hidle]
    exact faultFits_of_no_fault hf
  · rw [hreturn]
    exact faultFits_of_no_fault hf
  · rw [hfault]
    exact faultFits_raise_micro hc
  · rw [hlocal]
    exact faultFits_of_no_fault hf
  · rw [hwrite]
    exact faultFits_of_no_fault hf

@[simp] theorem windowEffect_fault (n : Bank) (addr : Word) (write : Bool) (data : Word) (s : State) :
    (windowEffect n addr write data s).fault = s.fault := by
  cases write <;> rfl

/-- Only a check or a micro-step of MAIN's command sets FAULT. -/
theorem commandKeeps_faultFits {s : State} (hf : s.fault = none) (hc : s.cfgr = .idle) :
    CommandKeeps FaultFits s where
  start := faultFits_of_no_fault hf
  raise _ o hg hi := faultFits_raise_check hc hg hi o
  busy _ _ _ := faultFits_of_no_fault hf
  micro _ _ hfu _ := faultFits_microStep hfu
  barrier := faultFits_of_no_fault hf
  window n addr write data := faultFits_of_no_fault ((windowEffect_fault n addr write data s).trans hf)

/-- Of the other changes only an interrupt-context fault sets FAULT. -/
theorem stepKeeps_faultFits {s : State} (hf : s.fault = none) : StepKeeps FaultFits s where
  start := faultFits_of_no_fault hf
  command hc := commandKeeps_faultFits hf hc
  micro _ := faultFits_microStep hf
  tick := faultFits_of_no_fault hf
  isrWrite _ _ _ := faultFits_of_no_fault hf
  isrRaise _ he := faultFits_raise_isr he
  setClk _ _ := faultFits_of_no_fault hf
  setGpio _ _ := faultFits_of_no_fault hf
  setOrders _ := faultFits_of_no_fault hf

/-- Settles O16: a step other than reset starts with no fault, so the record it leaves is the one it raised. -/
theorem stepKeepsFaultFits : Obligations.StepKeepsFaultFits := by
  unfold Obligations.StepKeepsFaultFits
  intro s t hfits hstep
  exact step_keeps hstep hfits (fun _ _ => faultFits_of_no_fault rfl)
    (fun _ _ _ _ hf => stepKeeps_faultFits hf)

/-! ## While FAULT is set (R366, R368, R390) -/

theorem whenIdle_of_fault {s : State} {f : FaultRecord} (hf : s.fault = some f) (t : State) :
    whenIdle s t = .fault .halted := by
  simp [whenIdle, hf]

/-- A command, BARRIER and WINDOW_ACCESS all begin with their admission (R114). -/
theorem exec_of_fault {s : State} {f : FaultRecord} (hf : s.fault = some f) (i : Instr) :
    exec i s = .fault .halted := by
  rcases exec_eq i s with ⟨p, -, he⟩ | ⟨-, -, he⟩ | ⟨-, addr, write, data, -, he⟩ <;>
    exact he.trans (whenIdle_of_fault hf _)

theorem step_of_fault {s : State} {f : FaultRecord} {e : Event} {rest : List Event} (hf : s.fault = some f)
    (ha : s.agenda = e :: rest) (he : e ≠ .reset) : step s = .fault .halted := by
  unfold step
  rw [ha]
  dsimp only
  unfold takeStep
  split
  case h_1 => exact absurd rfl he
  case h_2 => rfl
  case h_3 hnone => exact absurd (hf.symm.trans hnone) nofun

theorem step_reset {s : State} {rest : List Event} (ha : s.agenda = .reset :: rest) :
    step s = .next (resetEvent { s with agenda := rest }) := by
  unfold step
  rw [ha]
  rfl

/-- Settles O9: every meaning asks for admission, every other event is stopped by FAULT, and the reset event
clears it. -/
theorem onlyResetLeavesAFault : Obligations.OnlyResetLeavesAFault := by
  unfold Obligations.OnlyResetLeavesAFault
  refine ⟨?halts, ?meanings, ?reset⟩
  case halts => exact fun s f e rest hf ha he => step_of_fault hf ha he
  case meanings => exact fun s f i hf => exec_of_fault hf i
  case reset => exact fun s rest ha => ⟨_, step_reset ha, rfl⟩

/-! ## The line check (R28, R181) -/

theorem checkLine_of_unnamed {c : Cfg} {l : BitVec 4} (hl : c.lineCode.lookup l = none) :
    checkLine c l = .error (.badLine l) := by
  simp [checkLine, hl]

theorem checkLine_of_absent {c : Cfg} {l : BitVec 4} {line : Line} (hl : c.lineCode.lookup l = some line)
    (hp : linePresent c line = false) : checkLine c l = .error (.badLine l) := by
  simp [checkLine, hl, hp]

theorem checkLine_of_present {c : Cfg} {l : BitVec 4} {line : Line} (hl : c.lineCode.lookup l = some line)
    (hp : linePresent c line = true) : checkLine c l = .ok line := by
  simp [checkLine, hl, hp]

/-- The TFT lines (R180). -/
def tftLines : List Line := [.tftVSync, .tftHSync, .tftDataEn, .tftDClk, .tftCS]

theorem linePresent_of_mem_tftLines {c : Cfg} {line : Line} (h : line ∈ tftLines) :
    linePresent c line = c.hasTft := by
  cases line
  case ardy | ale | we | re | cs | bl => exact absurd h (by decide)
  case tftVSync | tftHSync | tftDataEn | tftDClk | tftCS => rfl

theorem lookup_lineCodesRef_above : ∀ l : BitVec 4, 10 < l.toNat → lineCodesRef.lookup l = none := by decide

theorem lookup_lineCodesRef_tft : ∀ l : BitVec 4, 6 ≤ l.toNat → l.toNat ≤ 10 →
    ∃ line ∈ tftLines, lineCodesRef.lookup l = some line := by decide

/-- The codes that raise BadLine in CFG_REF's code table (R181). -/
theorem checkLine_eq_badLine {c : Cfg} (hc : c.lineCode = lineCodesRef) {l : BitVec 4}
    (h : 10 < l.toNat ∨ (l = 5 ∧ c.hasByteLane = false) ∨ (6 ≤ l.toNat ∧ c.hasTft = false)) :
    checkLine c l = .error (.badLine l) := by
  by_cases habove : 10 < l.toNat
  · exact checkLine_of_unnamed (hc ▸ lookup_lineCodesRef_above l habove)
  · rcases h with h | ⟨rfl, hbl⟩ | ⟨h6, htft⟩
    · exact absurd h habove
    · exact checkLine_of_absent (line := .bl) (hc ▸ rfl) hbl
    · obtain ⟨line, hmem, hl⟩ := lookup_lineCodesRef_tft l h6 (by omega)
      exact checkLine_of_absent (hc ▸ hl) ((linePresent_of_mem_tftLines hmem).trans htft)

/-- What R180 gives for one code: its line, and the line's register and bit. -/
theorem polarityMatrix_row {c : Cfg} {n : Bank} {l : BitVec 4} {line : Line} {r : Reg} {b : Nat}
    (hc : c.lineCode = lineCodesRef) (hlay : c.layout = Layout.ref) (hl : lineCodesRef.lookup l = some line)
    (hp : linePresent c line = true) (hr : polReg line n = r)
    (hb : polBit { c with layout := Layout.ref } line = b) :
    checkLine c l = .ok line ∧ polReg line n = r ∧ polBit c line = b := by
  refine ⟨checkLine_of_present (hc ▸ hl) hp, hr, ?_⟩
  rw [← hb, ← hlay]

/-- Settles O28: the codes that raise BadLine, then R180 row by row. -/
theorem polarityMatrix : Obligations.PolarityMatrix := by
  unfold Obligations.PolarityMatrix
  intro c n hc hlay
  refine ⟨fun l => checkLine_eq_badLine hc, ?ardy, ?ale, ?we, ?re, ?cs, fun hbl => ?bl, fun htft => ?tft⟩
  case ardy | ale | we | re | cs => exact polarityMatrix_row hc hlay rfl rfl rfl rfl
  case bl => exact polarityMatrix_row hc hlay rfl hbl rfl rfl
  case tft =>
    refine ⟨?vSync, ?hSync, ?dataEn, ?dClk, ?cs⟩
    all_goals exact polarityMatrix_row hc hlay rfl htft rfl rfl

end Sys2Proof.Proofs

/-! # Proofs: the register file, the barrier and the bank windows (20_memory.md R71, R78, R80 to R82) -/

namespace Sys2Proof.Proofs

open Sys2Proof Sys2Proof.Machine Sys2Proof.Claims

/-! ## A changed register leaves `unfenced` set (R80) -/

@[simp] theorem windowEffect_regs (n : Bank) (addr : Word) (write : Bool) (data : Word) (s : State) :
    (windowEffect n addr write data s).regs = s.regs := by
  cases write <;> rfl

/-- If the registers of u are not f, `unfenced` is set: the invariant of a step that begins with the registers f. -/
def UnfencedUnless (f : RegFile) (u : State) : Prop := u.regs ≠ f → u.unfenced = true

theorem unfencedUnless_of_regs_eq {f : RegFile} {u : State} (h : u.regs = f) : UnfencedUnless f u :=
  fun hne => absurd h hne

/-- A step of the configurator keeps the registers and `unfenced`, or writes a register and sets `unfenced`. -/
theorem unfencedUnless_microStep {f : RegFile} {u : State} (h : UnfencedUnless f u) :
    UnfencedUnless f (microStep u) := by
  rcases microStep_cases u with
    ⟨-, hidle⟩ | ⟨b, -, -, hreturn⟩ | ⟨b, op, rest, -, -, -, hfault⟩
      | ⟨b, op, rest, b', -, -, -, -, -, -, hlocal | ⟨r, w, -, hwrite⟩⟩
  · rwa [hidle]
  · rwa [hreturn]
  · rwa [hfault]
  · rwa [hlocal]
  · rw [hwrite]
    exact fun _ => putReg_unfenced u r w

/-- The host events, which alone may leave `unfenced` clear, write no register. -/
theorem commandKeeps_unfencedUnless {f : RegFile} {s : State} (h : s.regs = f) :
    CommandKeeps (UnfencedUnless f) s where
  start := unfencedUnless_of_regs_eq h
  raise _ _ _ _ := unfencedUnless_of_regs_eq h
  busy _ _ _ := unfencedUnless_of_regs_eq h
  micro _ hu _ _ := unfencedUnless_microStep hu
  barrier := unfencedUnless_of_regs_eq h
  window n addr write data := unfencedUnless_of_regs_eq ((windowEffect_regs n addr write data s).trans h)

/-- Of the other changes only the micro-step and the interrupt-context write touch the registers. -/
theorem stepKeeps_unfencedUnless {f : RegFile} {s : State} (h : s.regs = f) :
    StepKeeps (UnfencedUnless f) s where
  start := unfencedUnless_of_regs_eq h
  command _ := commandKeeps_unfencedUnless h
  micro _ := unfencedUnless_microStep (unfencedUnless_of_regs_eq h)
  tick := unfencedUnless_of_regs_eq h
  isrWrite r w _ _ := putReg_unfenced s r w
  isrRaise _ _ := unfencedUnless_of_regs_eq h
  setClk _ _ := unfencedUnless_of_regs_eq h
  setGpio _ _ := unfencedUnless_of_regs_eq h
  setOrders _ := unfencedUnless_of_regs_eq h

/-- Settles O14: each elementary change of a step but reset keeps `unfenced` set once a register has changed. -/
theorem registerWritesSetUnfenced : Obligations.RegisterWritesSetUnfenced := by
  unfold Obligations.RegisterWritesSetUnfenced
  intro s t hstep hreset
  have hkeeps : UnfencedUnless s.regs t :=
    step_keeps hstep (unfencedUnless_of_regs_eq rfl)
      (fun rest ha => absurd (by rw [ha]; rfl) hreset)
      (fun _ _ _ _ _ => stepKeeps_unfencedUnless rfl)
  exact hkeeps

/-! ## Offsets and registers (R23, R71) -/

theorem mem_regAll (r : Reg) : r ∈ Reg.all := by
  cases r
  case addrTiming n | rdTiming n | wrTiming n | polarity n => fin_cases n <;> decide
  all_goals decide

theorem offsetsLegal_iff (c : Cfg) :
    c.offsetsLegal = true ↔ ∀ r, c.present r = true →
      c.layout.offset.get r &&& 3 = 0
        ∧ ∀ q, c.present q = true → c.layout.offset.get q = c.layout.offset.get r → q = r := by
  simp only [Cfg.offsetsLegal, List.all_eq_true, List.mem_filter, mem_regAll, true_and, Bool.and_eq_true,
    Bool.or_eq_true, beq_iff_eq, bne_iff_ne]
  refine forall₂_congr fun r _ => and_congr_right fun _ => forall₂_congr fun q _ => ?_
  rw [or_comm, imp_iff_not_or]

/-- Where no two present registers share an offset, an offset names the present register it belongs to. -/
theorem regAt_eq_some_iff {c : Cfg} (hc : c.offsetsLegal = true) (off : Word) (r : Reg) :
    c.regAt off = some r ↔ c.present r = true ∧ c.layout.offset.get r = off := by
  unfold Cfg.regAt
  constructor
  case mp =>
    intro h
    simpa using List.find?_some h
  case mpr =>
    rintro ⟨hp, rfl⟩
    cases hq : Reg.all.find? fun q => c.present q && c.layout.offset.get q == c.layout.offset.get r with
    | none => simpa [hp] using List.find?_eq_none.1 hq r (mem_regAll r)
    | some q =>
      obtain ⟨hpq, ho⟩ : c.present q = true ∧ c.layout.offset.get q = c.layout.offset.get r := by
        simpa using List.find?_some hq
      exact congrArg some (((offsetsLegal_iff c).1 hc r hp).2 q hpq ho)

theorem offsetsRef_get_aligned (r : Reg) : offsetsRef.get r &&& 3 = 0 := by
  have hall : ∀ q ∈ Reg.all, offsetsRef.get q &&& 3 = 0 := by decide
  exact hall r (mem_regAll r)

theorem offsetsRef_get_injective : Function.Injective offsetsRef.get := by
  have hnodup : (Reg.all.map offsetsRef.get).Nodup := by decide
  intro r q h
  exact List.inj_on_of_nodup_map hnodup (mem_regAll r) (mem_regAll q) h

theorem offsetsLegal_of_offsetsRef {c : Cfg} (hc : c.layout.offset = offsetsRef) : c.offsetsLegal = true := by
  rw [offsetsLegal_iff, hc]
  exact fun r _ => ⟨offsetsRef_get_aligned r, fun q _ h => offsetsRef_get_injective h⟩

/-- Settles O21: legal offsets are aligned and injective on the present registers, and those of R23 are both. -/
theorem offsetsNameThePresentRegisters : Obligations.OffsetsNameThePresentRegisters := by
  unfold Obligations.OffsetsNameThePresentRegisters
  refine ⟨fun c hc => ⟨regAt_eq_some_iff hc, ?aligned, ?distinct⟩, fun c => offsetsLegal_of_offsetsRef,
    offsetsRef_get_aligned⟩
  case aligned => exact fun r hr => ((offsetsLegal_iff c).1 hc r hr).1
  case distinct => exact fun r q hr hq h => ((offsetsLegal_iff c).1 hc q hq).2 r hr h

/-! ## Bank windows (R78, R290) -/

theorem span_eq (c : Cfg) (t : Word) : span c t = 0x10000000 ∨ span c t = 0x04000000 := by
  unfold span
  split
  · exact .inl rfl
  · exact .inr rfl

theorem span_toNat_bounds (c : Cfg) (t : Word) : 0 < (span c t).toNat ∧ (span c t).toNat ≤ 2 ^ 30 := by
  rcases span_eq c t with hs | hs <;> rw [hs] <;> decide

theorem bank_mul_span_toNat (c : Cfg) (t : Word) (n : Bank) :
    (BitVec.ofNat 32 n.val * span c t).toNat = n.val * (span c t).toNat := by
  rcases span_eq c t with hs | hs <;> rw [hs] <;> fin_cases n <;> rfl

/-- The four windows together are no longer than the address space. -/
theorem span_mul_succ_le (c : Cfg) (t : Word) (n : Bank) : (n.val + 1) * (span c t).toNat ≤ 2 ^ 32 := by
  calc (n.val + 1) * (span c t).toNat ≤ 4 * 2 ^ 30 := Nat.mul_le_mul n.isLt (span_toNat_bounds c t).2
    _ = 2 ^ 32 := rfl

theorem toNat_sub_lt_iff {d m : Word} {l : Nat} (h : m.toNat + l ≤ 2 ^ 32) :
    (d - m).toNat < l ↔ m.toNat ≤ d.toNat ∧ d.toNat < m.toNat + l := by
  bv_omega

/-- Bank n's window is the n-th stretch of `span` addresses from `EBI_MEM_BASE` on, modulo 2^32. -/
theorem inWindow_iff (c : Cfg) (t : Word) (n : Bank) (addr : Word) :
    inWindow c t n addr = true ↔ (addr - c.memBase).toNat / (span c t).toNat = n.val := by
  have hbase : addr - bankBase c n t = addr - c.memBase - BitVec.ofNat 32 n.val * span c t := by
    unfold bankBase
    ring
  have hpos := (span_toNat_bounds c t).1
  have hle := span_mul_succ_le c t n
  rw [Nat.succ_mul, ← bank_mul_span_toNat] at hle
  rw [inWindow, hbase, decide_eq_true_iff, toNat_sub_lt_iff hle, bank_mul_span_toNat,
    Nat.div_eq_iff hpos]
  omega

theorem inWindow_unique {c : Cfg} {t addr : Word} {n m : Bank} (hn : inWindow c t n addr = true)
    (hm : inWindow c t m addr = true) : n = m :=
  Fin.ext (((inWindow_iff c t n addr).1 hn).symm.trans ((inWindow_iff c t m addr).1 hm))

theorem mem_banks (n : Bank) : n ∈ ([0, 1, 2, 3] : List Bank) := by
  fin_cases n <;> decide

theorem windowBank_of_none {c : Cfg} {t addr : Word} (h : ∀ n, inWindow c t n addr = false) :
    windowBank c t addr = none := by
  simp [windowBank, h]

theorem windowBank_of_inWindow {c : Cfg} {t addr : Word} {n : Bank} (h : inWindow c t n addr = true) :
    windowBank c t addr = some n := by
  cases hw : windowBank c t addr with
  | none => exact absurd h (by simpa using List.find?_eq_none.1 hw n (mem_banks n))
  | some m =>
    have hm : inWindow c t m addr = true := by
      unfold windowBank at hw
      exact List.find?_some (p := fun n => inWindow c t n addr) hw
    exact congrArg some (inWindow_unique hm h)

/-! ## BARRIER and WINDOW_ACCESS (R81, R82) -/

theorem windowCheck_of_unfenced {s : State} (hu : s.unfenced = true) (addr : Word) :
    windowCheck addr s = .error (.hazardNoBarrier addr) := by
  simp [windowCheck, hu]

theorem windowCheck_of_noWindow {s : State} {addr : Word} (hu : s.unfenced = false)
    (hw : ∀ n, inWindow s.cfg s.regs.ctrl n addr = false) :
    windowCheck addr s = .error (.badWindow addr) := by
  simp [windowCheck, hu, windowBank_of_none hw]

theorem windowCheck_of_disabled {s : State} {addr : Word} {n : Bank} (hu : s.unfenced = false)
    (hw : inWindow s.cfg s.regs.ctrl n addr = true)
    (hd : (s.cfg.layout.ctrl.bankEn.get n).test s.regs.ctrl = false
      ∨ s.cfg.layout.route.ebiPen.test s.regs.route = false) :
    windowCheck addr s = .error (.windowDisabled addr) := by
  rcases hd with hd | hd <;> simp [windowCheck, hu, windowBank_of_inWindow hw, hd]

theorem windowCheck_of_enabled {s : State} {addr : Word} {n : Bank} (hu : s.unfenced = false)
    (hw : inWindow s.cfg s.regs.ctrl n addr = true)
    (hb : (s.cfg.layout.ctrl.bankEn.get n).test s.regs.ctrl = true)
    (he : s.cfg.layout.route.ebiPen.test s.regs.route = true) : windowCheck addr s = .ok n := by
  simp [windowCheck, hu, windowBank_of_inWindow hw, hb, he]

theorem exec_barrier {s : State} (hid : s.idleOk) : exec .barrier s = .next (barrierEffect s) :=
  whenIdle_of_idleOk (barrierEffect s) hid

theorem exec_windowAccess (addr : Word) (write : Bool) (data : Word) (s : State) :
    exec (.windowAccess addr write data) s = execWindowAccess addr write data s := rfl

theorem exec_windowAccess_of_error {s : State} {addr : Word} {e : FaultCause} (hid : s.idleOk)
    (hw : windowCheck addr s = .error e) (write : Bool) (data : Word) :
    exec (.windowAccess addr write data) s = .next (faulted (.windowAccess addr write data) e s) := by
  rw [exec_windowAccess, execWindowAccess, whenIdle_of_idleOk _ hid, hw]
  rfl

theorem exec_windowAccess_of_ok {s : State} {addr : Word} {n : Bank} (hid : s.idleOk)
    (hw : windowCheck addr s = .ok n) (write : Bool) (data : Word) :
    exec (.windowAccess addr write data) s = .next (windowEffect n addr write data s) := by
  rw [exec_windowAccess, execWindowAccess, whenIdle_of_idleOk _ hid, hw]

/-- Settles O59: the checks of R82 one by one; the bank accessed is the only one whose window has the address. -/
theorem barrierAndWindowAccess : Obligations.BarrierAndWindowAccess := by
  unfold Obligations.BarrierAndWindowAccess
  intro addr data write s hid
  refine ⟨exec_barrier hid, ?unfenced, ?noWindow, fun hu n hw => ⟨?disabled, ?enabled⟩⟩
  case unfenced => exact fun hu => exec_windowAccess_of_error hid (windowCheck_of_unfenced hu addr) write data
  case noWindow => exact fun hu hw => exec_windowAccess_of_error hid (windowCheck_of_noWindow hu hw) write data
  case disabled => exact fun hd => exec_windowAccess_of_error hid (windowCheck_of_disabled hu hw hd) write data
  case enabled =>
    intro hb he
    have hok : windowCheck addr s = .ok n := windowCheck_of_enabled hu hw hb he
    exact ⟨exec_windowAccess_of_ok hid hok true data, _, _, exec_windowAccess_of_ok hid hok false data⟩

end Sys2Proof.Proofs

/-! # Proofs: the command frame, its decoder and its encoder (30_encoding.md R101 to R114) -/

namespace Sys2Proof.Proofs

open Sys2Proof Sys2Proof.Machine Sys2Proof.Claims

/-! ## From a frame to its command (R101, R102, R111) -/

/-- The header with the fields of h that the opcode uses, every other field 0 (R102). -/
def usedHeader (o : Opcode) (h : Word) : Word :=
  headerOf o (bif o.row.uses.getLsbD 8 then headerBanks h else 0)
    (bif o.row.uses.getLsbD 16 then headerSel h else 0) (bif o.row.uses.getLsbD 20 then headerV h else false)
    (bif o.row.uses.getLsbD 21 then headerF1 h else false) (bif o.row.uses.getLsbD 22 then headerF2 h else false)
    (bif o.row.uses.getLsbD 23 then headerF3 h else false)

theorem cond_eq_self {α : Type} {used : Bool} {x z : α} (h : used = false → x = z) : cond used x z = x := by
  cases used
  case false => exact (h rfl).symm
  case true => rfl

/-- A header that R112 lets pass has no other field than those its opcode uses. -/
theorem usedHeader_eq_self {o : Opcode} {h : Word} (hop : headerOp h = o.row.code)
    (hs : h &&& ~~~(0xFF ||| o.row.uses) = 0) : usedHeader o h = h := by
  obtain ⟨hrsv, hB, hS, hV, h1, h2, h3⟩ := (stray_eq_zero_iff o h).1 hs
  rw [usedHeader, cond_eq_self hB, cond_eq_self hS, cond_eq_self hV, cond_eq_self h1, cond_eq_self h2,
    cond_eq_self h3]
  exact (header_ext o hop hrsv).symm

/-- The argument words of an opcode, as many as R111 says, build a command; its frame has those words and the
fields of the header that the opcode uses. -/
theorem exists_build_encode {o : Opcode} {args : List Word} (hl : args.length = o.row.nargs) (h : Word) :
    ∃ i, o.build h args = some i ∧ (o.strayFlags args = false → encode i = usedHeader o h :: args) := by
  cases o
  case barrier | setGlobalPolarity | setBankPolarity | enableBank | configBankReadFlags | configBankWriteFlags
      | configBankAddrFlags | enableByteLane | enableNand | enableChipSelect | enableAddressLatch
      | enableByteLanePin | enableControllerPins | enableTftPins | disable | bankBase =>
    obtain rfl := List.length_eq_zero_iff.1 hl
    exact ⟨_, rfl, fun _ => rfl⟩
  case regRead | setLowAddrPins | setHighAddrPins | setRoutingLocation | tftSetFrameBase | tftSetMaskBlend =>
    obtain ⟨a, rfl⟩ := List.length_eq_one_iff.1 hl
    exact ⟨_, rfl, fun _ => rfl⟩
  case regWrite | regBitwrite | windowAccess | setAddrTiming | setBankAddrTiming | tftSetSize =>
    obtain ⟨a, b, rfl⟩ := List.length_eq_two.1 hl
    exact ⟨_, rfl, fun _ => rfl⟩
  case regMerge | setReadTiming | setWriteTiming | setBankReadTiming | setBankWriteTiming | tftSetHPorch
      | tftSetVPorch =>
    obtain ⟨a, b, d, rfl⟩ := List.length_eq_three.1 hl
    exact ⟨_, rfl, fun _ => rfl⟩
  case tftSetTiming =>
    match args, hl with
    | [_, _, _, _], _ => exact ⟨_, rfl, fun _ => rfl⟩
  case init =>
    match args, hl with
    | [a1, a2, a3, a4, a5, a6, a7, a8, a9, a10, a11, a12], _ =>
      refine ⟨_, rfl, fun hf => ?_⟩
      have hclean : a1 &&& ~~~initFlagBits = 0 := by simpa [Opcode.strayFlags] using hf
      rw [encode, flags_initRecordOf _ _ _ _ _ _ _ _ _ _ _ _ hclean]
      rfl
  case tftInit =>
    match args, hl with
    | [a1, a2, a3, a4, a5, a6, a7, a8, a9, a10, a11, a12, a13, a14], _ =>
      refine ⟨_, rfl, fun hf => ?_⟩
      have hclean : a14 &&& ~~~tftFlagBits = 0 := by simpa [Opcode.strayFlags] using hf
      rw [encode, flags_tftRecordOf _ _ _ _ _ _ _ _ _ _ _ _ _ _ hclean]
      rfl

/-- No other number of argument words builds a command (R101): the words are taken one by one until the opcode's
pattern is met or missed. -/
theorem length_of_build {o : Opcode} {h : Word} {args : List Word} {i : Instr} (hb : o.build h args = some i) :
    args.length = o.row.nargs := by
  cases o
  all_goals iterate 16
    all_goals try first | (cases hb; done) | (cases hb; rfl) | (rcases args with _ | ⟨a, args⟩)

theorem encode_of_build {o : Opcode} {h : Word} {args : List Word} {i : Instr} (hb : o.build h args = some i)
    (hf : o.strayFlags args = false) : encode i = usedHeader o h :: args := by
  obtain ⟨j, hj, he⟩ := exists_build_encode (length_of_build hb) h
  obtain rfl : j = i := Option.some.inj (hj.symm.trans hb)
  exact he hf

/-! ## What the decoder answers (R112, R113) -/

theorem decode_unassigned {h : Word} (ho : Opcode.ofCode (headerOp h) = none) (c : Cfg) (args : List Word) :
    decode c (h :: args) = .illegal h := by
  unfold decode
  simp only [ho]

/-- The decoder on a frame of an assigned opcode (R112): IllegalCommand for a stray header bit, a false gate or a
stray flag, and else the command the frame encodes. -/
theorem decode_frame {o : Opcode} {h : Word} {args : List Word} (hop : headerOp h = o.row.code)
    (hl : args.length = o.row.nargs) (c : Cfg) :
    ∃ i, o.build h args = some i ∧ decode c (h :: args) =
      if h &&& ~~~(0xFF ||| o.row.uses) ≠ 0 ∨ o.present c = false ∨ o.strayFlags args = true then .illegal h
      else .command i := by
  obtain ⟨i, hi, -⟩ := exists_build_encode hl h
  refine ⟨i, hi, ?_⟩
  by_cases hs : h &&& ~~~(0xFF ||| o.row.uses) = 0
  · rw [decode_header c o h args hop hs, hi]
    simp only [hs, ne_eq, not_true, false_or]
    cases o.present c <;> cases o.strayFlags args <;> rfl
  · rw [decode_stray c o h args hop hs, if_pos (.inl hs)]

/-- What a frame that decodes to a command passed (R112). -/
theorem decode_eq_command {c : Cfg} {frame : List Word} {i : Instr} (hd : decode c frame = .command i) :
    ∃ (o : Opcode) (h : Word) (args : List Word), frame = h :: args ∧ headerOp h = o.row.code
      ∧ h &&& ~~~(0xFF ||| o.row.uses) = 0 ∧ o.present c = true ∧ o.build h args = some i
      ∧ o.strayFlags args = false := by
  cases frame with
  | nil => cases hd
  | cons h args =>
    cases ho : Opcode.ofCode (headerOp h) with
    | none =>
      rw [decode_unassigned ho] at hd
      cases hd
    | some o =>
      have hop := (Opcode.code_of_ofCode ho).symm
      by_cases hs : h &&& ~~~(0xFF ||| o.row.uses) = 0
      case neg =>
        rw [decode_stray c o h args hop hs] at hd
        cases hd
      case pos =>
        rw [decode_header c o h args hop hs] at hd
        cases hp : o.present c <;> cases hb : o.build h args <;> cases hf : o.strayFlags args <;>
          simp only [hp, hb, hf] at hd <;> cases hd
        exact ⟨o, h, args, rfl, hop, hs, hp, hb, hf⟩

/-- Settles O1: the command's own header, argument words and flags word pass each test of the decoder. -/
theorem decodeEncodeRoundTrip : Obligations.DecodeEncodeRoundTrip := by
  unfold Obligations.DecodeEncodeRoundTrip
  intro c i hw
  obtain ⟨hop, hclean⟩ := header_clean i
  rw [encode_eq_cons, decode_header c i.opcode i.header _ hop hclean, ← wellFormed_eq_present, if_pos hw,
    build_encode, strayFlags_encode]
  rfl

/-- Settles O2: the tests of the decoder leave no bit of the header free, and the gate is the opcode's. -/
theorem legalFramesAreEncodings : Obligations.LegalFramesAreEncodings := by
  unfold Obligations.LegalFramesAreEncodings
  intro c frame i hd
  obtain ⟨o, h, args, rfl, hop, hs, hp, hb, hf⟩ := decode_eq_command hd
  constructor
  · rw [encode_of_build hb hf, usedHeader_eq_self hop hs]
  · rw [wellFormed_eq_present, opcode_of_build hb, hp]

/-- Settles O3: a frame passes every test of the decoder or is illegal, and two frames of one command are both its
encoding. -/
theorem decodingIsTotalAndInjective : Obligations.DecodingIsTotalAndInjective := by
  unfold Obligations.DecodingIsTotalAndInjective
  refine ⟨fun c h args hl => ?total, fun c f g i hf hg => ?injective⟩
  case total =>
    cases ho : Opcode.ofCode (headerOp h) with
    | none => exact .inr (decode_unassigned ho c args)
    | some o =>
      obtain ⟨i, -, hd⟩ := decode_frame (Opcode.code_of_ofCode ho).symm (hl o ho) c
      split_ifs at hd
      · exact .inr hd
      · exact .inl ⟨i, hd⟩
  case injective =>
    exact (legalFramesAreEncodings c f i hf).1.trans (legalFramesAreEncodings c g i hg).1.symm

/-! ## Which frames are illegal (R112) -/

theorem not_unassigned_code (o : Opcode) : ¬ unassigned o.row.code := by
  unfold unassigned
  cases o <;> decide

/-- Every byte outside the gaps of R111 is an opcode. -/
theorem exists_code_of_not_unassigned {b : Byte} : ¬ unassigned b → ∃ o, Opcode.ofCode b = some o := by
  have hbytes : ∀ b : Byte, Opcode.ofCode b = none → unassigned b := by
    unfold unassigned
    decide
  exact fun hb => Option.ne_none_iff_exists'.1 (mt (hbytes b) hb)

theorem ofCode_of_unassigned {b : Byte} (hb : unassigned b) : Opcode.ofCode b = none := by
  cases ho : Opcode.ofCode b with
  | none => rfl
  | some o => exact absurd (Opcode.code_of_ofCode ho ▸ hb) (not_unassigned_code o)

theorem gate_eq_present (c : Cfg) (o : Opcode) : gate c o = o.present c := by cases o <;> rfl

/-- Whether an opcode uses a header field shows in the field's first bit (R111). -/
theorem uses_and_field_eq_zero (o : Opcode) :
    (o.row.uses &&& usesBanks = 0 ↔ o.row.uses.getLsbD 8 = false)
      ∧ (o.row.uses &&& usesSel = 0 ↔ o.row.uses.getLsbD 16 = false)
      ∧ (o.row.uses &&& usesV = 0 ↔ o.row.uses.getLsbD 20 = false)
      ∧ (o.row.uses &&& usesF1 = 0 ↔ o.row.uses.getLsbD 21 = false)
      ∧ (o.row.uses &&& usesF2 = 0 ↔ o.row.uses.getLsbD 22 = false)
      ∧ (o.row.uses &&& usesF3 = 0 ↔ o.row.uses.getLsbD 23 = false) := by
  cases o <;> decide

/-- The decoder's test of the header is R112's for RSV and the unused fields. -/
theorem stray_ne_zero_iff (o : Opcode) (h : Word) :
    h &&& ~~~(0xFF ||| o.row.uses) ≠ 0 ↔ h.extractLsb' 24 8 ≠ 0 ∨ unusedFieldSet o h := by
  obtain ⟨hB, hS, hV, h1, h2, h3⟩ := uses_and_field_eq_zero o
  rw [Ne, stray_eq_zero_iff, unusedFieldSet, hB, hS, hV, h1, h2, h3]
  simp only [not_and_or, Classical.not_imp, Bool.not_eq_false, Ne]

/-- Only INIT and TFT_INIT have a flags word (R107, R110, R112). -/
theorem strayFlags_eq_true_iff (o : Opcode) (args : List Word) :
    o.strayFlags args = true ↔ (o = .init ∧ args.getD 0 0 &&& ~~~(0x003F0FFF : Word) ≠ 0)
      ∨ (o = .tftInit ∧ args.getD 13 0 &&& ~~~(0x003F3F1F : Word) ≠ 0) := by
  cases o
  case init => simp [Opcode.strayFlags, initFlagBits]
  case tftInit => simp [Opcode.strayFlags, tftFlagBits]
  all_goals simp [Opcode.strayFlags]

/-- Settles O4: an unassigned byte is no opcode; for an assigned one the decoder's three tests are R112's. -/
theorem illegalFramesAreThoseOfR112 : Obligations.IllegalFramesAreThoseOfR112 := by
  unfold Obligations.IllegalFramesAreThoseOfR112
  refine fun c h args => ⟨fun hu => decode_unassigned (ofCode_of_unassigned hu) c args, fun hu => ?_⟩
  obtain ⟨o, ho⟩ := exists_code_of_not_unassigned hu
  have hop := Opcode.code_of_ofCode ho
  refine ⟨o, hop, fun hl => ?_⟩
  obtain ⟨i, -, hd⟩ := decode_frame hop.symm hl c
  have htests : decode c (h :: args) = .illegal h ↔
      h &&& ~~~(0xFF ||| o.row.uses) ≠ 0 ∨ o.present c = false ∨ o.strayFlags args = true := by
    rw [hd]
    split_ifs with hbad <;> simp only [hbad]
  rw [htests, stray_ne_zero_iff, gate_eq_present, strayFlags_eq_true_iff, or_assoc]

/-- Settles O5: ten words of R102 and R111, each decoded by evaluation. -/
theorem writtenWordsDecode : Obligations.WrittenWordsDecode := by
  unfold Obligations.WrittenWordsDecode
  decide

/-! ## From a frame to a step (R112, R114) -/

theorem present_of_command {meaning : Instr → State → Result} {frame : List Word} {i : Instr} {s : State}
    (hd : decode s.cfg frame = .command i) : present meaning frame s = meaning i s := by
  simp only [present, hd]

theorem present_of_illegal {meaning : Instr → State → Result} {frame : List Word} {h : Word} {s : State}
    (hd : decode s.cfg frame = .illegal h) (hid : s.idleOk) :
    present meaning frame s = .next (raise (.illegalCommand h) (headerOp h) .main s) := by
  simp only [present, hd]
  exact whenIdle_of_idleOk _ hid

/-- Settles O6: the step of a `command` event is the meaning of the command its frame decodes to. -/
theorem stepRunsTheDecodedCommand : Obligations.StepRunsTheDecodedCommand := by
  unfold Obligations.StepRunsTheDecodedCommand
  intro s frame rest i hf ha hd
  rw [step_cons ha hf nofun]
  exact present_of_command (s := { s with agenda := rest }) hd

/-- Settles O7: both events present the frame, and its verdict is taken before any meaning. -/
theorem illegalFramesRaiseIllegalCommand : Obligations.IllegalFramesRaiseIllegalCommand := by
  unfold Obligations.IllegalFramesRaiseIllegalCommand
  intro s frame rest h hid ha hd
  rcases ha with ha | ha
  all_goals
    rw [step_cons ha hid.1 nofun]
    exact present_of_illegal (s := { s with agenda := rest }) hd hid

end Sys2Proof.Proofs

/-! # Proofs: the order of a walk is not seen in the end state (30_encoding.md R116, 44_pin_routing.md R230,
45_init_disable.md R271) -/

namespace Sys2Proof.Proofs

open Sys2Proof Sys2Proof.Machine Sys2Proof.Claims

/-! ## Runs that end alike -/

/-- Two end states are the same unless both are faults. -/
def Agree (u v : State) : Prop := u.fault = none ∨ v.fault = none → u = v

theorem Agree.symm {u v : State} (h : Agree u v) : Agree v u := fun hf => (h hf.symm).symm

theorem Agree.trans {u v w : State} (h : Agree u v) (h' : Agree v w) : Agree u w := by
  rintro (hu | hw)
  · have huv := h (.inl hu)
    exact huv.trans (h' (.inl (huv ▸ hu)))
  · have hvw := h' (.inr hw)
    exact (h (.inr (hvw ▸ hw))).trans hvw

theorem agree_of_faults {u v : State} (hu : u.fault ≠ none) (hv : v.fault ≠ none) : Agree u v :=
  fun hf => (hf.elim hu hv).elim

/-- Two lists of micro-steps of one command, run from one state to the end, end alike; the count of micro-steps and
the word t are open. -/
def SameEnd (c : Cfg) (cmd : Instr) (a b : List MicroOp) : Prop :=
  ∀ (k k' : Nat) (t t' w : Word) (s : State), s.cfg = c →
    Agree (play cmd .nothing k a t w s) (play cmd .nothing k' b t' w s)

theorem SameEnd.symm {c : Cfg} {cmd : Instr} {a b : List MicroOp} (h : SameEnd c cmd a b) : SameEnd c cmd b a :=
  fun k k' t t' w s hs => (h k' k t' t w s hs).symm

theorem SameEnd.trans {c : Cfg} {cmd : Instr} {a b d : List MicroOp} (h : SameEnd c cmd a b)
    (h' : SameEnd c cmd b d) : SameEnd c cmd a d :=
  fun k k' t t' w s hs => (h k 0 t 0 w s hs).trans (h' 0 k' 0 t' w s hs)

theorem SameEnd.nil {c : Cfg} {cmd : Instr} : SameEnd c cmd [] [] := fun _ _ _ _ _ _ _ _ => rfl

/-- Two parts of a command may stand for each other: before parts that end alike, they end alike. -/
def Alike (c : Cfg) (a b : List MicroOp) : Prop :=
  ∀ (cmd : Instr) (rest rest' : List MicroOp), SameEnd c cmd rest rest' → SameEnd c cmd (a ++ rest) (b ++ rest')

theorem Alike.sameEnd {c : Cfg} {a b : List MicroOp} (h : Alike c a b) (cmd : Instr) : SameEnd c cmd a b := by
  simpa only [List.append_nil] using h cmd [] [] .nil

theorem Alike.nil {c : Cfg} : Alike c [] [] := fun _ _ _ h => h

theorem Alike.append {c : Cfg} {a b a' b' : List MicroOp} (h : Alike c a b) (h' : Alike c a' b') :
    Alike c (a ++ a') (b ++ b') := by
  intro cmd rest rest' hr
  rw [List.append_assoc, List.append_assoc]
  exact h cmd _ _ (h' cmd _ _ hr)

theorem Alike.cons {c : Cfg} {op : MicroOp} {a b : List MicroOp} (h : Alike c [op] [op]) (h' : Alike c a b) :
    Alike c (op :: a) (op :: b) := h.append h'

theorem Alike.trans {c : Cfg} {a b d : List MicroOp} (h : Alike c a b) (h' : Alike c b d) : Alike c a d :=
  fun cmd _ _ hr => (h cmd _ _ (hr.trans hr.symm)).trans (h' cmd _ _ hr)

theorem Alike.ite {c : Cfg} {p : Prop} [Decidable p] {a b a' b' : List MicroOp} (h : Alike c a b)
    (h' : Alike c a' b') : Alike c (if p then a else a') (if p then b else b') := by
  split
  · exact h
  · exact h'

theorem Alike.flatMap {c : Cfg} {α : Type} {f g : α → List MicroOp} :
    ∀ l : List α, (∀ x ∈ l, Alike c (f x) (g x)) → Alike c (l.flatMap f) (l.flatMap g)
  | [], _ => .nil
  | x :: l, h => by
    rw [List.flatMap_cons, List.flatMap_cons]
    exact (h x (by simp)).append (Alike.flatMap l fun y hy => h y (by simp [hy]))

/-- A loop may walk its set in another order if its bodies may change places two by two. -/
theorem Alike.flatMap_perm {c : Cfg} {α : Type} {f : α → List MicroOp} (hself : ∀ x, Alike c (f x) (f x))
    (hswap : ∀ x y, Alike c (f x ++ f y) (f y ++ f x)) {l l' : List α} (hp : l.Perm l') :
    Alike c (l.flatMap f) (l'.flatMap f) := by
  induction hp with
  | nil => exact .nil
  | cons x _ ih =>
    rw [List.flatMap_cons, List.flatMap_cons]
    exact (hself x).append ih
  | swap x y l =>
    simp only [List.flatMap_cons, ← List.append_assoc]
    exact (hswap y x).append (.flatMap l fun z _ => hself z)
  | trans _ _ ih ih' => exact ih.trans ih'

/-! ## One micro-step -/

/-- A micro-step that writes is stopped by R363(b), or leaves its word and goes on. -/
theorem play_of_target {cmd : Instr} {ret : Ret} {k : Nat} {op : MicroOp} {rest : List MicroOp} {t w : Word}
    {s : State} {r : Reg} {v : Word} (h : op.target ⟨cmd, k, op :: rest, ret, t, w⟩ s = some (r, v)) :
    play cmd ret k (op :: rest) t w s =
      if s.gpioBlocks r v then
        raise .hostGpioNotReady cmd.code .main { s with cfgr := .busy ⟨cmd, k, op :: rest, ret, t, w⟩ }
      else play cmd ret (k + 1) rest t w (s.putReg r v) := by
  cases op
  case read | readUnlessNoBL | snapshot => cases h
  case write | writeMerged | bit | commit | blPin =>
    simp only [play, h]

/-- Two micro-steps that write the same word to the same register end alike if what follows them does. -/
theorem agree_of_target {c : Cfg} {cmd : Instr} {op : MicroOp} {rest rest' : List MicroOp} {k k' : Nat}
    {t t' w : Word} {s : State} {r : Reg} {v : Word}
    (h : op.target ⟨cmd, k, op :: rest, .nothing, t, w⟩ s = some (r, v))
    (h' : op.target ⟨cmd, k', op :: rest', .nothing, t', w⟩ s = some (r, v)) (hr : SameEnd c cmd rest rest')
    (hs : s.cfg = c) :
    Agree (play cmd .nothing k (op :: rest) t w s) (play cmd .nothing k' (op :: rest') t' w s) := by
  rw [play_of_target h, play_of_target h']
  split
  · exact agree_of_faults nofun nofun
  · exact hr _ _ t t' w (s.putReg r v) hs

/-- A micro-step that writes a word it does not compute from t. -/
theorem Alike.of_target {c : Cfg} {op : MicroOp} {r : Reg} (v : State → Word → Word)
    (h : ∀ b s, op.target b s = some (r, v s b.c)) : Alike c [op] [op] :=
  fun _ _ _ hr _ _ _ _ _ _ hs => agree_of_target (h _ _) (h _ _) hr hs

theorem Alike.bit {c : Cfg} {r : Reg} {i : Nat} {x : Bool} : Alike c [.bit r i x] [.bit r i x] :=
  .of_target (fun s _ => s.cfg.storeBit r (s.regs.get r) i x) fun _ _ => rfl

theorem Alike.commit {c : Cfg} : Alike c [.commit] [.commit] :=
  .of_target (fun s w => s.cfg.storeWord .ctrl (s.regs.get .ctrl) w) fun _ _ => rfl

theorem Alike.blPin {c : Cfg} : Alike c [.blPin] [.blPin] :=
  .of_target (fun s w => s.cfg.storeBit .route (s.regs.get .route) s.cfg.layout.route.blPen.lo (anyBL s.cfg w))
    fun _ _ => rfl

theorem Alike.snapshot {c : Cfg} (edits : List (Word × Word)) : Alike c [.snapshot edits] [.snapshot edits] :=
  fun _ _ _ hr _ _ _ _ _ _ hs => hr _ _ _ _ _ _ hs

/-- A merge reads its register before it writes it, whatever t was. -/
theorem Alike.merge {c : Cfg} {r : Reg} {m v : Word} : Alike c (mergeOps r m v) (mergeOps r m v) :=
  fun _ _ _ hr _ _ _ _ _ s hs =>
    agree_of_target (op := .writeMerged r m v) (t := s.regs.get r) (t' := s.regs.get r) rfl rfl hr hs

/-! ## Parts that write no TFT register -/

/-- Parts of the bus side that leave the same registers, and are both empty or both not, are alike. -/
theorem Alike.of_bus {c : Cfg} {a b : List MicroOp} (he : a.isEmpty = b.isEmpty)
    (h : ∀ ready f, ∃ g, Bus c ready a f g ∧ Bus c ready b f g) : Alike c a b := by
  rintro cmd rest rest' hr k k' t t' w s rfl
  obtain ⟨g, ha, hb⟩ := h s.gpioReady s.regs
  obtain ⟨ta, hta⟩ := ha s rfl rfl rfl cmd .nothing k rest t w
  obtain ⟨tb, htb⟩ := hb s rfl rfl rfl cmd .nothing k' rest' t' w
  rw [hta, htb, he]
  exact hr _ _ _ _ _ _ rfl

/-- The micro-steps `ops` change the word of each register r by `F r`, with no fault. -/
def Acts (c : Cfg) (ops : List MicroOp) (F : Reg → Word → Word) : Prop :=
  ∀ ready f, ∃ g, Bus c ready ops f g ∧ ∀ r, g.get r = F r (f.get r)

theorem Acts.append {c : Cfg} {a b : List MicroOp} {F G : Reg → Word → Word} (ha : Acts c a F) (hb : Acts c b G) :
    Acts c (a ++ b) fun r w => G r (F r w) := by
  intro ready f
  obtain ⟨g, hg, hF⟩ := ha ready f
  obtain ⟨k, hk, hG⟩ := hb ready g
  exact ⟨k, hg.append hk, fun r => by rw [hG, hF]⟩

/-- Two parts may change places if their changes of each register may. -/
theorem Acts.swap {c : Cfg} {a b : List MicroOp} {F G : Reg → Word → Word} (ha : Acts c a F) (hb : Acts c b G)
    (hFG : ∀ r w, G r (F r w) = F r (G r w)) : Alike c (a ++ b) (b ++ a) := by
  refine .of_bus (by cases a <;> cases b <;> rfl) fun ready f => ?_
  obtain ⟨g, hg, hgr⟩ := ha.append hb ready f
  obtain ⟨g', hg', hgr'⟩ := hb.append ha ready f
  obtain rfl : g = g' := RegFile.ext_get fun r => by
    rw [hgr, hgr']
    exact hFG r _
  exact ⟨g, hg, hg'⟩

/-- A part that changes one register acts as the identity on every other. -/
theorem Acts.one {c : Cfg} {ops : List MicroOp} {r : Reg} {u : Word → Word}
    (h : ∀ ready f, Bus c ready ops f (f.set r (u (f.get r)))) :
    Acts c ops fun q w => if q = r then u w else w := by
  intro ready f
  refine ⟨_, h ready f, fun q => (f.get_set q r _).trans ?_⟩
  by_cases hq : q = r
  · subst hq
    simp only [if_true]
  · simp only [if_neg hq]

/-! ## Loop bodies of one bank -/

/-- The bank whose entry of a per-bank family the register is (R22). -/
def bankOf : Reg → Option Bank
  | .addrTiming n | .rdTiming n | .wrTiming n | .polarity n => some n
  | .ctrl | .route | .routeLoc | .nandCtrl | .tftCtrl | .tftFrameBase | .tftSize | .tftHPorch | .tftVPorch
  | .tftTiming | .tftPolarity => none

theorem bus_of_bankOf {r : Reg} {n : Bank} (h : bankOf r = some n) : r.isTft = false ∧ r ≠ .route := by
  cases r
  case addrTiming | rdTiming | wrTiming | polarity => exact ⟨rfl, by simp⟩
  all_goals cases h

/-- The micro-steps `ops` change the registers of bank n, and no other. -/
def OnBank (c : Cfg) (n : Bank) (ops : List MicroOp) : Prop :=
  ∃ F, Acts c ops F ∧ ∀ r w, bankOf r ≠ some n → F r w = w

theorem OnBank.append {c : Cfg} {n : Bank} {a b : List MicroOp} (ha : OnBank c n a) (hb : OnBank c n b) :
    OnBank c n (a ++ b) := by
  obtain ⟨F, hF, hFid⟩ := ha
  obtain ⟨G, hG, hGid⟩ := hb
  exact ⟨_, hF.append hG, fun r w hr => by rw [hFid r w hr, hGid r w hr]⟩

theorem OnBank.cons {c : Cfg} {n : Bank} {op : MicroOp} {b : List MicroOp} (ha : OnBank c n [op])
    (hb : OnBank c n b) : OnBank c n (op :: b) := ha.append hb

theorem OnBank.one {c : Cfg} {n : Bank} {ops : List MicroOp} {r : Reg} {u : Word → Word} (hr : bankOf r = some n)
    (h : ∀ ready f, Bus c ready ops f (f.set r (u (f.get r)))) : OnBank c n ops :=
  ⟨_, .one h, fun q _ hq => if_neg fun e : q = r => hq (e ▸ hr)⟩

theorem OnBank.bit {c : Cfg} {n : Bank} {r : Reg} {i : Nat} {x : Bool} (hr : bankOf r = some n) :
    OnBank c n [.bit r i x] :=
  have ⟨htft, hroute⟩ := bus_of_bankOf hr
  .one (u := fun w => c.storeBit r w i x) hr fun ready f => Bus.bit htft (blocksAt_of_ne c ready f _ hroute)

theorem OnBank.merge {c : Cfg} {n : Bank} {r : Reg} {m v : Word} (hr : bankOf r = some n) :
    OnBank c n (mergeOps r m v) :=
  have ⟨htft, hroute⟩ := bus_of_bankOf hr
  .one (u := fun w => c.storeWord r w (mergeWord w m v)) hr fun ready f =>
    Bus.merge htft (blocksAt_of_ne c ready f _ hroute)

theorem OnBank.alike {c : Cfg} {n : Bank} {ops : List MicroOp} (h : OnBank c n ops) : Alike c ops ops := by
  obtain ⟨F, hF, -⟩ := h
  exact .of_bus rfl fun ready f => have ⟨g, hg, _⟩ := hF ready f; ⟨g, hg, hg⟩

/-- The bodies of two banks may change places. -/
theorem OnBank.swap {c : Cfg} {n m : Bank} {a b : List MicroOp} (ha : OnBank c n a) (hb : OnBank c m b)
    (hnm : n ≠ m) : Alike c (a ++ b) (b ++ a) := by
  obtain ⟨F, hF, hFid⟩ := ha
  obtain ⟨G, hG, hGid⟩ := hb
  refine hF.swap hG fun r w => ?_
  by_cases hr : bankOf r = some n
  · have hrm : bankOf r ≠ some m := fun h => hnm (Option.some.inj (hr.symm.trans h))
    rw [hGid _ _ hrm, hGid _ _ hrm]
  · rw [hFid _ _ hr, hFid _ _ hr]

/-- A loop over banks, each body changing the registers of its bank alone, may walk in any order. -/
theorem OnBank.flatMap_perm {c : Cfg} {body : Bank → List MicroOp} (h : ∀ n, OnBank c n (body n)) {l l' : List Bank}
    (hp : l.Perm l') : Alike c (l.flatMap body) (l'.flatMap body) := by
  refine .flatMap_perm (fun n => (h n).alike) (fun n m => ?_) hp
  by_cases hnm : n = m
  · subst hnm
    exact (h n).alike.append (h n).alike
  · exact (h n).swap (h m) hnm

theorem OnBank.map_perm {c : Cfg} {op : Bank → MicroOp} (h : ∀ n, OnBank c n [op n]) {l l' : List Bank}
    (hp : l.Perm l') : Alike c (l.map op) (l'.map op) := by
  rw [List.map_eq_flatMap, List.map_eq_flatMap]
  exact OnBank.flatMap_perm h hp

theorem onBank_readFlagOps (c : Cfg) (pm pf hr : Bool) (n : Bank) : OnBank c n (readFlagOps c pm pf hr n) :=
  (OnBank.bit rfl).cons ((OnBank.bit rfl).cons (.bit rfl))

theorem onBank_writeFlagOps (c : Cfg) (wb hw : Bool) (n : Bank) : OnBank c n (writeFlagOps c wb hw n) :=
  (OnBank.bit rfl).cons (.bit rfl)

theorem onBank_initBankTimingOps (c : Cfg) (r : InitRecord) (rw ww aw : Word) (n : Bank) :
    OnBank c n (initBankTimingOps c r rw ww aw n) :=
  (((((OnBank.merge rfl).append (onBank_readFlagOps ..)).append (.merge rfl)).append
    (onBank_writeFlagOps ..)).append (.merge rfl)).append (.bit rfl)

/-! ## Loops over the bits of one register -/

theorem foldr_or_perm {l l' : List (Fin 4)} (hp : l.Perm l') (pos : Fin 4 → Nat) :
    l.foldr (fun n m => (1#32 <<< pos n) ||| m) 0 = l'.foldr (fun n m => (1#32 <<< pos n) ||| m) 0 :=
  hp.foldr_eq' (fun n _ k _ m => by
    rw [← BitVec.or_assoc, BitVec.or_comm (1#32 <<< pos k), BitVec.or_assoc]) 0

theorem alike_ctrlBits {c : Cfg} {l l' : List (Fin 4)} (hp : l.Perm l') (pos : Fin 4 → Nat) (x : Bool) :
    Alike c (l.map fun n => .bit .ctrl (pos n) x) (l'.map fun n => .bit .ctrl (pos n) x) := by
  refine .of_bus (hp.map _).isEmpty_eq fun _ f => ⟨_, Bus.bits rfl (by simp) l f, ?_⟩
  rw [foldr_or_perm hp]
  exact Bus.bits rfl (by simp) l' f

/-- In the layout of CFG_REF no chip-select pin is EBIPEN (R36). -/
theorem csPen_ne_ebiPen {c : Cfg} (hc : c.layout = Layout.ref) (k : ChipSel) :
    (c.layout.route.csPen.get k).lo ≠ c.layout.route.ebiPen.lo := by
  rw [hc]
  fin_cases k <;> decide

theorem alike_csPins {c : Cfg} (hc : c.layout = Layout.ref) {l l' : List ChipSel} (hp : l.Perm l') (x : Bool) :
    Alike c (l.map fun k => .bit .route (c.layout.route.csPen.get k).lo x)
      (l'.map fun k => .bit .route (c.layout.route.csPen.get k).lo x) := by
  have hpos := csPen_ne_ebiPen hc
  refine .of_bus (hp.map _).isEmpty_eq fun _ f => ⟨_, Bus.routeBits l f fun k _ => hpos k, ?_⟩
  rw [foldr_or_perm hp]
  exact Bus.routeBits l' f fun k _ => hpos k

/-! ## The loops of each command -/

/-- A line's polarity stands in a register of each bank, or in the one TFT register, which each body then writes
alike (R180). -/
theorem polReg_cases (line : Line) : (∀ n, polReg line n = .polarity n) ∨ ∀ n, polReg line n = .tftPolarity := by
  cases line
  case ardy | ale | we | re | cs | bl => exact .inl fun _ => rfl
  case tftVSync | tftHSync | tftDataEn | tftDClk | tftCS => exact .inr fun _ => rfl

theorem alike_polOps (c : Cfg) (line : Line) (low : Bool) {l l' : List Bank} (hp : l.Perm l') :
    Alike c (l.map (polOp c line low)) (l'.map (polOp c line low)) := by
  rcases polReg_cases line with hbus | htft
  · exact OnBank.map_perm (fun n => .bit (by rw [hbus n]; rfl)) hp
  · have hop : ∀ n, polOp c line low n = .bit .tftPolarity (polBit c line) (polBitValue c low) := fun n => by
      rw [polOp, htft n]
    rw [List.map_eq_flatMap, List.map_eq_flatMap]
    simp only [hop]
    exact .flatMap_perm (fun _ => .bit) (fun _ _ => Alike.bit.append .bit) hp

section WalkOrders

variable (s : State) (o : List (List (Fin 4)))

/-- The walk of one loop in the order o chooses is another order of the same walk (R116). -/
theorem walk_orders_perm (j : Nat) (m : BitVec 4) : (s.walk j m).Perm (State.walk { s with orders := o } j m) :=
  walk_perm s _ j j m

theorem alike_initPolarityOps (m : BitVec 4) (r : InitRecord) :
    Alike s.cfg (initPolarityOps s m r) (initPolarityOps { s with orders := o } m r) := by
  unfold initPolarityOps
  refine .ite (.flatMap _ fun p _ => alike_polOps _ _ _ (walk_orders_perm s o _ m)) ?_
  rw [List.map_eq_flatMap]
  exact .flatMap _ fun _ _ => .bit

theorem alike_initTimingOps (m : BitVec 4) (r : InitRecord) (rw ww aw : Word) :
    Alike s.cfg (initTimingOps s m r rw ww aw) (initTimingOps { s with orders := o } m r rw ww aw) := by
  unfold initTimingOps
  exact .ite (OnBank.flatMap_perm (onBank_initBankTimingOps _ r rw ww aw) (walk_orders_perm s o 6 m))
    ((Alike.merge.append .merge).append .merge)

theorem alike_initRouteOps (c : Cfg) (r : InitRecord) : Alike c (initRouteOps c r) (initRouteOps c r) :=
  ((Alike.ite (Alike.merge.append .merge) .nil).append (.ite .merge .nil)).append (.ite .blPin .nil)

/-- The ten steps of INIT, part by part: only the loops of steps 2, 5 and 10 walk (R263, R266, R271). -/
theorem alike_initOps (hc : s.cfg.layout = Layout.ref) (m cs : BitVec 4) (en : Bool) (r : InitRecord)
    (rw ww aw : Word) :
    Alike s.cfg (initOps s m cs en r rw ww aw) (initOps { s with orders := o } m cs en r rw ww aw) :=
  ((((((Alike.snapshot _).append (alike_initPolarityOps s o m r)).append (alike_initTimingOps s o m r rw ww aw)).append
    (.cons .commit .bit)).append (alike_initRouteOps s.cfg r)).append .bit).append
    (alike_csPins hc (walk_orders_perm s o 7 cs) true)

/-! ## Plans -/

/-- Two plans are the same, or return nothing and have micro-steps that end alike. -/
def SamePlan (c : Cfg) (p q : Except FaultCause Plan) : Prop :=
  p = q ∨ ∃ a b, p = .ok { ops := a } ∧ q = .ok { ops := b } ∧ Alike c a b

theorem SamePlan.ops {c : Cfg} {a b : List MicroOp} (h : Alike c a b) :
    SamePlan c (.ok { ops := a }) (.ok { ops := b }) := .inr ⟨a, b, rfl, rfl, h⟩

/-- The checks before a plan do not see the walk orders. -/
theorem SamePlan.bind {c : Cfg} {α : Type} (x : Except FaultCause α) {f g : α → Except FaultCause Plan}
    (h : ∀ a, SamePlan c (f a) (g a)) : SamePlan c (x >>= f) (x >>= g) := by
  cases x with
  | error e => exact .inl rfl
  | ok a => exact h a

/-- Of the commands with a plan only those that walk a set have another one under other walk orders. -/
theorem planOf_orders (hc : s.cfg.layout = Layout.ref) {i : Instr} {p : Except FaultCause Plan}
    (hp : planOf i s = some p) : ∃ q, planOf i { s with orders := o } = some q ∧ SamePlan s.cfg p q := by
  have hwalk := walk_orders_perm s o
  cases i <;> cases hp
  case setBankPolarity banks line low =>
    exact ⟨_, rfl, .bind (checkBanks banks) fun m => .bind (checkLine s.cfg line) fun l =>
      .ops (alike_polOps s.cfg l low (hwalk 0 m))⟩
  case enableBank banks en =>
    exact ⟨_, rfl, .bind (checkBanks banks) fun m => .ops (alike_ctrlBits (hwalk 0 m) _ en)⟩
  case enableByteLane banks en =>
    exact ⟨_, rfl, .bind (checkBanks banks) fun m => .ops (alike_ctrlBits (hwalk 0 m) _ en)⟩
  case setBankReadTiming banks setup strobe hold =>
    exact ⟨_, rfl, .bind (checkBanks banks) fun m => .bind (encRead s.cfg setup strobe hold) fun w =>
      .ops (OnBank.flatMap_perm (fun _ => .merge rfl) (hwalk 0 m))⟩
  case setBankWriteTiming banks setup strobe hold =>
    exact ⟨_, rfl, .bind (checkBanks banks) fun m => .bind (encWrite s.cfg setup strobe hold) fun w =>
      .ops (OnBank.flatMap_perm (fun _ => .merge rfl) (hwalk 0 m))⟩
  case setBankAddrTiming banks setup hold =>
    exact ⟨_, rfl, .bind (checkBanks banks) fun m => .bind (encAddr s.cfg setup hold) fun w =>
      .ops (OnBank.flatMap_perm (fun _ => .merge rfl) (hwalk 0 m))⟩
  case configBankReadFlags banks pm pf hr =>
    exact ⟨_, rfl, .bind (checkBanks banks) fun m =>
      .ops (OnBank.flatMap_perm (onBank_readFlagOps _ pm pf hr) (hwalk 0 m))⟩
  case configBankWriteFlags banks wb hw =>
    exact ⟨_, rfl, .bind (checkBanks banks) fun m =>
      .ops (OnBank.flatMap_perm (onBank_writeFlagOps _ wb hw) (hwalk 0 m))⟩
  case configBankAddrFlags banks ha =>
    exact ⟨_, rfl, .bind (checkBanks banks) fun m => .ops (OnBank.map_perm (fun _ => .bit rfl) (hwalk 0 m))⟩
  case enableChipSelect cs en => exact ⟨_, rfl, .ops (alike_csPins hc (hwalk 0 cs) en)⟩
  case init banks cs en r =>
    refine ⟨_, rfl, .bind (checkBanks banks) fun m => ?_⟩
    dsimp only
    split
    · exact .inl rfl
    · exact .bind (initChecks s.cfg r) fun w => .ops (alike_initOps s o hc m cs en r _ _ _)
  all_goals exact ⟨_, rfl, .inl rfl⟩

end WalkOrders

/-! ## Whole commands -/

/-- Two plans that end alike run a command to the same state, if it ends without a fault. -/
theorem runCommand_of_samePlan {i : Instr} {p q : Except FaultCause Plan} {s t : State} (h : SamePlan s.cfg p q)
    (hx : runCommand i p s = .next t) (ht : t.fault = none) : runCommand i q s = .next t := by
  rcases h with rfl | ⟨a, b, rfl, rfl, hab⟩
  · exact hx
  obtain ⟨hid, rfl⟩ := whenIdle_eq_next hx
  by_cases hw : i.wellFormed s.cfg = true
  case neg => simpa [runCommand, issue, hw] using hx
  by_cases hclk : s.clkOn = true
  case neg => simpa [runCommand, issue, hw, hclk] using hx
  have hs : s.ready := ⟨hid, hclk⟩
  rw [runCommand_ok hs hw] at hx ⊢
  injection hx with hx
  rw [← hab.sameEnd i 0 0 0 0 0 s rfl (.inl (hx ▸ ht)), hx]

@[simp] theorem runToEnd_agenda (s : State) : (runToEnd s).agenda = s.agenda := by
  have h := congrArg State.agenda (runToEnd_reframe s.agenda s.orders s)
  exact h

/-- A command with its plan given neither reads nor changes the walk orders. -/
theorem runCommand_orders {i : Instr} {p : Except FaultCause Plan} {s t : State} (o : List (List (Fin 4)))
    (hx : runCommand i p s = .next t) : runCommand i p { s with orders := o } = .next { t with orders := o } := by
  obtain ⟨hid, rfl⟩ := whenIdle_eq_next hx
  have hrun : runToEnd (issue i p { s with orders := o }) = { runToEnd (issue i p s) with orders := o } := by
    change runToEnd (issue i p (s.reframe s.agenda o)) = _
    rw [issue_reframe, runToEnd_reframe, State.reframe, ← issue_agenda i p s, ← runToEnd_agenda]
  rw [runCommand, hrun]
  exact whenIdle_of_idleOk _ hid

theorem exec_barrier_orders {s t : State} (o : List (List (Fin 4))) (hx : exec .barrier s = .next t) :
    exec .barrier { s with orders := o } = .next { t with orders := o } := by
  obtain ⟨hid, rfl⟩ := whenIdle_eq_next hx
  exact whenIdle_of_idleOk _ hid

theorem exec_windowAccess_orders {s t : State} {addr data : Word} {write : Bool} (o : List (List (Fin 4)))
    (hx : exec (.windowAccess addr write data) s = .next t) :
    exec (.windowAccess addr write data) { s with orders := o } = .next { t with orders := o } := by
  obtain ⟨hid, rfl⟩ := whenIdle_eq_next hx
  have hid' : State.idleOk { s with orders := o } := hid
  cases hw : windowCheck addr s with
  | error e => exact exec_windowAccess_of_error (s := { s with orders := o }) hid' hw write data
  | ok n =>
    rw [exec_windowAccess_of_ok (s := { s with orders := o }) hid' hw write data]
    cases write <;> rfl

/-- Settles O60: the parts of a command that walk a set are alike in every order, so the command ends alike; given
its plan, it does not see the orders. -/
theorem walkOrderIsInvisible : Obligations.WalkOrderIsInvisible := by
  unfold Obligations.WalkOrderIsInvisible
  intro i s t o hc hx ht
  rcases exec_eq i s with ⟨p, hp, he⟩ | ⟨-, rfl, -⟩ | ⟨-, addr, write, data, rfl, -⟩
  · obtain ⟨q, hq, hpq⟩ := planOf_orders s o hc hp
    rw [exec_of_planOf hq]
    exact runCommand_orders o (runCommand_of_samePlan hpq (he ▸ hx) ht)
  · exact exec_barrier_orders o hx
  · exact exec_windowAccess_orders o hx

end Sys2Proof.Proofs

/-! # Proofs: commands that write one register, and raw register access (40_register_access.md R140 to R144) -/

namespace Sys2Proof.Proofs

open Sys2Proof Sys2Proof.Machine Sys2Proof.Claims

/-! ## Commands whose last micro-step is their only write -/

theorem gpioBlocks_iff_forbidden (s : State) (r : Reg) (w : Word) :
    s.gpioBlocks r w = true ↔ forbidden s r w := by
  simp [State.gpioBlocks, forbidden, and_assoc]

/-- The return of a command that began idle changes only resp. -/
theorem finish_of_idle {s : State} (b : Busy) (hidle : s.cfgr = .idle) :
    finish b s = { s with resp := b.result s.cfg } := by
  rw [finish, ← hidle]

/-- A command that reaches its last micro-step with s unchanged, and there writes w to r, leaves w in r. -/
theorem leavesIn_of_last {i : Instr} {s : State} {ops : List MicroOp} {k : Nat} {op : MicroOp} {t c : Word}
    {r : Reg} {w : Word} (hs : s.ready) (hw : i.wellFormed s.cfg = true)
    (hp : planOf i s = some (.ok { ops := ops }))
    (hlast : play i .nothing 0 ops 0 0 s = play i .nothing k [op] t c s)
    (htarget : op.target ⟨i, k, [op], .nothing, t, c⟩ s = some (r, w)) : LeavesIn i k s r w := by
  have hrun : exec i s = .next (if s.gpioBlocks r w then
      faulted i .hostGpioNotReady { s with cfgr := .busy ⟨i, k, [op], .nothing, t, c⟩ } else stored s r w) := by
    refine exec_ok hs hw hp ?_
    rw [hlast, play_of_target htarget, play, finish_of_idle (s := s.putReg r w) _ hs.1.2]
    rfl
  constructor
  case left =>
    intro hfree
    rw [hrun, if_neg (mt (gpioBlocks_iff_forbidden s r w).1 hfree)]
  case right =>
    intro hforb
    rw [hrun, if_pos ((gpioBlocks_iff_forbidden s r w).2 hforb)]
    exact ⟨_, rfl, _, rfl, rfl, rfl⟩

/-! ## Register resolution (R140) -/

/-- A command that resolves an offset and finds a register goes on with that register. -/
theorem planOf_of_regAt {i : Instr} {s : State} {off : Word} {rest : Reg → Except FaultCause Plan} {r : Reg}
    (hp : planOf i s = some (resolve s.cfg off >>= rest)) (hr : s.cfg.regAt off = some r) :
    planOf i s = some (rest r) := by
  rw [hp, resolve, hr]
  rfl

/-- A command that resolves an offset first and finds no register raises BadRegister. -/
theorem exec_of_noRegister {i : Instr} {s : State} {off : Word} {rest : Reg → Except FaultCause Plan}
    (hs : s.ready) (hw : i.wellFormed s.cfg = true) (hp : planOf i s = some (resolve s.cfg off >>= rest))
    (hnone : s.cfg.regAt off = none) : exec i s = .next (faulted i (.badRegister off) s) := by
  refine exec_error hs hw ?_
  rw [hp, resolve, hnone]
  rfl

/-! ## REG_READ, REG_WRITE, REG_BITWRITE, REG_MERGE (R141 to R144) -/

/-- Settles O22: the one micro-step reads the register and the return hands its word back. -/
theorem regReadReturnsTheRegister : Obligations.RegReadReturnsTheRegister := by
  unfold Obligations.RegReadReturnsTheRegister
  intro off s hs
  refine ⟨fun r hr => ?_, exec_of_noRegister hs rfl rfl⟩
  have hplan : planOf (.regRead off) s = some (.ok { ops := [.read r], ret := .temp }) := by
    rw [planOf_of_regAt rfl hr]
    rfl
  exact exec_ok hs rfl hplan (finish_of_idle ⟨.regRead off, 1, [], .temp, s.regs.get r, 0⟩ hs.1.2)

/-- Settles O23: the one micro-step is the write. -/
theorem regWriteStoresTheWord : Obligations.RegWriteStoresTheWord := by
  unfold Obligations.RegWriteStoresTheWord
  intro off val s hs
  refine ⟨fun r hr => ?_, exec_of_noRegister hs rfl rfl⟩
  have hplan : planOf (.regWrite off val) s = some (.ok { ops := [.write r val] }) := by
    rw [planOf_of_regAt rfl hr]
    rfl
  exact leavesIn_of_last hs rfl hplan rfl rfl

/-- After the register, the bit index is checked (R143). -/
theorem planOf_regBitwrite {off : Word} {s : State} {r : Reg} (hr : s.cfg.regAt off = some r) (bit : Word)
    (x : Bool) :
    planOf (.regBitwrite off bit x) s
      = some (if 31 < bit.toNat then .error (.badBitIndex bit) else .ok { ops := [.bit r bit.toNat x] }) := by
  rw [planOf_of_regAt rfl hr]
  split <;> rfl

/-- Settles O24: the one micro-step is the write of the bit, which is the write of its one-bit mask. -/
theorem regBitwriteSetsOneBit : Obligations.RegBitwriteSetsOneBit := by
  unfold Obligations.RegBitwriteSetsOneBit
  intro off bit x s hs
  refine ⟨fun r hr hbit => ?inRange, fun r hr hbit => ?above, exec_of_noRegister hs rfl rfl⟩
  case inRange =>
    have hplan := planOf_regBitwrite hr bit x
    rw [if_neg (Nat.not_lt.2 hbit)] at hplan
    have hword : s.cfg.storeBit r (s.regs.get r) bit.toNat x
        = setBits s.cfg r (bitMask bit.toNat) x (s.regs.get r) := storeBit_eq_setMask _ _ _ _ _
    exact hword ▸ leavesIn_of_last hs rfl hplan rfl rfl
  case above =>
    have hplan := planOf_regBitwrite hr bit x
    rw [if_pos hbit] at hplan
    exact exec_error hs rfl hplan

/-- Settles O25: the first micro-step reads the register into t, the second writes the merge of t. -/
theorem regMergeClearsThenSets : Obligations.RegMergeClearsThenSets := by
  unfold Obligations.RegMergeClearsThenSets
  intro off mask bits s hs
  refine ⟨fun r hr => ?_, exec_of_noRegister hs rfl rfl⟩
  have hplan : planOf (.regMerge off mask bits) s = some (.ok { ops := mergeOps r mask bits }) := by
    rw [planOf_of_regAt rfl hr]
    rfl
  have hread : play (.regMerge off mask bits) .nothing 0 (mergeOps r mask bits) 0 0 s
      = play (.regMerge off mask bits) .nothing 1 [.writeMerged r mask bits] (s.regs.get r) 0 s := rfl
  exact leavesIn_of_last hs rfl hplan hread rfl

end Sys2Proof.Proofs

/-! # Proofs: timing encoders and the global timing commands (41_timing_encoders.md R160 to R167) -/

namespace Sys2Proof.Proofs

open Sys2Proof Sys2Proof.Machine Sys2Proof.Claims

/-! ## Fields of a word (R9) -/

theorem get_or (f : Field) (v w : Word) : f.get (v ||| w) = f.get v ||| f.get w := by
  apply BitVec.eq_of_getLsbD_eq
  intro i _
  simp only [getLsbD_get, BitVec.getLsbD_or, Bool.and_or_distrib_left]

theorem get_toNat_le_max (f : Field) (w : Word) : (f.get w).toNat ≤ f.max := by
  have hlt : (f.get w).toNat < 2 ^ f.width := by
    apply Nat.lt_pow_two_of_testBit
    intro i hi
    rw [BitVec.testBit_toNat, getLsbD_get]
    simp [Nat.not_lt.2 hi]
  exact Nat.le_sub_one_of_lt hlt

theorem ins_get (f : Field) (w : Word) : f.ins (f.get w) = w &&& f.mask := by
  apply BitVec.eq_of_getLsbD_eq
  intro i hi
  rw [getLsbD_ins f _ i hi, getLsbD_get, BitVec.getLsbD_and, getLsbD_mask f i hi, Bool.and_comm (w.getLsbD i)]
  by_cases hin : f.lo ≤ i ∧ i < f.lo + f.width
  · have hoff : f.lo + (i - f.lo) = i := by omega
    have hwidth : i - f.lo < f.width := by omega
    simp [hin, hoff, hi, hwidth]
  · simp [hin]

/-- A value within its field's maximum is read back whole from a field that lies within the word. -/
theorem get_ins_self {f : Field} {x : Word} (hf : f.lo + f.width ≤ 32) (hx : x.toNat ≤ f.max) :
    f.get (f.ins x) = x := by
  have hlt : x.toNat < 2 ^ f.width := Nat.lt_of_le_sub_one (Nat.two_pow_pos _) hx
  apply BitVec.eq_of_getLsbD_eq
  intro i _
  rw [getLsbD_get]
  by_cases hi : i < f.width
  · have hbit : f.lo + i < 32 := by omega
    rw [getLsbD_ins f x _ hbit]
    simp [hi, hbit]
  · have hzero : x.getLsbD i = false := by
      rw [← BitVec.testBit_toNat]
      exact Nat.testBit_lt_two_pow (hlt.trans_le (Nat.pow_le_pow_right two_pos (Nat.not_lt.1 hi)))
    simp [hi, hzero]

/-- Two fields that share no bit. -/
abbrev Apart (f g : Field) : Prop := f.lo + f.width ≤ g.lo ∨ g.lo + g.width ≤ f.lo

theorem Apart.symm {f g : Field} (h : Apart f g) : Apart g f := Or.symm h

/-- A field does not see the value of a field that shares no bit with it. -/
theorem get_ins_of_apart {f g : Field} (h : Apart f g) (x : Word) : f.get (g.ins x) = 0 := by
  apply BitVec.eq_of_getLsbD_eq
  intro i _
  rw [getLsbD_get]
  by_cases hi : f.lo + i < 32 ∧ i < f.width
  · have hout : ¬ (g.lo ≤ f.lo + i ∧ f.lo + i < g.lo + g.width) := by
      omega
    rw [getLsbD_ins g x _ hi.1]
    simp [hout]
  · simp [hi]

/-- Fields of one register: each within the word, and no bit shared. -/
abbrev Separate (fs : List Field) : Prop := (∀ f ∈ fs, f.lo + f.width ≤ 32) ∧ fs.Pairwise Apart

/-- Three separate fields read their values back out of one word. -/
theorem get_ins_triple {f g k : Field} (hsep : Separate [f, g, k]) {x y z : Word}
    (hx : x.toNat ≤ f.max) (hy : y.toNat ≤ g.max) (hz : z.toNat ≤ k.max) :
    f.get (f.ins x ||| g.ins y ||| k.ins z) = x ∧ g.get (f.ins x ||| g.ins y ||| k.ins z) = y
      ∧ k.get (f.ins x ||| g.ins y ||| k.ins z) = z := by
  simp only [Separate, List.forall_mem_cons, List.pairwise_cons] at hsep
  obtain ⟨⟨hf, hg, hk, -⟩, ⟨hfg, hfk, -⟩, ⟨hgk, -⟩, -⟩ := hsep
  simp [get_or, get_ins_self hf hx, get_ins_self hg hy, get_ins_self hk hz, get_ins_of_apart hfg,
    get_ins_of_apart hfk, get_ins_of_apart hgk, get_ins_of_apart hfg.symm, get_ins_of_apart hfk.symm,
    get_ins_of_apart hgk.symm]

/-- Two separate fields, likewise. -/
theorem get_ins_pair {f g : Field} (hsep : Separate [f, g]) {x y : Word} (hx : x.toNat ≤ f.max)
    (hy : y.toNat ≤ g.max) : f.get (f.ins x ||| g.ins y) = x ∧ g.get (f.ins x ||| g.ins y) = y := by
  simp only [Separate, List.forall_mem_cons, List.pairwise_cons] at hsep
  obtain ⟨⟨hf, hg, -⟩, ⟨hfg, -⟩, -⟩ := hsep
  simp [get_or, get_ins_self hf hx, get_ins_self hg hy, get_ins_of_apart hfg, get_ins_of_apart hfg.symm]

/-! ## The checks of an encoder (R160 to R162) -/

/-- The word w if every value of a list is within its field, and otherwise BadTiming of the first that is not. -/
def checkedWord (vs : List (FieldName × Field × Word)) (w : Word) : Except FaultCause Word :=
  match firstAbove vs with
  | none => .ok w
  | some (name, x) => .error (.badTiming name x)

theorem checkedWord_of_none {vs : List (FieldName × Field × Word)} (h : firstAbove vs = none) (w : Word) :
    checkedWord vs w = .ok w := by
  rw [checkedWord, h]

theorem checkedWord_of_some {vs : List (FieldName × Field × Word)} {name : FieldName} {x : Word}
    (h : firstAbove vs = some (name, x)) (w : Word) : checkedWord vs w = .error (.badTiming name x) := by
  rw [checkedWord, h]

theorem checkedWord_nil (w : Word) : checkedWord [] w = .ok w := rfl

theorem checkedWord_cons (name : FieldName) (f : Field) (x : Word) (rest : List (FieldName × Field × Word))
    (w : Word) :
    checkedWord ((name, f, x) :: rest) w
      = if f.max < x.toNat then .error (.badTiming name x) else checkedWord rest w := by
  by_cases h : f.max < x.toNat
  · rw [if_pos h, checkedWord_of_some (by rw [firstAbove, if_pos h])]
  · rw [if_neg h, checkedWord, firstAbove, if_neg h, checkedWord]

theorem encRead_eq_checkedWord (c : Cfg) (s st h : Word) :
    encRead c s st h = checkedWord (readTriple c s st h)
      (c.layout.rd.setup.ins s ||| c.layout.rd.strobe.ins st ||| c.layout.rd.hold.ins h) := by
  simp only [encRead_eq, readTriple, checkedWord_cons, checkedWord_nil]

theorem encWrite_eq_checkedWord (c : Cfg) (s st h : Word) :
    encWrite c s st h = checkedWord (writeTriple c s st h)
      (c.layout.wr.setup.ins s ||| c.layout.wr.strobe.ins st ||| c.layout.wr.hold.ins h) := by
  simp only [encWrite_eq, writeTriple, checkedWord_cons, checkedWord_nil]

theorem encAddr_eq_checkedWord (c : Cfg) (s h : Word) :
    encAddr c s h = checkedWord (addrPair c s h) (c.layout.addr.setup.ins s ||| c.layout.addr.hold.ins h) := by
  simp only [encAddr_eq, addrPair, checkedWord_cons, checkedWord_nil]

/-- No value is above its field exactly when each is within its own. -/
theorem firstAbove_eq_none_iff : ∀ vs : List (FieldName × Field × Word),
    firstAbove vs = none ↔ ∀ v ∈ vs, v.2.2.toNat ≤ v.2.1.max
  | [] => by simp [firstAbove]
  | (name, f, x) :: rest => by
    rw [firstAbove, List.forall_mem_cons, ← firstAbove_eq_none_iff rest]
    by_cases h : f.max < x.toNat
    · simp [h]
    · simp [h, Nat.not_lt.1 h]

theorem checkedWord_eq_ok {vs : List (FieldName × Field × Word)} (h : ∀ v ∈ vs, v.2.2.toNat ≤ v.2.1.max)
    (w : Word) : checkedWord vs w = .ok w :=
  checkedWord_of_none ((firstAbove_eq_none_iff vs).2 h) w

/-- A list with a value above its field is rejected. -/
theorem checkedWord_eq_error {vs : List (FieldName × Field × Word)} (h : ∃ v ∈ vs, v.2.1.max < v.2.2.toNat)
    (w : Word) : ∃ e, checkedWord vs w = .error e := by
  obtain ⟨v, hv, habove⟩ := h
  cases hfirst : firstAbove vs with
  | none => exact absurd ((firstAbove_eq_none_iff vs).1 hfirst v hv) (Nat.not_le.2 habove)
  | some p => exact ⟨_, checkedWord_of_some hfirst w⟩

/-! ## Decoding and encoding (R163) -/

/-- An accepted read triple is decoded to itself. -/
theorem decRead_encRead {c : Cfg} (hsep : Separate [c.layout.rd.setup, c.layout.rd.strobe, c.layout.rd.hold])
    {s st h : Word} (hs : s.toNat ≤ c.layout.rd.setup.max) (hst : st.toNat ≤ c.layout.rd.strobe.max)
    (hh : h.toNat ≤ c.layout.rd.hold.max) : ∃ w, encRead c s st h = .ok w ∧ decRead c w = (s, st, h) := by
  obtain ⟨hsetup, hstrobe, hhold⟩ := get_ins_triple hsep hs hst hh
  refine ⟨_, (encRead_eq_checkedWord c s st h).trans (checkedWord_eq_ok ?_ _), ?_⟩
  · simp [readTriple, hs, hst, hh]
  · rw [decRead, hsetup, hstrobe, hhold]

/-- An accepted write triple is decoded to itself. -/
theorem decWrite_encWrite {c : Cfg} (hsep : Separate [c.layout.wr.setup, c.layout.wr.strobe, c.layout.wr.hold])
    {s st h : Word} (hs : s.toNat ≤ c.layout.wr.setup.max) (hst : st.toNat ≤ c.layout.wr.strobe.max)
    (hh : h.toNat ≤ c.layout.wr.hold.max) : ∃ w, encWrite c s st h = .ok w ∧ decWrite c w = (s, st, h) := by
  obtain ⟨hsetup, hstrobe, hhold⟩ := get_ins_triple hsep hs hst hh
  refine ⟨_, (encWrite_eq_checkedWord c s st h).trans (checkedWord_eq_ok ?_ _), ?_⟩
  · simp [writeTriple, hs, hst, hh]
  · rw [decWrite, hsetup, hstrobe, hhold]

/-- An accepted address pair is decoded to itself. -/
theorem decAddr_encAddr {c : Cfg} (hsep : Separate [c.layout.addr.setup, c.layout.addr.hold]) {s h : Word}
    (hs : s.toNat ≤ c.layout.addr.setup.max) (hh : h.toNat ≤ c.layout.addr.hold.max) :
    ∃ w, encAddr c s h = .ok w ∧ decAddr c w = (s, h) := by
  obtain ⟨hsetup, hhold⟩ := get_ins_pair hsep hs hh
  refine ⟨_, (encAddr_eq_checkedWord c s h).trans (checkedWord_eq_ok ?_ _), ?_⟩
  · simp [addrPair, hs, hh]
  · rw [decAddr, hsetup, hhold]

/-- A read triple with a count above its field is rejected. -/
theorem encRead_rejects {c : Cfg} {s st h : Word} (habove : c.layout.rd.setup.max < s.toNat
      ∨ c.layout.rd.strobe.max < st.toNat ∨ c.layout.rd.hold.max < h.toNat) : ∃ e, encRead c s st h = .error e := by
  rw [encRead_eq_checkedWord]
  exact checkedWord_eq_error (by simpa [readTriple] using habove) _

/-- A write triple with a count above its field is rejected. -/
theorem encWrite_rejects {c : Cfg} {s st h : Word} (habove : c.layout.wr.setup.max < s.toNat
      ∨ c.layout.wr.strobe.max < st.toNat ∨ c.layout.wr.hold.max < h.toNat) : ∃ e, encWrite c s st h = .error e := by
  rw [encWrite_eq_checkedWord]
  exact checkedWord_eq_error (by simpa [writeTriple] using habove) _

/-- An address pair with a count above its field is rejected. -/
theorem encAddr_rejects {c : Cfg} {s h : Word}
    (habove : c.layout.addr.setup.max < s.toNat ∨ c.layout.addr.hold.max < h.toNat) :
    ∃ e, encAddr c s h = .error e := by
  rw [encAddr_eq_checkedWord]
  exact checkedWord_eq_error (by simpa [addrPair] using habove) _

/-- A word decoded and encoded is cut down to the read timing fields. -/
theorem encRead_decRead (c : Cfg) (w : Word) :
    encRead c (decRead c w).1 (decRead c w).2.1 (decRead c w).2.2 = .ok (w &&& rdFields c) := by
  rw [encRead_eq_checkedWord, checkedWord_eq_ok (by simp [readTriple, decRead, get_toNat_le_max])]
  simp only [decRead, rdFields, ins_get, BitVec.and_or_distrib_left]

/-- A word decoded and encoded is cut down to the write timing fields. -/
theorem encWrite_decWrite (c : Cfg) (w : Word) :
    encWrite c (decWrite c w).1 (decWrite c w).2.1 (decWrite c w).2.2 = .ok (w &&& wrFields c) := by
  rw [encWrite_eq_checkedWord, checkedWord_eq_ok (by simp [writeTriple, decWrite, get_toNat_le_max])]
  simp only [decWrite, wrFields, ins_get, BitVec.and_or_distrib_left]

/-- A word decoded and encoded is cut down to the address timing fields. -/
theorem encAddr_decAddr (c : Cfg) (w : Word) :
    encAddr c (decAddr c w).1 (decAddr c w).2 = .ok (w &&& addrFields c) := by
  rw [encAddr_eq_checkedWord, checkedWord_eq_ok (by simp [addrPair, decAddr, get_toNat_le_max])]
  simp only [decAddr, addrFields, ins_get, BitVec.and_or_distrib_left]

/-- Settles O26: the timing fields of CFG_REF share no bit, so an accepted word is decoded to its counts; a count
above its field is the encoder's own check; and a decoded count is always within its field. -/
theorem timingEncodersRoundTrip : Obligations.TimingEncodersRoundTrip := by
  unfold Obligations.TimingEncodersRoundTrip
  intro c hc
  refine ⟨fun s st h hs hst hh => ⟨?read, ?write⟩, fun s h hs hh => ?addr,
    fun s st h habove => ⟨?badRead, ?badWrite⟩, fun s h habove => ?badAddr, fun w => ⟨?encRead, ?encWrite, ?encAddr⟩⟩
  case read => exact decRead_encRead (by rw [hc]; decide) (by rwa [hc]) (by rwa [hc]) (by rwa [hc])
  case write => exact decWrite_encWrite (by rw [hc]; decide) (by rwa [hc]) (by rwa [hc]) (by rwa [hc])
  case addr => exact decAddr_encAddr (by rw [hc]; decide) (by rwa [hc]) (by rwa [hc])
  case badRead => exact encRead_rejects (by rwa [hc])
  case badWrite => exact encWrite_rejects (by rwa [hc])
  case badAddr => exact encAddr_rejects (by rwa [hc])
  case encRead => rw [encRead_decRead, rdFields, hc]; rfl
  case encWrite => rw [encWrite_decWrite, wrFields, hc]; rfl
  case encAddr => rw [encAddr_decAddr, addrFields, hc]; rfl

/-! ## The global timing commands (R164 to R167) -/

/-- A command whose plan is one merge into a register other than ROUTE stores the merged word. -/
theorem exec_of_mergeOps {i : Instr} {s : State} {r : Reg} {m v : Word} (hs : s.ready)
    (hw : i.wellFormed s.cfg = true) (hr : r ≠ .route)
    (hp : planOf i s = some (.ok { ops := mergeOps r m v })) :
    exec i s = .next (stored s r (s.cfg.storeWord r (s.regs.get r) (mergeWord (s.regs.get r) m v))) := by
  rw [exec_does hs hw hp (Does.merge (gpioBlocks_of_ne_route s _ hr)), stored, ← show s.cfgr = .idle from hs.1.2]
  rfl

/-- A timing command stores the merge of its packed counts, or raises BadTiming of the first count above its
field. -/
theorem exec_timingCommand {i : Instr} {s : State} {r : Reg} {fields w : Word}
    {vs : List (FieldName × Field × Word)} (hs : s.ready) (hw : i.wellFormed s.cfg = true) (hr : r ≠ .route)
    (hp : planOf i s = some (checkedWord vs w >>= fun w => .ok { ops := timingMergeOps r fields w })) :
    (firstAbove vs = none →
        exec i s = .next (stored s r (s.cfg.storeWord r (s.regs.get r) (mergeWord (s.regs.get r) fields w))))
      ∧ ∀ name x, firstAbove vs = some (name, x) → exec i s = .next (faulted i (.badTiming name x) s) := by
  constructor
  case left =>
    intro hnone
    rw [checkedWord_of_none hnone] at hp
    exact exec_of_mergeOps hs hw hr hp
  case right =>
    intro name x hsome
    rw [checkedWord_of_some hsome] at hp
    exact exec_error hs hw hp

theorem planOf_setReadTiming (setup strobe hold : Word) (s : State) :
    planOf (.setReadTiming setup strobe hold) s
      = some (checkedWord (readTriple s.cfg setup strobe hold)
          (s.cfg.layout.rd.setup.ins setup ||| s.cfg.layout.rd.strobe.ins strobe ||| s.cfg.layout.rd.hold.ins hold)
        >>= fun w => .ok { ops := timingMergeOps (.rdTiming 0) (rdFields s.cfg) w }) := by
  rw [← encRead_eq_checkedWord]
  rfl

theorem planOf_setWriteTiming (setup strobe hold : Word) (s : State) :
    planOf (.setWriteTiming setup strobe hold) s
      = some (checkedWord (writeTriple s.cfg setup strobe hold)
          (s.cfg.layout.wr.setup.ins setup ||| s.cfg.layout.wr.strobe.ins strobe ||| s.cfg.layout.wr.hold.ins hold)
        >>= fun w => .ok { ops := timingMergeOps (.wrTiming 0) (wrFields s.cfg) w }) := by
  rw [← encWrite_eq_checkedWord]
  rfl

theorem planOf_setAddrTiming (setup hold : Word) (s : State) :
    planOf (.setAddrTiming setup hold) s
      = some (checkedWord (addrPair s.cfg setup hold)
          (s.cfg.layout.addr.setup.ins setup ||| s.cfg.layout.addr.hold.ins hold)
        >>= fun w => .ok { ops := timingMergeOps (.addrTiming 0) (addrFields s.cfg) w }) := by
  rw [← encAddr_eq_checkedWord]
  rfl

/-- Settles O27: each command checks its counts and then merges their packed word into its index-0 register. -/
theorem globalTimingCommandsMergeTheirFields : Obligations.GlobalTimingCommandsMergeTheirFields := by
  unfold Obligations.GlobalTimingCommandsMergeTheirFields
  intro setup strobe hold s hs
  obtain ⟨hread, hreadBad⟩ := exec_timingCommand hs rfl (by simp) (planOf_setReadTiming setup strobe hold s)
  obtain ⟨hwrite, hwriteBad⟩ := exec_timingCommand hs rfl (by simp) (planOf_setWriteTiming setup strobe hold s)
  obtain ⟨haddr, haddrBad⟩ := exec_timingCommand hs rfl (by simp) (planOf_setAddrTiming setup hold s)
  exact ⟨hread, hreadBad, hwrite, hwriteBad, haddr, haddrBad⟩

end Sys2Proof.Proofs

/-! # Proofs: polarity (42_polarity.md R180 to R183) -/

namespace Sys2Proof.Proofs

open Sys2Proof Sys2Proof.Machine Sys2Proof.Claims

/-! ## The bank mask of a command (R103, R116) -/

theorem checkBanks_of_stray {banks : Byte} (hb : strayBanks banks) :
    checkBanks banks = .error (.badBankMask banks) := (checkBanks_eq banks).trans (if_pos hb)

theorem checkBanks_of_not_stray {banks : Byte} (hb : ¬ strayBanks banks) :
    checkBanks banks = .ok (maskOf banks) := (checkBanks_eq banks).trans (if_neg hb)

/-- A command that takes a bank mask and passes its check goes on with that mask. -/
theorem planOf_of_not_stray {i : Instr} {s : State} {banks : Byte} {rest : BitVec 4 → Except FaultCause Plan}
    (hp : planOf i s = some (checkBanks banks >>= rest)) (hb : ¬ strayBanks banks) :
    planOf i s = some (rest (maskOf banks)) := by
  rw [hp, checkBanks_of_not_stray hb]
  rfl

/-- A command that checks its bank mask first raises BadBankMask for a stray bit. -/
theorem exec_of_stray {i : Instr} {s : State} {banks : Byte} {rest : BitVec 4 → Except FaultCause Plan}
    (hs : s.ready) (hw : i.wellFormed s.cfg = true) (hp : planOf i s = some (checkBanks banks >>= rest))
    (hb : strayBanks banks) : exec i s = .next (faulted i (.badBankMask banks) s) := by
  refine exec_error hs hw ?_
  rw [hp, checkBanks_of_stray hb]
  rfl

theorem walk_isEmpty (s : State) (j : Nat) (m : BitVec 4) : (s.walk j m).isEmpty = (m == 0) := by
  rw [Bool.eq_iff_iff, List.isEmpty_iff, beq_iff_eq, walk_eq_nil_iff]

theorem get_mapBanks (m : BitVec 4) (h : Bank → Word → Word) (p : PerBank Word) (n : Bank) :
    (mapBanks m h p).get n = if m.getLsbD n then h n (p.get n) else p.get n := by
  fin_cases n <;> rfl

/-- A loop over a bank set that replaces the entry of each bank it visits, in any order (R116). -/
theorem foldl_walk_eq_mapBanks (s : State) (j : Nat) (m : BitVec 4) (h : Bank → Word → Word) (p : PerBank Word) :
    (s.walk j m).foldl (fun p n => p.set n (h n (p.get n))) p = mapBanks m h p :=
  PerBank.ext_get fun n => by
    rw [PerBank.get_foldl_set h _ p n (walk_nodup s j m), get_mapBanks]
    simp only [mem_walk]

/-! ## Single-bit writes -/

/-- BitWrite in the words of the statements: the write of its one-bit mask. -/
theorem storeBit_eq_setBits (c : Cfg) (r : Reg) (old : Word) (b : Nat) (x : Bool) :
    c.storeBit r old b x = setBits c r (bitMask b) x old := storeBit_eq_setMask c r old b x

/-- Writing the same bit again changes nothing. -/
theorem storeBit_storeBit (c : Cfg) (r : Reg) (old : Word) (b : Nat) (x : Bool) :
    c.storeBit r (c.storeBit r old b x) b x = c.storeBit r old b x := by
  simp only [storeBit_eq_setMask, setMask_setMask, BitVec.or_self]

theorem putReg_putReg (s : State) (r : Reg) (w : Word) : (s.putReg r w).putReg r w = s.putReg r w := by
  simp only [State.putReg, RegFile.set_set_self, touch_touch]

/-- A micro-step that leaves the state as it is may be made any number of times. -/
theorem does_replicate {op : MicroOp} {s : State} (h : Does [op] s s) :
    ∀ k, Does (List.replicate k op) s s
  | 0 => .nil s
  | k + 1 => h.cons (does_replicate h k)

/-- A single-bit write made once or more than once leaves what it leaves made once. -/
theorem does_replicate_bit (s : State) {r : Reg} (hr : r ≠ .route) (b : Nat) (x : Bool) (k : Nat) :
    Does (List.replicate (k + 1) (.bit r b x)) s (s.putReg r (s.cfg.storeBit r (s.regs.get r) b x)) := by
  have hagain := Does.bit (s := s.putReg r (s.cfg.storeBit r (s.regs.get r) b x)) (b := b) (x := x)
    (gpioBlocks_of_ne_route _ _ hr)
  rw [putReg_cfg, putReg_regs, RegFile.get_set_self, storeBit_storeBit, putReg_putReg] at hagain
  exact (Does.bit (gpioBlocks_of_ne_route s _ hr)).cons (does_replicate hagain k)

/-! ## SET_GLOBAL_POLARITY (R182) -/

/-- The bit written for a polarity is 1 exactly where the polarity is the one that 1 stands for (R29). -/
theorem polBitValue_eq (c : Cfg) (low : Bool) : polBitValue c low = (low == c.polActiveLow) := by
  cases low
  case false => rw [polBitValue, if_neg (by simp), Bool.false_beq]
  case true => rw [polBitValue, if_pos rfl, Bool.true_beq]

theorem polReg_ne_route (line : Line) (n : Bank) : polReg line n ≠ .route := by
  rcases polReg_cases line with hbus | htft
  · simp [hbus n]
  · simp [htft n]

theorem polOp_eq (c : Cfg) (line : Line) (low : Bool) (n : Bank) :
    polOp c line low n = .bit (polReg line n) (polBit c line) (low == c.polActiveLow) := by
  rw [polOp, polBitValue_eq]

theorem planOf_setGlobalPolarity (line : BitVec 4) (low : Bool) (s : State) :
    planOf (.setGlobalPolarity line low) s
      = some (checkLine s.cfg line >>= fun l =>
          .ok { ops := [.bit (polReg l 0) (polBit s.cfg l) (low == s.cfg.polActiveLow)] }) := by
  simp only [← polOp_eq]
  rfl

/-- Settles O29: the one micro-step is the write of the line's bit. -/
theorem setGlobalPolarityWritesOneBit : Obligations.SetGlobalPolarityWritesOneBit := by
  unfold Obligations.SetGlobalPolarityWritesOneBit
  intro line low s hs
  have hplan := planOf_setGlobalPolarity line low s
  constructor
  case left =>
    intro l hl
    rw [hl] at hplan
    have hfree : ∀ w, ¬ forbidden s (polReg l 0) w := fun w h => polReg_ne_route l 0 h.1
    rw [(leavesIn_of_last hs rfl hplan rfl rfl).1 (hfree _), storeBit_eq_setBits]
  case right =>
    intro e he
    rw [he] at hplan
    exact exec_error hs rfl hplan

/-! ## SET_BANK_POLARITY (R183) -/

theorem planOf_setBankPolarity (banks : Byte) (line : BitVec 4) (low : Bool) (s : State) :
    planOf (.setBankPolarity banks line low) s
      = some (checkBanks banks >>= fun m => checkLine s.cfg line >>= fun l =>
          .ok { ops := (s.walk 0 m).map fun n =>
            .bit (polReg l n) (polBit s.cfg l) (low == s.cfg.polActiveLow) }) := by
  simp only [← polOp_eq]
  rfl

/-- SET_BANK_POLARITY whose checks pass: one write of the line's bit for each bank of the mask. -/
theorem planOf_setBankPolarity_of_line {banks : Byte} {line : BitVec 4} {s : State} {l : Line}
    (hb : ¬ strayBanks banks) (hl : checkLine s.cfg line = .ok l) (low : Bool) :
    planOf (.setBankPolarity banks line low) s
      = some (.ok { ops := (s.walk 0 (maskOf banks)).map fun n =>
                      .bit (polReg l n) (polBit s.cfg l) (low == s.cfg.polActiveLow) }) := by
  rw [planOf_of_not_stray (planOf_setBankPolarity banks line low s) hb, hl]
  rfl

theorem foldl_set_polarity (h : Bank → Word → Word) : ∀ (l : List Bank) (f : RegFile),
    l.foldl (fun f n => f.set (.polarity n) (h n (f.get (.polarity n)))) f
      = { f with polarity := l.foldl (fun p n => p.set n (h n (p.get n))) f.polarity }
  | [], _ => rfl
  | n :: l, f => by
    rw [List.foldl_cons, foldl_set_polarity h l]
    rfl

/-- The loop of a bus line writes its bit in POLARITY(n) of each bank of the mask. -/
theorem bus_polarityBits (s : State) (m : BitVec 4) (b : Nat) (x : Bool) :
    Bus s.cfg s.gpioReady ((s.walk 0 m).map fun n => .bit (.polarity n) b x) s.regs
      { s.regs with
        polarity := mapBanks m (fun n w => setBits s.cfg (.polarity n) (bitMask b) x w) s.regs.polarity } := by
  simp only [← storeBit_eq_setBits]
  rw [← foldl_walk_eq_mapBanks s 0, ← foldl_set_polarity fun n w => s.cfg.storeBit (.polarity n) w b x]
  exact Bus.map _ _ fun n _ f => Bus.bit rfl (blocksAt_of_ne _ _ f _ (by simp))

/-- The loop of a TFT line makes the one write of TFTPOLARITY for each bank of the mask, so none for the empty
mask. -/
theorem does_tftPolarityBits (s : State) (m : BitVec 4) (b : Nat) (x : Bool) :
    Does ((s.walk 0 m).map fun _ => .bit .tftPolarity b x) s
      (if m = 0 then s
        else s.putReg .tftPolarity (setBits s.cfg .tftPolarity (bitMask b) x s.regs.tftPolarity)) := by
  rw [List.map_const', ← storeBit_eq_setBits]
  split
  case isTrue hm =>
    rw [(walk_eq_nil_iff s 0 m).2 hm]
    exact .nil s
  case isFalse hm =>
    obtain ⟨k, hk⟩ := Nat.exists_eq_succ_of_ne_zero (mt List.length_eq_zero_iff.1 (mt (walk_eq_nil_iff s 0 m).1 hm))
    rw [hk]
    exact does_replicate_bit s (by simp) b x k

/-- Settles O30: the checks in their order; then a bus line's loop writes each bank's own register, and a TFT
line's loop makes one and the same write. -/
theorem setBankPolarityWritesEachNamedBank : Obligations.SetBankPolarityWritesEachNamedBank := by
  unfold Obligations.SetBankPolarityWritesEachNamedBank
  intro banks line low s hs hw
  refine ⟨exec_of_stray hs hw (planOf_setBankPolarity banks line low s), fun hb e he => ?badLine,
    fun hb l hl => ⟨fun hbus => ?bus, fun htft => ?tft⟩⟩
  case badLine =>
    have hplan := planOf_of_not_stray (planOf_setBankPolarity banks line low s) hb
    rw [he] at hplan
    exact exec_error hs hw hplan
  case bus =>
    have hreg : ∀ n, polReg l n = .polarity n :=
      (polReg_cases l).resolve_right fun h => by rw [h] at hbus; cases hbus
    have hplan := planOf_setBankPolarity_of_line hb hl low
    simp only [hreg] at hplan
    have hrun := exec_bus (i := .setBankPolarity banks line low) hs hw hplan (bus_polarityBits s _ _ _)
    rw [hrun, List.isEmpty_map, walk_isEmpty]
    rfl
  case tft =>
    have hreg : ∀ n, polReg l n = .tftPolarity :=
      (polReg_cases l).resolve_left fun h => by rw [h] at htft; cases htft
    have hplan := planOf_setBankPolarity_of_line hb hl low
    simp only [hreg] at hplan
    have hrun := exec_does (i := .setBankPolarity banks line low) hs hw hplan (does_tftPolarityBits s _ _ _)
    rw [hrun, ← show s.cfgr = .idle from hs.1.2]
    split <;> rfl

end Sys2Proof.Proofs

/-! # Proofs: bank commands leave the other banks alone (42_polarity.md R184, 43_bank_config.md R209) -/

namespace Sys2Proof.Proofs

open Sys2Proof Sys2Proof.Machine Sys2Proof.Claims

/-! ## The next micro-step -/

/-- The next micro-step of a command faults, or makes at most the write of its target. -/
theorem microStep_of_todo {u : State} {b : Busy} {op : MicroOp} {rest : List MicroOp} (hc : u.cfgr = .busy b)
    (ht : b.todo = op :: rest) :
    (∃ e, microStep u = raise e b.cmd.code .main u)
    ∨ ∃ b' v, (b'.todo = rest ∨ b'.todo = []) ∧ microStep u = { v with cfgr := .busy b' }
        ∧ (v = u ∨ ∃ r w, op.target { b with todo := rest } u = some (r, w) ∧ v = u.putReg r w) := by
  cases hp : perform op { b with todo := rest } u with
  | error e => exact .inl ⟨e, by simp only [microStep, hc, ht, hp]⟩
  | ok q =>
    obtain ⟨b', v⟩ := q
    obtain ⟨⟨-, -, -, hleft⟩, hwrite⟩ := perform_eq_ok hp
    refine .inr ⟨{ b' with k := b.k + 1 }, v, hleft, by simp only [microStep, hc, ht, hp], ?_⟩
    rcases hwrite with rfl | ⟨r, w, htarget, -, rfl⟩
    · exact .inl rfl
    · exact .inr ⟨r, w, htarget, rfl⟩

/-! ## The part of the register file that belongs to one bank -/

/-- Two register files agree in the registers of bank n and in its slice of CTRL (R31). -/
structure SameBank (n : Bank) (f g : RegFile) : Prop where
  own : ∀ r, bankOf r = some n → g.get r = f.get r
  slice : g.ctrl &&& sliceRef n = f.ctrl &&& sliceRef n

theorem SameBank.refl (n : Bank) (f : RegFile) : SameBank n f f := ⟨fun _ _ => rfl, rfl⟩

theorem SameBank.trans {n : Bank} {f g k : RegFile} (h : SameBank n f g) (h' : SameBank n g k) : SameBank n f k :=
  ⟨fun r hr => (h'.own r hr).trans (h.own r hr), h'.slice.trans h.slice⟩

/-- A register that is not CTRL and not one of bank n's. -/
structure OutsideBank (n : Bank) (r : Reg) : Prop where
  ne_ctrl : r ≠ .ctrl
  ne_bank : bankOf r ≠ some n

theorem outsideBank_of_bankOf {r : Reg} {k n : Bank} (hr : bankOf r = some k) (hk : k ≠ n) : OutsideBank n r :=
  ⟨fun hctrl => (by rw [hctrl] at hr; cases hr), fun h => hk (Option.some.inj (hr.symm.trans h))⟩

theorem sameBank_set {n : Bank} {r : Reg} (hr : OutsideBank n r) (f : RegFile) (w : Word) :
    SameBank n f (f.set r w) where
  own q hq := f.get_set_of_ne w fun h => hr.ne_bank (h ▸ hq)
  slice := by rw [← RegFile.get_ctrl, f.get_set_of_ne w (Ne.symm hr.ne_ctrl), RegFile.get_ctrl]

theorem sameBank_set_ctrl {n : Bank} {f : RegFile} {w : Word} (hw : w &&& sliceRef n = f.ctrl &&& sliceRef n) :
    SameBank n f (f.set .ctrl w) where
  own _ hq := f.get_set_of_ne w fun h => (by rw [h] at hq; cases hq)
  slice := hw

/-! ## Micro-steps that spare a bank -/

/-- Whatever the micro-step writes, bank n keeps its registers and its slice of CTRL. -/
def SparesBank (n : Bank) (op : MicroOp) : Prop :=
  ∀ b u r w, op.target b u = some (r, w) → SameBank n u.regs (u.regs.set r w)

theorem sparesBank_of_target {n : Bank} {op : MicroOp} {r : Reg} (hr : OutsideBank n r)
    (h : ∀ b u q w, op.target b u = some (q, w) → q = r) : SparesBank n op :=
  fun b u q w ht => h b u q w ht ▸ sameBank_set (h b u q w ht ▸ hr) u.regs w

theorem sparesBank_bit {n : Bank} {r : Reg} (hr : OutsideBank n r) (i : Nat) (x : Bool) :
    SparesBank n (.bit r i x) := sparesBank_of_target hr fun _ _ _ _ h => by cases h; rfl

theorem sparesBank_write {n : Bank} {r : Reg} (hr : OutsideBank n r) (v : Word) :
    SparesBank n (.write r v) := sparesBank_of_target hr fun _ _ _ _ h => by cases h; rfl

theorem sparesBank_mergeOps {n : Bank} {r : Reg} (hr : OutsideBank n r) (m v : Word) :
    ∀ op ∈ mergeOps r m v, SparesBank n op := by
  have hread : SparesBank n (.read r) := sparesBank_of_target hr fun _ _ _ _ h => by cases h
  have hwrite : SparesBank n (.writeMerged r m v) := sparesBank_of_target hr fun _ _ _ _ h => by cases h; rfl
  exact List.forall_mem_cons.2 ⟨hread, List.forall_mem_singleton.2 hwrite⟩

/-- A single-bit write does not show through a mask without that bit. -/
theorem storeBit_and_of_clear (c : Cfg) (r : Reg) (old : Word) {m : Word} {i : Nat} (hm : m.getLsbD i = false)
    (x : Bool) : c.storeBit r old i x &&& m = old &&& m := by
  apply BitVec.eq_of_getLsbD_eq
  intro j hj
  rw [storeBit_eq_setMask, BitVec.getLsbD_and, BitVec.getLsbD_and, getLsbD_setMask c r _ x old j hj,
    getLsbD_one_shift i j hj]
  by_cases hij : j = i
  · simp [hij, hm]
  · simp [hij]

theorem sparesBank_ctrlBit {n : Bank} {i : Nat} (hi : (sliceRef n).getLsbD i = false) (x : Bool) :
    SparesBank n (.bit .ctrl i x) := by
  intro b u r w ht
  cases ht
  exact sameBank_set_ctrl (storeBit_and_of_clear u.cfg .ctrl _ hi x)

/-- In the layout of CFG_REF the BANKEN and BL bits of another bank are outside bank n's slice (R30, R31). -/
theorem sliceRef_of_ne : ∀ k n : Bank, k ≠ n →
    (sliceRef n).getLsbD (Layout.ref.ctrl.bankEn.get k).lo = false
      ∧ (sliceRef n).getLsbD (Layout.ref.ctrl.bl.get k).lo = false := by decide

theorem sparesBank_polOp {c : Cfg} {k n : Bank} (hk : k ≠ n) (line : Line) (low : Bool) :
    SparesBank n (polOp c line low k) := by
  refine sparesBank_bit ?_ _ _
  rcases polReg_cases line with hbus | htft
  · exact outsideBank_of_bankOf (by rw [hbus k]; rfl) hk
  · rw [htft k]
    exact ⟨by simp, by simp [bankOf]⟩

/-! ## Plans that spare a bank -/

/-- No micro-step of the plan touches bank n. -/
def PlanSparesBank (n : Bank) (x : Except FaultCause Plan) : Prop :=
  ∀ p, x = .ok p → ∀ op ∈ p.ops, SparesBank n op

theorem planSparesBank_ops {n : Bank} {ops : List MicroOp} (h : ∀ op ∈ ops, SparesBank n op) :
    PlanSparesBank n (.ok { ops := ops }) := fun _ hp => by cases hp; exact h

theorem PlanSparesBank.bind {n : Bank} {α : Type} {x : Except FaultCause α}
    {rest : α → Except FaultCause Plan} (h : ∀ a, PlanSparesBank n (rest a)) :
    PlanSparesBank n (x >>= rest) := by
  cases x with
  | error e => exact fun _ hp => by cases hp
  | ok a => exact h a

theorem planSparesBank_of_checkBanks {n : Bank} {banks : Byte} {rest : BitVec 4 → Except FaultCause Plan}
    (h : PlanSparesBank n (rest (maskOf banks))) : PlanSparesBank n (checkBanks banks >>= rest) := by
  by_cases hb : strayBanks banks
  · rw [checkBanks_of_stray hb]
    exact fun _ hp => by cases hp
  · rw [checkBanks_of_not_stray hb]
    exact h

section Loops

variable {n : Bank} {s : State} {m : BitVec 4}

/-- A loop over a set without bank n spares it if the bodies of the other banks do. -/
theorem planSparesBank_flatMap {body : Bank → List MicroOp} (hm : m.getLsbD n = false)
    (h : ∀ k, k ≠ n → ∀ op ∈ body k, SparesBank n op) :
    PlanSparesBank n (.ok { ops := (s.walk 0 m).flatMap body }) := by
  refine planSparesBank_ops fun op hop => ?_
  obtain ⟨k, hk, hop⟩ := List.mem_flatMap.1 hop
  rw [mem_walk] at hk
  exact h k (fun e => by rw [e, hm] at hk; cases hk) op hop

theorem planSparesBank_map {op : Bank → MicroOp} (hm : m.getLsbD n = false)
    (h : ∀ k, k ≠ n → SparesBank n (op k)) : PlanSparesBank n (.ok { ops := (s.walk 0 m).map op }) := by
  rw [List.map_eq_flatMap]
  exact planSparesBank_flatMap hm fun k hk => List.forall_mem_singleton.2 (h k hk)

end Loops

/-- Every command with a bank mask writes, for each bank of the mask, that bank's registers or CTRL bits alone, or
a register that belongs to no bank. -/
theorem planOf_sparesBank {i : Instr} {banks : Byte} {n : Bank} {s : State} {x : Except FaultCause Plan}
    (hlay : s.cfg.layout = Layout.ref) (hi : bankMask i = some banks) (hm : (maskOf banks).getLsbD n = false)
    (hp : planOf i s = some x) : PlanSparesBank n x := by
  cases i <;> cases hi
  all_goals
    cases hp
    refine planSparesBank_of_checkBanks ?_
  case setBankPolarity => exact .bind fun l => planSparesBank_map hm fun k hk => sparesBank_polOp hk l _
  case enableBank =>
    exact planSparesBank_map hm fun k hk => sparesBank_ctrlBit (hlay ▸ (sliceRef_of_ne k n hk).1) _
  case enableByteLane =>
    exact planSparesBank_map hm fun k hk => sparesBank_ctrlBit (hlay ▸ (sliceRef_of_ne k n hk).2) _
  case setBankReadTiming | setBankWriteTiming | setBankAddrTiming =>
    exact .bind fun w => planSparesBank_flatMap hm fun k hk =>
      sparesBank_mergeOps (outsideBank_of_bankOf rfl hk) _ _
  case configBankReadFlags =>
    refine planSparesBank_flatMap hm fun k hk => ?_
    have hbit := sparesBank_bit (outsideBank_of_bankOf (r := .rdTiming k) rfl hk)
    exact List.forall_mem_cons.2
      ⟨hbit _ _, List.forall_mem_cons.2 ⟨hbit _ _, List.forall_mem_singleton.2 (hbit _ _)⟩⟩
  case configBankWriteFlags =>
    refine planSparesBank_flatMap hm fun k hk => ?_
    have hbit := sparesBank_bit (outsideBank_of_bankOf (r := .wrTiming k) rfl hk)
    exact List.forall_mem_cons.2 ⟨hbit _ _, List.forall_mem_singleton.2 (hbit _ _)⟩
  case configBankAddrFlags =>
    exact planSparesBank_map hm fun k hk => sparesBank_bit (outsideBank_of_bankOf rfl hk) _ _
  case enableNand =>
    exact planSparesBank_ops (List.forall_mem_singleton.2 (sparesBank_write ⟨by simp, by simp [bankOf]⟩ _))

/-! ## Whole commands -/

/-- The registers of bank n and its slice of CTRL are those of f, and nothing left to do touches them: the invariant
of a run whose plan spares bank n. -/
structure BankSpared (n : Bank) (f : RegFile) (u : State) : Prop where
  regs : SameBank n f u.regs
  todo : ∀ b, u.cfgr = .busy b → ∀ op ∈ b.todo, SparesBank n op

theorem bankSpared_microStep {n : Bank} {f : RegFile} {u : State} (h : BankSpared n f u) :
    BankSpared n f (microStep u) := by
  cases hc : u.cfgr with
  | idle => rwa [microStep, hc]
  | busy b =>
    have hspares := h.todo b hc
    cases ht : b.todo with
    | nil =>
      rw [show microStep u = finish b u by simp only [microStep, hc, ht]]
      exact ⟨h.regs, fun _ hb => by cases hb⟩
    | cons op rest =>
      rw [ht, List.forall_mem_cons] at hspares
      obtain ⟨hop, hrest⟩ := hspares
      rcases microStep_of_todo hc ht with ⟨e, hfault⟩ | ⟨b', v, hleft, hnext, hv⟩
      · rw [hfault]
        exact ⟨h.regs, h.todo⟩
      · have htodo : ∀ op ∈ b'.todo, SparesBank n op := by
          rcases hleft with hleft | hleft
          · rwa [hleft]
          · simp [hleft]
        rw [hnext]
        rcases hv with rfl | ⟨r, w, htarget, rfl⟩
        · exact ⟨h.regs, fun _ hb => by cases hb; exact htodo⟩
        · exact ⟨h.regs.trans (hop _ u r w htarget), fun _ hb => by cases hb; exact htodo⟩

/-- A command whose plan spares bank n spares it, whether it runs to its end or faults. -/
theorem sameBank_of_runCommand {i : Instr} {n : Bank} {x : Except FaultCause Plan} {s t : State}
    (hspares : PlanSparesBank n x) (hx : runCommand i x s = .next t) : SameBank n s.regs t.regs := by
  obtain ⟨⟨-, hidle⟩, rfl⟩ := whenIdle_eq_next hx
  have hissue : BankSpared n s.regs (issue i x s) := by
    rcases issue_cases i x s with ⟨e, hraise, -⟩ | ⟨p, hp, hbusy⟩
    · rw [hraise]
      exact ⟨.refl n _, fun _ hb => by cases hidle.symm.trans hb⟩
    · rw [hbusy]
      exact ⟨.refl n _, fun _ hb => by cases hb; exact hspares p hp⟩
  exact (runToEnd_keeps (fun _ hu _ _ => bankSpared_microStep hu) hissue).regs

theorem exists_planOf_of_bankMask {i : Instr} {banks : Byte} (hi : bankMask i = some banks) (s : State) :
    ∃ x, planOf i s = some x :=
  planOf_isSome (fun h => by rw [h] at hi; cases hi) (fun _ _ _ h => by rw [h] at hi; cases hi) s

/-- Settles O35: the plan of each such command spares every bank outside its mask, and so does its run. -/
theorem bankCommandsLeaveOtherBanksAlone : Obligations.BankCommandsLeaveOtherBanksAlone := by
  unfold Obligations.BankCommandsLeaveOtherBanksAlone
  intro i banks n s t hlay hi hm hx
  obtain ⟨x, hp⟩ := exists_planOf_of_bankMask hi s
  rw [exec_of_planOf hp] at hx
  obtain ⟨hown, hslice⟩ := sameBank_of_runCommand (planOf_sparesBank hlay hi hm hp) hx
  exact ⟨hown (.addrTiming n) rfl, hown (.rdTiming n) rfl, hown (.wrTiming n) rfl, hown (.polarity n) rfl, hslice⟩

end Sys2Proof.Proofs

/-! # Proofs: the bank configurator (43_bank_config.md R200 to R208) -/

namespace Sys2Proof.Proofs

open Sys2Proof Sys2Proof.Machine Sys2Proof.Claims

/-! ## Loops over a bank mask (R116) -/

/-- A command of the bus side that loops over the banks of m writes exactly if m has a bank. -/
theorem exec_bus_of_mask {i : Instr} {s : State} {ops : List MicroOp} {g : RegFile} {m : BitVec 4} (hs : s.ready)
    (hw : i.wellFormed s.cfg = true) (hp : planOf i s = some (.ok { ops := ops }))
    (hbus : Bus s.cfg s.gpioReady ops s.regs g) (hempty : ops.isEmpty = (m == 0)) :
    exec i s = .next (rewritten s g (m != 0)) := by
  rw [exec_bus hs hw hp hbus, hempty]
  rfl

theorem isEmpty_flatMap_walk (s : State) (m : BitVec 4) {body : Bank → List MicroOp} (hbody : ∀ n, body n ≠ []) :
    ((s.walk 0 m).flatMap body).isEmpty = (m == 0) := by
  rw [← walk_isEmpty s 0 m]
  cases s.walk 0 m with
  | nil => rfl
  | cons n l => simp [hbody n]

/-! ## ENABLE_BANK and ENABLE_BYTE_LANE (R200, R207) -/

theorem getLsbD_orBanks (m : BitVec 4) (h : Bank → Word) (i : Nat) :
    (orBanks m h).getLsbD i = ([0, 1, 2, 3] : List Bank).any fun n => m.getLsbD n && (h n).getLsbD i := by
  have hbit : ∀ (b : Bool) (w : Word), (if b then w else 0).getLsbD i = (b && w.getLsbD i) := by
    intro b w
    cases b <;> simp
  simp only [orBanks, BitVec.getLsbD_or, hbit, Bool.or_assoc, List.any_cons, List.any_nil, Bool.or_false]
  rfl

/-- The OR over a walk is the OR over its set, in any order (R116). -/
theorem foldr_walk_eq_orBanks (s : State) (j : Nat) (m : BitVec 4) (h : Bank → Word) :
    (s.walk j m).foldr (fun n w => h n ||| w) 0 = orBanks m h := by
  apply BitVec.eq_of_getLsbD_eq
  intro i _
  rw [Bool.eq_iff_iff, getLsbD_foldr_or, getLsbD_orBanks]
  simp only [List.any_eq_true, Bool.and_eq_true, mem_walk, mem_banks, true_and]

/-- A command that writes one value to a CTRL bit of each bank of its mask. -/
theorem exec_ctrlBits {i : Instr} {s : State} {m : BitVec 4} {pos : Bank → Nat} {en : Bool} (hs : s.ready)
    (hw : i.wellFormed s.cfg = true)
    (hp : planOf i s = some (.ok { ops := (s.walk 0 m).map fun n => .bit .ctrl (pos n) en })) :
    exec i s = .next (rewritten s
      { s.regs with ctrl := setBits s.cfg .ctrl (orBanks m fun n => bitMask (pos n)) en s.regs.ctrl } (m != 0)) := by
  rw [← foldr_walk_eq_orBanks s 0]
  exact exec_bus_of_mask hs hw hp (Bus.bits rfl (by simp) _ _) (by rw [List.isEmpty_map, walk_isEmpty])

theorem planOf_enableBank (banks : Byte) (en : Bool) (s : State) :
    planOf (.enableBank banks en) s
      = some (checkBanks banks >>= fun m => .ok
          { ops := (s.walk 0 m).map fun n => .bit .ctrl (s.cfg.layout.ctrl.bankEn.get n).lo en }) := rfl

theorem planOf_enableByteLane (banks : Byte) (en : Bool) (s : State) :
    planOf (.enableByteLane banks en) s
      = some (checkBanks banks >>= fun m => .ok
          { ops := (s.walk 0 m).map fun n => .bit .ctrl (s.cfg.layout.ctrl.bl.get n).lo en }) := rfl

/-- Settles O31: the loop's single-bit writes of one value are one write to the OR of their bits. -/
theorem bankEnablesSetTheNamedBits : Obligations.BankEnablesSetTheNamedBits := by
  unfold Obligations.BankEnablesSetTheNamedBits
  intro banks en s hs
  have hpBank := planOf_enableBank banks en s
  have hpLane := planOf_enableByteLane banks en s
  refine ⟨fun hb => ?bank, exec_of_stray hs rfl hpBank, fun hw hb => ?lane, fun hw => exec_of_stray hs hw hpLane⟩
  case bank => exact exec_ctrlBits hs rfl (planOf_of_not_stray hpBank hb)
  case lane => exact exec_ctrlBits hs hw (planOf_of_not_stray hpLane hb)

/-! ## The per-bank timing registers (R24) -/

/-- A per-bank family of registers of the bus side: its register of each bank, and the register file with the
family's words replaced. -/
structure BankFamily where
  reg : Bank → Reg
  words : RegFile → PerBank Word
  put : RegFile → PerBank Word → RegFile
  put_words : ∀ f, put f (words f) = f
  get_put : ∀ f p n, (put f p).get (reg n) = p.get n
  set_put : ∀ f p n w, (put f p).set (reg n) w = put f (p.set n w)
  isTft_reg : ∀ n, (reg n).isTft = false
  reg_ne_route : ∀ n, reg n ≠ .route

/-- RDTIMING(n) (R33). -/
def rdFamily : BankFamily where
  reg := .rdTiming
  words := RegFile.rdTiming
  put f p := { f with rdTiming := p }
  put_words _ := rfl
  get_put _ _ _ := rfl
  set_put _ _ _ _ := rfl
  isTft_reg _ := rfl
  reg_ne_route _ := nofun

/-- WRTIMING(n) (R34). -/
def wrFamily : BankFamily where
  reg := .wrTiming
  words := RegFile.wrTiming
  put f p := { f with wrTiming := p }
  put_words _ := rfl
  get_put _ _ _ := rfl
  set_put _ _ _ _ := rfl
  isTft_reg _ := rfl
  reg_ne_route _ := nofun

/-- ADDRTIMING(n) (R32). -/
def addrFamily : BankFamily where
  reg := .addrTiming
  words := RegFile.addrTiming
  put f p := { f with addrTiming := p }
  put_words _ := rfl
  get_put _ _ _ := rfl
  set_put _ _ _ _ := rfl
  isTft_reg _ := rfl
  reg_ne_route _ := nofun

/-- A loop that replaces the family's register of each bank it visits stays within the family. -/
theorem BankFamily.foldl_set (F : BankFamily) (h : Bank → Word → Word) (f : RegFile) :
    ∀ (l : List Bank) (p : PerBank Word),
      l.foldl (fun f n => f.set (F.reg n) (h n (f.get (F.reg n)))) (F.put f p)
        = F.put f (l.foldl (fun p n => p.set n (h n (p.get n))) p)
  | [], _ => rfl
  | n :: l, p => by rw [List.foldl_cons, F.get_put, F.set_put, F.foldl_set h f l, List.foldl_cons]

/-- A loop whose body changes the family's register of its bank by h changes the words of the banks of m by h. -/
theorem BankFamily.bus_flatMap (F : BankFamily) {s : State} {m : BitVec 4} {body : Bank → List MicroOp}
    {h : Bank → Word → Word}
    (hbody : ∀ n f, Bus s.cfg s.gpioReady (body n) f (f.set (F.reg n) (h n (f.get (F.reg n))))) :
    Bus s.cfg s.gpioReady ((s.walk 0 m).flatMap body) s.regs (F.put s.regs (mapBanks m h (F.words s.regs))) := by
  have hloop := Bus.flatMap (s.walk 0 m) s.regs fun n _ => hbody n
  have hfold := F.foldl_set h s.regs (s.walk 0 m) (F.words s.regs)
  rw [F.put_words, foldl_walk_eq_mapBanks] at hfold
  rwa [hfold] at hloop

/-! ## The per-bank timing commands (R201 to R203) -/

/-- A command that merges one word into the family's register of each bank of its mask. -/
theorem BankFamily.exec_merges (F : BankFamily) {i : Instr} {s : State} {m : BitVec 4} {fields w : Word}
    (hs : s.ready) (hw : i.wellFormed s.cfg = true)
    (hp : planOf i s = some (.ok { ops := (s.walk 0 m).flatMap fun n => timingMergeOps (F.reg n) fields w })) :
    exec i s = .next (rewritten s
      (F.put s.regs (mapBanks m (fun n old => s.cfg.storeWord (F.reg n) old (mergeWord old fields w))
        (F.words s.regs)))
      (m != 0)) :=
  exec_bus_of_mask hs hw hp
    (F.bus_flatMap fun n f => Bus.merge (F.isTft_reg n) (blocksAt_of_ne _ _ f _ (F.reg_ne_route n)))
    (isEmpty_flatMap_walk s m fun _ => List.cons_ne_nil _ _)

/-- A per-bank timing command whose mask passes its check goes on to its counts: it merges their packed word into
the register of each bank of the mask, or raises BadTiming of the first count above its field. -/
theorem BankFamily.exec_timingCommand (F : BankFamily) {i : Instr} {s : State} {banks : Byte} {fields w : Word}
    {vs : List (FieldName × Field × Word)} (hs : s.ready) (hb : ¬ strayBanks banks)
    (hp : planOf i s = some (checkBanks banks >>= fun m => checkedWord vs w >>= fun w =>
      .ok { ops := (s.walk 0 m).flatMap fun n => timingMergeOps (F.reg n) fields w }))
    (hw : i.wellFormed s.cfg = true) :
    (firstAbove vs = none →
        exec i s = .next (rewritten s
          (F.put s.regs (mapBanks (maskOf banks)
            (fun n old => s.cfg.storeWord (F.reg n) old (mergeWord old fields w)) (F.words s.regs)))
          (maskOf banks != 0)))
      ∧ ∀ name x, firstAbove vs = some (name, x) → exec i s = .next (faulted i (.badTiming name x) s) := by
  have hplan := planOf_of_not_stray hp hb
  constructor
  case left =>
    intro hnone
    rw [checkedWord_of_none hnone] at hplan
    exact F.exec_merges hs hw hplan
  case right =>
    intro name x hsome
    rw [checkedWord_of_some hsome] at hplan
    exact exec_error hs hw hplan

theorem planOf_setBankReadTiming (banks : Byte) (setup strobe hold : Word) (s : State) :
    planOf (.setBankReadTiming banks setup strobe hold) s
      = some (checkBanks banks >>= fun m => checkedWord (readTriple s.cfg setup strobe hold)
          (s.cfg.layout.rd.setup.ins setup ||| s.cfg.layout.rd.strobe.ins strobe ||| s.cfg.layout.rd.hold.ins hold)
        >>= fun w => .ok
          { ops := (s.walk 0 m).flatMap fun n => timingMergeOps (rdFamily.reg n) (rdFields s.cfg) w }) := by
  rw [← encRead_eq_checkedWord]
  rfl

theorem planOf_setBankWriteTiming (banks : Byte) (setup strobe hold : Word) (s : State) :
    planOf (.setBankWriteTiming banks setup strobe hold) s
      = some (checkBanks banks >>= fun m => checkedWord (writeTriple s.cfg setup strobe hold)
          (s.cfg.layout.wr.setup.ins setup ||| s.cfg.layout.wr.strobe.ins strobe ||| s.cfg.layout.wr.hold.ins hold)
        >>= fun w => .ok
          { ops := (s.walk 0 m).flatMap fun n => timingMergeOps (wrFamily.reg n) (wrFields s.cfg) w }) := by
  rw [← encWrite_eq_checkedWord]
  rfl

theorem planOf_setBankAddrTiming (banks : Byte) (setup hold : Word) (s : State) :
    planOf (.setBankAddrTiming banks setup hold) s
      = some (checkBanks banks >>= fun m => checkedWord (addrPair s.cfg setup hold)
          (s.cfg.layout.addr.setup.ins setup ||| s.cfg.layout.addr.hold.ins hold)
        >>= fun w => .ok
          { ops := (s.walk 0 m).flatMap fun n => timingMergeOps (addrFamily.reg n) (addrFields s.cfg) w }) := by
  rw [← encAddr_eq_checkedWord]
  rfl

/-- Settles O32: the mask is checked, then the counts, and then their packed word is merged into the timing register
of each bank of the mask. -/
theorem bankTimingCommandsMergeEachNamedBank : Obligations.BankTimingCommandsMergeEachNamedBank := by
  unfold Obligations.BankTimingCommandsMergeEachNamedBank
  intro banks setup strobe hold s hs hw
  have hpRead := planOf_setBankReadTiming banks setup strobe hold s
  have hpWrite := planOf_setBankWriteTiming banks setup strobe hold s
  have hpAddr := planOf_setBankAddrTiming banks setup hold s
  refine ⟨fun hb => ?stray, fun hb => ?named⟩
  case stray => exact ⟨exec_of_stray hs hw hpRead hb, exec_of_stray hs hw hpWrite hb, exec_of_stray hs hw hpAddr hb⟩
  case named =>
    obtain ⟨hread, hreadBad⟩ := rdFamily.exec_timingCommand hs hb hpRead hw
    obtain ⟨hwrite, hwriteBad⟩ := wrFamily.exec_timingCommand hs hb hpWrite hw
    obtain ⟨haddr, haddrBad⟩ := addrFamily.exec_timingCommand hs hb hpAddr hw
    exact ⟨hread, hreadBad, hwrite, hwriteBad, haddr, haddrBad⟩

/-! ## The flag commands (R204 to R206) -/

/-- One BitWrite to r for each position and value of a list, in its order. -/
def flagOps (r : Reg) (flags : List (Nat × Bool)) : List MicroOp := flags.map fun q => .bit r q.1 q.2

/-- What the writes of `flagOps` leave in r where it held w. -/
def flagged (c : Cfg) (r : Reg) (flags : List (Nat × Bool)) (w : Word) : Word :=
  flags.foldl (fun w q => setBits c r (bitMask q.1) q.2 w) w

theorem bus_flagOps {c : Cfg} {ready : Bool} {r : Reg} (ht : r.isTft = false) (hr : r ≠ .route) :
    ∀ (flags : List (Nat × Bool)) (f : RegFile),
      Bus c ready (flagOps r flags) f (f.set r (flagged c r flags (f.get r)))
  | [], f => by
    rw [flagged, List.foldl_nil, RegFile.set_get_self]
    exact .nil
  | (b, x) :: flags, f => by
    have hbit := Bus.bit (c := c) (ready := ready) (f := f) (i := b) (x := x) ht (blocksAt_of_ne _ _ _ _ hr)
    have hrest := bus_flagOps (c := c) (ready := ready) ht hr flags (f.set r (c.storeBit r (f.get r) b x))
    rw [RegFile.get_set_self, RegFile.set_set_self, storeBit_eq_setBits] at hrest
    rw [storeBit_eq_setBits] at hbit
    exact hbit.cons hrest

/-- A command that checks its mask and then writes flags of the family's register of each bank of it. -/
theorem BankFamily.exec_flagCommand (F : BankFamily) {i : Instr} {s : State} {banks : Byte}
    {flags : List (Nat × Bool)} (hs : s.ready) (hb : ¬ strayBanks banks)
    (hp : planOf i s = some (checkBanks banks >>= fun m =>
      .ok { ops := (s.walk 0 m).flatMap fun n => flagOps (F.reg n) flags }))
    (hw : i.wellFormed s.cfg = true) (hflags : flags ≠ []) :
    exec i s = .next (rewritten s
      (F.put s.regs (mapBanks (maskOf banks) (fun n w => flagged s.cfg (F.reg n) flags w) (F.words s.regs)))
      (maskOf banks != 0)) :=
  exec_bus_of_mask hs hw (planOf_of_not_stray hp hb)
    (F.bus_flatMap fun n => bus_flagOps (F.isTft_reg n) (F.reg_ne_route n) flags)
    (isEmpty_flatMap_walk s _ fun _ => mt List.map_eq_nil_iff.1 hflags)

theorem planOf_configBankReadFlags (banks : Byte) (pm pf hr : Bool) (s : State) :
    planOf (.configBankReadFlags banks pm pf hr) s
      = some (checkBanks banks >>= fun m => .ok
          { ops := (s.walk 0 m).flatMap fun n =>
              flagOps (rdFamily.reg n) [(s.cfg.layout.rd.pageMode.lo, pm), (s.cfg.layout.rd.prefetch.lo, pf),
                (s.cfg.layout.rd.halfRE.lo, hr)] }) := rfl

theorem planOf_configBankWriteFlags (banks : Byte) (wb hw : Bool) (s : State) :
    planOf (.configBankWriteFlags banks wb hw) s
      = some (checkBanks banks >>= fun m => .ok
          { ops := (s.walk 0 m).flatMap fun n =>
              flagOps (wrFamily.reg n) [(s.cfg.layout.wr.wbufDis.lo, wb), (s.cfg.layout.wr.halfWE.lo, hw)] }) := rfl

theorem planOf_configBankAddrFlags (banks : Byte) (ha : Bool) (s : State) :
    planOf (.configBankAddrFlags banks ha) s
      = some (checkBanks banks >>= fun m => .ok
          { ops := (s.walk 0 m).flatMap fun n =>
              flagOps (addrFamily.reg n) [(s.cfg.layout.addr.halfALE.lo, ha)] }) := by
  simp only [flagOps, List.map_cons, List.map_nil, ← List.map_eq_flatMap]
  rfl

/-- Settles O33: after the check of the mask, the flags of each bank's register are written in R204's to R206's
order. -/
theorem bankFlagCommandsWriteEachNamedBank : Obligations.BankFlagCommandsWriteEachNamedBank := by
  unfold Obligations.BankFlagCommandsWriteEachNamedBank
  intro banks x y z s hs hw
  have hpRead := planOf_configBankReadFlags banks x y z s
  have hpWrite := planOf_configBankWriteFlags banks x y s
  have hpAddr := planOf_configBankAddrFlags banks x s
  refine ⟨fun hb => ?stray, fun hb => ?named⟩
  case stray => exact ⟨exec_of_stray hs hw hpRead hb, exec_of_stray hs hw hpWrite hb, exec_of_stray hs hw hpAddr hb⟩
  case named =>
    exact ⟨rdFamily.exec_flagCommand hs hb hpRead hw (List.cons_ne_nil _ _),
      wrFamily.exec_flagCommand hs hb hpWrite hw (List.cons_ne_nil _ _),
      addrFamily.exec_flagCommand hs hb hpAddr hw (List.cons_ne_nil _ _)⟩

/-! ## ENABLE_NAND (R208) -/

/-- The bank ENABLE_NAND selects is the one that is in the mask with no bank above it, or bank 0 for the empty
mask. -/
theorem highestBank_eq {m : BitVec 4} {sel : Bank}
    (h : (m = 0 ∧ sel = 0) ∨ (m.getLsbD sel = true ∧ ∀ n : Bank, sel < n → m.getLsbD n = false)) :
    highestBank m = sel := by
  rcases h with ⟨rfl, rfl⟩ | ⟨hin, habove⟩
  case inl => rfl
  case inr =>
    have hout : ∀ n : Bank, sel < n → ¬ m.getLsbD n = true := fun n hn => Bool.eq_false_iff.1 (habove n hn)
    unfold highestBank
    match sel with
    | 3 => exact if_pos hin
    | 2 => exact (if_neg (hout 3 (by decide))).trans (if_pos hin)
    | 1 => exact (if_neg (hout 3 (by decide))).trans ((if_neg (hout 2 (by decide))).trans (if_pos hin))
    | 0 =>
      exact (if_neg (hout 3 (by decide))).trans
        ((if_neg (hout 2 (by decide))).trans (if_neg (hout 1 (by decide))))

theorem planOf_enableNand (banks : Byte) (en : Bool) (s : State) :
    planOf (.enableNand banks en) s
      = some (checkBanks banks >>= fun m => .ok { ops := [.write .nandCtrl (nandWord s.cfg m en)] }) := rfl

/-- Settles O34: the one micro-step writes the word of the highest bank and en. -/
theorem enableNandSelectsTheHighestBank : Obligations.EnableNandSelectsTheHighestBank := by
  unfold Obligations.EnableNandSelectsTheHighestBank
  intro banks en s hs hw
  have hp := planOf_enableNand banks en s
  refine ⟨exec_of_stray hs hw hp, fun hb sel hsel => ?_⟩
  have hfree : ∀ w, ¬ forbidden s .nandCtrl w := fun w h => by cases h.1
  have hwrite := leavesIn_of_last (i := .enableNand banks en) hs hw (planOf_of_not_stray hp hb) rfl rfl
  rw [hwrite.1 (hfree _), nandWord, highestBank_eq hsel]
  rfl

end Sys2Proof.Proofs

/-! # Proofs: the pin-routing matrix (44_pin_routing.md R230 to R237) -/

namespace Sys2Proof.Proofs

open Sys2Proof Sys2Proof.Machine Sys2Proof.Claims

/-! ## Writes that do not change a bit (R10) -/

/-- To compare a bit of two words, it is enough to compare it within the word. -/
theorem getLsbD_eq_of_lt {v w : Word} {i : Nat} (h : i < 32 → v.getLsbD i = w.getLsbD i) :
    v.getLsbD i = w.getLsbD i := by
  by_cases hi : i < 32
  case pos => exact h hi
  case neg => rw [BitVec.getLsbD_of_ge _ _ (Nat.not_lt.1 hi), BitVec.getLsbD_of_ge _ _ (Nat.not_lt.1 hi)]

/-- RegWrite of a word that agrees with the register in one bit keeps that bit, whatever WMASK(r) says of it. -/
theorem getLsbD_storeWord_of_eq (c : Cfg) (r : Reg) {old v : Word} {i : Nat} (h : v.getLsbD i = old.getLsbD i) :
    (c.storeWord r old v).getLsbD i = old.getLsbD i :=
  getLsbD_eq_of_lt fun hi => by
    rw [Cfg.storeWord, BitVec.getLsbD_or, BitVec.getLsbD_and, BitVec.getLsbD_and, BitVec.getLsbD_not, h]
    cases (c.wmask.get r).getLsbD i <;> simp [hi]

theorem getLsbD_mergeWord_of_clear (t : Word) {m v : Word} {i : Nat} (hm : m.getLsbD i = false)
    (hv : v.getLsbD i = false) : (mergeWord t m v).getLsbD i = t.getLsbD i :=
  getLsbD_eq_of_lt fun hi => by
    rw [getLsbD_mergeWord _ _ _ _ hi, hm, hv, Bool.not_false, Bool.and_true, Bool.or_false]

/-- BitWrite of one value to the bits of a mask changes no other bit. -/
theorem getLsbD_setBits_of_clear (c : Cfg) (r : Reg) {mask : Word} {i : Nat} (hm : mask.getLsbD i = false) (x : Bool)
    (old : Word) : (setBits c r mask x old).getLsbD i = old.getLsbD i :=
  getLsbD_eq_of_lt fun hi => (getLsbD_setMask c r mask x old i hi).trans (by rw [hm, Bool.and_false]; rfl)

/-! ## Commands with one write (R363) -/

/-- R363(b) forbids no write that leaves EBIPEN as it is. -/
theorem not_forbidden_of_ebiPen_eq {s : State} {r : Reg} {w : Word}
    (h : s.cfg.layout.route.ebiPen.test w = s.cfg.layout.route.ebiPen.test s.regs.route) : ¬ forbidden s r w := by
  rintro ⟨-, hset, hclear, -⟩
  exact absurd ((hset.symm.trans h).trans hclear) nofun

/-- A command whose last micro-step, its only write, makes the bits of a mask x in ROUTE, EBIPEN not among them. -/
theorem exec_routeBits {i : Instr} {s : State} {ops : List MicroOp} {k : Nat} {op : MicroOp} {t c mask : Word}
    {x : Bool} (hs : s.ready) (hw : i.wellFormed s.cfg = true) (hp : planOf i s = some (.ok { ops := ops }))
    (hlast : play i .nothing 0 ops 0 0 s = play i .nothing k [op] t c s)
    (htarget : op.target ⟨i, k, [op], .nothing, t, c⟩ s
      = some (.route, setBits s.cfg .route mask x s.regs.route))
    (hmask : s.cfg.layout.route.ebiPen.test mask = false) :
    exec i s = .next (stored s .route (setBits s.cfg .route mask x s.regs.route)) :=
  (leavesIn_of_last hs hw hp hlast htarget).1 (not_forbidden_of_ebiPen_eq (getLsbD_setBits_of_clear _ _ hmask _ _))

theorem target_routeBit {p : Nat} {mask : Word} (hp : bitMask p = mask) (x : Bool) (b : Busy) (s : State) :
    (MicroOp.bit .route p x).target b s = some (.route, setBits s.cfg .route mask x s.regs.route) := by
  rw [← hp, ← storeBit_eq_setBits]
  rfl

/-- A command that merges one word into a register leaves the merge there, or stops at its second micro-step. -/
theorem leavesIn_of_merge {i : Instr} {s : State} {r : Reg} {m v : Word} (hs : s.ready)
    (hw : i.wellFormed s.cfg = true) (hp : planOf i s = some (.ok { ops := mergeOps r m v })) :
    LeavesIn i 1 s r (s.cfg.storeWord r (s.regs.get r) (mergeWord (s.regs.get r) m v)) :=
  leavesIn_of_last (op := .writeMerged r m v) (t := s.regs.get r) hs hw hp rfl rfl

/-! ## ENABLE_CHIP_SELECT (R230) -/

/-- In the layout of CFG_REF the chip-select pins of a set are its bits, from bit 1 on (R36). -/
theorem orBanks_csPen : ∀ cs : BitVec 4,
    orBanks cs (fun k => bitMask (Layout.ref.route.csPen.get k).lo) = cs.setWidth 32 <<< 1 := by decide

theorem planOf_enableChipSelect (cs : BitVec 4) (en : Bool) (s : State) :
    planOf (.enableChipSelect cs en) s
      = some (.ok { ops := (s.walk 0 cs).map fun k => .bit .route (s.cfg.layout.route.csPen.get k).lo en }) := rfl

/-- Settles O36: the loop's single-bit writes, none of them to EBIPEN, are one write to the OR of their bits. -/
theorem enableChipSelectSetsTheNamedBits : Obligations.EnableChipSelectSetsTheNamedBits := by
  unfold Obligations.EnableChipSelectSetsTheNamedBits
  intro cs en s hs hlay
  have hbus := Bus.routeBits (c := s.cfg) (ready := s.gpioReady) (x := en) (s.walk 0 cs) s.regs
    fun k _ => csPen_ne_ebiPen hlay k
  have hmask : (s.walk 0 cs).foldr (fun k w => (1#32 <<< (s.cfg.layout.route.csPen.get k).lo) ||| w) 0
      = cs.setWidth 32 <<< 1 := by
    rw [hlay, ← orBanks_csPen]
    exact foldr_walk_eq_orBanks s 0 cs _
  rw [hmask] at hbus
  exact exec_bus_of_mask hs rfl (planOf_enableChipSelect cs en s) hbus (by rw [List.isEmpty_map, walk_isEmpty])

/-! ## SET_ROUTING_LOCATION (R236) -/

theorem planOf_setRoutingLocation (idx : Word) (s : State) :
    planOf (.setRoutingLocation idx) s
      = some (checkLocation s.cfg idx >>= fun _ => .ok { ops := locationOps s.cfg idx }) := rfl

/-- In the layout of CFG_REF LOCATION has three bits on both revisions (R36). -/
theorem locField_max {c : Cfg} (hlay : c.layout = Layout.ref) : c.locField.max = 7 := by
  rw [Cfg.locField, hlay]
  split <;> rfl

theorem checkLocation_eq {c : Cfg} (hlay : c.layout = Layout.ref) (idx : Word) :
    checkLocation c idx = if 7 < idx.toNat then .error (.badLocation idx) else .ok () := by
  rw [checkLocation, locField_max hlay]

/-- A value within its field's maximum loses no bit when it is put there (R9). -/
theorem ins_eq_shiftLeft {f : Field} {x : Word} (hx : x.toNat ≤ f.max) : f.ins x = x <<< f.lo := by
  have hlt : x.toNat < 2 ^ f.width := Nat.lt_of_le_sub_one (Nat.two_pow_pos _) hx
  apply BitVec.eq_of_getLsbD_eq
  intro i hi
  rw [getLsbD_ins f x i hi, BitVec.getLsbD_shiftLeft]
  by_cases hout : f.lo + f.width ≤ i
  case pos =>
    have hzero : x.getLsbD (i - f.lo) = false := by
      rw [← BitVec.testBit_toNat]
      exact Nat.testBit_lt_two_pow (hlt.trans_le (Nat.pow_le_pow_right two_pos (by omega)))
    rw [hzero, Bool.and_false, Bool.and_false]
  case neg =>
    have hin : i < f.lo + f.width := Nat.not_le.1 hout
    by_cases hlo : f.lo ≤ i <;> simp [hi, hin, hlo, Nat.not_lt.2, Nat.lt_of_not_le]

/-- In the layout of CFG_REF LOCATION is the low end of ROUTELOC on MODERN (R36). -/
theorem locationOps_of_modern {c : Cfg} {idx : Word} (hlay : c.layout = Layout.ref) (hrev : c.rev = .modern)
    (hidx : idx.toNat ≤ 7) : locationOps c idx = mergeOps .routeLoc 7 idx := by
  have hins : Layout.ref.route.locModern.ins idx = idx :=
    (ins_eq_shiftLeft hidx).trans (BitVec.shiftLeft_zero idx)
  simp only [locationOps, Cfg.locReg, Cfg.locField, Cfg.isModern, hrev, hlay, decide_true, if_true, hins]
  rfl

/-- In the layout of CFG_REF LOCATION is bits 28 to 30 of ROUTE on LEGACY (R36). -/
theorem locationOps_of_legacy {c : Cfg} {idx : Word} (hlay : c.layout = Layout.ref) (hrev : c.rev = .legacy)
    (hidx : idx.toNat ≤ 7) : locationOps c idx = mergeOps .route 0x70000000 (idx <<< 28) := by
  have hins : Layout.ref.route.locLegacy.ins idx = idx <<< 28 := ins_eq_shiftLeft hidx
  simp only [locationOps, Cfg.locReg, Cfg.locField, Cfg.isModern, hrev, hlay, reduceCtorEq, decide_false,
    Bool.false_eq_true, if_false, hins]
  rfl

/-- Settles O40: the check of the index; then the merge of LOCATION into the register and at the position that the
revision gives it, which in ROUTE is not EBIPEN's. -/
theorem setRoutingLocationReplacesLocation : Obligations.SetRoutingLocationReplacesLocation := by
  unfold Obligations.SetRoutingLocationReplacesLocation
  intro idx s hs hlay hw
  have hplan := planOf_setRoutingLocation idx s
  rw [checkLocation_eq hlay] at hplan
  refine ⟨fun hidx => ?above, fun hidx hrev => ?modern, fun hidx hrev => ?legacy⟩
  case above =>
    rw [if_pos hidx] at hplan
    exact exec_error hs hw hplan
  case modern =>
    rw [if_neg (Nat.not_lt.2 hidx), locationOps_of_modern hlay hrev hidx] at hplan
    exact (leavesIn_of_merge (i := .setRoutingLocation idx) hs hw hplan).1 fun h => by cases h.1
  case legacy =>
    rw [if_neg (Nat.not_lt.2 hidx), locationOps_of_legacy hlay hrev hidx] at hplan
    have hmask : (0x70000000 : Word).getLsbD 0 = false := rfl
    have hbits : (idx <<< 28).getLsbD 0 = false := by simp
    refine (leavesIn_of_merge (i := .setRoutingLocation idx) hs hw hplan).1 (not_forbidden_of_ebiPen_eq ?_)
    rw [hlay]
    exact getLsbD_storeWord_of_eq _ _ (getLsbD_mergeWord_of_clear _ hmask hbits)

/-! ## ENABLE_ADDRESS_LATCH and ENABLE_BYTE_LANE_PIN (R231, R232) -/

/-- A word shows nothing through a field's mask exactly if its bits there are 0 (R9). -/
theorem and_mask_eq_zero_iff {f : Field} (hf : f.lo + f.width ≤ 32) (t : Word) :
    t &&& f.mask = 0 ↔ ∀ i, f.lo ≤ i → i < f.lo + f.width → t.getLsbD i = false := by
  constructor
  case mp =>
    intro h i hlo hhi
    have hbit := congrArg (fun w => w.getLsbD i) h
    simpa [getLsbD_mask f i (hhi.trans_le hf), hlo, hhi] using hbit
  case mpr =>
    intro h
    apply BitVec.eq_of_getLsbD_eq
    intro i hi
    rw [BitVec.getLsbD_and, getLsbD_mask f i hi]
    by_cases hin : f.lo ≤ i ∧ i < f.lo + f.width
    · simp [h i hin.1 hin.2]
    · simp [hin]

/-- In the layout of CFG_REF the bits BL(n) of CTRL are bits 24 to 27 (R30). -/
theorem anyBL_eq_false_iff {c : Cfg} (hlay : c.layout = Layout.ref) (t : Word) :
    anyBL c t = false ↔ t &&& 0x0F000000 = 0 := by
  have hfield := and_mask_eq_zero_iff (f := ⟨24, 4⟩) (by decide) t
  have hany : anyBL c t = (t.getLsbD 24 || t.getLsbD 25 || t.getLsbD 26 || t.getLsbD 27) := by
    rw [anyBL, hlay]
    rfl
  rw [hany, show (0x0F000000 : Word) = Field.mask ⟨24, 4⟩ from rfl, hfield]
  simp only [Bool.or_eq_false_iff]
  constructor
  case mp =>
    rintro ⟨⟨⟨h24, h25⟩, h26⟩, h27⟩ i hlo hhi
    interval_cases i <;> assumption
  case mpr =>
    intro h
    exact ⟨⟨⟨h 24 (by simp) (by simp), h 25 (by simp) (by simp)⟩, h 26 (by simp) (by simp)⟩,
      h 27 (by simp) (by simp)⟩

theorem planOf_enableAddressLatch (on : Bool) (s : State) :
    planOf (.enableAddressLatch on) s
      = some (.ok { ops := [.bit .route s.cfg.layout.route.alePen.lo on] }) := rfl

theorem planOf_enableByteLanePin (on : Bool) (s : State) :
    planOf (.enableByteLanePin on) s
      = some (.ok { ops := [.readUnlessNoBL, .bit .route s.cfg.layout.route.blPen.lo on] }) := rfl

/-- Settles O37: the one write, which ENABLE_BYTE_LANE_PIN reaches only past its read of CTRL. -/
theorem latchAndByteLanePins : Obligations.LatchAndByteLanePins := by
  unfold Obligations.LatchAndByteLanePins
  intro on s hs hlay
  refine ⟨?latch, fun hw => ?lane⟩
  case latch =>
    have hplan := planOf_enableAddressLatch on s
    rw [hlay] at hplan
    exact exec_routeBits hs rfl hplan rfl (target_routeBit (p := 5) rfl on _ s) (by rw [hlay]; rfl)
  case lane =>
    have hplan := planOf_enableByteLanePin on s
    rw [hlay] at hplan
    split
    case isTrue hnone =>
      refine exec_ok hs hw hplan ?_
      rw [play, (anyBL_eq_false_iff hlay _).2 hnone, if_neg nofun, finish_of_idle _ hs.1.2]
      rfl
    case isFalse hsome =>
      refine exec_routeBits (k := 1) (t := s.regs.ctrl) (c := 0) hs hw hplan ?_
        (target_routeBit (p := 7) rfl on _ s) (by rw [hlay]; rfl)
      exact if_pos (Bool.eq_true_of_not_eq_false (mt (anyBL_eq_false_iff hlay _).1 hsome))

/-! ## ENABLE_CONTROLLER_PINS (R233) -/

/-- Settles O38: the one micro-step is the write of EBIPEN. -/
theorem enableControllerPinsNeedsGpio : Obligations.EnableControllerPinsNeedsGpio := by
  unfold Obligations.EnableControllerPinsNeedsGpio
  intro on s hs
  rw [← storeBit_eq_setBits]
  exact leavesIn_of_last (op := .bit .route s.cfg.layout.route.ebiPen.lo on) hs rfl rfl rfl rfl

/-! ## SET_LOW_ADDR_PINS and SET_HIGH_ADDR_PINS (R234, R235) -/

/-- Settles O39: both commands are one merge into ROUTE. -/
theorem addressPinPatternsMerge : Obligations.AddressPinPatternsMerge := by
  unfold Obligations.AddressPinPatternsMerge
  intro pattern s hs hw
  exact ⟨leavesIn_of_merge hs hw rfl, leavesIn_of_merge hs hw rfl⟩

/-! ## ENABLE_TFT_PINS (R237) -/

theorem planOf_enableTftPins (on : Bool) (s : State) :
    planOf (.enableTftPins on) s
      = some (.ok { ops := mergeOps .route (if on then 0 else s.cfg.tftPinGroup)
                            (if on then s.cfg.tftPinGroup else 0) }) := by
  cases on <;> rfl

/-- To set bits without clearing any, or to clear bits without setting any, is to make them one value. -/
theorem storeWord_mergeWord_eq_setBits (c : Cfg) (r : Reg) (mask : Word) (x : Bool) (old : Word) :
    c.storeWord r old (mergeWord old (if x then 0 else mask) (if x then mask else 0)) = setBits c r mask x old := by
  cases x
  case false => exact congrArg (c.storeWord r old) BitVec.or_zero
  case true =>
    have hkept : old &&& ~~~0#32 = old := BitVec.and_allOnes
    exact congrArg (fun w => c.storeWord r old (w ||| mask)) hkept

/-- Settles O41: one merge into ROUTE, which sets the group without clearing it first, or clears it. -/
theorem enableTftPinsSetsTheGroup : Obligations.EnableTftPinsSetsTheGroup := by
  unfold Obligations.EnableTftPinsSetsTheGroup
  intro on s hs hw hlay
  have hgroup : s.cfg.tftPinGroup = 0x01000000 := by
    rw [Cfg.tftPinGroup, hlay]
    rfl
  have hplan := planOf_enableTftPins on s
  rw [hgroup] at hplan
  have hclear : Layout.ref.route.ebiPen.test 0x01000000 = false := rfl
  rw [← storeWord_mergeWord_eq_setBits]
  refine (leavesIn_of_merge (i := .enableTftPins on) hs hw hplan).1 (not_forbidden_of_ebiPen_eq ?_)
  rw [hlay, storeWord_mergeWord_eq_setBits]
  exact getLsbD_setBits_of_clear _ _ hclear _ _

end Sys2Proof.Proofs

/-! # Proofs: no other command changes ROUTE.NANDPEN (44_pin_routing.md R238) -/

namespace Sys2Proof.Proofs

open Sys2Proof Sys2Proof.Machine Sys2Proof.Claims

/-! ## Parts of a command that keep NANDPEN -/

/-- ROUTE.NANDPEN in the layout of CFG_REF (R36). -/
def nandPen (f : RegFile) : Bool := f.route.getLsbD 12

theorem nandPen_set_of_ne_route (f : RegFile) {r : Reg} (hr : r ≠ .route) (w : Word) :
    nandPen (f.set r w) = nandPen f := congrArg (fun v => v.getLsbD 12) (f.set_route_of_ne w hr)

/-- The micro-steps `ops`, run to the end or to a fault, leave NANDPEN as it was. -/
def RunKeepsNandPen (ops : List MicroOp) : Prop :=
  ∀ (cmd : Instr) (ret : Ret) (k : Nat) (t c : Word) (s : State), s.cfg.layout = Layout.ref →
    nandPen (play cmd ret k ops t c s).regs = nandPen s.regs

theorem RunKeepsNandPen.nil : RunKeepsNandPen [] := fun _ _ _ _ _ _ _ => rfl

/-- A part of a command keeps NANDPEN if, before a part whose run keeps it, its run does. -/
def KeepsNandPen (a : List MicroOp) : Prop := ∀ rest, RunKeepsNandPen rest → RunKeepsNandPen (a ++ rest)

theorem KeepsNandPen.run {a : List MicroOp} (h : KeepsNandPen a) : RunKeepsNandPen a := by
  simpa only [List.append_nil] using h [] .nil

theorem KeepsNandPen.nil : KeepsNandPen [] := fun _ h => h

theorem KeepsNandPen.append {a b : List MicroOp} (ha : KeepsNandPen a) (hb : KeepsNandPen b) :
    KeepsNandPen (a ++ b) := by
  intro rest h
  rw [List.append_assoc]
  exact ha _ (hb _ h)

theorem KeepsNandPen.cons {op : MicroOp} {a : List MicroOp} (h : KeepsNandPen [op]) (ha : KeepsNandPen a) :
    KeepsNandPen (op :: a) := h.append ha

theorem KeepsNandPen.ite {p : Prop} [Decidable p] {a b : List MicroOp} (ha : KeepsNandPen a) (hb : KeepsNandPen b) :
    KeepsNandPen (if p then a else b) := by
  split
  · exact ha
  · exact hb

theorem KeepsNandPen.flatMap {α : Type} {f : α → List MicroOp} (h : ∀ x, KeepsNandPen (f x)) :
    ∀ l : List α, KeepsNandPen (l.flatMap f)
  | [] => .nil
  | x :: l => by
    rw [List.flatMap_cons]
    exact (h x).append (KeepsNandPen.flatMap h l)

theorem KeepsNandPen.map {α : Type} {op : α → MicroOp} (h : ∀ x, KeepsNandPen [op x]) (l : List α) :
    KeepsNandPen (l.map op) := by
  rw [List.map_eq_flatMap]
  exact .flatMap h l

/-! ## One micro-step -/

/-- A write that keeps NANDPEN, before a run that does. -/
theorem nandPen_play_of_target {cmd : Instr} {ret : Ret} {k : Nat} {op : MicroOp} {rest : List MicroOp} {t c : Word}
    {s : State} {r : Reg} {w : Word} (hrest : RunKeepsNandPen rest) (hlay : s.cfg.layout = Layout.ref)
    (htarget : op.target ⟨cmd, k, op :: rest, ret, t, c⟩ s = some (r, w))
    (hw : nandPen (s.regs.set r w) = nandPen s.regs) :
    nandPen (play cmd ret k (op :: rest) t c s).regs = nandPen s.regs := by
  rw [play_of_target htarget]
  split
  · rfl
  · exact (hrest _ _ _ _ _ (s.putReg r w) hlay).trans hw

/-- A micro-step that always writes, and whose writes keep NANDPEN. -/
theorem KeepsNandPen.of_target {op : MicroOp} {r : Reg} (w : Busy → State → Word)
    (htarget : ∀ b s, op.target b s = some (r, w b s))
    (hw : ∀ (b : Busy) (s : State), s.cfg.layout = Layout.ref → nandPen (s.regs.set r (w b s)) = nandPen s.regs) :
    KeepsNandPen [op] :=
  fun _ hrest _ _ _ _ _ s hlay => nandPen_play_of_target hrest hlay (htarget _ s) (hw _ s hlay)

theorem KeepsNandPen.write {r : Reg} (hr : r ≠ .route) (v : Word) : KeepsNandPen [.write r v] :=
  .of_target (fun _ s => s.cfg.storeWord r (s.regs.get r) v) (fun _ _ => rfl)
    fun _ _ _ => nandPen_set_of_ne_route _ hr _

theorem KeepsNandPen.commit : KeepsNandPen [.commit] :=
  .of_target (fun b s => s.cfg.storeWord .ctrl (s.regs.get .ctrl) b.c) (fun _ _ => rfl)
    fun _ _ _ => nandPen_set_of_ne_route _ (by simp) _

theorem KeepsNandPen.bit {r : Reg} (hr : r ≠ .route) (i : Nat) (x : Bool) : KeepsNandPen [.bit r i x] :=
  .of_target (fun _ s => s.cfg.storeBit r (s.regs.get r) i x) (fun _ _ => rfl)
    fun _ _ _ => nandPen_set_of_ne_route _ hr _

/-- A single-bit write to ROUTE at another position. -/
theorem nandPen_storeBit {i : Nat} (hi : i ≠ 12) (c : Cfg) (f : RegFile) (x : Bool) :
    nandPen (f.set .route (c.storeBit .route (f.get .route) i x)) = nandPen f := by
  rw [storeBit_eq_setBits]
  refine getLsbD_setBits_of_clear c .route ?_ x f.route
  rw [bitMask, getLsbD_one_shift i 12 (by decide)]
  exact decide_eq_false (Ne.symm hi)

theorem KeepsNandPen.routeBit {i : Nat} (hi : i ≠ 12) (x : Bool) : KeepsNandPen [.bit .route i x] :=
  .of_target (fun _ s => s.cfg.storeBit .route (s.regs.get .route) i x) (fun _ _ => rfl)
    fun _ s _ => nandPen_storeBit hi s.cfg s.regs x

theorem KeepsNandPen.blPin : KeepsNandPen [.blPin] :=
  .of_target
    (fun b s => s.cfg.storeBit .route (s.regs.get .route) s.cfg.layout.route.blPen.lo (anyBL s.cfg b.c))
    (fun _ _ => rfl) fun _ s hlay => nandPen_storeBit (by rw [hlay]; decide) s.cfg s.regs _

theorem KeepsNandPen.read (r : Reg) : KeepsNandPen [.read r] :=
  fun _ hrest _ _ _ _ _ _ hlay => hrest _ _ _ _ _ _ hlay

theorem KeepsNandPen.snapshot (edits : List (Word × Word)) : KeepsNandPen [.snapshot edits] :=
  fun _ hrest _ _ _ _ _ _ hlay => hrest _ _ _ _ _ _ hlay

/-- The read of CTRL that may end the command (R232). -/
theorem KeepsNandPen.readUnlessNoBL : KeepsNandPen [.readUnlessNoBL] := by
  intro rest hrest cmd ret k t c s hlay
  rw [List.singleton_append, play]
  split
  · exact hrest _ _ _ _ _ _ hlay
  · rfl

/-! ## Merges -/

theorem KeepsNandPen.merge {r : Reg} (hr : r ≠ .route) (m v : Word) : KeepsNandPen (mergeOps r m v) :=
  (KeepsNandPen.read r).cons
    (.of_target (fun b s => s.cfg.storeWord r (s.regs.get r) (mergeWord b.t m v)) (fun _ _ => rfl)
      fun _ _ _ => nandPen_set_of_ne_route _ hr _)

/-- A merge into ROUTE that neither clears NANDPEN nor sets it: it writes back the bit that it read. -/
theorem KeepsNandPen.routeMerge {m v : Word} (hm : m.getLsbD 12 = false) (hv : v.getLsbD 12 = false) :
    KeepsNandPen (mergeOps .route m v) :=
  fun _ hrest _ _ _ _ _ s hlay =>
    nandPen_play_of_target (op := .writeMerged .route m v) (t := s.regs.route) hrest hlay rfl
      (getLsbD_storeWord_of_eq _ _ (getLsbD_mergeWord_of_clear _ hm hv))

/-! ## Parts of INIT (R262 to R271) -/

theorem keepsNandPen_polOp (c : Cfg) (line : Line) (low : Bool) (n : Bank) : KeepsNandPen [polOp c line low n] :=
  .bit (polReg_ne_route line n) _ _

theorem keepsNandPen_readFlagOps (c : Cfg) (pm pf hr : Bool) (n : Bank) : KeepsNandPen (readFlagOps c pm pf hr n) :=
  have hbit := KeepsNandPen.bit (r := .rdTiming n) (by simp)
  (hbit _ _).cons ((hbit _ _).cons (hbit _ _))

theorem keepsNandPen_writeFlagOps (c : Cfg) (wb hw : Bool) (n : Bank) : KeepsNandPen (writeFlagOps c wb hw n) :=
  have hbit := KeepsNandPen.bit (r := .wrTiming n) (by simp)
  (hbit _ _).cons (hbit _ _)

theorem keepsNandPen_initPolarityOps (s : State) (m : BitVec 4) (r : InitRecord) :
    KeepsNandPen (initPolarityOps s m r) :=
  .ite (.flatMap (fun _ => .map (keepsNandPen_polOp _ _ _) _) _) (.map (fun _ => keepsNandPen_polOp _ _ _ _) _)

theorem keepsNandPen_initTimingOps (s : State) (m : BitVec 4) (r : InitRecord) (rw ww aw : Word) :
    KeepsNandPen (initTimingOps s m r rw ww aw) := by
  have hrd := fun n => KeepsNandPen.merge (r := .rdTiming n) (by simp) (rdFields s.cfg) rw
  have hwr := fun n => KeepsNandPen.merge (r := .wrTiming n) (by simp) (wrFields s.cfg) ww
  have haddr := fun n => KeepsNandPen.merge (r := .addrTiming n) (by simp) (addrFields s.cfg) aw
  refine .ite (.flatMap (fun n => ?_) _) (((hrd 0).append (hwr 0)).append (haddr 0))
  exact (((((hrd n).append (keepsNandPen_readFlagOps _ _ _ _ _)).append (hwr n)).append
    (keepsNandPen_writeFlagOps _ _ _ _)).append (haddr n)).append (.bit (by simp) _ _)

section RefLayout

variable {c : Cfg} (hlay : c.layout = Layout.ref)
include hlay

/-- In the layout of CFG_REF LOCATION is not in ROUTE, or it is in its bits 28 to 30 (R36). -/
theorem keepsNandPen_locationOps (idx : Word) : KeepsNandPen (locationOps c idx) := by
  unfold locationOps Cfg.locReg Cfg.locField
  split
  case isTrue => exact .merge (by simp) _ _
  case isFalse =>
    rw [hlay]
    exact .routeMerge rfl (getLsbD_ins Layout.ref.route.locLegacy idx 12 (by decide))

theorem keepsNandPen_csPins (l : List ChipSel) (x : Bool) :
    KeepsNandPen (l.map fun k => .bit .route (c.layout.route.csPen.get k).lo x) := by
  rw [hlay]
  exact .map (fun k => .routeBit (by fin_cases k <;> decide) x) l

theorem keepsNandPen_lowAddrPins {v : Word} (hv : v.getLsbD 12 = false) :
    KeepsNandPen (mergeOps .route c.layout.route.alb.mask v) := by
  rw [hlay]
  exact .routeMerge rfl hv

theorem keepsNandPen_highAddrPins {v : Word} (hv : v.getLsbD 12 = false) :
    KeepsNandPen (mergeOps .route c.layout.route.apen.mask v) := by
  rw [hlay]
  exact .routeMerge rfl hv

theorem keepsNandPen_initRouteOps {r : InitRecord} (hlow : r.aLow.getLsbD 12 = false)
    (hhigh : r.aHigh.getLsbD 12 = false) : KeepsNandPen (initRouteOps c r) :=
  ((KeepsNandPen.ite ((keepsNandPen_lowAddrPins hlay hlow).append (keepsNandPen_highAddrPins hlay hhigh)) .nil).append
    (.ite (keepsNandPen_locationOps hlay r.loc) .nil)).append (.ite .blPin .nil)

theorem tftPinGroup_clear : c.tftPinGroup.getLsbD 12 = false := by
  rw [Cfg.tftPinGroup, hlay]
  rfl

theorem keepsNandPen_tftInitOps (bank : BitVec 4) (r : TftRecord) : KeepsNandPen (tftInitOps c bank r) := by
  unfold tftInitOps
  refine .append (.append (.append ?words ?polarity) (.write (by simp) _)) ?pins
  case words =>
    exact .cons (.write (by simp) _) (.cons (.write (by simp) _) (.cons (.write (by simp) _)
      (.cons (.write (by simp) _) (.write (by simp) _))))
  case polarity =>
    have hbit := KeepsNandPen.bit (r := .tftPolarity) (by simp)
    exact (hbit _ _).cons ((hbit _ _).cons ((hbit _ _).cons ((hbit _ _).cons (hbit _ _))))
  case pins => exact .ite .nil (.routeMerge rfl (tftPinGroup_clear hlay))

end RefLayout

/-- The ten steps of INIT, part by part. -/
theorem keepsNandPen_initOps {s : State} (hlay : s.cfg.layout = Layout.ref) {r : InitRecord}
    (hlow : r.aLow.getLsbD 12 = false) (hhigh : r.aHigh.getLsbD 12 = false) (m cs : BitVec 4) (en : Bool)
    (rw ww aw : Word) : KeepsNandPen (initOps s m cs en r rw ww aw) := by
  have hale : s.cfg.layout.route.alePen.lo ≠ 12 := by rw [hlay]; decide
  have hebi : s.cfg.layout.route.ebiPen.lo ≠ 12 := by rw [hlay]; decide
  exact ((((((KeepsNandPen.snapshot _).append (keepsNandPen_initPolarityOps s m r)).append
    (keepsNandPen_initTimingOps s m r rw ww aw)).append (.cons .commit (.routeBit hale _))).append
    (keepsNandPen_initRouteOps hlay hlow hhigh)).append (.routeBit hebi true)).append
    (keepsNandPen_csPins hlay _ true)

/-! ## Plans -/

/-- The micro-steps of the plan, if the checks pass, have a property. -/
def PlanOps (P : List MicroOp → Prop) (x : Except FaultCause Plan) : Prop := ∀ p, x = .ok p → P p.ops

theorem PlanOps.ok {P : List MicroOp → Prop} {p : Plan} (h : P p.ops) : PlanOps P (.ok p) :=
  fun _ hp => by cases hp; exact h

theorem PlanOps.error {P : List MicroOp → Prop} {e : FaultCause} : PlanOps P (.error e) := nofun

theorem PlanOps.bind {P : List MicroOp → Prop} {α : Type} {x : Except FaultCause α}
    {rest : α → Except FaultCause Plan} (h : ∀ a, PlanOps P (rest a)) : PlanOps P (x >>= rest) := by
  cases x with
  | error e => exact .error
  | ok a => exact h a

/-- Every command writes registers other than ROUTE, bits of ROUTE other than NANDPEN, or merges that neither clear nor
set it, but for those that name it. -/
theorem planOf_keepsNandPen {i : Instr} {s : State} {x : Except FaultCause Plan}
    (hlay : s.cfg.layout = Layout.ref) (hi : namesNandPen i = false) (hp : planOf i s = some x) :
    PlanOps KeepsNandPen x := by
  cases i <;> cases hp
  case regWrite | regBitwrite | regMerge | disable => cases hi
  case regRead => exact .bind fun r => .ok (.read r)
  case setReadTiming | setWriteTiming | setAddrTiming => exact .bind fun _ => .ok (.merge (by simp) _ _)
  case setGlobalPolarity => exact .bind fun l => .ok (keepsNandPen_polOp _ _ _ _)
  case setBankPolarity => exact .bind fun _ => .bind fun l => .ok (.map (keepsNandPen_polOp _ _ _) _)
  case enableBank | enableByteLane => exact .bind fun _ => .ok (.map (fun _ => .bit (by simp) _ _) _)
  case setBankReadTiming | setBankWriteTiming | setBankAddrTiming =>
    exact .bind fun _ => .bind fun _ => .ok (.flatMap (fun _ => .merge (by simp) _ _) _)
  case configBankReadFlags => exact .bind fun _ => .ok (.flatMap (keepsNandPen_readFlagOps _ _ _ _) _)
  case configBankWriteFlags => exact .bind fun _ => .ok (.flatMap (keepsNandPen_writeFlagOps _ _ _) _)
  case configBankAddrFlags => exact .bind fun _ => .ok (.map (fun _ => .bit (by simp) _ _) _)
  case enableNand => exact .bind fun _ => .ok (.write (by simp) _)
  case enableChipSelect en => exact .ok (keepsNandPen_csPins hlay _ en)
  case enableAddressLatch on => exact .ok (.routeBit (by rw [hlay]; decide) on)
  case enableByteLanePin on => exact .ok (.cons .readUnlessNoBL (.routeBit (by rw [hlay]; decide) on))
  case enableControllerPins on => exact .ok (.routeBit (by rw [hlay]; decide) on)
  case setLowAddrPins => exact .ok (keepsNandPen_lowAddrPins hlay hi)
  case setHighAddrPins => exact .ok (keepsNandPen_highAddrPins hlay hi)
  case setRoutingLocation => exact .bind fun _ => .ok (keepsNandPen_locationOps hlay _)
  case enableTftPins =>
    have hgroup := tftPinGroup_clear hlay
    exact .ok (.ite (.routeMerge rfl hgroup) (.routeMerge hgroup rfl))
  case init banks cs en r =>
    obtain ⟨hlow, hhigh⟩ := Bool.or_eq_false_iff.1 hi
    refine .bind fun m => ?_
    split
    · exact .ok .nil
    · exact .bind fun _ => .ok (keepsNandPen_initOps hlay hlow hhigh _ _ _ _ _ _)
  case bankBase =>
    refine .bind fun m => ?_
    split
    · exact .ok (.ite (.read _) .nil)
    · exact .error
  case tftInit => exact .bind fun _ => .ok (keepsNandPen_tftInitOps hlay _ _)
  case tftSetFrameBase | tftSetSize | tftSetHPorch | tftSetVPorch | tftSetTiming =>
    exact .bind fun _ => .ok (.write (by simp) _)
  case tftSetMaskBlend => exact .bind fun _ => .ok (.merge (by simp) _ _)

/-! ## Whole commands -/

theorem runToEnd_of_idle {s : State} (hc : s.cfgr = .idle) : runToEnd s = s := by
  rw [runToEnd, hc]

/-- A command that has a next state raised a fault and did no micro-step, or ran the micro-steps of its plan. -/
theorem runCommand_eq_next {i : Instr} {x : Except FaultCause Plan} {s t : State}
    (hx : runCommand i x s = .next t) :
    (∃ e, t = raise e i.code .main s) ∨ ∃ p, x = .ok p ∧ t = play i p.ret 0 p.ops 0 0 s := by
  obtain ⟨⟨hfault, hidle⟩, rfl⟩ := whenIdle_eq_next hx
  rcases issue_cases i x s with ⟨e, hraise, -⟩ | ⟨p, hp, hbusy⟩
  · rw [hraise]
    exact .inl ⟨e, runToEnd_of_idle hidle⟩
  · rw [hbusy]
    exact .inr ⟨p, hp, runBusy_eq_play i p.ret p.ops 0 0 0 s hfault⟩

theorem nandPen_of_runCommand {i : Instr} {x : Except FaultCause Plan} {s t : State}
    (hlay : s.cfg.layout = Layout.ref) (hplan : PlanOps KeepsNandPen x) (hx : runCommand i x s = .next t) :
    nandPen t.regs = nandPen s.regs := by
  rcases runCommand_eq_next hx with ⟨e, rfl⟩ | ⟨p, hp, rfl⟩
  · rfl
  · exact (hplan p hp).run i p.ret 0 0 0 s hlay

/-- WINDOW_ACCESS writes no register (R82). -/
theorem regs_of_execWindowAccess {addr data : Word} {write : Bool} {s t : State}
    (hx : execWindowAccess addr write data s = .next t) : t.regs = s.regs := by
  obtain ⟨-, rfl⟩ := whenIdle_eq_next hx
  split
  · rfl
  · exact windowEffect_regs ..

/-- Settles O42: a command keeps the bit because its plan does, and the two host events write no register. -/
theorem nandPenIsLeftAlone : Obligations.NandPenIsLeftAlone := by
  unfold Obligations.NandPenIsLeftAlone
  intro i s t hlay hi hx
  rcases exec_eq i s with ⟨x, hp, he⟩ | ⟨-, -, he⟩ | ⟨-, addr, write, data, -, he⟩
  · rw [he] at hx
    exact nandPen_of_runCommand hlay (planOf_keepsNandPen hlay hi hp) hx
  · rw [he] at hx
    obtain ⟨-, rfl⟩ := whenIdle_eq_next hx
    rfl
  · rw [he] at hx
    rw [regs_of_execWindowAccess hx]

end Sys2Proof.Proofs

/-! # Proofs: DISABLE and the checks of INIT (45_init_disable.md R261, R275) -/

namespace Sys2Proof.Proofs

open Sys2Proof Sys2Proof.Machine Sys2Proof.Claims

/-! ## A run that stops at a write (R363, R366, R367) -/

/-- A run whose next micro-step is a write that R363(b) forbids stops there. -/
theorem stuck_play_of_target {i : Instr} {k : Nat} {op : MicroOp} {rest : List MicroOp} {t c : Word} {s : State}
    {r : Reg} {w : Word} (htarget : op.target ⟨i, k, op :: rest, .nothing, t, c⟩ s = some (r, w))
    (hblocks : s.gpioBlocks r w = true) : stuck i k s (play i .nothing k (op :: rest) t c s) := by
  rw [play_of_target htarget, if_pos hblocks]
  exact ⟨_, rfl, rfl, rfl⟩

/-! ## DISABLE (R275) -/

theorem planOf_disable (s : State) :
    planOf .disable s
      = some (.ok { ops := [.write .route s.cfg.resetValue.route, .write .ctrl s.cfg.resetValue.ctrl] }) := rfl

/-- Settles O47: the write of ROUTE, which R363(b) may stop, and then that of CTRL, which it never does. -/
theorem disableRestoresRouteAndCtrl : Obligations.DisableRestoresRouteAndCtrl := by
  unfold Obligations.DisableRestoresRouteAndCtrl
  intro s hs
  refine ⟨fun hfree => ?free, fun hforb => ?forbidden⟩
  case free =>
    have hopen := Bool.eq_false_iff.2 (mt (gpioBlocks_iff_forbidden s .route _).1 hfree)
    exact exec_bus hs rfl (planOf_disable s)
      ((Bus.write rfl hopen).cons (.write rfl (blocksAt_of_ne _ _ _ _ (by simp))))
  case forbidden =>
    exact ⟨_, exec_ok hs rfl (planOf_disable s) rfl,
      stuck_play_of_target rfl ((gpioBlocks_iff_forbidden s .route _).2 hforb)⟩

/-! ## The checks of INIT (R261) -/

theorem planOf_init (banks : Byte) (cs : BitVec 4) (en : Bool) (r : InitRecord) (s : State) :
    planOf (.init banks cs en r) s
      = some (checkBanks banks >>= fun m =>
          if m = 0 then .ok { ops := [] }
          else initChecks s.cfg r >>= fun w => .ok { ops := initOps s m cs en r w.1 w.2.1 w.2.2 }) := rfl

/-- Without a bit outside B0..B3, a BANKS field that is not 0 names a bank. -/
theorem maskOf_ne_zero {banks : Byte} (hb : ¬ strayBanks banks) (hne : banks ≠ 0) : maskOf banks ≠ 0 := by
  have hall : ∀ b : Byte, ¬ strayBanks b → b ≠ 0 → maskOf b ≠ 0 := by
    unfold strayBanks maskOf
    decide
  exact hall banks hb hne

theorem planOf_init_of_named {banks : Byte} (hb : ¬ strayBanks banks) (hne : banks ≠ 0) (cs : BitVec 4) (en : Bool)
    (r : InitRecord) (s : State) :
    planOf (.init banks cs en r) s
      = some (initChecks s.cfg r >>= fun w => .ok { ops := initOps s (maskOf banks) cs en r w.1 w.2.1 w.2.2 }) :=
  (planOf_of_not_stray (planOf_init banks cs en r s) hb).trans (congrArg some (if_neg (maskOf_ne_zero hb hne)))

/-- The first value above its field in a joined list is that of the first part, or else that of the second. -/
theorem firstAbove_append (a b : List (FieldName × Field × Word)) :
    firstAbove (a ++ b) = (firstAbove a).or (firstAbove b) := by
  induction a with
  | nil => rfl
  | cons v a ih =>
    obtain ⟨name, f, x⟩ := v
    rw [List.cons_append, firstAbove, firstAbove]
    split
    · rfl
    · exact ih

/-- The read timing word of a record (R160). -/
def initReadWord (c : Cfg) (r : InitRecord) : Word :=
  c.layout.rd.setup.ins r.rdSetup ||| c.layout.rd.strobe.ins r.rdStrobe ||| c.layout.rd.hold.ins r.rdHold

/-- The write timing word of a record (R161). -/
def initWriteWord (c : Cfg) (r : InitRecord) : Word :=
  c.layout.wr.setup.ins r.wrSetup ||| c.layout.wr.strobe.ins r.wrStrobe ||| c.layout.wr.hold.ins r.wrHold

/-- The address timing word of a record (R162). -/
def initAddrWord (c : Cfg) (r : InitRecord) : Word :=
  c.layout.addr.setup.ins r.addrSetup ||| c.layout.addr.hold.ins r.addrHold

/-- The three encoders check their counts one after the other, and LOCATION is checked last. -/
theorem initChecks_eq (c : Cfg) (r : InitRecord) :
    initChecks c r = (checkedWord (readTriple c r.rdSetup r.rdStrobe r.rdHold) (initReadWord c r) >>= fun rw =>
      checkedWord (writeTriple c r.wrSetup r.wrStrobe r.wrHold) (initWriteWord c r) >>= fun ww =>
      checkedWord (addrPair c r.addrSetup r.addrHold) (initAddrWord c r) >>= fun aw =>
      if c.routeHasLocation = true ∧ c.locField.max < r.loc.toNat then .error (.badLocation r.loc)
      else .ok (rw, ww, aw)) := by
  have hloc : ∀ w : Word × Word × Word,
      (do if c.routeHasLocation then checkLocation c r.loc
          return w : Except FaultCause (Word × Word × Word))
        = if c.routeHasLocation = true ∧ c.locField.max < r.loc.toNat then .error (.badLocation r.loc)
          else .ok w := by
    intro w
    unfold checkLocation
    cases c.routeHasLocation
    case false => rfl
    case true =>
      simp only [if_true, true_and]
      split <;> rfl
  simp only [initChecks, encRead_eq_checkedWord, encWrite_eq_checkedWord, encAddr_eq_checkedWord, hloc]
  rfl

/-- The first count above its field, in the order of the encoders, is BadTiming. -/
theorem initChecks_of_above {c : Cfg} {r : InitRecord} {name : FieldName} {x : Word}
    (h : firstAbove (initValues c r) = some (name, x)) : initChecks c r = .error (.badTiming name x) := by
  rw [initValues, firstAbove_append, firstAbove_append, Option.or_eq_some_iff, Option.or_eq_some_iff,
    Option.or_eq_none_iff] at h
  rw [initChecks_eq]
  rcases h with (hrd | ⟨hrd, hwr⟩) | ⟨⟨hrd, hwr⟩, haddr⟩
  · rw [checkedWord_of_some hrd]
    rfl
  · rw [checkedWord_of_none hrd, checkedWord_of_some hwr]
    rfl
  · rw [checkedWord_of_none hrd, checkedWord_of_none hwr, checkedWord_of_some haddr]
    rfl

/-- With every count within its field only LOCATION is left to check. -/
theorem initChecks_of_counts {c : Cfg} {r : InitRecord} (h : firstAbove (initValues c r) = none) :
    initChecks c r =
      if c.routeHasLocation = true ∧ c.locField.max < r.loc.toNat then .error (.badLocation r.loc)
      else .ok (initReadWord c r, initWriteWord c r, initAddrWord c r) := by
  rw [initValues, firstAbove_append, firstAbove_append, Option.or_eq_none_iff, Option.or_eq_none_iff] at h
  obtain ⟨⟨hrd, hwr⟩, haddr⟩ := h
  rw [initChecks_eq, checkedWord_of_none hrd, checkedWord_of_none hwr, checkedWord_of_none haddr]
  rfl

/-- Settles O43: the bank mask, the return for the empty mask, the counts in the encoders' order, LOCATION. -/
theorem initChecksInOrder : Obligations.InitChecksInOrder := by
  unfold Obligations.InitChecksInOrder
  intro banks cs en r s hs
  refine ⟨exec_of_stray hs rfl (planOf_init banks cs en r s), fun hzero => ?empty, fun hb hne f x habove => ?timing,
    fun hb hne hcounts hhas hloc => ?location⟩
  case empty =>
    subst hzero
    exact exec_ok (p := { ops := [] }) hs rfl rfl (finish_of_idle _ hs.1.2)
  case timing =>
    refine exec_error hs rfl ((planOf_init_of_named hb hne cs en r s).trans ?_)
    rw [initChecks_of_above habove]
    rfl
  case location =>
    refine exec_error hs rfl ((planOf_init_of_named hb hne cs en r s).trans ?_)
    rw [initChecks_of_counts hcounts, if_pos ⟨hhas, hloc⟩]
    rfl

end Sys2Proof.Proofs

/-! # Proofs: masked edits of one word, and the micro-steps that make them (00_scope.md R10, 45_init_disable.md R264) -/

namespace Sys2Proof.Proofs

open Sys2Proof Sys2Proof.Machine Sys2Proof.Claims

/-! ## Edits one after another (R10, R264) -/

/-- All the bits that a list of edits clears. -/
def editMask (edits : List (Word × Word)) : Word := edits.foldr (fun e m => e.1 ||| m) 0

/-- All the bits that a list of edits sets. -/
def editBits (edits : List (Word × Word)) : Word := edits.foldr (fun e v => e.2 ||| v) 0

/-- No edit of the list clears a bit that an earlier one sets. -/
def KeepsEarlier (edits : List (Word × Word)) : Prop := edits.Pairwise fun e e' => e.2 &&& e'.1 = 0

theorem mergeWord_mergeWord (t m : Word) {v m' : Word} (v' : Word) (h : v &&& m' = 0) :
    mergeWord (mergeWord t m v) m' v' = mergeWord t (m ||| m') (v ||| v') := by
  apply BitVec.eq_of_getLsbD_eq
  intro i hi
  have hbit : (v.getLsbD i && m'.getLsbD i) = false := by
    rw [← BitVec.getLsbD_and, h]
    exact BitVec.getLsbD_zero
  simp only [getLsbD_mergeWord _ _ _ _ hi, BitVec.getLsbD_or]
  cases hv : v.getLsbD i <;> cases hm' : m'.getLsbD i <;> simp [hv, hm'] at hbit ⊢

theorem mergeWord_zero (t : Word) : mergeWord t 0 0 = t :=
  (BitVec.or_zero).trans BitVec.and_allOnes

/-- A word that no edit of a list clears is not cleared by all of them together. -/
theorem and_editMask_eq_zero {v : Word} : ∀ {edits : List (Word × Word)}, (∀ e ∈ edits, v &&& e.1 = 0) →
    v &&& editMask edits = 0
  | [], _ => BitVec.and_zero
  | e :: edits, h => by
    have hrest := and_editMask_eq_zero fun e' he' => h e' (List.mem_cons_of_mem e he')
    rw [editMask, List.foldr_cons, BitVec.and_or_distrib_left, h e List.mem_cons_self]
    exact (BitVec.zero_or).trans hrest

/-- Edits that leave each other's bits alone are one merge. -/
theorem compose_eq_mergeWord : ∀ {edits : List (Word × Word)}, KeepsEarlier edits → ∀ w,
    compose edits w = mergeWord w (editMask edits) (editBits edits)
  | [], _, w => (mergeWord_zero w).symm
  | e :: edits, h, w => by
    obtain ⟨hhead, hrest⟩ := List.pairwise_cons.1 h
    calc compose (e :: edits) w
        = mergeWord (mergeWord w e.1 e.2) (editMask edits) (editBits edits) := compose_eq_mergeWord hrest _
      _ = mergeWord w (editMask (e :: edits)) (editBits (e :: edits)) :=
          mergeWord_mergeWord _ _ _ (and_editMask_eq_zero hhead)

theorem compose_append (a b : List (Word × Word)) (w : Word) : compose (a ++ b) w = compose b (compose a w) :=
  List.foldl_append

/-- With `BitVec.or_assoc` and `BitVec.or_comm`, to bring an OR of words into one order. -/
theorem word_or_left_comm (u v w : Word) : u ||| (v ||| w) = v ||| (u ||| w) := by
  rw [← BitVec.or_assoc, BitVec.or_comm u, BitVec.or_assoc]

/-! ## The edit of a single-bit write -/

/-- BitWrite of x to bit b, as an edit. -/
def bitEdit (b : Nat) (x : Bool) : Word × Word := (bitMask b, bitAt b x)

theorem bitAt_and_bitMask {p q : Nat} (h : p ≠ q) (x : Bool) : bitAt p x &&& bitMask q = 0 := by
  cases x
  case false => exact BitVec.zero_and
  case true =>
    apply BitVec.eq_of_getLsbD_eq
    intro i hi
    rw [bitAt, if_pos rfl, bitMask, BitVec.getLsbD_and, getLsbD_one_shift p i hi, getLsbD_one_shift q i hi,
      ← Bool.decide_and]
    exact (decide_eq_false fun ⟨hp, hq⟩ => h (hp.symm.trans hq)).trans BitVec.getLsbD_zero.symm

/-- Single-bit writes to different bits leave each other's bits alone. -/
theorem keepsEarlier_bitEdits {flags : List (Nat × Bool)} (h : (flags.map Prod.fst).Nodup) :
    KeepsEarlier (flags.map fun q => bitEdit q.1 q.2) :=
  List.pairwise_map.2 ((List.pairwise_map.1 h).imp fun hne => bitAt_and_bitMask hne _)

/-- A value and the flags beside it leave each other's bits alone if no flag is at a bit of the value. -/
theorem keepsEarlier_cons_bitEdits {m v : Word} {flags : List (Nat × Bool)}
    (hv : ∀ q ∈ flags, v &&& bitMask q.1 = 0) (hflags : (flags.map Prod.fst).Nodup) :
    KeepsEarlier ((m, v) :: flags.map fun q => bitEdit q.1 q.2) :=
  List.pairwise_cons.2 ⟨List.forall_mem_map.2 hv, keepsEarlier_bitEdits hflags⟩

/-- A value in its field is not cleared by a mask that does not meet the field. -/
theorem ins_and_eq_zero {f : Field} {m : Word} (h : f.mask &&& m = 0) (x : Word) : f.ins x &&& m = 0 := by
  rw [Field.ins, BitVec.and_assoc, h]
  exact BitVec.and_zero

theorem or_and_eq_zero {v w m : Word} (hv : v &&& m = 0) (hw : w &&& m = 0) : (v ||| w) &&& m = 0 := by
  rw [BitVec.and_comm, BitVec.and_or_distrib_left, BitVec.and_comm m v, BitVec.and_comm m w, hv, hw]
  exact BitVec.or_zero

/-- A one-bit field of a one-bit value (R9). -/
theorem insBit_eq_bitAt {f : Field} (hf : f.width = 1) (x : Bool) : f.insBit x = bitAt f.lo x := by
  have hmax : (if x then (1 : Word) else 0).toNat ≤ f.max := by
    rw [Field.max, hf]
    cases x <;> decide
  rw [Field.insBit, ins_eq_shiftLeft hmax]
  cases x
  case false => exact BitVec.zero_shiftLeft _
  case true => rfl

theorem bitAt_shiftLeft (b k : Nat) (x : Bool) : bitAt b x <<< k = bitAt (b + k) x := by
  cases x
  case false => exact BitVec.zero_shiftLeft _
  case true => exact (BitVec.shiftLeft_add _ _ _).symm

theorem ins_setWidth_eq {f : Field} (hf : f.width = 2) (x : BitVec 2) :
    f.ins (x.setWidth 32) = x.setWidth 32 <<< f.lo := by
  refine ins_eq_shiftLeft ?_
  rw [Field.max, hf, BitVec.toNat_setWidth]
  exact (Nat.mod_le _ _).trans (Nat.le_sub_one_of_lt x.isLt)

/-! ## Registers all of whose bits are writable (R45) -/

/-- WMASK has every bit of every register. -/
def AllWritable (c : Cfg) : Prop := ∀ r, c.wmask.get r = BitVec.allOnes 32

theorem rev_of_likeRef {rev : Rev} {c : Cfg} (h : likeRef rev c) : c.rev = rev := h.1

theorem layout_of_likeRef {rev : Rev} {c : Cfg} (h : likeRef rev c) : c.layout = Layout.ref := h.2.1

theorem allWritable_of_likeRef {rev : Rev} {c : Cfg} (h : likeRef rev c) : AllWritable c := by
  obtain ⟨-, -, hwmask, -, -⟩ := h
  intro r
  rw [hwmask]
  cases r
  case addrTiming n | rdTiming n | wrTiming n | polarity n => fin_cases n <;> rfl
  all_goals rfl

variable {c : Cfg} {ready : Bool}

theorem AllWritable.storeBit_eq (h : AllWritable c) (r : Reg) (old : Word) (b : Nat) (x : Bool) :
    c.storeBit r old b x = mergeWord old (bitMask b) (bitAt b x) := by
  rw [storeBit_eq_setBits, setBits, c.storeWord_of_allOnes r _ _ (h r)]
  cases x
  case false => exact (BitVec.or_zero).symm
  case true =>
    apply BitVec.eq_of_getLsbD_eq
    intro i hi
    rw [if_pos rfl, getLsbD_mergeWord _ _ _ _ hi, BitVec.getLsbD_or, bitAt, if_pos rfl, bitMask]
    cases (1#32 <<< b).getLsbD i <;> simp

/-! ## Parts of a command that edit one register -/

/-- The micro-steps `ops` make a list of edits in register r, and nothing else. -/
def EditsReg (c : Cfg) (ops : List MicroOp) (r : Reg) (edits : List (Word × Word)) : Prop :=
  ∀ (ready : Bool) (f : RegFile), Bus c ready ops f (f.set r (compose edits (f.get r)))

theorem EditsReg.nil {r : Reg} : EditsReg c [] r [] := fun ready f => by
  rw [compose, List.foldl_nil, RegFile.set_get_self]
  exact .nil

theorem EditsReg.append {a b : List MicroOp} {r : Reg} {e e' : List (Word × Word)} (ha : EditsReg c a r e)
    (hb : EditsReg c b r e') : EditsReg c (a ++ b) r (e ++ e') := fun ready f => by
  have hb' := hb ready (f.set r (compose e (f.get r)))
  rw [RegFile.get_set_self, RegFile.set_set_self, ← compose_append] at hb'
  exact (ha ready f).append hb'

theorem EditsReg.cons {op : MicroOp} {b : List MicroOp} {r : Reg} {e : Word × Word} {e' : List (Word × Word)}
    (ha : EditsReg c [op] r [e]) (hb : EditsReg c b r e') : EditsReg c (op :: b) r (e :: e') := ha.append hb

/-- A single-bit write to a register of one bank. -/
theorem EditsReg.bit (hc : AllWritable c) {r : Reg} {n : Bank} (hr : bankOf r = some n) (b : Nat) (x : Bool) :
    EditsReg c [.bit r b x] r [bitEdit b x] := fun ready f => by
  obtain ⟨htft, hroute⟩ := bus_of_bankOf hr
  have hbus := Bus.bit (c := c) (ready := ready) (f := f) (i := b) (x := x) htft (blocksAt_of_ne _ _ _ _ hroute)
  rwa [hc.storeBit_eq] at hbus

/-- A merge into a register of one bank. -/
theorem EditsReg.merge (hc : AllWritable c) {r : Reg} {n : Bank} (hr : bankOf r = some n) (m v : Word) :
    EditsReg c (mergeOps r m v) r [(m, v)] := fun ready f => by
  obtain ⟨htft, hroute⟩ := bus_of_bankOf hr
  have hbus := Bus.merge (c := c) (ready := ready) (f := f) (m := m) (v := v) htft (blocksAt_of_ne _ _ _ _ hroute)
  rwa [c.storeWord_of_allOnes r _ _ (hc r)] at hbus

/-! ## Loops over the banks of a mask -/

theorem mapBanks_mapBanks (m : BitVec 4) (h h' : Bank → Word → Word) (p : PerBank Word) :
    mapBanks m h' (mapBanks m h p) = mapBanks m (fun n w => h' n (h n w)) p :=
  PerBank.ext_get fun n => by
    rw [get_mapBanks, get_mapBanks, get_mapBanks]
    split <;> rfl

theorem mapBanks_self (m : BitVec 4) (p : PerBank Word) : mapBanks m (fun _ w => w) p = p :=
  PerBank.ext_get fun n => by rw [get_mapBanks, ite_self]

/-- A loop whose body makes the same edits in the family's register of its bank makes them in the words of the banks
of m, whichever of the command's loops it is. -/
theorem BankFamily.bus_edits (F : BankFamily) {body : Bank → List MicroOp} {edits : List (Word × Word)}
    (hbody : ∀ n, EditsReg c (body n) (F.reg n) edits) (s : State) (j : Nat) (m : BitVec 4) (f : RegFile) :
    Bus c ready ((s.walk j m).flatMap body) f (F.put f (mapBanks m (fun _ => compose edits) (F.words f))) :=
  F.bus_flatMap (s := { s with cfg := c, gpioReady := ready, regs := f, orders := [s.orders.getD j []] })
    fun n f => hbody n ready f

theorem length_walk (s : State) (j : Nat) (m : BitVec 4) : (s.walk j m).length = count m := by
  have hall : ∀ m : BitVec 4, (State.reset.walk 0 m).length = count m := by decide
  rw [(walk_perm s State.reset j 0 m).length_eq, hall]

/-- The OR over the members of a set, in ascending order. -/
theorem foldr_members_eq_orBanks (m : BitVec 4) (h : Bank → Word) :
    (members m).foldr (fun n w => h n ||| w) 0 = orBanks m h := by
  apply BitVec.eq_of_getLsbD_eq
  intro i _
  rw [Bool.eq_iff_iff, getLsbD_foldr_or, getLsbD_orBanks]
  simp only [List.any_eq_true, Bool.and_eq_true, mem_members, mem_banks, true_and]

/-- Edits of each bank of a set, in ascending order, that leave each other's bits alone. -/
theorem keepsEarlier_members (m : BitVec 4) {e : Bank → Word × Word}
    (h : ∀ n k, n ≠ k → (e n).2 &&& (e k).1 = 0) :
    KeepsEarlier ((members m).map e) := by
  have hnodup : (members m).Nodup := List.Nodup.filter _ (by decide)
  exact List.pairwise_map.2 (hnodup.imp fun hne => h _ _ hne)

theorem editMask_members (m : BitVec 4) (e : Bank → Word × Word) :
    editMask ((members m).map e) = orBanks m fun n => (e n).1 := by
  rw [editMask, List.foldr_map, foldr_members_eq_orBanks]

theorem editBits_members (m : BitVec 4) (e : Bank → Word × Word) :
    editBits ((members m).map e) = orBanks m fun n => (e n).2 := by
  rw [editBits, List.foldr_map, foldr_members_eq_orBanks]

end Sys2Proof.Proofs

/-! # Proofs: what each step of INIT leaves (45_init_disable.md R262 to R271) -/

namespace Sys2Proof.Proofs

open Sys2Proof Sys2Proof.Machine Sys2Proof.Claims

variable {c : Cfg} {ready : Bool}

/-! ## Step 2: the polarities (R263) -/

/-- POLARITY(n) (R35). -/
def polFamily : BankFamily where
  reg := .polarity
  words := RegFile.polarity
  put f p := { f with polarity := p }
  put_words _ := rfl
  get_put _ _ _ := rfl
  set_put _ _ _ _ := rfl
  isTft_reg _ := rfl
  reg_ne_route _ := nofun

/-- The edit of POLARITY(n) that gives a line its polarity (R180). -/
def lineEdit (c : Cfg) (p : Line × Bool) : Word × Word := bitEdit (polBit c p.1) (polBitValue c p.2)

/-- The lines INIT sets are bus lines (R263). -/
theorem polReg_of_mem_busPolarities {r : InitRecord} {p : Line × Bool} (hp : p ∈ InitRecord.busPolarities c r)
    (n : Bank) :
    polReg p.1 n = .polarity n := by
  rcases List.mem_append.1 hp with hp | hp
  · fin_cases hp <;> rfl
  · split at hp
    · obtain rfl := List.mem_singleton.1 hp
      rfl
    · cases hp

theorem editsReg_polOp (hc : AllWritable c) {p : Line × Bool} {n : Bank} (hp : polReg p.1 n = .polarity n) :
    EditsReg c [polOp c p.1 p.2 n] (.polarity n) [lineEdit c p] := by
  rw [polOp, hp]
  exact .bit hc rfl _ _

/-- On MODERN each line has a loop of its own: the banks of m get the edits of all lines. -/
theorem bus_polarityLoops (hc : AllWritable c) (s : State) (m : BitVec 4) :
    ∀ (ps : List (Line × Bool)) (k : Nat) (f : RegFile), (∀ p ∈ ps, ∀ n, polReg p.1 n = .polarity n) →
      Bus c ready ((ps.zipIdx k).flatMap fun p => (s.walk p.2 m).map (polOp c p.1.1 p.1.2)) f
        { f with polarity := mapBanks m (fun _ => compose (ps.map (lineEdit c))) f.polarity }
  | [], _, f, _ => by
    rw [show mapBanks m (fun _ => compose ([].map (lineEdit c))) f.polarity = f.polarity from mapBanks_self m _]
    exact .nil
  | p :: ps, k, f, h => by
    have hloop := polFamily.bus_edits (ready := ready) (fun n => editsReg_polOp hc (h p List.mem_cons_self n)) s k m f
    have hrest := bus_polarityLoops hc s m ps (k + 1)
      { f with polarity := mapBanks m (fun _ => compose [lineEdit c p]) f.polarity }
      fun q hq => h q (List.mem_cons_of_mem p hq)
    dsimp only at hrest
    rw [mapBanks_mapBanks] at hrest
    rw [List.zipIdx_cons, List.flatMap_cons, List.map_eq_flatMap]
    exact hloop.append hrest

/-- On LEGACY each line has one write, to POLARITY(0). -/
theorem editsReg_globalLines (hc : AllWritable c) : ∀ ps : List (Line × Bool),
    (∀ p ∈ ps, ∀ n, polReg p.1 n = .polarity n) →
      EditsReg c (ps.map fun p => polOp c p.1 p.2 0) (.polarity 0) (ps.map (lineEdit c))
  | [], _ => .nil
  | p :: ps, h => (editsReg_polOp hc (h p List.mem_cons_self 0)).cons
      (editsReg_globalLines hc ps fun q hq => h q (List.mem_cons_of_mem p hq))

/-! ## Step 5: the timings (R266) -/

/-- The edits of RDTIMING(n): the counts, then the flags in the order of R204. -/
def readEdits (c : Cfg) (r : InitRecord) : List (Word × Word) :=
  [(rdFields c, initReadWord c r), bitEdit c.layout.rd.pageMode.lo r.pageMode,
    bitEdit c.layout.rd.prefetch.lo r.prefetch, bitEdit c.layout.rd.halfRE.lo r.halfRE]

/-- The edits of WRTIMING(n): the counts, then the flags in the order of R205. -/
def writeEdits (c : Cfg) (r : InitRecord) : List (Word × Word) :=
  [(wrFields c, initWriteWord c r), bitEdit c.layout.wr.wbufDis.lo r.writeBufferDisable,
    bitEdit c.layout.wr.halfWE.lo r.halfWE]

/-- The edits of ADDRTIMING(n): the counts, then the flag of R206. -/
def addrEdits (c : Cfg) (r : InitRecord) : List (Word × Word) :=
  [(addrFields c, initAddrWord c r), bitEdit c.layout.addr.halfALE.lo r.halfALE]

theorem editsReg_read (hc : AllWritable c) (r : InitRecord) (n : Bank) :
    EditsReg c (timingMergeOps (.rdTiming n) (rdFields c) (initReadWord c r)
      ++ readFlagOps c r.pageMode r.prefetch r.halfRE n) (.rdTiming n) (readEdits c r) :=
  (EditsReg.merge hc rfl _ _).append ((EditsReg.bit hc rfl _ _).cons ((EditsReg.bit hc rfl _ _).cons (.bit hc rfl _ _)))

theorem editsReg_write (hc : AllWritable c) (r : InitRecord) (n : Bank) :
    EditsReg c (timingMergeOps (.wrTiming n) (wrFields c) (initWriteWord c r)
      ++ writeFlagOps c r.writeBufferDisable r.halfWE n) (.wrTiming n) (writeEdits c r) :=
  (EditsReg.merge hc rfl _ _).append ((EditsReg.bit hc rfl _ _).cons (.bit hc rfl _ _))

theorem editsReg_addr (hc : AllWritable c) (r : InitRecord) (n : Bank) :
    EditsReg c (timingMergeOps (.addrTiming n) (addrFields c) (initAddrWord c r) ++ [addrFlagOp c r.halfALE n])
      (.addrTiming n) (addrEdits c r) :=
  (EditsReg.merge hc rfl _ _).append (.bit hc rfl _ _)

/-- The three timing registers of bank n after step 5. -/
def bankTimed (c : Cfg) (r : InitRecord) (f : RegFile) (n : Bank) : RegFile :=
  ((f.set (.rdTiming n) (compose (readEdits c r) (f.rdTiming.get n))).set (.wrTiming n)
    (compose (writeEdits c r) (f.wrTiming.get n))).set (.addrTiming n) (compose (addrEdits c r) (f.addrTiming.get n))

theorem bus_initBankTimingOps (hc : AllWritable c) (r : InitRecord) (n : Bank) (f : RegFile) :
    Bus c ready (initBankTimingOps c r (initReadWord c r) (initWriteWord c r) (initAddrWord c r) n) f
      (bankTimed c r f n) := by
  have hbus := ((editsReg_read hc r n ready f).append (editsReg_write hc r n ready _)).append
    (editsReg_addr hc r n ready _)
  simp only [← List.append_assoc] at hbus
  exact hbus

/-- Each round of the loop writes three registers of its bank, so the loop's three families can be told apart. -/
theorem foldl_bankTimed (r : InitRecord) : ∀ (l : List Bank) (f : RegFile),
    l.foldl (bankTimed c r) f =
      { f with
        rdTiming := l.foldl (fun p n => p.set n (compose (readEdits c r) (p.get n))) f.rdTiming
        wrTiming := l.foldl (fun p n => p.set n (compose (writeEdits c r) (p.get n))) f.wrTiming
        addrTiming := l.foldl (fun p n => p.set n (compose (addrEdits c r) (p.get n))) f.addrTiming }
  | [], _ => rfl
  | n :: l, f => by
    rw [List.foldl_cons, foldl_bankTimed r l]
    rfl

/-- The register file f with the timings of the banks of m as INIT leaves them on MODERN. -/
def timed (c : Cfg) (r : InitRecord) (m : BitVec 4) (f : RegFile) : RegFile :=
  { f with
    rdTiming := mapBanks m (fun _ => compose (readEdits c r)) f.rdTiming
    wrTiming := mapBanks m (fun _ => compose (writeEdits c r)) f.wrTiming
    addrTiming := mapBanks m (fun _ => compose (addrEdits c r)) f.addrTiming }

theorem bus_timingLoop (hc : AllWritable c) (s : State) (j : Nat) (m : BitVec 4) (r : InitRecord) (f : RegFile) :
    Bus c ready
      ((s.walk j m).flatMap (initBankTimingOps c r (initReadWord c r) (initWriteWord c r) (initAddrWord c r)))
      f (timed c r m f) := by
  have hloop := Bus.flatMap (c := c) (ready := ready) (s.walk j m) f fun n _ f => bus_initBankTimingOps hc r n f
  rw [foldl_bankTimed] at hloop
  rw [timed]
  simp only [← foldl_walk_eq_mapBanks s j]
  exact hloop

/-- The three merges into the global timing registers, on LEGACY. -/
theorem bus_globalTimings (hc : AllWritable c) (r : InitRecord) (f : RegFile) :
    Bus c ready
      (timingMergeOps (.rdTiming 0) (rdFields c) (initReadWord c r)
        ++ timingMergeOps (.wrTiming 0) (wrFields c) (initWriteWord c r)
        ++ timingMergeOps (.addrTiming 0) (addrFields c) (initAddrWord c r))
      f
      { f with
        rdTiming := { f.rdTiming with b0 := mergeWord f.rdTiming.b0 (rdFields c) (initReadWord c r) }
        wrTiming := { f.wrTiming with b0 := mergeWord f.wrTiming.b0 (wrFields c) (initWriteWord c r) }
        addrTiming := { f.addrTiming with b0 := mergeWord f.addrTiming.b0 (addrFields c) (initAddrWord c r) } } :=
  ((EditsReg.merge hc rfl _ _ ready f).append (EditsReg.merge hc rfl _ _ ready _)).append
    (EditsReg.merge hc rfl _ _ ready _)

/-- The position in POLARITY(n) and the polarity of each line INIT sets, in CFG_REF (R35, R263). -/
def polarityFlags (c : Cfg) (r : InitRecord) : List (Nat × Bool) :=
  [(4, r.polARDY), (3, r.polALE), (2, r.polWE), (1, r.polRE), (0, r.polCS)]
    ++ if c.hasByteLane then [(5, r.polBL)] else []

/-- The enable bits of a bank mask (R30). -/
theorem orBanks_bankEn : ∀ m : BitVec 4,
    orBanks m (fun n => (Layout.ref.ctrl.bankEn.get n).mask) = m.setWidth 32 <<< 8 := by decide

theorem orBanks_bankEn_bits : ∀ (m : BitVec 4) (en : Bool),
    orBanks m (fun n => (Layout.ref.ctrl.bankEn.get n).insBit en) = if en then m.setWidth 32 <<< 8 else 0 := by decide

/-! ## The words of a record in the layout of CFG_REF -/

section RefLayout

variable {r : InitRecord} (hlay : c.layout = Layout.ref)
include hlay

/-- Counts within their fields are packed by shifting them (R160). -/
theorem initReadWord_eq (hcounts : firstAbove (initValues c r) = none) :
    initReadWord c r = r.rdSetup ||| (r.rdStrobe <<< 8) ||| (r.rdHold <<< 16) := by
  rw [firstAbove_eq_none_iff] at hcounts
  simp only [initValues, readTriple, List.forall_mem_append, List.forall_mem_cons] at hcounts
  obtain ⟨⟨⟨hsetup, hstrobe, hhold, -⟩, -⟩, -⟩ := hcounts
  rw [initReadWord, ins_eq_shiftLeft hsetup, ins_eq_shiftLeft hstrobe, ins_eq_shiftLeft hhold, hlay]
  exact congrArg (fun w => w ||| _ ||| _) (BitVec.shiftLeft_zero _)

/-- Likewise for the write counts (R161). -/
theorem initWriteWord_eq (hcounts : firstAbove (initValues c r) = none) :
    initWriteWord c r = r.wrSetup ||| (r.wrStrobe <<< 8) ||| (r.wrHold <<< 16) := by
  rw [firstAbove_eq_none_iff] at hcounts
  simp only [initValues, writeTriple, List.forall_mem_append, List.forall_mem_cons] at hcounts
  obtain ⟨⟨-, hsetup, hstrobe, hhold, -⟩, -⟩ := hcounts
  rw [initWriteWord, ins_eq_shiftLeft hsetup, ins_eq_shiftLeft hstrobe, ins_eq_shiftLeft hhold, hlay]
  exact congrArg (fun w => w ||| _ ||| _) (BitVec.shiftLeft_zero _)

/-- Likewise for the address counts (R162). -/
theorem initAddrWord_eq (hcounts : firstAbove (initValues c r) = none) :
    initAddrWord c r = r.addrSetup ||| (r.addrHold <<< 8) := by
  rw [firstAbove_eq_none_iff] at hcounts
  simp only [initValues, addrPair, List.forall_mem_append, List.forall_mem_cons] at hcounts
  obtain ⟨-, hsetup, hhold, -⟩ := hcounts
  rw [initAddrWord, ins_eq_shiftLeft hsetup, ins_eq_shiftLeft hhold, hlay]
  exact congrArg (fun w => w ||| _) (BitVec.shiftLeft_zero _)

/-- The counts merged into RDTIMING(0), which LEGACY leaves its flags in (R266). -/
theorem mergeWord_initReadWord (hcounts : firstAbove (initValues c r) = none) (old : Word) :
    mergeWord old (rdFields c) (initReadWord c r)
      = (old &&& ~~~(0x00073F0F : Word)) ||| r.rdSetup ||| (r.rdStrobe <<< 8) ||| (r.rdHold <<< 16) := by
  have hfields : rdFields c = 0x00073F0F := by rw [rdFields, hlay]; rfl
  rw [mergeWord, hfields, initReadWord_eq hlay hcounts, ← BitVec.or_assoc, ← BitVec.or_assoc]

/-- The counts merged into WRTIMING(0), likewise. -/
theorem mergeWord_initWriteWord (hcounts : firstAbove (initValues c r) = none) (old : Word) :
    mergeWord old (wrFields c) (initWriteWord c r)
      = (old &&& ~~~(0x00073F0F : Word)) ||| r.wrSetup ||| (r.wrStrobe <<< 8) ||| (r.wrHold <<< 16) := by
  have hfields : wrFields c = 0x00073F0F := by rw [wrFields, hlay]; rfl
  rw [mergeWord, hfields, initWriteWord_eq hlay hcounts, ← BitVec.or_assoc, ← BitVec.or_assoc]

/-- The counts merged into ADDRTIMING(0), likewise. -/
theorem mergeWord_initAddrWord (hcounts : firstAbove (initValues c r) = none) (old : Word) :
    mergeWord old (addrFields c) (initAddrWord c r)
      = (old &&& ~~~(0x0000070F : Word)) ||| r.addrSetup ||| (r.addrHold <<< 8) := by
  have hfields : addrFields c = 0x0000070F := by rw [addrFields, hlay]; rfl
  rw [mergeWord, hfields, initAddrWord_eq hlay hcounts, ← BitVec.or_assoc]

/-- RDTIMING(n): the counts' fields meet no flag (R33, R266). -/
theorem compose_readEdits (hcounts : firstAbove (initValues c r) = none) : compose (readEdits c r) = initRead r := by
  have hkeeps : KeepsEarlier (readEdits c r) := by
    rw [readEdits, initReadWord, hlay]
    refine keepsEarlier_cons_bitEdits (flags := [(30, r.pageMode), (29, r.prefetch), (28, r.halfRE)])
      (fun q hq => or_and_eq_zero (or_and_eq_zero ?_ ?_) ?_) (by simp)
    all_goals exact ins_and_eq_zero (by fin_cases hq <;> dsimp only <;> rfl) _
  have hmask : editMask (readEdits c r) = 0x70073F0F := by
    simp only [readEdits, editMask, List.foldr_cons, List.foldr_nil, bitEdit, rdFields, hlay]
    rfl
  have hbits : editBits (readEdits c r)
      = initReadWord c r ||| (bitAt 30 r.pageMode ||| (bitAt 29 r.prefetch ||| bitAt 28 r.halfRE)) := by
    simp only [readEdits, editBits, List.foldr_cons, List.foldr_nil, bitEdit, hlay, BitVec.ofNat_eq_ofNat,
      BitVec.or_zero]
    rfl
  funext old
  rw [compose_eq_mergeWord hkeeps, hmask, hbits, initReadWord_eq hlay hcounts, initRead, mergeWord]
  simp only [BitVec.or_assoc, BitVec.or_comm, word_or_left_comm]

/-- WRTIMING(n), likewise (R34, R266). -/
theorem compose_writeEdits (hcounts : firstAbove (initValues c r) = none) :
    compose (writeEdits c r) = initWrite r := by
  have hkeeps : KeepsEarlier (writeEdits c r) := by
    rw [writeEdits, initWriteWord, hlay]
    refine keepsEarlier_cons_bitEdits (flags := [(29, r.writeBufferDisable), (28, r.halfWE)])
      (fun q hq => or_and_eq_zero (or_and_eq_zero ?_ ?_) ?_) (by simp)
    all_goals exact ins_and_eq_zero (by fin_cases hq <;> dsimp only <;> rfl) _
  have hmask : editMask (writeEdits c r) = 0x30073F0F := by
    simp only [writeEdits, editMask, List.foldr_cons, List.foldr_nil, bitEdit, wrFields, hlay]
    rfl
  have hbits : editBits (writeEdits c r)
      = initWriteWord c r ||| (bitAt 29 r.writeBufferDisable ||| bitAt 28 r.halfWE) := by
    simp only [writeEdits, editBits, List.foldr_cons, List.foldr_nil, bitEdit, hlay, BitVec.ofNat_eq_ofNat,
      BitVec.or_zero]
    rfl
  funext old
  rw [compose_eq_mergeWord hkeeps, hmask, hbits, initWriteWord_eq hlay hcounts, initWrite, mergeWord]
  simp only [BitVec.or_assoc, BitVec.or_comm, word_or_left_comm]

/-- ADDRTIMING(n), likewise (R32, R266). -/
theorem compose_addrEdits (hcounts : firstAbove (initValues c r) = none) : compose (addrEdits c r) = initAddr r := by
  have hkeeps : KeepsEarlier (addrEdits c r) := by
    rw [addrEdits, initAddrWord, hlay]
    refine keepsEarlier_cons_bitEdits (flags := [(28, r.halfALE)])
      (fun q hq => or_and_eq_zero ?_ ?_) (by simp)
    all_goals exact ins_and_eq_zero (by fin_cases hq; dsimp only; rfl) _
  have hmask : editMask (addrEdits c r) = 0x1000070F := by
    simp only [addrEdits, editMask, List.foldr_cons, List.foldr_nil, bitEdit, addrFields, hlay]
    rfl
  have hbits : editBits (addrEdits c r) = initAddrWord c r ||| bitAt 28 r.halfALE := by
    simp only [addrEdits, editBits, List.foldr_cons, List.foldr_nil, bitEdit, hlay, BitVec.ofNat_eq_ofNat,
      BitVec.or_zero]
    rfl
  funext old
  rw [compose_eq_mergeWord hkeeps, hmask, hbits, initAddrWord_eq hlay hcounts, initAddr, mergeWord]
  simp only [BitVec.or_assoc]

/-- The edits of the lines' polarities, with 1 for active-low (R29, R180). -/
theorem lineEdits_eq (hpol : c.polActiveLow = true) :
    (InitRecord.busPolarities c r).map (lineEdit c)
      = (polarityFlags c r).map fun q => bitEdit q.1 q.2 := by
  have hvalue : ∀ low, polBitValue c low = low := fun low => by rw [polBitValue_eq, hpol, beq_true]
  unfold InitRecord.busPolarities polarityFlags
  split <;> simp only [List.map_append, List.map_cons, List.map_nil, lineEdit, hvalue, polBit, hlay] <;> rfl

/-- POLARITY(n) on MODERN (R35, R263). -/
theorem compose_lineEdits_of_modern (hpol : c.polActiveLow = true) (hrev : c.rev = .modern) :
    compose ((InitRecord.busPolarities c r).map (lineEdit c)) = initPolarity r := by
  have hbl : c.hasByteLane = true := decide_eq_true hrev
  funext old
  rw [lineEdits_eq hlay hpol, polarityFlags, if_pos hbl, compose_eq_mergeWord (keepsEarlier_bitEdits (by simp)),
    initPolarity, mergeWord]
  simp only [editMask, editBits, bitEdit, List.cons_append, List.nil_append, List.map_cons, List.map_nil,
    List.foldr_cons, List.foldr_nil]
  rw [show bitMask 4 ||| (bitMask 3 ||| (bitMask 2 ||| (bitMask 1 ||| (bitMask 0 ||| (bitMask 5 ||| 0))))) = 0x3F
    from rfl]
  simp only [BitVec.ofNat_eq_ofNat, BitVec.zero_or, BitVec.or_assoc, BitVec.or_comm, word_or_left_comm]

/-- POLARITY(0) on LEGACY, which has no byte lanes (R35, R263). -/
theorem compose_lineEdits_of_legacy (hpol : c.polActiveLow = true) (hrev : c.rev = .legacy) (old : Word) :
    compose ((InitRecord.busPolarities c r).map (lineEdit c)) old
      = (old &&& ~~~(0x1F : Word)) ||| bitAt 0 r.polCS ||| bitAt 1 r.polRE ||| bitAt 2 r.polWE ||| bitAt 3 r.polALE
          ||| bitAt 4 r.polARDY := by
  have hbl : ¬ c.hasByteLane = true := by simp [Cfg.hasByteLane, Cfg.isModern, hrev]
  rw [lineEdits_eq hlay hpol, polarityFlags, if_neg hbl, compose_eq_mergeWord (keepsEarlier_bitEdits (by simp)),
    mergeWord]
  simp only [editMask, editBits, bitEdit, List.append_nil, List.map_cons, List.map_nil, List.foldr_cons,
    List.foldr_nil]
  rw [show bitMask 4 ||| (bitMask 3 ||| (bitMask 2 ||| (bitMask 1 ||| (bitMask 0 ||| 0)))) = 0x1F from rfl]
  simp only [BitVec.ofNat_eq_ofNat, BitVec.zero_or, BitVec.or_assoc, BitVec.or_comm]

/-! ## Steps 1, 3 and 4: the control word (R262, R264, R265) -/

/-- The bits of bank n's slice (R31). -/
theorem sliceMask_eq (hrev : c.rev = .modern) (n : Bank) :
    sliceMask c n = (0x00030003#32 <<< (2 * n.val)) ||| (0x01001100#32 <<< n.val) := by
  have hbl : c.hasByteLane = true := decide_eq_true hrev
  have hni : c.hasNoIdle = true := decide_eq_true hrev
  rw [sliceMask, if_pos hbl, if_pos hni, hlay]
  fin_cases n <;> rfl

/-- The values of bank n's slice (R265). -/
theorem sliceWord_eq (hrev : c.rev = .modern) (en : Bool) (n : Bank) :
    sliceWord c r en n
      = ((r.mode.setWidth 32 ||| bitAt 16 r.ardyEnable ||| bitAt 17 r.ardyDisableTimeout) <<< (2 * n.val))
        ||| ((bitAt 8 en ||| bitAt 12 r.noIdle ||| bitAt 24 r.byteLane) <<< n.val) := by
  have hbl : c.hasByteLane = true := decide_eq_true hrev
  have hni : c.hasNoIdle = true := decide_eq_true hrev
  rw [sliceWord, if_pos hbl, if_pos hni, hlay]
  fin_cases n
  all_goals
    rw [ins_setWidth_eq rfl, insBit_eq_bitAt rfl, insBit_eq_bitAt rfl, insBit_eq_bitAt rfl, insBit_eq_bitAt rfl,
      insBit_eq_bitAt rfl]
    simp only [BitVec.shiftLeft_or_distrib, bitAt_shiftLeft, BitVec.or_assoc, BitVec.or_comm (bitAt _ r.noIdle)]
    rfl

/-- The slice of one bank meets no other bank's (R31). -/
theorem sliceWord_and_sliceMask (hrev : c.rev = .modern) (en : Bool) {n k : Bank} (hnk : n ≠ k) :
    sliceWord c r en n &&& sliceMask c k = 0 := by
  have hbl : c.hasByteLane = true := decide_eq_true hrev
  have hni : c.hasNoIdle = true := decide_eq_true hrev
  have hmasks : ∀ n k : Bank, n ≠ k → ∀ f ∈ [Layout.ref.ctrl.mode.get n, Layout.ref.ctrl.ardyEn.get n,
      Layout.ref.ctrl.ardyToDis.get n, Layout.ref.ctrl.bankEn.get n, Layout.ref.ctrl.bl.get n,
      Layout.ref.ctrl.noIdle.get n],
      f.mask &&& ((0x00030003#32 <<< (2 * k.val)) ||| (0x01001100#32 <<< k.val)) = 0 := by decide
  have hfields := hmasks n k hnk
  simp only [List.forall_mem_cons] at hfields
  obtain ⟨hmode, hardyEn, hardyToDis, hbankEn, hblMask, hniMask, -⟩ := hfields
  rw [sliceMask_eq hlay hrev, sliceWord, if_pos hbl, if_pos hni, hlay]
  exact or_and_eq_zero (or_and_eq_zero (or_and_eq_zero (or_and_eq_zero (or_and_eq_zero (ins_and_eq_zero hmode _)
    (ins_and_eq_zero hardyEn _)) (ins_and_eq_zero hardyToDis _)) (ins_and_eq_zero hbankEn _))
    (ins_and_eq_zero hblMask _)) (ins_and_eq_zero hniMask _)

/-- CTRL as INIT commits it on MODERN: ITS, and the slices of the banks of m. -/
theorem compose_initEdits_of_modern (hrev : c.rev = .modern) (m : BitVec 4) (en : Bool) (old : Word) :
    compose (initEdits c m en r) old = initCtrl m en r old := by
  have hits : c.hasITS = true := decide_eq_true hrev
  have hmodern : c.isModern = true := decide_eq_true hrev
  have hkeeps : KeepsEarlier ((members m).map fun n => (sliceMask c n, sliceWord c r en n)) :=
    keepsEarlier_members m fun n k hnk => sliceWord_and_sliceMask hlay hrev en hnk
  have hfirst : mergeWord old 0 c.layout.ctrl.its.mask = old ||| 0x40000000#32 := by
    rw [hlay]
    exact congrArg (fun w => w ||| _) BitVec.and_allOnes
  rw [initEdits, if_pos hits, if_pos hmodern, compose_append, compose_eq_mergeWord hkeeps, editMask_members,
    editBits_members]
  simp only [sliceMask_eq hlay hrev, sliceWord_eq hlay hrev]
  exact congrArg (fun w => mergeWord w _ _) hfirst

/-- CTRL as INIT commits it on LEGACY: the global slice, and the enables of the banks of m. -/
theorem compose_initEdits_of_legacy (hrev : c.rev = .legacy) (m : BitVec 4) (en : Bool) (old : Word) :
    compose (initEdits c m en r) old
      = (((old &&& ~~~(0x00030003 : Word)) ||| r.mode.setWidth 32 ||| bitAt 16 r.ardyEnable
          ||| bitAt 17 r.ardyDisableTimeout) &&& ~~~(m.setWidth 32 <<< 8))
        ||| (if en then m.setWidth 32 <<< 8 else 0) := by
  have hits : ¬ c.hasITS = true := by simp [Cfg.hasITS, Cfg.isModern, hrev]
  have hmodern : ¬ c.isModern = true := hits
  have hapart : ∀ n k : Bank, n ≠ k →
      (Layout.ref.ctrl.bankEn.get n).insBit en &&& (Layout.ref.ctrl.bankEn.get k).mask = 0 := by
    revert en
    decide
  have hkeeps : KeepsEarlier ((members m).map fun n =>
      ((Layout.ref.ctrl.bankEn.get n).mask, (Layout.ref.ctrl.bankEn.get n).insBit en)) := keepsEarlier_members m hapart
  have hmask : globalSliceMask c = 0x00030003 := by
    rw [globalSliceMask, hlay]
    rfl
  have hword : globalSliceWord c r
      = r.mode.setWidth 32 ||| bitAt 16 r.ardyEnable ||| bitAt 17 r.ardyDisableTimeout := by
    rw [globalSliceWord, hlay, ins_setWidth_eq rfl, insBit_eq_bitAt rfl, insBit_eq_bitAt rfl]
    exact congrArg (fun w => w ||| _ ||| _) (BitVec.shiftLeft_zero _)
  rw [initEdits, if_neg hits, if_neg hmodern, hlay, hmask, hword]
  change compose _ (mergeWord old _ _) = _
  rw [compose_eq_mergeWord hkeeps, editMask_members, editBits_members, orBanks_bankEn, orBanks_bankEn_bits]
  simp only [mergeWord, BitVec.or_assoc]

end RefLayout

end Sys2Proof.Proofs

/-! # Proofs: INIT as a whole (45_init_disable.md R262 to R274) -/

namespace Sys2Proof.Proofs

open Sys2Proof Sys2Proof.Machine Sys2Proof.Claims

variable {c : Cfg} {ready : Bool}

/-! ## Parts of INIT that use the control word (R267, R269) -/

/-- The micro-steps `ops` take the register file f to g with no fault while the command holds the control word w. -/
def BusWith (c : Cfg) (ready : Bool) (w : Word) (ops : List MicroOp) (f g : RegFile) : Prop :=
  ∀ s : State, s.cfg = c → s.gpioReady = ready → s.regs = f → ∀ cmd ret k rest t,
    ∃ t', play cmd ret k (ops ++ rest) t w s
      = play cmd ret (k + ops.length) rest t' w { s with regs := g, unfenced := s.unfenced || !ops.isEmpty }

/-- A part that runs with every control word. -/
theorem BusWith.of_bus {ops : List MicroOp} {f g : RegFile} (h : Bus c ready ops f g) (w : Word) :
    BusWith c ready w ops f g :=
  fun s hc hr hf cmd ret k rest t => h s hc hr hf cmd ret k rest t w

theorem BusWith.append {w : Word} {a b : List MicroOp} {f g k : RegFile} (h : BusWith c ready w a f g)
    (h' : BusWith c ready w b g k) : BusWith c ready w (a ++ b) f k := by
  intro s hc hr hf cmd ret n rest t
  obtain ⟨t1, h1⟩ := h s hc hr hf cmd ret n (b ++ rest) t
  obtain ⟨t2, h2⟩ := h' { s with regs := g, unfenced := s.unfenced || !a.isEmpty } hc hr rfl cmd ret (n + a.length)
    rest t1
  have hempty : (s.unfenced || !(a ++ b).isEmpty) = ((s.unfenced || !a.isEmpty) || !b.isEmpty) := by
    cases a <;> simp
  exact ⟨t2, by rw [List.append_assoc, h1, h2, List.length_append, Nat.add_assoc, hempty]⟩

/-- A write of the bus side whose word is known once the control word is. -/
theorem BusWith.of_target {w v : Word} {op : MicroOp} {r : Reg} {f : RegFile} (ht : r.isTft = false)
    (htarget : ∀ (b : Busy) (s : State), s.cfg = c → s.regs = f → b.c = w → op.target b s = some (r, v))
    (hb : blocksAt c ready f r v = false) : BusWith c ready w [op] f (f.set r v) := by
  rintro s rfl rfl rfl cmd ret k rest t
  have hfree : s.gpioBlocks r v = false := hb
  refine ⟨t, (play_of_target (htarget _ s rfl rfl rfl)).trans ?_⟩
  rw [if_neg (Bool.eq_false_iff.1 hfree)]
  simp [State.putReg, Tft.touch, ht]

/-- Step 6 (R267). -/
theorem BusWith.commit (hc : AllWritable c) (w : Word) (f : RegFile) :
    BusWith c ready w [.commit] f { f with ctrl := w } := by
  refine .of_target (r := .ctrl) rfl ?_ (blocksAt_of_ne _ _ _ _ (by simp))
  rintro b s rfl rfl rfl
  exact congrArg (fun v => some (Reg.ctrl, v)) (Cfg.storeWord_of_allOnes _ _ _ _ (hc .ctrl))

/-! ## Writes of ROUTE in the layout of CFG_REF (R36, R363) -/

section RefLayout

variable (hc : AllWritable c) (hlay : c.layout = Layout.ref)
include hlay

/-- A write of ROUTE with EBIPEN 1 is allowed where EBIPEN is 1 or the GPIO is ready. -/
theorem blocksAt_route {f : RegFile} {w : Word}
    (h : w.getLsbD 0 = true → f.route.getLsbD 0 = true ∨ ready = true) : blocksAt c ready f .route w = false := by
  have htest : ∀ v, c.layout.route.ebiPen.test v = v.getLsbD 0 := fun v => by rw [hlay]; rfl
  rw [blocksAt, htest, htest]
  cases hw : w.getLsbD 0
  case false => simp
  case true => rcases h hw with hf | hr <;> simp [*]

/-- And forbidden where EBIPEN is 0 and the GPIO is not ready. -/
theorem gpioBlocks_route {s : State} {w : Word} (hs : s.cfg = c) (hw : w.getLsbD 0 = true)
    (hf : s.regs.route.getLsbD 0 = false) (hr : s.gpioReady = false) : s.gpioBlocks .route w = true := by
  subst hs
  rw [gpioBlocks_iff_forbidden, forbidden, hlay]
  exact ⟨rfl, hw, hf, hr⟩

omit hlay in
/-- EBIPEN after an edit that sets it only where it may be set. -/
theorem ebiPen_of_mergeWord {old m v : Word} (h : v.getLsbD 0 = true → old.getLsbD 0 = true ∨ ready = true)
    (hw : (mergeWord old m v).getLsbD 0 = true) : old.getLsbD 0 = true ∨ ready = true := by
  rw [getLsbD_mergeWord _ _ _ _ (by decide), Bool.or_eq_true, Bool.and_eq_true] at hw
  exact hw.elim (fun hold => .inl hold.1) h

include hc

theorem bus_routeMerge {m v : Word} {f : RegFile}
    (h : v.getLsbD 0 = true → f.route.getLsbD 0 = true ∨ ready = true) :
    Bus c ready (mergeOps .route m v) f { f with route := mergeWord f.route m v } := by
  have hbus := Bus.merge (c := c) (ready := ready) (f := f) (r := .route) (m := m) (v := v) rfl
  rw [c.storeWord_of_allOnes _ _ _ (hc .route), RegFile.get_route] at hbus
  exact hbus (blocksAt_route hlay (ebiPen_of_mergeWord h))

theorem bus_routeBit {b : Nat} {x : Bool} {f : RegFile}
    (h : (bitAt b x).getLsbD 0 = true → f.route.getLsbD 0 = true ∨ ready = true) :
    Bus c ready [.bit .route b x] f { f with route := mergeWord f.route (bitMask b) (bitAt b x) } := by
  have hbus := Bus.bit (c := c) (ready := ready) (f := f) (r := .route) (i := b) (x := x) rfl
  rw [hc.storeBit_eq, RegFile.get_route] at hbus
  exact hbus (blocksAt_route hlay (ebiPen_of_mergeWord h))

/-- The byte-lane pin follows the control word held (R269). -/
theorem BusWith.blPin (w : Word) (f : RegFile) :
    BusWith c ready w [.blPin] f
      { f with route := mergeWord f.route 0x80 (bitAt 7 (w &&& 0x0F000000 != 0)) } := by
  have hany : anyBL c w = (w &&& 0x0F000000 != 0) := by
    rw [← Bool.not_inj_iff, bne, Bool.not_not, Bool.eq_iff_iff, Bool.not_eq_true', anyBL_eq_false_iff hlay,
      beq_iff_eq]
  have hbit : (bitAt 7 (w &&& 0x0F000000 != 0)).getLsbD 0 = false := by
    cases w &&& 0x0F000000 != 0 <;> rfl
  refine .of_target (r := .route) rfl ?_ (blocksAt_route hlay (ebiPen_of_mergeWord fun h => ?_))
  · rintro b s rfl rfl rfl
    rw [MicroOp.target, hc.storeBit_eq, hany, hlay]
    rfl
  · rw [hbit] at h
    cases h

/-- Steps 9 and 10 (R270, R271). -/
theorem bus_enablePins (s : State) (cs : BitVec 4) {f : RegFile} (h : f.route.getLsbD 0 = true ∨ ready = true) :
    Bus c ready
      (.bit .route c.layout.route.ebiPen.lo true
        :: (s.walk 7 cs).map fun k => .bit .route (c.layout.route.csPen.get k).lo true)
      f { f with route := f.route ||| 1#32 ||| (cs.setWidth 32 <<< 1) } := by
  have hset : ∀ mask old, setMask c .route mask true old = old ||| mask := fun mask old =>
    c.storeWord_of_allOnes _ _ _ (hc .route)
  have hebi := Bus.bit (c := c) (ready := ready) (f := f) (r := .route) (i := 0) (x := true) rfl
  rw [storeBit_eq_setMask, hset, RegFile.get_route] at hebi
  have hcs := Bus.routeBits (c := c) (ready := ready) (x := true) (s.walk 7 cs) { f with route := f.route ||| 1#32 }
    fun k _ => csPen_ne_ebiPen hlay k
  have hmask : (s.walk 7 cs).foldr (fun k w => (1#32 <<< (c.layout.route.csPen.get k).lo) ||| w) 0
      = cs.setWidth 32 <<< 1 := by
    rw [hlay, ← orBanks_csPen]
    exact foldr_walk_eq_orBanks s 7 cs _
  rw [hmask, hset] at hcs
  rw [show c.layout.route.ebiPen.lo = 0 by rw [hlay]; rfl]
  exact (hebi (blocksAt_route hlay fun _ => h)).cons hcs

end RefLayout

/-! ## The steps of INIT one after the other -/

/-- Steps 2 to 7 of INIT (R263 to R268). -/
def initSteps2to7 (s : State) (m : BitVec 4) (r : InitRecord) : List MicroOp :=
  initPolarityOps s m r ++ initTimingOps s m r (initReadWord s.cfg r) (initWriteWord s.cfg r) (initAddrWord s.cfg r)
    ++ [.commit, .bit .route s.cfg.layout.route.alePen.lo (isALE s.cfg r.mode)]

/-- Steps 9 and 10 of INIT (R270, R271). -/
def initSteps9to10 (s : State) (cs : BitVec 4) : List MicroOp :=
  .bit .route s.cfg.layout.route.ebiPen.lo true
    :: (s.walk 7 cs).map fun k => .bit .route (s.cfg.layout.route.csPen.get k).lo true

theorem initOps_eq (s : State) (m cs : BitVec 4) (en : Bool) (r : InitRecord) :
    initOps s m cs en r (initReadWord s.cfg r) (initWriteWord s.cfg r) (initAddrWord s.cfg r)
      = .snapshot (initEdits s.cfg m en r)
        :: (initSteps2to7 s m r ++ (initRouteOps s.cfg r ++ initSteps9to10 s cs)) := by
  simp only [initOps, initSteps2to7, initSteps9to10, List.append_assoc, List.cons_append, List.nil_append]

theorem initSteps2to7_ne_nil (s : State) (m : BitVec 4) (r : InitRecord) : initSteps2to7 s m r ≠ [] :=
  List.append_ne_nil_of_right_ne_nil _ (List.cons_ne_nil _ _)

/-- INIT of a bank mask that is not empty and a record in bounds has ten steps (R261, R262). -/
theorem planOf_init_of_legal {banks : Byte} {r : InitRecord} {s : State}
    (hlay : s.cfg.layout = Layout.ref) (hb : ¬ strayBanks banks) (hne : banks ≠ 0)
    (hcounts : firstAbove (initValues s.cfg r) = none)
    (hloc : s.cfg.routeHasLocation = true → r.loc.toNat ≤ 7) (cs : BitVec 4) (en : Bool) :
    planOf (.init banks cs en r) s
      = some (.ok { ops := .snapshot (initEdits s.cfg (maskOf banks) en r)
          :: (initSteps2to7 s (maskOf banks) r ++ (initRouteOps s.cfg r ++ initSteps9to10 s cs)) }) := by
  rw [planOf_init_of_named hb hne, initChecks_of_counts hcounts, locField_max hlay,
    if_neg fun ⟨hhas, habove⟩ => Nat.not_le.2 habove (hloc hhas), ← initOps_eq]
  rfl

/-- A command that composes its control word and then runs with it to the end. -/
theorem exec_of_snapshot {i : Instr} {s : State} {edits : List (Word × Word)} {w : Word} {ops : List MicroOp}
    {g : RegFile} (hs : s.ready) (hwf : i.wellFormed s.cfg = true)
    (hp : planOf i s = some (.ok { ops := .snapshot edits :: ops })) (hw : compose edits s.regs.ctrl = w)
    (hops : BusWith s.cfg s.gpioReady w ops s.regs g) (hne : ops ≠ []) :
    exec i s = .next (rewritten s g true) := by
  obtain ⟨t', h⟩ := hops s rfl rfl rfl i .nothing 1 [] 0
  rw [List.append_nil] at h
  have hany : (!ops.isEmpty) = true := by simpa using hne
  refine exec_ok hs hwf hp ?_
  rw [play, hw, h, hany, play, finish, ← show s.cfgr = .idle from hs.1.2]
  rfl

/-- A command that composes its control word, runs with it through `ops`, and then stops. -/
theorem stuck_of_snapshot {i : Instr} {s : State} {edits : List (Word × Word)} {w : Word} {ops rest : List MicroOp}
    {g : RegFile} {k : Nat} (hs : s.ready) (hwf : i.wellFormed s.cfg = true)
    (hp : planOf i s = some (.ok { ops := .snapshot edits :: (ops ++ rest) })) (hw : compose edits s.regs.ctrl = w)
    (hops : BusWith s.cfg s.gpioReady w ops s.regs g) (hne : ops ≠ [])
    (hrest : ∀ t, stuck i k { s with regs := g, unfenced := true }
      (play i .nothing (1 + ops.length) rest t w { s with regs := g, unfenced := true })) :
    ∃ t, exec i s = .next t ∧ stuck i k { s with regs := g, unfenced := true } t := by
  obtain ⟨t', h⟩ := hops s rfl rfl rfl i .nothing 1 rest 0
  have hany : (s.unfenced || !ops.isEmpty) = true := by simp [hne]
  rw [hany] at h
  refine ⟨_, exec_ok hs hwf hp ?_, hrest t'⟩
  rw [play, hw, h]

/-! ## Where INIT stops (R363, R367) -/

/-- A command stops, once its control word is composed and `ops` are done, at the write of a merge that sets EBIPEN
where it may not be set; the read of the merge is done. -/
theorem stops_at_routeMerge {i : Instr} {s : State} {edits : List (Word × Word)} {w m v : Word}
    {ops rest : List MicroOp} {g : RegFile} {k : Nat} (hs : s.ready) (hwf : i.wellFormed s.cfg = true)
    (hlay : s.cfg.layout = Layout.ref)
    (hp : planOf i s = some (.ok { ops := .snapshot edits :: (ops ++ (mergeOps .route m v ++ rest)) }))
    (hw : compose edits s.regs.ctrl = w) (hops : BusWith s.cfg s.gpioReady w ops s.regs g) (hne : ops ≠ [])
    (hc : AllWritable s.cfg) (hready : s.gpioReady = false) (hg : g.route.getLsbD 0 = false)
    (hv : v.getLsbD 0 = true) (hk : ops.length + 2 = k) :
    ∃ t, exec i s = .next t ∧ stuck i k { s with regs := g, unfenced := true } t := by
  obtain rfl : 1 + ops.length + 1 = k := by omega
  have hword : s.cfg.storeWord .route g.route (mergeWord g.route m v) = mergeWord g.route m v :=
    Cfg.storeWord_of_allOnes _ _ _ _ (hc .route)
  have hbit : (mergeWord g.route m v).getLsbD 0 = true := by
    rw [getLsbD_mergeWord _ _ _ _ (by decide), hv, Bool.or_true]
  exact stuck_of_snapshot hs hwf hp hw hops hne fun _ =>
    stuck_play_of_target (op := .writeMerged .route m v) (t := g.route) rfl
      (gpioBlocks_route hlay rfl (by rw [RegFile.get_route, hword, hbit]) hg hready)

/-- A command stops, once its control word is composed and `ops` are done, at step 9 of INIT where EBIPEN may not be
set (R270). -/
theorem stops_at_step9 {i : Instr} {s : State} {edits : List (Word × Word)} {w : Word} {ops : List MicroOp}
    {g : RegFile} {k : Nat} {cs : BitVec 4} (hs : s.ready) (hwf : i.wellFormed s.cfg = true)
    (hlay : s.cfg.layout = Layout.ref)
    (hp : planOf i s = some (.ok { ops := .snapshot edits :: (ops ++ initSteps9to10 s cs) }))
    (hw : compose edits s.regs.ctrl = w) (hops : BusWith s.cfg s.gpioReady w ops s.regs g) (hne : ops ≠ [])
    (hc : AllWritable s.cfg) (hready : s.gpioReady = false) (hg : g.route.getLsbD 0 = false)
    (hk : ops.length + 1 = k) :
    ∃ t, exec i s = .next t ∧ stuck i k { s with regs := g, unfenced := true } t := by
  obtain rfl : 1 + ops.length = k := by omega
  have hbit : (mergeWord g.route (bitMask 0) (bitAt 0 true)).getLsbD 0 = true := by
    rw [getLsbD_mergeWord _ _ _ _ (by decide)]
    exact Bool.or_true _
  rw [initSteps9to10, show s.cfg.layout.route.ebiPen.lo = 0 by rw [hlay]; rfl] at hp
  exact stuck_of_snapshot hs hwf hp hw hops hne fun _ =>
    stuck_play_of_target (op := .bit .route 0 true) rfl
      (gpioBlocks_route hlay rfl (by rw [hc.storeBit_eq, RegFile.get_route, hbit]) hg hready)

end Sys2Proof.Proofs

/-! # Proofs: INIT on MODERN (45_init_disable.md R262 to R273) -/

namespace Sys2Proof.Proofs

open Sys2Proof Sys2Proof.Machine Sys2Proof.Claims

theorem isALE_eq {c : Cfg} (hmode : c.modeCode = Cfg.ref.modeCode) (mode : BitVec 2) :
    isALE c mode = modeIsALE mode := by
  rw [isALE, hmode]
  rfl

/-- Steps 6 and 7 (R267, R268). -/
theorem busWith_commitLatch {rev : Rev} {c : Cfg} (hlike : likeRef rev c) {ready : Bool} (w : Word) (r : InitRecord)
    (f : RegFile) :
    BusWith c ready w [.commit, .bit .route c.layout.route.alePen.lo (isALE c r.mode)] f
      { f with ctrl := w, route := initRoute7 r f.route } := by
  have hc := allWritable_of_likeRef hlike
  obtain ⟨-, hlay, -, -, hmode⟩ := hlike
  rw [isALE_eq hmode, show c.layout.route.alePen.lo = 5 by rw [hlay]; rfl]
  have hbit : ∀ x, (bitAt 5 x).getLsbD 0 = false := by decide
  have hlatch := bus_routeBit (ready := ready) (b := 5) (x := modeIsALE r.mode) (f := { f with ctrl := w }) hc hlay
    fun h => by rw [hbit] at h; cases h
  exact (BusWith.commit hc w f).append (.of_bus hlatch w)

/-- EBIPEN is not touched by step 7 (R268). -/
theorem initRoute7_ebiPen (r : InitRecord) (old : Word) : (initRoute7 r old).getLsbD 0 = old.getLsbD 0 := by
  have hbit : ∀ x, (bitAt 5 x).getLsbD 0 = false := by decide
  exact getLsbD_mergeWord_of_clear old rfl (hbit _)

section Modern

variable {s : State} {r : InitRecord} (hlike : likeRef .modern s.cfg)
include hlike

/-- Steps 2 to 7, in each bank of m. -/
theorem busWith_initSteps2to7_of_modern (hcounts : firstAbove (initValues s.cfg r) = none) (m : BitVec 4) (en : Bool) :
    BusWith s.cfg s.gpioReady (initCtrl m en r s.regs.ctrl) (initSteps2to7 s m r) s.regs (initRegs7 m en r s.regs) := by
  have hc := allWritable_of_likeRef hlike
  have hlatch := busWith_commitLatch hlike (ready := s.gpioReady) (initCtrl m en r s.regs.ctrl) r
  obtain ⟨hrev, hlay, -, hpol, -⟩ := hlike
  have hmodern : s.cfg.isModern = true := decide_eq_true hrev
  have hpolarity := bus_polarityLoops (ready := s.gpioReady) hc s m (InitRecord.busPolarities s.cfg r) 0 s.regs
    fun p hp => polReg_of_mem_busPolarities hp
  have htiming := bus_timingLoop (ready := s.gpioReady) hc s 6 m r
    { s.regs with
      polarity := mapBanks m (fun _ => compose ((InitRecord.busPolarities s.cfg r).map (lineEdit s.cfg)))
        s.regs.polarity }
  rw [timed, compose_readEdits hlay hcounts, compose_writeEdits hlay hcounts, compose_addrEdits hlay hcounts] at htiming
  rw [compose_lineEdits_of_modern hlay hpol hrev] at hpolarity htiming
  rw [initSteps2to7, initPolarityOps, if_pos hmodern, initTimingOps, if_pos hmodern]
  exact (BusWith.of_bus (hpolarity.append htiming) _).append (hlatch _)

/-- Steps 2 to 7 have 18 micro-steps for each bank, and the commit and the latch pin (R412). -/
theorem length_initSteps2to7_of_modern (m : BitVec 4) : (initSteps2to7 s m r).length = 2 + 18 * count m := by
  have hmodern : s.cfg.isModern = true := decide_eq_true (rev_of_likeRef hlike)
  have hbl : s.cfg.hasByteLane = true := hmodern
  have htiming : ∀ rw ww aw n, (initBankTimingOps s.cfg r rw ww aw n).length = 12 := fun _ _ _ _ => rfl
  rw [initSteps2to7, initPolarityOps, if_pos hmodern, initTimingOps, if_pos hmodern, InitRecord.busPolarities,
    if_pos hbl]
  simp only [List.cons_append, List.nil_append, List.zipIdx_cons, List.zipIdx_nil, List.flatMap_cons, List.flatMap_nil,
    List.length_append, List.length_map, length_walk, length_flatMap_walk _ _ _ _ _ (htiming _ _ _), List.length_cons,
    List.length_nil]
  omega

/-- Step 8: the two patterns, LOCATION where the instance has it, and the byte-lane pin (R269). -/
theorem initRouteOps_of_modern (hloc : s.cfg.routeHasLocation = true → r.loc.toNat ≤ 7) :
    initRouteOps s.cfg r
      = mergeOps .route 0x00030000 r.aLow ++ (mergeOps .route 0x007C0000 r.aHigh
        ++ ((if s.cfg.routeHasLocation then mergeOps .routeLoc 7 r.loc else []) ++ [.blPin])) := by
  obtain ⟨hrev, hlay, -, -, -⟩ := hlike
  have hmodern : s.cfg.isModern = true := decide_eq_true hrev
  have hpins : s.cfg.hasAddrPinCtl = true := hmodern
  have hbl : s.cfg.hasByteLane = true := hmodern
  have hlocation : (if s.cfg.routeHasLocation then locationOps s.cfg r.loc else [])
      = if s.cfg.routeHasLocation then mergeOps .routeLoc 7 r.loc else [] := by
    split
    · exact locationOps_of_modern hlay hrev (hloc ‹_›)
    · rfl
  rw [initRouteOps, if_pos hpins, if_pos hbl, hlocation, hlay, List.append_assoc, List.append_assoc]
  rfl

/-- LOCATION, where the instance has it (R269). -/
theorem bus_location (location : Bool) (f : RegFile) :
    Bus s.cfg s.gpioReady (if location then mergeOps .routeLoc 7 r.loc else []) f
      { f with routeLoc := if location then (f.routeLoc &&& ~~~(7 : Word)) ||| r.loc else f.routeLoc } := by
  cases location
  case false => exact .nil
  case true =>
    have hbus := Bus.merge (c := s.cfg) (ready := s.gpioReady) (f := f) (r := .routeLoc) (m := 7) (v := r.loc) rfl
      (blocksAt_of_ne _ _ _ _ (by simp))
    rwa [Cfg.storeWord_of_allOnes _ _ _ _ (allWritable_of_likeRef hlike .routeLoc)] at hbus

/-- The low-address pattern sets EBIPEN only if it carries it (R269). -/
theorem bus_lowAddrPins {f : RegFile}
    (hlow : r.aLow.getLsbD 0 = true → f.route.getLsbD 0 = true ∨ s.gpioReady = true) :
    Bus s.cfg s.gpioReady (mergeOps .route 0x00030000 r.aLow) f
      { f with route := mergeWord f.route 0x00030000 r.aLow } :=
  bus_routeMerge (allWritable_of_likeRef hlike) (layout_of_likeRef hlike) hlow

/-- Step 8, where neither pattern sets EBIPEN against R363(b). -/
theorem busWith_initRouteOps_of_modern (hloc : s.cfg.routeHasLocation = true → r.loc.toNat ≤ 7) (w : Word)
    (f : RegFile)
    (hlow : r.aLow.getLsbD 0 = true → f.route.getLsbD 0 = true ∨ s.gpioReady = true)
    (hhigh : r.aHigh.getLsbD 0 = true → f.route.getLsbD 0 = true ∨ s.gpioReady = true) :
    BusWith s.cfg s.gpioReady w (initRouteOps s.cfg r) f
      { f with
        routeLoc := if s.cfg.routeHasLocation then (f.routeLoc &&& ~~~(7 : Word)) ||| r.loc else f.routeLoc
        route := mergeWord (mergeWord (mergeWord f.route 0x00030000 r.aLow) 0x007C0000 r.aHigh) 0x80
          (bitAt 7 (w &&& 0x0F000000 != 0)) } := by
  have hc := allWritable_of_likeRef hlike
  have hlay := layout_of_likeRef hlike
  have hhigh' : r.aHigh.getLsbD 0 = true →
      (mergeWord f.route 0x00030000 r.aLow).getLsbD 0 = true ∨ s.gpioReady = true := by
    intro h
    rw [getLsbD_mergeWord _ _ _ _ (by decide)]
    exact (hhigh h).imp_left fun hf => by simp [hf]
  rw [initRouteOps_of_modern hlike hloc]
  refine (BusWith.of_bus (bus_lowAddrPins hlike hlow) w).append (.append (.of_bus (bus_routeMerge hc hlay hhigh') w) ?_)
  exact (BusWith.of_bus (bus_location hlike _ _) w).append (BusWith.blPin hc hlay w _)

/-- Steps 2 to 8. -/
theorem busWith_initSteps2to8_of_modern (hcounts : firstAbove (initValues s.cfg r) = none)
    (hloc : s.cfg.routeHasLocation = true → r.loc.toNat ≤ 7) (m : BitVec 4) (en : Bool)
    (hlow : r.aLow.getLsbD 0 = true → s.regs.route.getLsbD 0 = true ∨ s.gpioReady = true)
    (hhigh : r.aHigh.getLsbD 0 = true → s.regs.route.getLsbD 0 = true ∨ s.gpioReady = true) :
    BusWith s.cfg s.gpioReady (initCtrl m en r s.regs.ctrl) (initSteps2to7 s m r ++ initRouteOps s.cfg r) s.regs
      (initRegs8 s.cfg.routeHasLocation m en r s.regs) := by
  have hebi : (initRegs7 m en r s.regs).route.getLsbD 0 = s.regs.route.getLsbD 0 := initRoute7_ebiPen r s.regs.route
  refine (busWith_initSteps2to7_of_modern hlike hcounts m en).append
    (busWith_initRouteOps_of_modern hlike hloc _ _ ?_ ?_)
  · rwa [hebi]
  · rwa [hebi]

end Modern

/-- EBIPEN after step 8 (R269). -/
theorem initRegs8_ebiPen (location : Bool) (m : BitVec 4) (en : Bool) (r : InitRecord) (f : RegFile) :
    (initRegs8 location m en r f).route.getLsbD 0
      = (f.route.getLsbD 0 || r.aLow.getLsbD 0 || r.aHigh.getLsbD 0) := by
  have hbit : ∀ x, (bitAt 7 x).getLsbD 0 = false := by decide
  have hpins : ∀ old v : Word, ∀ m' : Word, m'.getLsbD 0 = false →
      (mergeWord old m' v).getLsbD 0 = (old.getLsbD 0 || v.getLsbD 0) := by
    intro old v m' hm'
    rw [getLsbD_mergeWord _ _ _ _ (by decide), hm', Bool.not_false, Bool.and_true]
  calc (initRegs8 location m en r f).route.getLsbD 0
      = (mergeWord (mergeWord (mergeWord (initRoute7 r f.route) 0x00030000 r.aLow) 0x007C0000 r.aHigh) 0x80
          (bitAt 7 (initCtrl m en r f.ctrl &&& 0x0F000000 != 0))).getLsbD 0 := rfl
    _ = (f.route.getLsbD 0 || r.aLow.getLsbD 0 || r.aHigh.getLsbD 0) := by
      rw [hpins _ _ _ rfl, hpins _ _ _ rfl, hpins _ _ _ rfl, hbit, Bool.or_false, initRoute7_ebiPen]

/-- Settles O44: the control word is composed, steps 2 to 8 run with it, and EBIPEN may be set. -/
theorem initConfiguresTheBanks : Obligations.InitConfiguresTheBanks := by
  unfold Obligations.InitConfiguresTheBanks
  intro banks cs en r s hs hlike hb hne hcounts hloc hebi
  have hc := allWritable_of_likeRef hlike
  have hlay := layout_of_likeRef hlike
  have hfree : s.regs.route.getLsbD 0 = true ∨ s.gpioReady = true := hebi.symm
  have hsteps := busWith_initSteps2to8_of_modern hlike hcounts hloc (maskOf banks) en (fun _ => hfree) (fun _ => hfree)
  have hpins := bus_enablePins (ready := s.gpioReady) hc hlay s cs
    (f := initRegs8 s.cfg.routeHasLocation (maskOf banks) en r s.regs)
    (hfree.imp_left fun h => by rw [initRegs8_ebiPen, h]; rfl)
  have hrun := hsteps.append (.of_bus hpins _)
  rw [List.append_assoc] at hrun
  exact exec_of_snapshot hs rfl
    (planOf_init_of_legal hlay hb hne hcounts hloc cs en)
    (compose_initEdits_of_modern hlay (rev_of_likeRef hlike) _ _ _) hrun
    (List.append_ne_nil_of_left_ne_nil (initSteps2to7_ne_nil _ _ _) _)

end Sys2Proof.Proofs

/-! # Proofs: INIT on LEGACY, and where INIT stops (45_init_disable.md R263 to R271, R274, 60_exceptions.md R363) -/

namespace Sys2Proof.Proofs

open Sys2Proof Sys2Proof.Machine Sys2Proof.Claims

section Legacy

variable {s : State} {r : InitRecord} (hlike : likeRef .legacy s.cfg)
include hlike

theorem not_isModern_of_legacy : ¬ s.cfg.isModern = true := by
  simp [Cfg.isModern, rev_of_likeRef hlike]

/-- On LEGACY LOCATION is in ROUTE, so every instance has it (R6). -/
theorem routeHasLocation_of_legacy : s.cfg.routeHasLocation = true := by
  simp [Cfg.routeHasLocation, Cfg.isModern, rev_of_likeRef hlike]

/-- Step 8 is the merge of LOCATION alone (R269). -/
theorem initRouteOps_of_legacy (hloc : r.loc.toNat ≤ 7) :
    initRouteOps s.cfg r = mergeOps .route 0x70000000 (r.loc <<< 28) := by
  have hlegacy := not_isModern_of_legacy hlike
  have hpins : ¬ s.cfg.hasAddrPinCtl = true := hlegacy
  have hbl : ¬ s.cfg.hasByteLane = true := hlegacy
  rw [initRouteOps, if_neg hpins, if_neg hbl, if_pos (routeHasLocation_of_legacy hlike),
    locationOps_of_legacy (layout_of_likeRef hlike) (rev_of_likeRef hlike) hloc]
  rfl

/-- Steps 2 to 8, in the global registers. -/
theorem busWith_initSteps2to8_of_legacy (hcounts : firstAbove (initValues s.cfg r) = none) (hloc : r.loc.toNat ≤ 7)
    (m : BitVec 4) (en : Bool) :
    BusWith s.cfg s.gpioReady (compose (initEdits s.cfg m en r) s.regs.ctrl)
      (initSteps2to7 s m r ++ initRouteOps s.cfg r) s.regs (initRegsLegacy8 m en r s.regs) := by
  have hc := allWritable_of_likeRef hlike
  have hlegacy := not_isModern_of_legacy hlike
  have hlatch := busWith_commitLatch hlike (ready := s.gpioReady) (compose (initEdits s.cfg m en r) s.regs.ctrl) r
  have hrouteOps := initRouteOps_of_legacy hlike hloc
  obtain ⟨hrev, hlay, -, hpol, -⟩ := hlike
  have hpolarity := editsReg_globalLines hc (InitRecord.busPolarities s.cfg r)
    (fun p hp => polReg_of_mem_busPolarities hp) s.gpioReady s.regs
  rw [compose_lineEdits_of_legacy hlay hpol hrev] at hpolarity
  have htiming := bus_globalTimings (ready := s.gpioReady) hc r
    { s.regs with polarity := (initRegsLegacy8 m en r s.regs).polarity }
  simp only [mergeWord_initReadWord hlay hcounts, mergeWord_initWriteWord hlay hcounts,
    mergeWord_initAddrWord hlay hcounts] at htiming
  rw [compose_initEdits_of_legacy hlay hrev] at hlatch ⊢
  have hroute : Bus s.cfg s.gpioReady (initRouteOps s.cfg r)
      { initRegsLegacy8 m en r s.regs with route := initRoute7 r s.regs.route } (initRegsLegacy8 m en r s.regs) := by
    rw [hrouteOps]
    exact bus_routeMerge hc hlay fun h => by simp at h
  rw [initSteps2to7, initPolarityOps, if_neg hlegacy, initTimingOps, if_neg hlegacy]
  exact ((BusWith.of_bus (hpolarity.append htiming) _).append (hlatch _)).append (.of_bus hroute _)

/-- Steps 2 to 8 have 15 micro-steps (R412). -/
theorem length_initSteps2to8_of_legacy (hloc : r.loc.toNat ≤ 7) (m : BitVec 4) :
    (initSteps2to7 s m r ++ initRouteOps s.cfg r).length = 15 := by
  have hlegacy := not_isModern_of_legacy hlike
  have hbl : ¬ s.cfg.hasByteLane = true := hlegacy
  rw [initRouteOps_of_legacy hlike hloc, initSteps2to7, initPolarityOps, if_neg hlegacy, initTimingOps, if_neg hlegacy,
    InitRecord.busPolarities, if_neg hbl]
  rfl

omit hlike in
/-- EBIPEN after step 8, which on LEGACY writes no pattern (R269). -/
theorem initRegsLegacy8_ebiPen (m : BitVec 4) (en : Bool) (f : RegFile) :
    (initRegsLegacy8 m en r f).route.getLsbD 0 = f.route.getLsbD 0 :=
  (getLsbD_mergeWord_of_clear (initRoute7 r f.route) (m := 0x70000000) (v := r.loc <<< 28) rfl (by simp)).trans
    (initRoute7_ebiPen r f.route)

end Legacy

/-- Settles O45: the control word is composed, steps 2 to 8 write the global registers, and EBIPEN may be set. -/
theorem initOnLegacyIsGlobal : Obligations.InitOnLegacyIsGlobal := by
  unfold Obligations.InitOnLegacyIsGlobal
  intro banks cs en r s hs hlike hb hne hcounts hloc hebi
  have hc := allWritable_of_likeRef hlike
  have hlay := layout_of_likeRef hlike
  have hsteps := busWith_initSteps2to8_of_legacy hlike hcounts hloc (maskOf banks) en
  have hpins := bus_enablePins (ready := s.gpioReady) hc hlay s cs (f := initRegsLegacy8 (maskOf banks) en r s.regs)
    (hebi.symm.imp_left fun h => by rw [initRegsLegacy8_ebiPen, h])
  have hrun := hsteps.append (.of_bus hpins _)
  rw [List.append_assoc] at hrun
  exact exec_of_snapshot hs rfl
    (planOf_init_of_legal hlay hb hne hcounts (fun _ => hloc) cs en) rfl hrun
    (List.append_ne_nil_of_left_ne_nil (initSteps2to7_ne_nil _ _ _) _)

/-! ## INIT without gpioReady (R363, R367) -/

section Stops

variable {banks : Byte} {cs : BitVec 4} {en : Bool} {r : InitRecord} {s : State} (hs : s.ready)
  (hb : ¬ strayBanks banks) (hne : banks ≠ 0) (hcounts : firstAbove (initValues s.cfg r) = none)
  (hready : s.gpioReady = false) (hebi : s.regs.route.getLsbD 0 = false)
include hs hb hne hcounts hready hebi

/-- On MODERN, with no pattern that carries EBIPEN, step 9 is the first to set it. -/
theorem init_stops_at_step9_of_modern (hlike : likeRef .modern s.cfg)
    (hloc : s.cfg.routeHasLocation = true → r.loc.toNat ≤ 7) (hlow : r.aLow.getLsbD 0 = false)
    (hhigh : r.aHigh.getLsbD 0 = false) :
    ∃ t, exec (.init banks cs en r) s = .next t ∧ stuck (.init banks cs en r)
      ((if s.cfg.routeHasLocation then 10 else 8) + 18 * count (maskOf banks))
      { s with regs := initRegs8 s.cfg.routeHasLocation (maskOf banks) en r s.regs, unfenced := true } t := by
  have hlay := layout_of_likeRef hlike
  have hplan := planOf_init_of_legal hlay hb hne hcounts hloc cs en
  have hsteps := busWith_initSteps2to8_of_modern hlike hcounts hloc (maskOf banks) en
    (fun h => by rw [hlow] at h; cases h) (fun h => by rw [hhigh] at h; cases h)
  have hlength : (initSteps2to7 s (maskOf banks) r ++ initRouteOps s.cfg r).length + 1
      = (if s.cfg.routeHasLocation then 10 else 8) + 18 * count (maskOf banks) := by
    rw [List.length_append, length_initSteps2to7_of_modern hlike, initRouteOps_of_modern hlike hloc]
    cases s.cfg.routeHasLocation <;> simp [mergeOps] <;> omega
  rw [← List.append_assoc] at hplan
  exact stops_at_step9 hs rfl hlay hplan (compose_initEdits_of_modern hlay (rev_of_likeRef hlike) _ _ _) hsteps
    (List.append_ne_nil_of_left_ne_nil (initSteps2to7_ne_nil _ _ _) _) (allWritable_of_likeRef hlike) hready
    (by rw [initRegs8_ebiPen, hebi, hlow, hhigh]; rfl) hlength

/-- A low-address pattern that carries EBIPEN stops at the write of its merge. -/
theorem init_stops_at_lowAddrPins (hlike : likeRef .modern s.cfg)
    (hloc : s.cfg.routeHasLocation = true → r.loc.toNat ≤ 7) (hlow : r.aLow.getLsbD 0 = true) :
    ∃ t, exec (.init banks cs en r) s = .next t ∧ stuck (.init banks cs en r) (4 + 18 * count (maskOf banks))
      { s with regs := initRegs7 (maskOf banks) en r s.regs, unfenced := true } t := by
  have hlay := layout_of_likeRef hlike
  have hplan := planOf_init_of_legal hlay hb hne hcounts hloc cs en
  have hsteps := busWith_initSteps2to7_of_modern hlike hcounts (maskOf banks) en
  have hlength : (initSteps2to7 s (maskOf banks) r).length + 2 = 4 + 18 * count (maskOf banks) := by
    rw [length_initSteps2to7_of_modern hlike]
    omega
  rw [initRouteOps_of_modern hlike hloc, List.append_assoc] at hplan
  exact stops_at_routeMerge hs rfl hlay hplan (compose_initEdits_of_modern hlay (rev_of_likeRef hlike) _ _ _) hsteps
    (initSteps2to7_ne_nil _ _ _) (allWritable_of_likeRef hlike) hready ((initRoute7_ebiPen _ _).trans hebi) hlow
    hlength

/-- A high-address pattern that carries EBIPEN, where the low-address one does not, stops at the write of its merge. -/
theorem init_stops_at_highAddrPins (hlike : likeRef .modern s.cfg)
    (hloc : s.cfg.routeHasLocation = true → r.loc.toNat ≤ 7) (hlow : r.aLow.getLsbD 0 = false)
    (hhigh : r.aHigh.getLsbD 0 = true) :
    ∃ t, exec (.init banks cs en r) s = .next t ∧ stuck (.init banks cs en r) (6 + 18 * count (maskOf banks))
      { s with
        regs := { initRegs7 (maskOf banks) en r s.regs with route := initRouteLow r s.regs.route }
        unfenced := true } t := by
  have hlay := layout_of_likeRef hlike
  have hplan := planOf_init_of_legal hlay hb hne hcounts hloc cs en
  have hsteps := (busWith_initSteps2to7_of_modern hlike hcounts (maskOf banks) en).append
    (.of_bus (bus_lowAddrPins hlike fun h => by rw [hlow] at h; cases h) _)
  have hlength : (initSteps2to7 s (maskOf banks) r ++ mergeOps .route 0x00030000 r.aLow).length + 2
      = 6 + 18 * count (maskOf banks) := by
    rw [List.length_append, length_initSteps2to7_of_modern hlike, mergeOps, List.length_cons, List.length_singleton]
    omega
  have hebiLow : (initRouteLow r s.regs.route).getLsbD 0 = false :=
    (getLsbD_mergeWord_of_clear _ rfl hlow).trans ((initRoute7_ebiPen _ _).trans hebi)
  rw [initRouteOps_of_modern hlike hloc, List.append_assoc, List.append_assoc, ← List.append_assoc] at hplan
  exact stops_at_routeMerge hs rfl hlay hplan (compose_initEdits_of_modern hlay (rev_of_likeRef hlike) _ _ _) hsteps
    (List.append_ne_nil_of_left_ne_nil (initSteps2to7_ne_nil _ _ _) _) (allWritable_of_likeRef hlike) hready hebiLow
    hhigh hlength

/-- On LEGACY, which writes no pattern, step 9 is the first to set EBIPEN. -/
theorem init_stops_at_step9_of_legacy (hlike : likeRef .legacy s.cfg) (hloc : r.loc.toNat ≤ 7) :
    ∃ t, exec (.init banks cs en r) s = .next t ∧ stuck (.init banks cs en r) 16
      { s with regs := initRegsLegacy8 (maskOf banks) en r s.regs, unfenced := true } t := by
  have hlay := layout_of_likeRef hlike
  have hplan := planOf_init_of_legal hlay hb hne hcounts (fun _ => hloc) cs en
  rw [← List.append_assoc] at hplan
  exact stops_at_step9 hs rfl hlay hplan rfl (busWith_initSteps2to8_of_legacy hlike hcounts hloc (maskOf banks) en)
    (List.append_ne_nil_of_left_ne_nil (initSteps2to7_ne_nil _ _ _) _) (allWritable_of_likeRef hlike) hready
    ((initRegsLegacy8_ebiPen _ _ _).trans hebi)
    (congrArg (fun n => n + 1) (length_initSteps2to8_of_legacy hlike hloc (maskOf banks)))

end Stops

/-- Settles O46: the first write that would set EBIPEN, in each of the four cases. -/
theorem initWithoutGpioStops : Obligations.InitWithoutGpioStops := by
  unfold Obligations.InitWithoutGpioStops
  intro banks cs en r s hs hb hne hcounts hready hebi
  refine ⟨fun hlike hloc => ⟨?step9, ?low, ?high⟩, ?legacy⟩
  case step9 => exact init_stops_at_step9_of_modern hs hb hne hcounts hready hebi hlike hloc
  case low => exact init_stops_at_lowAddrPins hs hb hne hcounts hready hebi hlike hloc
  case high => exact init_stops_at_highAddrPins hs hb hne hcounts hready hebi hlike hloc
  case legacy => exact init_stops_at_step9_of_legacy hs hb hne hcounts hready hebi

end Sys2Proof.Proofs

/-! # Proofs: the address-space mapper (46_address_mapper.md R290 to R292) -/

namespace Sys2Proof.Proofs

open Sys2Proof Sys2Proof.Machine Sys2Proof.Claims

/-! ## The span and the bank bases (R290) -/

theorem span_eq_ite (c : Cfg) (t : Word) :
    span c t = if c.hasAltMap = true ∧ c.layout.ctrl.altMap.test t = true then 0x10000000 else 0x04000000 := by
  simp only [span, Bool.and_eq_true]

/-- An instance without ALTMAP has one span, whatever CTRL holds. -/
theorem bankBase_of_not_hasAltMap {c : Cfg} (h : c.hasAltMap = false) (n : Bank) (t u : Word) :
    bankBase c n t = bankBase c n u := by
  simp [bankBase, span, h]

theorem bankBase_zero (c : Cfg) (t : Word) : bankBase c 0 t = c.memBase := by
  simp [bankBase]

theorem bankBase_sub_memBase (c : Cfg) (n : Bank) (t : Word) :
    bankBase c n t - c.memBase = BitVec.ofNat 32 n.val * span c t := by
  rw [bankBase, add_sub_cancel_left]

/-! ## The four windows together (R292) -/

/-- The four windows are the first 4 * `span` addresses from `EBI_MEM_BASE` on, modulo 2^32. -/
theorem exists_inWindow_iff (c : Cfg) (t addr : Word) :
    (∃ n, inWindow c t n addr = true) ↔ (addr - c.memBase).toNat < 4 * (span c t).toNat := by
  rw [← Nat.div_lt_iff_lt_mul (span_toNat_bounds c t).1]
  constructor
  case mp =>
    rintro ⟨n, hn⟩
    rw [(inWindow_iff c t n addr).1 hn]
    exact n.isLt
  case mpr => exact fun hlt => ⟨⟨_, hlt⟩, (inWindow_iff c t ⟨_, hlt⟩ addr).2 rfl⟩

/-- Settles O49: the n-th window is the n-th stretch of `span` addresses, so the windows are disjoint and adjacent. -/
theorem bankWindowsAreDisjoint : Obligations.BankWindowsAreDisjoint := by
  unfold Obligations.BankWindowsAreDisjoint
  refine ⟨fun c t n => ⟨span_eq_ite c t, bankBase_zero c t, ?distance⟩, fun c t addr n m => inWindow_unique, ?cover⟩
  case distance => rw [bankBase_zero, bankBase_sub_memBase]
  case cover => exact fun c t addr hfits => (exists_inWindow_iff c t addr).trans (toNat_sub_lt_iff hfits)

/-! ## BANK_BASE (R291) -/

theorem not_strayBanks_oneHot (n : Bank) : ¬ strayBanks (1#8 <<< n.val) := by
  unfold strayBanks
  fin_cases n <;> decide

/-- A mask without stray bits names bank n alone where it is the one-hot mask of n. -/
theorem members_maskOf_eq_singleton_iff {banks : Byte} (hb : ¬ strayBanks banks) (n : Bank) :
    members (maskOf banks) = [n] ↔ banks = 1#8 <<< n.val := by
  have hall : ∀ b : Byte, ¬ strayBanks b → ∀ n : Bank, members (maskOf b) = [n] ↔ b = 1#8 <<< n.val := by
    unfold strayBanks maskOf
    decide
  exact hall banks hb n

/-- What BANK_BASE does once its mask has passed the check for stray bits. -/
def bankBasePlan (c : Cfg) (banks : Byte) : List Bank → Except FaultCause Plan
  | [n] => .ok { ops := if c.hasAltMap then [.read .ctrl] else [], ret := .base n }
  | _ => .error (.badBankIndex banks)

theorem bankBasePlan_of_ne_singleton {l : List Bank} (h : ∀ n, l ≠ [n]) (c : Cfg) (banks : Byte) :
    bankBasePlan c banks l = .error (.badBankIndex banks) := by
  match l with
  | [] => rfl
  | [n] => exact absurd rfl (h n)
  | _ :: _ :: _ => rfl

theorem planOf_bankBase (banks : Byte) (s : State) :
    planOf (.bankBase banks) s = some (checkBanks banks >>= fun m => bankBasePlan s.cfg banks (members m)) := by
  refine congrArg some (bind_congr (x := checkBanks banks) fun m => ?_)
  match members m with
  | [] => rfl
  | [_] => rfl
  | _ :: _ :: _ => rfl

/-- The micro-steps of BANK_BASE read CTRL only where the span depends on it, and the return computes the base. -/
theorem play_bankBase {s : State} (hidle : s.cfgr = .idle) (i : Instr) (n : Bank) :
    play i (.base n) 0 (if s.cfg.hasAltMap then [.read .ctrl] else []) 0 0 s
      = { s with resp := some (bankBase s.cfg n s.regs.ctrl) } := by
  cases halt : s.cfg.hasAltMap
  case true => exact finish_of_idle ⟨i, 1, [], .base n, s.regs.ctrl, 0⟩ hidle
  case false =>
    rw [bankBase_of_not_hasAltMap halt n s.regs.ctrl 0]
    exact finish_of_idle ⟨i, 0, [], .base n, 0, 0⟩ hidle

/-- Settles O48: the plan for the one-hot mask of a bank returns its base; any other mask fails a check. -/
theorem bankBaseReturnsTheWindow : Obligations.BankBaseReturnsTheWindow := by
  unfold Obligations.BankBaseReturnsTheWindow
  intro banks s hs
  have hp := planOf_bankBase banks s
  refine ⟨fun n hn => ?one, exec_of_stray hs rfl hp, fun hb hne => ?other⟩
  case one =>
    have hb : ¬ strayBanks banks := hn ▸ not_strayBanks_oneHot n
    have hplan := planOf_of_not_stray hp hb
    rw [(members_maskOf_eq_singleton_iff hb n).2 hn] at hplan
    rw [← span_eq_ite]
    exact exec_ok hs rfl hplan (play_bankBase hs.1.2 _ n)
  case other =>
    have hplan := planOf_of_not_stray hp hb
    rw [bankBasePlan_of_ne_singleton fun n hn => hne n ((members_maskOf_eq_singleton_iff hb n).1 hn)] at hplan
    exact exec_error hs rfl hplan

end Sys2Proof.Proofs

/-! # Proofs: what a step keeps of EBIPEN and of the command in flight, and what reset leaves (10_state.md R55, R56,
60_exceptions.md R363, 70_reset_and_hazards.md R390, R412) -/

namespace Sys2Proof.Proofs

open Sys2Proof Sys2Proof.Machine Sys2Proof.Claims

/-! ## EBIPEN becomes 1 only while gpioReady holds (R363) -/

/-- ROUTE.EBIPEN. -/
def ebiPen (u : State) : Bool := u.cfg.layout.route.ebiPen.test u.regs.route

/-- A register write that R363(b) allows leaves EBIPEN 0 where it was 0 and the GPIO is not ready. -/
theorem ebiPen_putReg {u : State} {r : Reg} {w : Word} (hpen : ebiPen u = false) (hready : u.gpioReady = false)
    (hfree : u.gpioBlocks r w = false) : ebiPen (u.putReg r w) = false := by
  by_cases hr : r = .route
  case pos =>
    subst hr
    have hstored : ebiPen (u.putReg .route w) = u.cfg.layout.route.ebiPen.test w := rfl
    rw [hstored, Bool.eq_false_iff]
    exact fun hset => Bool.eq_false_iff.1 hfree ((gpioBlocks_iff_forbidden u .route w).2 ⟨rfl, hset, hpen, hready⟩)
  case neg => rwa [ebiPen, putReg_cfg, putReg_regs, RegFile.set_route_of_ne u.regs w hr]

/-- EBIPEN is 0, and no command can set it: the GPIO is not ready, or CFGR is IDLE, since the host makes the GPIO ready
only then (R48). -/
def PinsOff (u : State) : Prop := ebiPen u = false ∧ (u.gpioReady = false ∨ u.cfgr = .idle)

theorem pinsOff_microStep {u : State} (h : PinsOff u) (hbusy : u.cfgr ≠ .idle) : PinsOff (microStep u) := by
  obtain ⟨hpen, hready⟩ := h
  replace hready := hready.resolve_right hbusy
  rcases microStep_cases u with
    ⟨hidle, -⟩ | ⟨b, -, -, hreturn⟩ | ⟨b, op, rest, -, -, -, hfault⟩
      | ⟨b, op, rest, b', -, -, -, -, -, -, hlocal | ⟨r, w, hfree, hwrite⟩⟩
  · exact absurd hidle hbusy
  · rw [hreturn]
    exact ⟨hpen, .inl hready⟩
  · rw [hfault]
    exact ⟨hpen, .inl hready⟩
  · rw [hlocal]
    exact ⟨hpen, .inl hready⟩
  · rw [hwrite]
    exact ⟨ebiPen_putReg hpen hready hfree, .inl hready⟩

theorem pinsOff_windowEffect {s : State} (hpen : ebiPen s = false) (hready : s.gpioReady = false) (n : Bank)
    (addr : Word) (write : Bool) (data : Word) : PinsOff (windowEffect n addr write data s) := by
  cases write <;> exact ⟨hpen, .inl hready⟩

theorem commandKeeps_pinsOff {s : State} (hpen : ebiPen s = false) (hready : s.gpioReady = false) :
    CommandKeeps PinsOff s where
  start := ⟨hpen, .inl hready⟩
  raise _ _ _ _ := ⟨hpen, .inl hready⟩
  busy _ _ _ := ⟨hpen, .inl hready⟩
  micro _ hu _ hbusy := pinsOff_microStep hu hbusy
  barrier := ⟨hpen, .inl hready⟩
  window n addr write data := pinsOff_windowEffect hpen hready n addr write data

theorem stepKeeps_pinsOff {s : State} (hpen : ebiPen s = false) (hready : s.gpioReady = false) :
    StepKeeps PinsOff s where
  start := ⟨hpen, .inl hready⟩
  command _ := commandKeeps_pinsOff hpen hready
  micro hbusy := pinsOff_microStep ⟨hpen, .inl hready⟩ hbusy
  tick := ⟨hpen, .inl hready⟩
  isrWrite _ _ hfree := ⟨ebiPen_putReg hpen hready hfree, .inl hready⟩
  isrRaise _ _ := ⟨hpen, .inl hready⟩
  setClk _ _ := ⟨hpen, .inl hready⟩
  setGpio hidle _ := ⟨hpen, .inr hidle⟩
  setOrders _ := ⟨hpen, .inl hready⟩

/-- Settles O13: each elementary change of a step but reset keeps EBIPEN 0 while the GPIO is not ready. -/
theorem controllerPinsNeedGpioReady : Obligations.ControllerPinsNeedGpioReady := by
  unfold Obligations.ControllerPinsNeedGpioReady
  intro s t hstep hreset hclear hset
  by_contra hready
  replace hready := Bool.eq_false_iff.2 hready
  have hkept : PinsOff t := step_keeps hstep ⟨hclear, .inl hready⟩
    (fun rest ha => absurd (by rw [ha]; rfl) hreset)
    (fun _ _ _ _ _ => stepKeeps_pinsOff hclear hready)
  exact Bool.eq_false_iff.1 hkept.1 hset

/-! ## How many micro-steps a command has (R412) -/

/-- No more micro-steps than INIT of four banks and four chip-selects has on MODERN. -/
def Short (ops : List MicroOp) : Prop := ops.length ≤ 87

/-- The length of a list written out is evaluated. -/
theorem short_of_ble {ops : List MicroOp} (h : ops.length.ble 87 = true) : Short ops := Nat.le_of_ble_eq_true h

theorem length_flatMap_walk_le (s : State) (j : Nat) (m : BitVec 4) {body : Bank → List MicroOp} {k : Nat}
    (hbody : ∀ n, (body n).length = k) : ((s.walk j m).flatMap body).length ≤ 4 * k := by
  rw [length_flatMap_walk s j m body k hbody]
  exact Nat.mul_le_mul_right k (walk_length_le s j m)

theorem length_map_walk_le (s : State) (j : Nat) (m : BitVec 4) (op : Bank → MicroOp) :
    ((s.walk j m).map op).length ≤ 4 := by
  rw [List.length_map]
  exact walk_length_le s j m

theorem length_busPolarities_le (c : Cfg) (r : InitRecord) : (InitRecord.busPolarities c r).length ≤ 6 := by
  unfold InitRecord.busPolarities
  split <;> simp

/-- Loops over a set, one for each element of a list. -/
theorem length_flatMap_loops_le (s : State) (m : BitVec 4) {α : Type} (body : α → Bank → MicroOp) (l : List (α × Nat)) :
    (l.flatMap fun p => (s.walk p.2 m).map (body p.1)).length ≤ 4 * l.length := by
  induction l with
  | nil => simp
  | cons p l ih =>
    have hone := length_map_walk_le s p.2 m (body p.1)
    rw [List.flatMap_cons, List.length_append, List.length_cons]
    omega

/-- Step 2 of INIT: six lines in four banks (R263). -/
theorem length_initPolarityOps_le (s : State) (m : BitVec 4) (r : InitRecord) :
    (initPolarityOps s m r).length ≤ 24 := by
  have hlines := length_busPolarities_le s.cfg r
  unfold initPolarityOps
  split
  · have hloops := length_flatMap_loops_le s m (fun p => polOp s.cfg p.1 p.2) (InitRecord.busPolarities s.cfg r).zipIdx
    rw [List.length_zipIdx] at hloops
    exact hloops.trans (by omega)
  · rw [List.length_map]
    omega

/-- Step 5 of INIT: twelve micro-steps in four banks (R266). -/
theorem length_initTimingOps_le (s : State) (m : BitVec 4) (r : InitRecord) (rw ww aw : Word) :
    (initTimingOps s m r rw ww aw).length ≤ 48 := by
  unfold initTimingOps
  split
  · exact length_flatMap_walk_le s 6 m (k := 12) fun _ => rfl
  · exact Nat.le_of_ble_eq_true rfl

/-- Step 8 of INIT (R269). -/
theorem length_initRouteOps_le (c : Cfg) (r : InitRecord) : (initRouteOps c r).length ≤ 7 := by
  unfold initRouteOps
  cases c.hasAddrPinCtl <;> cases c.routeHasLocation <;> cases c.hasByteLane <;> exact Nat.le_of_ble_eq_true rfl

theorem short_initOps (s : State) (m cs : BitVec 4) (en : Bool) (r : InitRecord) (rw ww aw : Word) :
    Short (initOps s m cs en r rw ww aw) := by
  have hpolarity := length_initPolarityOps_le s m r
  have htiming := length_initTimingOps_le s m r rw ww aw
  have hroute := length_initRouteOps_le s.cfg r
  have hpins := walk_length_le s 7 cs
  simp only [Short, initOps, List.length_append, List.length_map, List.length_cons, List.length_nil]
  omega

theorem short_tftInitOps (c : Cfg) (bank : BitVec 4) (r : TftRecord) : Short (tftInitOps c bank r) := by
  unfold tftInitOps
  split <;> exact short_of_ble rfl

theorem short_map_walk (s : State) (j : Nat) (m : BitVec 4) (op : Bank → MicroOp) : Short ((s.walk j m).map op) :=
  (length_map_walk_le s j m op).trans (by decide)

/-- The plan of every command has at most 87 micro-steps. -/
theorem planOf_short {i : Instr} {s : State} {x : Except FaultCause Plan} (hp : planOf i s = some x) :
    PlanOps Short x := by
  have loop : ∀ {m : BitVec 4} {body : Bank → List MicroOp} {k : Nat}, k ≤ 3 → (∀ n, (body n).length = k) →
      Short ((s.walk 0 m).flatMap body) := fun hk hbody =>
    (length_flatMap_walk_le s 0 _ hbody).trans (by omega)
  cases i <;> cases hp
  case regRead | regWrite | regMerge => exact .bind fun _ => .ok (short_of_ble rfl)
  case regBitwrite =>
    refine .bind fun r => ?_
    dsimp only
    split
    · exact .error
    · exact .ok (short_of_ble rfl)
  case setReadTiming | setWriteTiming | setAddrTiming | setGlobalPolarity | setRoutingLocation | tftSetFrameBase
      | tftSetSize | tftSetHPorch | tftSetVPorch | tftSetTiming | tftSetMaskBlend =>
    exact .bind fun _ => .ok (short_of_ble rfl)
  case setBankPolarity => exact .bind fun _ => .bind fun _ => .ok (short_map_walk s 0 _ _)
  case enableBank | configBankAddrFlags | enableByteLane => exact .bind fun _ => .ok (short_map_walk s 0 _ _)
  case setBankReadTiming | setBankWriteTiming | setBankAddrTiming =>
    exact .bind fun _ => .bind fun _ => .ok (loop (k := 2) (by decide) fun _ => rfl)
  case configBankReadFlags => exact .bind fun _ => .ok (loop (k := 3) (by decide) fun _ => rfl)
  case configBankWriteFlags => exact .bind fun _ => .ok (loop (k := 2) (by decide) fun _ => rfl)
  case enableNand => exact .bind fun _ => .ok (short_of_ble rfl)
  case enableChipSelect => exact .ok (short_map_walk s 0 _ _)
  case enableAddressLatch | enableByteLanePin | enableControllerPins | setLowAddrPins | setHighAddrPins | disable =>
    exact .ok (short_of_ble rfl)
  case enableTftPins on => cases on <;> exact .ok (short_of_ble rfl)
  case init =>
    refine .bind fun m => ?_
    split
    · exact .ok (short_of_ble rfl)
    · exact .bind fun _ => .ok (short_initOps _ _ _ _ _ _ _ _)
  case bankBase =>
    refine .bind fun m => ?_
    split
    · cases s.cfg.hasAltMap <;> exact .ok (short_of_ble rfl)
    · exact .error
  case tftInit => exact .bind fun _ => .ok (short_tftInitOps _ _ _)

theorem bounded_of_idle {s : State} (hidle : s.cfgr = .idle) : Bounded s := by
  intro b hb
  rw [hidle] at hb
  cases hb

theorem bounded_of_cfgr_eq {s t : State} (h : Bounded s) (ht : t.cfgr = s.cfgr) : Bounded t :=
  fun b hb => h b (ht.symm.trans hb)

/-- A micro-step counts one more performed and at least one fewer left. -/
theorem bounded_microStep {u : State} (h : Bounded u) : Bounded (microStep u) := by
  rcases microStep_cases u with
    ⟨-, hidle⟩ | ⟨b, -, -, hreturn⟩ | ⟨b, op, rest, -, -, -, hfault⟩ | ⟨b, op, rest, b', hb, htodo, -, hk, -, hleft, hnext⟩
  · rwa [hidle]
  · exact bounded_of_idle (by rw [hreturn, finish_cfgr])
  · exact bounded_of_cfgr_eq h (by rw [hfault, raise_cfgr])
  · have hcfgr : (microStep u).cfgr = .busy b' := by
      rcases hnext with hlocal | ⟨r, w, -, hwrite⟩
      · rw [hlocal]
      · rw [hwrite]
    have hbound := h b hb
    rw [htodo, List.length_cons] at hbound
    intro d hd
    obtain rfl : b' = d := Cfgr.busy.inj (hcfgr.symm.trans hd)
    rcases hleft with hleft | hleft <;> rw [hleft, hk]
    · omega
    · rw [List.length_nil]
      omega

theorem bounded_windowEffect {s : State} (h : Bounded s) (n : Bank) (addr : Word) (write : Bool) (data : Word) :
    Bounded (windowEffect n addr write data s) := by
  cases write <;> exact h

/-- A command begins with no micro-step performed and those of its plan left. -/
theorem commandKeeps_bounded {s : State} (h : Bounded s) : CommandKeeps Bounded s where
  start := h
  raise _ _ _ _ := h
  busy i p hp := by
    rintro b ⟨⟩
    rw [Nat.zero_add]
    exact planOf_short hp p rfl
  micro _ hu _ _ := bounded_microStep hu
  barrier := h
  window n addr write data := bounded_windowEffect h n addr write data

theorem stepKeeps_bounded {s : State} (h : Bounded s) : StepKeeps Bounded s where
  start := h
  command _ := commandKeeps_bounded h
  micro _ := bounded_microStep h
  tick := h
  isrWrite _ _ _ := h
  isrRaise _ _ := h
  setClk _ _ := h
  setGpio _ _ := h
  setOrders _ := h

/-- Settles O15: a plan has at most 87 micro-steps, and each one performed is one fewer left. -/
theorem stepKeepsBounded : Obligations.StepKeepsBounded := by
  unfold Obligations.StepKeepsBounded
  intro s t hbound hstep
  exact step_keeps hstep hbound (fun _ _ => bounded_of_idle rfl) (fun _ _ _ _ _ => stepKeeps_bounded hbound)

/-! ## Reset (R55, R56, R390, R391) -/

/-- Settles O10: the reset event is enabled in every state. -/
theorem resetEventRestoresReset : Obligations.ResetEventRestoresReset := by
  unfold Obligations.ResetEventRestoresReset
  exact fun s rest ha => step_reset ha

theorem get_const (w : Word) (r : Reg) : (RegFile.const w).get r = w := by
  cases r
  case addrTiming n | rdTiming n | wrTiming n | polarity n => fin_cases n <;> rfl
  all_goals rfl

/-- Settles O11: RESET_VALUE of CFG_REF is 0 for every register. -/
theorem resetStateIsR391 : Obligations.ResetStateIsR391 := by
  unfold Obligations.ResetStateIsR391
  exact ⟨rfl, get_const 0, rfl, rfl, rfl, rfl, rfl⟩

/-- Settles O17: at reset no command is in flight and FAULT is none; the offsets are those of R23. -/
theorem invariantsHoldAtReset : Obligations.InvariantsHoldAtReset := by
  unfold Obligations.InvariantsHoldAtReset
  exact ⟨bounded_of_idle rfl, faultFits_of_no_fault rfl, offsetsLegal_of_offsetsRef rfl⟩

end Sys2Proof.Proofs

/-! # Proofs: faults and admission (10_state.md R48, 30_encoding.md R112, R114, 60_exceptions.md R362 to R367, R377) -/

namespace Sys2Proof.Proofs

open Sys2Proof Sys2Proof.Machine Sys2Proof.Claims

/-! ## Faults are precise, HostGpioNotReady apart (R366, R367) -/

/-- Where command i stands while the configurator performs it: in flight with no fault, at its end, or stopped at a
write that R363(b) forbids. -/
inductive Performs (i : Instr) (u : State) : Prop
  | inFlight (b : Busy) (hfault : u.fault = none) (hc : u.cfgr = .busy b) (hcmd : b.cmd = i)
  | ended (hfault : u.fault = none) (hidle : u.cfgr = .idle)
  | stopped (b : Busy) (hfault : u.fault = some { cause := .hostGpioNotReady, opcode := i.code, agent := .main })
      (hc : u.cfgr = .busy b) (hcmd : b.cmd = i) (hresp : u.resp = none) (hpen : ebiPen u = false)
      (hready : u.gpioReady = false)

theorem performs_microStep {i : Instr} {u : State} {b : Busy} (hfault : u.fault = none) (hc : u.cfgr = .busy b)
    (hcmd : b.cmd = i) : Performs i (microStep u) := by
  have same : ∀ {d : Busy}, u.cfgr = .busy d → d.cmd = i := fun hd =>
    Cfgr.busy.inj (hc.symm.trans hd) ▸ hcmd
  rcases microStep_cases u with
    ⟨hidle, -⟩ | ⟨d, hd, -, hreturn⟩ | ⟨d, op, rest, hd, -, ⟨r, w, hblocks⟩, hstop⟩
      | ⟨d, op, rest, d', hd, -, hcmd', -, -, -, hlocal | ⟨r, w, -, hwrite⟩⟩
  · rw [hc] at hidle
    cases hidle
  · rw [hreturn]
    exact .ended hfault rfl
  · obtain ⟨-, -, hpen, hready⟩ := (gpioBlocks_iff_forbidden u r w).1 hblocks
    rw [hstop, same hd]
    exact .stopped d rfl hd (same hd) rfl hpen hready
  · rw [hlocal]
    exact .inFlight d' hfault rfl (hcmd'.trans (same hd))
  · rw [hwrite]
    exact .inFlight d' hfault rfl (hcmd'.trans (same hd))

/-- A command that was issued is performed until it ends or stops. -/
theorem performs_runToEnd {i : Instr} {u : State} (h : Performs i u) : Performs i (runToEnd u) := by
  refine runToEnd_keeps (fun v hv hfault hbusy => ?_) h
  cases hv with
  | inFlight b hf hc hcmd => exact performs_microStep hf hc hcmd
  | ended _ hidle => exact absurd hidle hbusy
  | stopped b hf =>
    rw [hfault] at hf
    cases hf

/-- What a fault f of command i leaves of the state s before it (R366, R367). -/
def PreciseFault (i : Instr) (s t : State) (f : FaultRecord) : Prop :=
  f.agent = .main ∧ f.opcode = i.code
    ∧ (f.cause ≠ .hostGpioNotReady → t = { s with fault := some f, resp := none })
    ∧ (f.cause = .hostGpioNotReady →
        t.resp = none ∧ (∃ b, t.cfgr = .busy b ∧ b.cmd = i) ∧ ebiPen t = false ∧ t.gpioReady = false)

theorem preciseFault_of_check {i : Instr} {e : FaultCause} {s : State} {f : FaultRecord}
    (he : e ≠ .hostGpioNotReady) (hf : (raise e i.code .main s).fault = some f) :
    PreciseFault i s (raise e i.code .main s) f := by
  cases hf
  exact ⟨rfl, rfl, fun _ => rfl, fun h => absurd h he⟩

theorem preciseFault_of_performs {i : Instr} {s t : State} {f : FaultRecord} (h : Performs i t)
    (hf : t.fault = some f) : PreciseFault i s t f := by
  cases h with
  | inFlight _ hfault | ended hfault =>
    rw [hfault] at hf
    cases hf
  | stopped b hfault hc hcmd hresp hpen hready =>
    rw [hfault] at hf
    cases hf
    exact ⟨rfl, rfl, fun h => absurd rfl h, fun _ => ⟨hresp, ⟨b, hc, hcmd⟩, hpen, hready⟩⟩

theorem preciseFault_of_runCommand {i : Instr} {x : Except FaultCause Plan} {s t : State} {f : FaultRecord}
    (hchecks : ChecksOnly x) (hx : runCommand i x s = .next t) (hf : t.fault = some f) : PreciseFault i s t f := by
  obtain ⟨⟨hfault, hidle⟩, rfl⟩ := whenIdle_eq_next hx
  rcases issue_cases i x s with ⟨e, hraise, he⟩ | ⟨p, -, hbusy⟩
  case inl =>
    rw [hraise, runToEnd_of_idle (s := raise e i.code .main s) hidle] at hf ⊢
    refine preciseFault_of_check ?_ hf
    rcases he with rfl | rfl | he
    · nofun
    · nofun
    · exact (hchecks.ne e he).1
  case inr =>
    rw [hbusy] at hf ⊢
    exact preciseFault_of_performs (performs_runToEnd (.inFlight _ hfault rfl rfl)) hf

/-- Settles O18: a fault before the first micro-step is a check's, and a fault of a micro-step is a write that R363(b)
forbids. -/
theorem faultsArePrecise : Obligations.FaultsArePrecise := by
  unfold Obligations.FaultsArePrecise
  intro i s t f hx hf
  rcases exec_eq i s with ⟨x, hp, he⟩ | ⟨-, -, he⟩ | ⟨-, addr, write, data, rfl, he⟩ <;> rw [he] at hx
  case inl => exact preciseFault_of_runCommand (planOf_checksOnly hp) hx hf
  case inr.inl =>
    obtain ⟨hid, rfl⟩ := whenIdle_eq_next hx
    rw [barrierEffect_fault, hid.1] at hf
    cases hf
  case inr.inr =>
    obtain ⟨hid, rfl⟩ := whenIdle_eq_next hx
    cases hw : windowCheck addr s with
    | error e =>
      rw [hw] at hf
      exact preciseFault_of_check ((windowCheck_checksOnly addr s).ne e hw).1 hf
    | ok n =>
      rw [hw] at hf
      have hnone := (windowEffect_fault n addr write data s).trans hid.1
      exact absurd (hnone.symm.trans hf) nofun

/-! ## Admission: the clock check, the host's inputs, and a command in flight (R48, R114, R363) -/

/-- A command whose issue raises a fault ends there. -/
theorem exec_of_issue_raises {i : Instr} {s : State} {x : Except FaultCause Plan} {e : FaultCause} (hid : s.idleOk)
    (hp : planOf i s = some x) (hissue : issue i x s = raise e i.code .main s) :
    exec i s = .next (faulted i e s) := by
  rw [exec_of_planOf hp, runCommand, whenIdle_of_idleOk _ hid, hissue]
  exact congrArg _ (runToEnd_of_idle (s := raise e i.code .main s) hid.2)

theorem issue_of_clockOff {i : Instr} {s : State} (hclk : s.clkOn = false) (hw : i.wellFormed s.cfg = true)
    (x : Except FaultCause Plan) : issue i x s = raise .hostClockOff i.code .main s := by
  simp [issue, hw, hclk]

theorem whenIdle_of_busy {s : State} {b : Busy} (hf : s.fault = none) (hc : s.cfgr = .busy b) (t : State) :
    whenIdle s t = .refused .notEnabled := by
  simp [whenIdle, hf, hc]

/-- A command, BARRIER and WINDOW_ACCESS all begin with their admission (R114). -/
theorem exec_of_busy {s : State} {b : Busy} (hf : s.fault = none) (hc : s.cfgr = .busy b) (i : Instr) :
    exec i s = .refused .notEnabled := by
  rcases exec_eq i s with ⟨x, -, he⟩ | ⟨-, -, he⟩ | ⟨-, addr, write, data, -, he⟩ <;>
    exact he.trans (whenIdle_of_busy hf hc _)

theorem issueOnly_of_busy {s : State} {b : Busy} (hf : s.fault = none) (hc : s.cfgr = .busy b) (i : Instr) :
    issueOnly exec i s = .refused .notEnabled := by
  unfold issueOnly
  split
  · exact exec_of_busy hf hc i
  · exact whenIdle_of_busy hf hc _

/-- A frame presented while a command is in flight is not taken, whether it is legal or not. -/
theorem present_of_busy {s : State} {b : Busy} {meaning : Instr → State → Result} {frame : List Word}
    (hf : s.fault = none) (hc : s.cfgr = .busy b) (hframe : decode s.cfg frame ≠ .notFrame)
    (hm : ∀ i, meaning i s = .refused .notEnabled) : present meaning frame s = .refused .notEnabled := by
  unfold present
  split
  · exact hm _
  · exact whenIdle_of_busy hf hc _
  · exact absurd ‹_› hframe

/-- Settles O19: the clock check is the second of an issue, and every step of MAIN and of the host's inputs asks
whether CFGR is IDLE. -/
theorem admissionClockAndInputs : Obligations.AdmissionClockAndInputs := by
  unfold Obligations.AdmissionClockAndInputs
  refine ⟨fun i s hid hclk hw hbarrier hwindow => ?clock, fun s on rest hid => ⟨fun ha => ?setClk, fun ha => ?setGpio⟩,
    fun s b hf hc => ⟨exec_of_busy hf hc, fun frame rest hframe ha => ?frame, fun on rest ha => ?input⟩⟩
  case clock =>
    obtain ⟨x, hp⟩ := planOf_isSome hbarrier hwindow s
    exact exec_of_issue_raises hid hp (issue_of_clockOff hclk hw x)
  case setClk | setGpio =>
    rw [step_cons ha hid.1 nofun]
    exact whenIdle_of_idleOk _ hid
  case frame =>
    rcases ha with ha | ha <;> rw [step_cons ha hf nofun]
    · exact present_of_busy (s := { s with agenda := rest }) hf hc hframe (exec_of_busy hf hc)
    · exact present_of_busy (s := { s with agenda := rest }) hf hc hframe (issueOnly_of_busy hf hc)
  case input =>
    rcases ha with ha | ha <;> rw [step_cons ha hf nofun] <;>
      exact whenIdle_of_busy (s := { s with agenda := rest }) hf hc _

/-! ## Commands of an absent feature (R112, R362) -/

/-- The two host events have no gate, so a command whose gate is false has a plan. -/
theorem planOf_isSome_of_absent {i : Instr} {s : State} (hw : i.wellFormed s.cfg = false) :
    ∃ x, planOf i s = some x :=
  planOf_isSome (by rintro rfl; cases hw) (by rintro _ _ _ rfl; cases hw) s

theorem issue_of_absent {i : Instr} {s : State} (hw : i.wellFormed s.cfg = false) (x : Except FaultCause Plan) :
    issue i x s = raise (.illegalCommand i.header) i.code .main s := by
  simp [issue, hw]

theorem exec_of_absent {i : Instr} {s : State} (hid : s.idleOk) (hw : i.wellFormed s.cfg = false) :
    exec i s = .next (faulted i (.illegalCommand i.header) s) := by
  obtain ⟨x, hp⟩ := planOf_isSome_of_absent hw
  exact exec_of_issue_raises hid hp (issue_of_absent hw x)

theorem decode_encode_of_absent {c : Cfg} {i : Instr} (hw : i.wellFormed c = false) :
    decode c (encode i) = .illegal i.header := by
  obtain ⟨hop, hclean⟩ := header_clean i
  rw [encode_eq_cons, decode_header c i.opcode i.header _ hop hclean, ← wellFormed_eq_present, if_neg (by simp [hw])]

/-- Settles O20: the gate is the first test of an issue, and one of the decoder's. -/
theorem absentCommandsAreIllegal : Obligations.AbsentCommandsAreIllegal := by
  unfold Obligations.AbsentCommandsAreIllegal
  exact fun i s hid hw => ⟨exec_of_absent hid hw, decode_encode_of_absent hw⟩

/-! ## The interrupt context (R377) -/

/-- An access that the contract does not allow. -/
theorem isrBitWrite_refused {s : State} {off b : Word}
    (h : s.cfg.isrBitWriteAccepted = false ∨ s.cfg.regAt off = none ∨ 31 < b.toNat) (x : Bool) :
    isrBitWrite off b x s = raise .isrContract 0x00 .isr s := by
  unfold isrBitWrite
  split
  case isTrue hallowed =>
    rw [Bool.and_eq_true, decide_eq_true_iff] at hallowed
    obtain ⟨haccepted, hbit⟩ := hallowed
    have hnone : s.cfg.regAt off = none :=
      (h.resolve_left (by simp [haccepted])).resolve_right (Nat.not_lt.2 hbit)
    rw [hnone]
  case isFalse => rfl

/-- An access that the contract allows is the write of one bit. -/
theorem isrBitWrite_of_accepted {s : State} {off b : Word} {r : Reg} (haccepted : s.cfg.isrBitWriteAccepted = true)
    (hr : s.cfg.regAt off = some r) (hbit : b.toNat ≤ 31) (x : Bool) :
    isrBitWrite off b x s =
      if s.gpioBlocks r (setBits s.cfg r (bitMask b.toNat) x (s.regs.get r)) then raise .hostGpioNotReady 0x00 .isr s
      else s.putReg r (setBits s.cfg r (bitMask b.toNat) x (s.regs.get r)) := by
  rw [isrBitWrite, if_pos (by simp [haccepted, hbit]), hr]
  simp only [bitWrite, State.store, storeBit_eq_setBits]
  split_ifs <;> rfl

/-- Settles O57: the write is the micro-step of REG_BITWRITE made by another agent, or it is refused. -/
theorem interruptContextContract : Obligations.InterruptContextContract := by
  unfold Obligations.InterruptContextContract
  refine ⟨rfl, fun s off b x rest hf => ⟨fun ha => ⟨fun r haccepted hr hbit => ?accepted, fun h => ?refused⟩,
    fun ha => ?other⟩⟩
  case accepted =>
    have hwrite := isrBitWrite_of_accepted (s := { s with agenda := rest }) haccepted hr hbit x
    rw [step_cons ha hf nofun]
    refine ⟨fun hfree => congrArg _ (hwrite.trans (if_neg ?_)), fun hforb => congrArg _ (hwrite.trans (if_pos ?_))⟩
    · exact mt (gpioBlocks_iff_forbidden s r _).1 hfree
    · exact (gpioBlocks_iff_forbidden s r _).2 hforb
  case refused =>
    rw [step_cons ha hf nofun]
    exact congrArg _ (isrBitWrite_refused (s := { s with agenda := rest }) h x)
  case other =>
    rw [step_cons ha hf nofun]
    rfl

end Sys2Proof.Proofs

/-! # Proofs: the TFT timing state machine and its pins (48_tft_timing_fsm.md R330 to R340) -/

namespace Sys2Proof.Proofs

open Sys2Proof Sys2Proof.Machine Sys2Proof.Claims

/-! ## The timing values in the layout of CFG_REF (R331) -/

/-- A field read from a word is the word shifted down to it and cut to its width (R9). -/
theorem get_eq_shift_and (f : Field) (v : Word) : f.get v = (v >>> f.lo) &&& BitVec.ofNat 32 f.max := by
  apply BitVec.eq_of_getLsbD_eq
  intro i hi
  rw [getLsbD_get, BitVec.getLsbD_and, BitVec.getLsbD_ushiftRight, BitVec.getLsbD_ofNat, Field.max,
    Nat.testBit_two_pow_sub_one]
  by_cases hin : f.lo + i < 32
  case pos => simp [hin, hi, Bool.and_comm]
  case neg => simp [hin, BitVec.getLsbD_of_ge v (f.lo + i) (Nat.not_lt.1 hin)]

/-- A field at the low end of a register. -/
theorem get_eq_and {f : Field} (hf : f.lo = 0) (v : Word) : f.get v = v &&& BitVec.ofNat 32 f.max := by
  rw [get_eq_shift_and, hf, BitVec.ushiftRight_zero]

section RefLayout

variable {s : State} (hlay : s.cfg.layout = Layout.ref)
include hlay

theorem hAxis_eq_hAxisRef : s.hAxis = hAxisRef s.regs := by
  have hsync : Layout.ref.tft.hsync.get s.regs.tftHPorch = s.regs.tftHPorch &&& 0x7F := get_eq_and rfl _
  have hback : Layout.ref.tft.hbporch.get s.regs.tftHPorch = (s.regs.tftHPorch >>> 18) &&& 0xFF := get_eq_shift_and _ _
  have hsize : Layout.ref.tft.hsz.get s.regs.tftSize = s.regs.tftSize &&& 0x3FF := get_eq_and rfl _
  have hfront : Layout.ref.tft.hfporch.get s.regs.tftHPorch = (s.regs.tftHPorch >>> 8) &&& 0xFF := get_eq_shift_and _ _
  rw [State.hAxis, hlay, hsync, hback, hsize, hfront]
  rfl

theorem vAxis_eq_vAxisRef : s.vAxis = vAxisRef s.regs := by
  have hsync : Layout.ref.tft.vsync.get s.regs.tftVPorch = s.regs.tftVPorch &&& 0x7F := get_eq_and rfl _
  have hback : Layout.ref.tft.vbporch.get s.regs.tftVPorch = (s.regs.tftVPorch >>> 18) &&& 0xFF := get_eq_shift_and _ _
  have hsize : Layout.ref.tft.vsz.get s.regs.tftSize = (s.regs.tftSize >>> 16) &&& 0x3FF := get_eq_shift_and _ _
  have hfront : Layout.ref.tft.vfporch.get s.regs.tftVPorch = (s.regs.tftVPorch >>> 8) &&& 0xFF := get_eq_shift_and _ _
  rw [State.vAxis, hlay, hsync, hback, hsize, hfront]
  rfl

theorem hTotal_eq_hTotRef : s.hAxis.total = hTotRef s.regs := by
  rw [hAxis_eq_hAxisRef hlay]
  rfl

theorem vTotal_eq_vTotRef : s.vAxis.total = vTotRef s.regs := by
  rw [vAxis_eq_vAxisRef hlay]
  rfl

theorem driveDisabled_iff (hdrive : s.cfg.driveCode = Cfg.ref.driveCode) :
    s.driveDisabled = true ↔ s.regs.tftCtrl &&& 3 = 0 := by
  have hdd : Layout.ref.tftCtrl.dd.get s.regs.tftCtrl = s.regs.tftCtrl &&& 3 := get_eq_and rfl _
  rw [State.driveDisabled, hlay, hdrive, hdd, beq_iff_eq]
  rfl

end RefLayout

/-- A sync pulse and an active region are at least one long (R331). -/
theorem two_le_hTotal (s : State) : 2 ≤ s.hAxis.total := by
  simp only [Axis.total, State.hAxis]
  omega

theorem two_le_vTotal (s : State) : 2 ≤ s.vAxis.total := by
  simp only [Axis.total, State.vAxis]
  omega

/-! ## One tick (R334) -/

theorem step_tick {s : State} {rest : List Event} (hf : s.fault = none) (ha : s.agenda = .tick :: rest)
    (htft : s.cfg.hasTft = true) (hclk : s.clkOn = true) : step s = .next (tick { s with agenda := rest }) := by
  rw [step_cons ha hf nofun]
  exact if_pos (by simp [State.tickEnabled, htft, hclk])

theorem step_tick_refused {s : State} {rest : List Event} (hf : s.fault = none) (ha : s.agenda = .tick :: rest)
    (h : s.cfg.hasTft = false ∨ s.clkOn = false) : step s = .refused .notEnabled := by
  rw [step_cons ha hf nofun]
  exact if_neg (by simpa [State.tickEnabled, ← Bool.not_eq_true, imp_iff_not_or] using h)

section Counters

variable {s : State}

theorem tftAfterTick_of_disabled (hdd : s.driveDisabled = true) :
    s.tftAfterTick = { run := false, h := 0, v := 0, dirty := false } := by
  rw [State.tftAfterTick, if_pos hdd]

theorem tftAfterTick_of_stopped (hdd : s.driveDisabled = false) (hrun : s.tft.run = false) :
    s.tftAfterTick = { run := true, h := 0, v := 0, dirty := false } := by
  simp [State.tftAfterTick, hdd, hrun]

theorem tftAfterTick_in_line (hdd : s.driveDisabled = false) (hrun : s.tft.run = true)
    (hh : s.tft.h + 1 < s.hAxis.total) : s.tftAfterTick = { s.tft with h := s.tft.h + 1 } := by
  simp [State.tftAfterTick, hdd, hrun, hh]

theorem tftAfterTick_next_line (hdd : s.driveDisabled = false) (hrun : s.tft.run = true)
    (hh : s.hAxis.total ≤ s.tft.h + 1) (hv : s.tft.v + 1 < s.vAxis.total) :
    s.tftAfterTick = { s.tft with h := 0, v := s.tft.v + 1 } := by
  simp [State.tftAfterTick, hdd, hrun, Nat.not_lt.2 hh, hv]

theorem tftAfterTick_next_frame (hdd : s.driveDisabled = false) (hrun : s.tft.run = true)
    (hh : s.hAxis.total ≤ s.tft.h + 1) (hv : s.vAxis.total ≤ s.tft.v + 1) :
    s.tftAfterTick = { s.tft with h := 0, v := 0, dirty := false } := by
  simp [State.tftAfterTick, hdd, hrun, Nat.not_lt.2 hh, Nat.not_lt.2 hv]

end Counters

/-- Settles O53: the branches of R334, and the register bits that its tests read. -/
theorem tickAdvancesTheCounters : Obligations.TickAdvancesTheCounters := by
  unfold Obligations.TickAdvancesTheCounters
  refine fun s rest hf ha => ⟨fun htft hclk => ⟨s.tftAfterTick, s.pinDraws + 1, step_tick hf ha htft hclk, ?counters⟩,
    step_tick_refused hf ha, fun hlay hdrive => ?ref⟩
  case counters =>
    exact ⟨tftAfterTick_of_disabled, tftAfterTick_of_stopped, tftAfterTick_in_line, tftAfterTick_next_line,
      tftAfterTick_next_frame⟩
  case ref => exact ⟨hTotal_eq_hTotRef hlay, vTotal_eq_vTotRef hlay, driveDisabled_iff hlay hdrive⟩

/-! ## A frame is Htot * Vtot ticks (R340) -/

theorem succ_mod_div_in_row {n k : Nat} (h : k % n + 1 < n) : (k + 1) % n = k % n + 1 ∧ (k + 1) / n = k / n := by
  have hk := Nat.div_add_mod k n
  exact ((Nat.div_mod_unique (by omega)).2 ⟨by omega, h⟩).symm

theorem succ_mod_div_next_row {n k : Nat} (hn : 0 < n) (h : n ≤ k % n + 1) :
    (k + 1) % n = 0 ∧ (k + 1) / n = k / n + 1 := by
  have hk := Nat.div_add_mod k n
  have hlt := Nat.mod_lt k hn
  have hrow : n * (k / n + 1) = n * (k / n) + n := Nat.mul_succ n _
  exact ((Nat.div_mod_unique hn).2 ⟨by omega, hn⟩).symm

/-- The counters of a running engine k ticks after a frame start. -/
structure CountersAt (s : State) (k : Nat) : Prop where
  run : s.tft.run = true
  h : s.tft.h = k % s.hAxis.total
  v : s.tft.v = (k / s.hAxis.total) % s.vAxis.total

/-- One tick takes the counters to the next position. -/
theorem countersAt_tick {s : State} {k : Nat} (hdd : s.driveDisabled = false) (hat : CountersAt s k) :
    CountersAt (tick s) (k + 1) := by
  obtain ⟨hrun, hh, hv⟩ := hat
  have hH : 0 < s.hAxis.total := by have := two_le_hTotal s; omega
  have hV : 0 < s.vAxis.total := by have := two_le_vTotal s; omega
  have hnext : ∀ t, s.tftAfterTick = t → t.run = true → t.h = (k + 1) % s.hAxis.total →
      t.v = ((k + 1) / s.hAxis.total) % s.vAxis.total → CountersAt (tick s) (k + 1) := by
    rintro t rfl hrun' hh' hv'
    exact ⟨hrun', hh', hv'⟩
  by_cases hline : s.tft.h + 1 < s.hAxis.total
  case pos =>
    obtain ⟨hmod, hdiv⟩ := succ_mod_div_in_row (hh ▸ hline)
    exact hnext _ (tftAfterTick_in_line hdd hrun hline) hrun (by rw [hmod, hh]) (by rw [hdiv, hv])
  case neg =>
    have hend := Nat.not_lt.1 hline
    obtain ⟨hmod, hdiv⟩ := succ_mod_div_next_row hH (hh ▸ hend)
    by_cases hframe : s.tft.v + 1 < s.vAxis.total
    case pos =>
      refine hnext _ (tftAfterTick_next_line hdd hrun hend hframe) hrun hmod.symm ?_
      rw [hdiv, (succ_mod_div_in_row (hv ▸ hframe)).1, hv]
    case neg =>
      have hlast := Nat.not_lt.1 hframe
      refine hnext _ (tftAfterTick_next_frame hdd hrun hend hlast) hrun hmod.symm ?_
      rw [hdiv, (succ_mod_div_next_row hV (hv ▸ hlast)).1]

/-- Ticks alone, from a position of a frame on. -/
theorem runs_ticks (rest : List Event) : ∀ (n : Nat) (s : State) (k : Nat),
    s.fault = none → s.cfg.hasTft = true → s.clkOn = true → s.driveDisabled = false → CountersAt s k →
    s.agenda = List.replicate n .tick ++ rest →
    ∃ t, runs n s = some t ∧ t.cfg = s.cfg ∧ t.regs = s.regs ∧ CountersAt t (k + n)
  | 0, s, k, _, _, _, _, hat, _ => ⟨s, rfl, rfl, rfl, hat⟩
  | n + 1, s, k, hf, htft, hclk, hdd, hat, ha => by
    have hstep := step_tick hf ha htft hclk
    obtain ⟨t, hruns, hcfg, hregs, hatt⟩ := runs_ticks rest n
      (tick { s with agenda := List.replicate n .tick ++ rest }) (k + 1) hf htft hclk hdd
      (countersAt_tick (s := { s with agenda := List.replicate n .tick ++ rest }) hdd ⟨hat.run, hat.h, hat.v⟩) rfl
    refine ⟨t, (runs_succ hstep n).trans hruns, hcfg, hregs, ?_⟩
    rwa [Nat.add_right_comm, Nat.add_assoc] at hatt

theorem hAxis_congr {s t : State} (hcfg : t.cfg = s.cfg) (hregs : t.regs = s.regs) : t.hAxis = s.hAxis := by
  rw [State.hAxis, hcfg, hregs, State.hAxis]

theorem vAxis_congr {s t : State} (hcfg : t.cfg = s.cfg) (hregs : t.regs = s.regs) : t.vAxis = s.vAxis := by
  rw [State.vAxis, hcfg, hregs, State.vAxis]

/-- Settles O54: each tick takes the counters one position on, by induction on the ticks. -/
theorem frameIsHtotTimesVtotTicks : Obligations.FrameIsHtotTimesVtotTicks := by
  unfold Obligations.FrameIsHtotTimesVtotTicks
  intro s k rest hf htft hclk hdd hrun hh hv ha
  have hstart : CountersAt s 0 := ⟨hrun, by rw [hh, Nat.zero_mod], by rw [hv, Nat.zero_div, Nat.zero_mod]⟩
  obtain ⟨t, hruns, hcfg, hregs, hrun', hh', hv'⟩ := runs_ticks rest k s 0 hf htft hclk hdd hstart ha
  have hH := two_le_hTotal s
  have hV := two_le_vTotal s
  rw [Nat.zero_add, hAxis_congr hcfg hregs] at hh'
  rw [Nat.zero_add, hAxis_congr hcfg hregs, vAxis_congr hcfg hregs] at hv'
  refine ⟨t, hruns, hregs, hrun', hh', hv', hh' ▸ Nat.mod_lt _ (by omega), hv' ▸ Nat.mod_lt _ (by omega),
    fun hlay => ?_⟩
  rw [← hTotal_eq_hTotRef hlay, ← vTotal_eq_vTotRef hlay]
  exact ⟨hh', hv', hH, hV⟩

/-! ## A frame shows every pixel once, in row-major order (R340) -/

/-- The positions of a frame of V lines of H columns, line by line. -/
theorem range_mul_eq_flatMap (H V : Nat) :
    List.range (H * V) = (List.range V).flatMap fun v => (List.range H).map fun h => H * v + h := by
  induction V with
  | zero => rfl
  | succ V ih => rw [Nat.mul_succ, List.range_add, ih, List.range_succ, List.flatMap_append, List.flatMap_singleton]

/-- The positions of an axis in its active region, in their order. -/
theorem filter_inActive_range (a : Axis) :
    (List.range a.total).filter a.inActive = (List.range a.active).map (a.sync + a.back + ·) := by
  have htotal : a.total = a.sync + a.back + a.active + a.front := rfl
  have hbefore : (List.range (a.sync + a.back)).filter a.inActive = [] := by
    rw [List.filter_eq_nil_iff]
    intro x hx
    have hlt := List.mem_range.1 hx
    simp [Axis.inActive, Nat.not_le.2 hlt]
  have hin : ((List.range a.active).map (a.sync + a.back + ·)).filter a.inActive
      = (List.range a.active).map (a.sync + a.back + ·) := by
    rw [List.filter_eq_self]
    intro x hx
    obtain ⟨j, hj, rfl⟩ := List.mem_map.1 hx
    have hlt := List.mem_range.1 hj
    simp [Axis.inActive, hlt]
  have hafter : ((List.range a.front).map (a.sync + a.back + a.active + ·)).filter a.inActive = [] := by
    rw [List.filter_eq_nil_iff]
    intro x hx
    obtain ⟨j, -, rfl⟩ := List.mem_map.1 hx
    simp [Axis.inActive, Nat.not_lt.2 (Nat.le_add_right _ _)]
  rw [htotal, List.range_add, List.range_add, List.filter_append, List.filter_append, hbefore, hin, hafter,
    List.nil_append, List.append_nil]

theorem filterMap_ite {α β : Type} (p : α → Bool) (f : α → β) (l : List α) :
    (l.filterMap fun x => if p x then some (f x) else none) = (l.filter p).map f := by
  rw [← List.filterMap_eq_map, ← List.filterMap_eq_filter, List.filterMap_filterMap]
  refine List.filterMap_congr fun x _ => ?_
  cases h : p x <;> simp [Option.guard, h]

theorem flatMap_ite {α β : Type} (p : α → Bool) (f : α → List β) (l : List α) :
    (l.flatMap fun x => if p x then f x else []) = (l.filter p).flatMap f := by
  induction l with
  | nil => rfl
  | cons x l ih => cases h : p x <;> simp [h, ih]

/-- The pixel at column h of line v of a display with the axes a and b. -/
def pixelAt (a b : Axis) (h v : Nat) : Option (Nat × Nat) :=
  if a.inActive h && b.inActive v then some (h - a.sync - a.back, v - b.sync - b.back) else none

/-- The pixels that line v shows. -/
theorem filterMap_pixelAt_row (a b : Axis) (v : Nat) :
    ((List.range a.total).filterMap fun h => pixelAt a b h v)
      = if b.inActive v then (List.range a.active).map fun x => (x, v - b.sync - b.back) else [] := by
  cases hv : b.inActive v
  case false => simp [pixelAt, hv]
  case true =>
    simp only [pixelAt, hv, Bool.and_true, if_true]
    rw [filterMap_ite a.inActive fun h => (h - a.sync - a.back, v - b.sync - b.back), filter_inActive_range,
      List.map_map]
    refine List.map_congr_left fun x _ => ?_
    simp only [Function.comp_apply, Prod.mk.injEq, and_true]
    omega

/-- Position k of lines of n columns is column k mod n of line k / n. -/
theorem mul_add_mod_div {n h : Nat} (hh : h < n) (v : Nat) : (n * v + h) % n = h ∧ (n * v + h) / n = v :=
  ((Nat.div_mod_unique (by omega)).2 ⟨Nat.add_comm .., hh⟩).symm

/-- The pixels of a frame are those of the display, in row-major order. -/
theorem filterMap_pixelAt_frame (a b : Axis) :
    ((List.range (a.total * b.total)).filterMap fun k => pixelAt a b (k % a.total) (k / a.total))
      = (List.range (a.active * b.active)).map fun j => (j % a.active, j / a.active) := by
  have hrow : ∀ v, ((List.range a.total).map fun h => a.total * v + h).filterMap
        (fun k => pixelAt a b (k % a.total) (k / a.total))
      = if b.inActive v then (List.range a.active).map fun x => (x, v - b.sync - b.back) else [] := by
    intro v
    rw [← filterMap_pixelAt_row, List.filterMap_map]
    refine List.filterMap_congr fun h hh => ?_
    obtain ⟨hmod, hdiv⟩ := mul_add_mod_div (List.mem_range.1 hh) v
    rw [Function.comp_apply, hmod, hdiv]
  calc (List.range (a.total * b.total)).filterMap (fun k => pixelAt a b (k % a.total) (k / a.total))
      = (List.range b.total).flatMap fun v =>
          if b.inActive v then (List.range a.active).map fun x => (x, v - b.sync - b.back) else [] := by
        rw [range_mul_eq_flatMap, List.filterMap_flatMap]
        exact List.flatMap_congr fun v _ => hrow v
    _ = (List.range b.active).flatMap fun y => (List.range a.active).map fun x => (x, y) := by
        rw [flatMap_ite, filter_inActive_range, List.flatMap_map]
        refine List.flatMap_congr fun y _ => ?_
        rw [show b.sync + b.back + y - b.sync - b.back = y by omega]
    _ = (List.range (a.active * b.active)).map fun j => (j % a.active, j / a.active) := by
        rw [range_mul_eq_flatMap, List.map_flatMap]
        refine List.flatMap_congr fun y _ => ?_
        rw [List.map_map]
        refine List.map_congr_left fun x hx => ?_
        obtain ⟨hmod, hdiv⟩ := mul_add_mod_div (List.mem_range.1 hx) y
        rw [Function.comp_apply, hmod, hdiv]

/-- The asserted outputs of a running engine at column h of line v, for the axes a and b (R333). -/
def assertedAt (a b : Axis) (h v : Nat) : TftPin → Bool
  | .vSync => b.inSync v
  | .hSync => a.inSync h
  | .dataEn => a.inActive h && b.inActive v
  | .cs => true

theorem asserted_eq (s : State) (p : TftPin) :
    s.asserted p = (s.tft.run && assertedAt s.hAxis s.vAxis s.tft.h s.tft.v p) := by
  cases p <;> rfl

theorem asserted_of_run {s : State} (hrun : s.tft.run = true) (p : TftPin) :
    s.asserted p = assertedAt s.hAxis s.vAxis s.tft.h s.tft.v p := by
  rw [asserted_eq, hrun, Bool.true_and]

theorem pixel_of_run {s : State} (hrun : s.tft.run = true) :
    s.pixel = pixelAt s.hAxis s.vAxis s.tft.h s.tft.v := by
  rw [State.pixel, asserted_of_run hrun, assertedAt, pixelAt]

/-- Settles O55: the positions of a frame line by line, each line's pixels, and the bounds of the sync pulses. -/
theorem frameShowsEveryPixelOnceInRowOrder : Obligations.FrameShowsEveryPixelOnceInRowOrder := by
  unfold Obligations.FrameShowsEveryPixelOnceInRowOrder
  intro s hrun
  have hH : 0 < s.hAxis.total := by have := two_le_hTotal s; omega
  refine ⟨?pixels, fun k _ => ⟨?hSync, ?vSync⟩⟩
  case pixels =>
    rw [← filterMap_pixelAt_frame]
    exact List.filterMap_congr fun k _ =>
      pixel_of_run (s := { s with tft := { s.tft with h := k % s.hAxis.total, v := k / s.hAxis.total } }) hrun
  case hSync =>
    rw [asserted_of_run (by exact hrun)]
    exact decide_eq_true_iff
  case vSync =>
    rw [asserted_of_run (by exact hrun), ← Nat.div_lt_iff_lt_mul hH]
    exact decide_eq_true_iff

/-! ## The levels of the TFT pins (R337, R338) -/

theorem asserted_of_stopped {s : State} (hrun : s.tft.run = false) (p : TftPin) : s.asserted p = false := by
  rw [asserted_eq, hrun, Bool.false_and]

theorem run_of_asserted {s : State} {p : TftPin} (h : s.asserted p = true) : s.tft.run = true := by
  by_contra hrun
  rw [asserted_of_stopped (Bool.eq_false_iff.2 hrun)] at h
  cases h

/-- A position is not both in the sync pulse and in the active region. -/
theorem not_inSync_of_inActive {a : Axis} {x : Nat} (h : a.inActive x = true) : a.inSync x = false := by
  simp only [Axis.inActive, Bool.and_eq_true, decide_eq_true_iff] at h
  simp only [Axis.inSync, decide_eq_false_iff_not]
  omega

theorem pinLevel_of_driven {s : State} (htft : s.cfg.hasTft = true)
    (hgroup : s.regs.route &&& s.cfg.tftPinGroup = s.cfg.tftPinGroup) (hpol : s.cfg.polActiveLow = true)
    (hdirty : s.tft.dirty = false) (hready : s.cfg.layout.route.ebiPen.test s.regs.route = true → s.gpioReady = true)
    (p : TftPin) : s.pinLevel p = some (if s.pinPolarity p then !s.asserted p else s.asserted p) := by
  have hdriven : s.pinsDriven = true := by simp [State.pinsDriven, htft, hgroup]
  have hspecified : s.pinsUnspecified = false := by
    rw [State.pinsUnspecified, hdirty, Bool.false_or]
    cases hpen : s.cfg.layout.route.ebiPen.test s.regs.route
    case false => rfl
    case true => rw [hready hpen]; rfl
  simp [State.pinLevel, hdriven, hspecified, hpol]

theorem pinLevel_of_not_driven {s : State}
    (h : s.cfg.hasTft = false ∨ s.regs.route &&& s.cfg.tftPinGroup ≠ s.cfg.tftPinGroup) (p : TftPin) :
    s.pinLevel p = none := by
  have hdriven : s.pinsDriven = false := by
    rcases h with htft | hgroup
    · simp [State.pinsDriven, htft]
    · simp [State.pinsDriven, hgroup]
  simp [State.pinLevel, hdriven]

theorem asserted_eq_assertedRef {s : State} (hlay : s.cfg.layout = Layout.ref) (p : TftPin) :
    s.asserted p = (s.tft.run && assertedRef s.regs s.tft.h s.tft.v p) := by
  rw [asserted_eq, hAxis_eq_hAxisRef hlay, vAxis_eq_vAxisRef hlay]
  cases p
  case dataEn => simp only [assertedAt, assertedRef, Axis.inActive, Bool.decide_and]
  all_goals rfl

theorem pinPolarity_eq {s : State} (hlay : s.cfg.layout = Layout.ref) (p : TftPin) :
    s.pinPolarity p = s.regs.tftPolarity.getLsbD (pinBitRef p) := by
  cases p <;> rw [State.pinPolarity, hlay] <;> rfl

/-- Settles O56: the level of a driven and specified pin, and where R333 asserts it. -/
theorem tftPinLevels : Obligations.TftPinLevels := by
  unfold Obligations.TftPinLevels
  refine fun s p => ⟨fun h => pinLevel_of_not_driven h p,
    fun htft hgroup hpol hdirty hready => pinLevel_of_driven htft hgroup hpol hdirty hready p,
    fun hrun => asserted_of_stopped hrun p, fun hdata => ?apart, fun hlay => ?ref⟩
  case apart =>
    have hrun := run_of_asserted hdata
    rw [asserted_of_run hrun, assertedAt, Bool.and_eq_true] at hdata
    rw [asserted_of_run hrun, asserted_of_run hrun]
    exact ⟨not_inSync_of_inActive hdata.1, not_inSync_of_inActive hdata.2⟩
  case ref =>
    refine ⟨hAxis_eq_hAxisRef hlay, vAxis_eq_vAxisRef hlay, asserted_eq_assertedRef hlay p, pinPolarity_eq hlay p, ?_⟩
    rw [Cfg.tftPinGroup, hlay]
    rfl

end Sys2Proof.Proofs

/-! # Proofs: TFT direct-drive configuration (47_tft_config.md R300 to R315) -/

namespace Sys2Proof.Proofs

open Sys2Proof Sys2Proof.Machine Sys2Proof.Claims

/-! ## The checks of the TFT values (R301) -/

/-- The check of one TFT value. -/
def checkTftValue (v : TftValue) : Except FaultCause Unit :=
  if v.less1 then checkTftLess1 v.name v.field v.value else checkTft v.name v.field v.value

/-- The checks of TFT values one after another. -/
def checkTftValues : List TftValue → Except FaultCause Unit
  | [] => .ok ()
  | v :: vs => checkTftValue v >>= fun _ => checkTftValues vs

theorem checkTftValue_of_bad {v : TftValue} (h : v.bad) :
    checkTftValue v = .error (.badTftValue v.name v.value) := by
  unfold TftValue.bad at h
  unfold checkTftValue
  split
  · rw [if_pos ‹_›] at h
    exact if_pos (h.imp_left fun hzero => BitVec.eq_of_toNat_eq hzero)
  · rw [if_neg ‹_›] at h
    exact if_pos h

theorem checkTftValue_of_not_bad {v : TftValue} (h : ¬ v.bad) : checkTftValue v = .ok () := by
  unfold TftValue.bad at h
  unfold checkTftValue
  split
  · rw [if_pos ‹_›] at h
    exact if_neg fun hbad => h (hbad.imp_left fun hzero => by rw [hzero]; rfl)
  · rw [if_neg ‹_›] at h
    exact if_neg h

theorem checkTftValues_append (a b : List TftValue) :
    checkTftValues (a ++ b) = checkTftValues a >>= fun _ => checkTftValues b := by
  induction a with
  | nil => rfl
  | cons v a ih =>
    rw [List.cons_append, checkTftValues, checkTftValues, ih]
    cases checkTftValue v <;> rfl

theorem checkTftValues_of_allLegal {vs : List TftValue} (h : AllLegal vs) : checkTftValues vs = .ok () := by
  induction vs with
  | nil => rfl
  | cons v vs ih =>
    obtain ⟨hv, hvs⟩ := List.forall_mem_cons.1 h
    rw [checkTftValues, checkTftValue_of_not_bad hv]
    exact ih hvs

theorem checkTftValues_of_firstBad {vs : List TftValue} {e : FaultCause} (h : FirstBad vs e) :
    checkTftValues vs = .error e := by
  obtain ⟨a, v, b, rfl, ha, hv, rfl⟩ := h
  rw [checkTftValues_append, checkTftValues_of_allLegal ha, checkTftValues]
  simp only [checkTftValue_of_bad hv]
  rfl

theorem checkTftValues_singleton (v : TftValue) : checkTftValues [v] = checkTftValue v := by
  rw [checkTftValues]
  cases checkTftValue v <;> rfl

theorem checkFrameBase_eq (c : Cfg) (off : Word) :
    checkFrameBase c off = checkTftValues [⟨.frameBase, c.layout.tft.frameBase, off, false⟩] :=
  (checkTftValues_singleton ⟨.frameBase, c.layout.tft.frameBase, off, false⟩).symm

theorem checkMaskBlend_eq (c : Cfg) (mode : Word) :
    checkMaskBlend c mode = checkTftValues [⟨.maskBlend, c.layout.tftCtrl.maskBlend, mode, false⟩] :=
  (checkTftValues_singleton ⟨.maskBlend, c.layout.tftCtrl.maskBlend, mode, false⟩).symm

theorem checkSize_eq (c : Cfg) (w h : Word) : checkSize c w h = checkTftValues (sizeValues c w h) := by
  rw [sizeValues, checkTftValues, checkTftValues_singleton]
  rfl

theorem checkHPorch_eq (c : Cfg) (front back pulse : Word) :
    checkHPorch c front back pulse = checkTftValues (hporchValues c front back pulse) := by
  rw [hporchValues, checkTftValues, checkTftValues, checkTftValues_singleton]
  rfl

theorem checkVPorch_eq (c : Cfg) (front back pulse : Word) :
    checkVPorch c front back pulse = checkTftValues (vporchValues c front back pulse) := by
  rw [vporchValues, checkTftValues, checkTftValues, checkTftValues_singleton]
  rfl

theorem checkTftTiming_eq (c : Cfg) (period start setup hold : Word) :
    checkTftTiming c period start setup hold = checkTftValues (dclkValues c period start setup hold) := by
  rw [dclkValues, checkTftValues, checkTftValues, checkTftValues, checkTftValues_singleton]
  rfl

/-- The checks of TFT_INIT: the bank index, then the values in their order (R301). -/
theorem tftChecks_eq (c : Cfg) (bank : BitVec 4) (r : TftRecord) :
    tftChecks c bank r
      = if 3 < bank.toNat then .error (.badBankIndex (bank.setWidth 8)) else checkTftValues (tftInitValues c r) := by
  unfold tftChecks
  split
  case isTrue => rfl
  case isFalse =>
    simp only [tftInitValues, checkTftValues_append, ← checkFrameBase_eq, ← checkSize_eq, ← checkHPorch_eq,
      ← checkVPorch_eq, ← checkTftTiming_eq, ← checkMaskBlend_eq, bind_assoc]

/-! ## The words in the layout of CFG_REF (R302) -/

theorem ins_eq_self {f : Field} {x : Word} (hlo : f.lo = 0) (hx : x.toNat ≤ f.max) : f.ins x = x := by
  rw [ins_eq_shiftLeft hx, hlo, BitVec.shiftLeft_zero]

/-- A value in bounds of a plain field. -/
theorem toNat_le_of_not_bad {name : FieldName} {f : Field} {x : Word} (h : ¬ TftValue.bad ⟨name, f, x, false⟩) :
    x.toNat ≤ f.max := Nat.not_lt.1 h

/-- A value in bounds of a field that stores it less one. -/
theorem sub_one_toNat_le_of_not_bad {name : FieldName} {f : Field} {x : Word}
    (h : ¬ TftValue.bad ⟨name, f, x, true⟩) : (x - 1).toNat ≤ f.max := by
  have h' : ¬ (x.toNat = 0 ∨ f.max + 1 < x.toNat) := h
  have hone : (1 : Word).toNat = 1 := rfl
  rw [BitVec.toNat_sub_of_le (by rw [BitVec.le_def]; omega)]
  omega

section RefLayout

variable {c : Cfg} (hlay : c.layout = Layout.ref)
include hlay

theorem sizeWord_eq {w h : Word} (hlegal : AllLegal (sizeValues c w h)) :
    sizeWord c w h = (w - 1#32) ||| ((h - 1#32) <<< 16) := by
  simp only [AllLegal, sizeValues, hlay, List.forall_mem_cons] at hlegal
  obtain ⟨hw, hh, -⟩ := hlegal
  rw [sizeWord, hlay, ins_eq_self rfl (sub_one_toNat_le_of_not_bad hw),
    ins_eq_shiftLeft (sub_one_toNat_le_of_not_bad hh)]
  rfl

theorem hporchWord_eq {front back pulse : Word} (hlegal : AllLegal (hporchValues c front back pulse)) :
    hporchWord c front back pulse = (pulse - 1#32) ||| (front <<< 8) ||| (back <<< 18) := by
  simp only [AllLegal, hporchValues, hlay, List.forall_mem_cons] at hlegal
  obtain ⟨hfront, hback, hpulse, -⟩ := hlegal
  rw [hporchWord, hlay, ins_eq_shiftLeft (toNat_le_of_not_bad hfront), ins_eq_shiftLeft (toNat_le_of_not_bad hback),
    ins_eq_self rfl (sub_one_toNat_le_of_not_bad hpulse), BitVec.or_comm, ← BitVec.or_assoc]
  rfl

theorem vporchWord_eq {front back pulse : Word} (hlegal : AllLegal (vporchValues c front back pulse)) :
    vporchWord c front back pulse = (pulse - 1#32) ||| (front <<< 8) ||| (back <<< 18) := by
  simp only [AllLegal, vporchValues, hlay, List.forall_mem_cons] at hlegal
  obtain ⟨hfront, hback, hpulse, -⟩ := hlegal
  rw [vporchWord, hlay, ins_eq_shiftLeft (toNat_le_of_not_bad hfront), ins_eq_shiftLeft (toNat_le_of_not_bad hback),
    ins_eq_self rfl (sub_one_toNat_le_of_not_bad hpulse), BitVec.or_comm, ← BitVec.or_assoc]
  rfl

theorem tftTimingWord_eq {period start setup hold : Word} (hlegal : AllLegal (dclkValues c period start setup hold)) :
    tftTimingWord c period start setup hold = period ||| (start <<< 12) ||| (setup <<< 24) ||| (hold <<< 28) := by
  simp only [AllLegal, dclkValues, hlay, List.forall_mem_cons] at hlegal
  obtain ⟨hperiod, hstart, hsetup, hhold, -⟩ := hlegal
  rw [tftTimingWord, hlay, ins_eq_self rfl (toNat_le_of_not_bad hperiod),
    ins_eq_shiftLeft (toNat_le_of_not_bad hstart), ins_eq_shiftLeft (toNat_le_of_not_bad hsetup),
    ins_eq_shiftLeft (toNat_le_of_not_bad hhold)]
  rfl

theorem tftCtrlWord_eq {bank : BitVec 4} {r : TftRecord} (hbank : bank.toNat ≤ 3)
    (hblend : (r.maskBlend.setWidth 32).toNat ≤ 7) :
    tftCtrlWord c bank r
      = r.drive.setWidth 32 ||| (r.maskBlend.setWidth 32 <<< 2) ||| bitAt 8 r.shiftDclk
          ||| bitAt 9 r.frameTrigger ||| (r.interleave.setWidth 32 <<< 10) ||| bitAt 12 r.colorSource
          ||| bitAt 16 r.pixelWidth ||| (bank.setWidth 32 <<< 20) := by
  have hsel : Layout.ref.tftCtrl.bankSel.ins (bank.setWidth 32) = bank.setWidth 32 <<< 20 :=
    ins_eq_shiftLeft (by rw [BitVec.toNat_setWidth, Nat.mod_eq_of_lt (by omega)]; exact hbank)
  have hmode : Layout.ref.tftCtrl.maskBlend.ins (r.maskBlend.setWidth 32) = r.maskBlend.setWidth 32 <<< 2 :=
    ins_eq_shiftLeft hblend
  have hdd : Layout.ref.tftCtrl.dd.ins (r.drive.setWidth 32) = r.drive.setWidth 32 :=
    (ins_setWidth_eq rfl r.drive).trans (BitVec.shiftLeft_zero _)
  have hinterleave : Layout.ref.tftCtrl.interleave.ins (r.interleave.setWidth 32) = r.interleave.setWidth 32 <<< 10 :=
    ins_setWidth_eq rfl r.interleave
  have hwidth : ∀ x, Layout.ref.tftCtrl.width.insBit x = bitAt 16 x := insBit_eq_bitAt rfl
  have hcolor : ∀ x, Layout.ref.tftCtrl.color1Src.insBit x = bitAt 12 x := insBit_eq_bitAt rfl
  have htrigger : ∀ x, Layout.ref.tftCtrl.fbcTrig.insBit x = bitAt 9 x := insBit_eq_bitAt rfl
  have hshift : ∀ x, Layout.ref.tftCtrl.shiftDclkEn.insBit x = bitAt 8 x := insBit_eq_bitAt rfl
  have hreverse : ∀ u0 u1 u2 u3 u4 u5 u6 u7 : Word, u0 ||| u1 ||| u2 ||| u3 ||| u4 ||| u5 ||| u6 ||| u7
      = u7 ||| u6 ||| u5 ||| u4 ||| u3 ||| u2 ||| u1 ||| u0 := by
    intros
    ac_rfl
  rw [tftCtrlWord, hlay, hsel, hmode, hdd, hinterleave, hwidth, hcolor, htrigger, hshift]
  exact hreverse _ _ _ _ _ _ _ _

end RefLayout

/-! ## TFT_SET_FRAME_BASE to TFT_SET_TIMING (R310 to R314) -/

/-- A command that checks its TFT values and then writes one word to a register other than ROUTE. -/
theorem exec_tftWrite {i : Instr} {s : State} {r : Reg} {v : Word} {vs : List TftValue} (hs : s.ready)
    (hw : i.wellFormed s.cfg = true) (hr : r ≠ .route)
    (hp : planOf i s = some (checkTftValues vs >>= fun _ => .ok { ops := [.write r v] })) :
    (AllLegal vs → exec i s = .next (stored s r (s.cfg.storeWord r (s.regs.get r) v)))
      ∧ ∀ e, FirstBad vs e → exec i s = .next (faulted i e s) := by
  constructor
  case left =>
    intro hlegal
    rw [checkTftValues_of_allLegal hlegal] at hp
    exact (leavesIn_of_last hs hw hp rfl rfl).1 fun h => hr h.1
  case right =>
    intro e hbad
    rw [checkTftValues_of_firstBad hbad] at hp
    exact exec_error hs hw hp

theorem planOf_tftSetFrameBase (off : Word) (s : State) :
    planOf (.tftSetFrameBase off) s
      = some (checkTftValues [⟨.frameBase, s.cfg.layout.tft.frameBase, off, false⟩] >>= fun _ =>
          .ok { ops := [.write .tftFrameBase (s.cfg.layout.tft.frameBase.ins off)] }) := by
  rw [← checkFrameBase_eq]
  rfl

theorem planOf_tftSetSize (w h : Word) (s : State) :
    planOf (.tftSetSize w h) s
      = some (checkTftValues (sizeValues s.cfg w h) >>= fun _ =>
          .ok { ops := [.write .tftSize (sizeWord s.cfg w h)] }) := by
  rw [← checkSize_eq]
  rfl

theorem planOf_tftSetHPorch (front back pulse : Word) (s : State) :
    planOf (.tftSetHPorch front back pulse) s
      = some (checkTftValues (hporchValues s.cfg front back pulse) >>= fun _ =>
          .ok { ops := [.write .tftHPorch (hporchWord s.cfg front back pulse)] }) := by
  rw [← checkHPorch_eq]
  rfl

theorem planOf_tftSetVPorch (front back pulse : Word) (s : State) :
    planOf (.tftSetVPorch front back pulse) s
      = some (checkTftValues (vporchValues s.cfg front back pulse) >>= fun _ =>
          .ok { ops := [.write .tftVPorch (vporchWord s.cfg front back pulse)] }) := by
  rw [← checkVPorch_eq]
  rfl

theorem planOf_tftSetTiming (period start setup hold : Word) (s : State) :
    planOf (.tftSetTiming period start setup hold) s
      = some (checkTftValues (dclkValues s.cfg period start setup hold) >>= fun _ =>
          .ok { ops := [.write .tftTiming (tftTimingWord s.cfg period start setup hold)] }) := by
  rw [← checkTftTiming_eq]
  rfl

/-- A list of one plain value is legal up to its field's maximum, and otherwise that value is the first bad one. -/
theorem allLegal_singleton {name : FieldName} {f : Field} {x : Word} (h : x.toNat ≤ f.max) :
    AllLegal [⟨name, f, x, false⟩] := by
  intro v hv
  rw [List.mem_singleton.1 hv]
  exact Nat.not_lt.2 h

theorem firstBad_singleton {name : FieldName} {f : Field} {x : Word} (h : f.max < x.toNat) :
    FirstBad [⟨name, f, x, false⟩] (.badTftValue name x) :=
  ⟨[], ⟨name, f, x, false⟩, [], rfl, nofun, h, rfl⟩

/-- Settles O51: the values are checked in order, and then the one micro-step writes their composed word. -/
theorem tftSubOperationsWriteTheirRegister : Obligations.TftSubOperationsWriteTheirRegister := by
  unfold Obligations.TftSubOperationsWriteTheirRegister
  intro a b d e s hs htft hlay
  obtain ⟨hbase, hbaseBad⟩ := exec_tftWrite (i := .tftSetFrameBase a) hs htft (by simp) (planOf_tftSetFrameBase a s)
  obtain ⟨hsize, hsizeBad⟩ := exec_tftWrite (i := .tftSetSize a b) hs htft (by simp) (planOf_tftSetSize a b s)
  obtain ⟨hhporch, hhporchBad⟩ := exec_tftWrite (i := .tftSetHPorch a b d) hs htft (by simp) (planOf_tftSetHPorch a b d s)
  obtain ⟨hvporch, hvporchBad⟩ := exec_tftWrite (i := .tftSetVPorch a b d) hs htft (by simp) (planOf_tftSetVPorch a b d s)
  obtain ⟨htiming, htimingBad⟩ := exec_tftWrite (i := .tftSetTiming a b d e) hs htft (by simp) (planOf_tftSetTiming a b d e s)
  have hmax : s.cfg.layout.tft.frameBase.max = 0x0FFFFFFF := by rw [hlay]; rfl
  refine ⟨⟨fun ha => ?base, fun ha => hbaseBad _ (firstBad_singleton (hmax ▸ ha))⟩, ⟨fun h => ?size, hsizeBad⟩,
    ⟨fun h => ?hporch, hhporchBad⟩, ⟨fun h => ?vporch, hvporchBad⟩, ⟨fun h => ?timing, htimingBad⟩⟩
  case base =>
    rw [← hmax] at ha
    rw [hbase (allLegal_singleton ha), ins_eq_self (by rw [hlay]; rfl) ha]
    rfl
  case size => rw [hsize h, sizeWord_eq hlay h]; rfl
  case hporch => rw [hhporch h, hporchWord_eq hlay h]; rfl
  case vporch => rw [hvporch h, vporchWord_eq hlay h]; rfl
  case timing => rw [htiming h, tftTimingWord_eq hlay h]; rfl

/-! ## TFT_SET_MASK_BLEND (R315) -/

theorem planOf_tftSetMaskBlend (mode : Word) (s : State) :
    planOf (.tftSetMaskBlend mode) s
      = some (checkTftValues [⟨.maskBlend, s.cfg.layout.tftCtrl.maskBlend, mode, false⟩] >>= fun _ =>
          .ok { ops := mergeOps .tftCtrl s.cfg.layout.tftCtrl.maskBlend.mask
                         (s.cfg.layout.tftCtrl.maskBlend.ins mode) }) := by
  rw [← checkMaskBlend_eq]
  rfl

/-- Settles O52: the mode is checked, and then merged into its field. -/
theorem tftSetMaskBlendMerges : Obligations.TftSetMaskBlendMerges := by
  unfold Obligations.TftSetMaskBlendMerges
  intro mode s hs htft hlay
  have hplan := planOf_tftSetMaskBlend mode s
  rw [hlay] at hplan
  constructor
  case left =>
    intro hmode
    have hins : Layout.ref.tftCtrl.maskBlend.ins mode = mode <<< 2 := ins_eq_shiftLeft hmode
    rw [checkTftValues_of_allLegal (allLegal_singleton (f := Layout.ref.tftCtrl.maskBlend) hmode), hins] at hplan
    exact exec_of_mergeOps hs htft (by simp) hplan
  case right =>
    intro hmode
    rw [checkTftValues_of_firstBad (firstBad_singleton (f := Layout.ref.tftCtrl.maskBlend) hmode)] at hplan
    exact exec_error hs htft hplan

/-! ## TFT_INIT (R303) -/

/-- The micro-steps `ops`, of which there are some and each writes a TFT register, take the register file f to g with
no fault; a frame that is being shown becomes dirty (R339). -/
def OnTft (c : Cfg) (ops : List MicroOp) (f g : RegFile) : Prop :=
  ∀ s : State, s.cfg = c → s.regs = f →
    Does ops s { s with
      regs := g, unfenced := true, tft := { s.tft with dirty := s.tft.dirty || s.tft.run } }

section OnTft

variable {c : Cfg} {f g k : RegFile} {a b : List MicroOp}

theorem OnTft.append (ha : OnTft c a f g) (hb : OnTft c b g k) : OnTft c (a ++ b) f k := by
  intro s hc hf
  have h := (ha s hc hf).append (hb _ hc rfl)
  simpa using h

theorem OnTft.cons {op : MicroOp} (ha : OnTft c [op] f g) (hb : OnTft c b g k) : OnTft c (op :: b) f k := ha.append hb

theorem ne_route_of_isTft {r : Reg} (hr : r.isTft = true) : r ≠ .route := by
  rintro rfl
  cases hr

theorem OnTft.write {r : Reg} (hr : r.isTft = true) (v : Word) :
    OnTft c [.write r v] f (f.set r (c.storeWord r (f.get r) v)) := by
  rintro s rfl rfl
  have h := Does.write (v := v) (gpioBlocks_of_ne_route s _ (ne_route_of_isTft hr))
  simpa [State.putReg, Tft.touch, hr] using h

theorem OnTft.polarityBit {i : Nat} {mask : Word} (hmask : bitMask i = mask) (x : Bool) :
    OnTft c [.bit .tftPolarity i x] f
      { f with tftPolarity := setBits c .tftPolarity mask x f.tftPolarity } := by
  rintro s rfl rfl
  rw [← hmask, ← storeBit_eq_setBits]
  have h := Does.bit (b := i) (x := x) (gpioBlocks_of_ne_route s _ (ne_route_of_isTft (r := .tftPolarity) rfl))
  simpa [State.putReg, Tft.touch, Reg.isTft, RegFile.set, RegFile.get] using h

/-- A command that writes TFT registers and then a register of the bus side. -/
theorem exec_onTft {i : Instr} {s : State} (hs : s.ready) (hw : i.wellFormed s.cfg = true)
    (hp : planOf i s = some (.ok { ops := a ++ b })) (ha : OnTft s.cfg a s.regs g)
    (hb : Bus s.cfg s.gpioReady b g k) :
    exec i s = .next
      { s with
        regs := k
        unfenced := true
        resp := none
        tft := { s.tft with dirty := s.tft.dirty || s.tft.run } } := by
  have h := (ha s rfl rfl).append (hb _ rfl rfl rfl)
  rw [exec_does hs hw hp h, ← show s.cfgr = .idle from hs.1.2]
  simp

end OnTft

/-- TFTPOLARITY as TFT_INIT leaves it (R303, R44). -/
def tftInitPolarity (c : Cfg) (r : TftRecord) (old : Word) : Word :=
  setBits c .tftPolarity 0x08 (r.polHSync == c.polActiveLow)
    (setBits c .tftPolarity 0x10 (r.polVSync == c.polActiveLow)
      (setBits c .tftPolarity 0x04 (r.polDataEn == c.polActiveLow)
        (setBits c .tftPolarity 0x02 (r.polDClk == c.polActiveLow)
          (setBits c .tftPolarity 0x01 (r.polCS == c.polActiveLow) old))))

/-- The registers as TFT_INIT leaves them in the layout of CFG_REF, ROUTE apart (R302, R303). -/
def tftInitRegs (c : Cfg) (bank : BitVec 4) (r : TftRecord) (f : RegFile) : RegFile :=
  { f with
    tftFrameBase := c.storeWord .tftFrameBase f.tftFrameBase r.offset
    tftSize := c.storeWord .tftSize f.tftSize ((r.width - 1#32) ||| ((r.height - 1#32) <<< 16))
    tftHPorch := c.storeWord .tftHPorch f.tftHPorch ((r.hPulse - 1#32) ||| (r.hFront <<< 8) ||| (r.hBack <<< 18))
    tftVPorch := c.storeWord .tftVPorch f.tftVPorch ((r.vPulse - 1#32) ||| (r.vFront <<< 8) ||| (r.vBack <<< 18))
    tftTiming := c.storeWord .tftTiming f.tftTiming
      (r.period ||| (r.start <<< 12) ||| (r.setup <<< 24) ||| (r.hold <<< 28))
    tftPolarity := tftInitPolarity c r f.tftPolarity
    tftCtrl := c.storeWord .tftCtrl f.tftCtrl
      (r.drive.setWidth 32 ||| (r.maskBlend.setWidth 32 <<< 2) ||| bitAt 8 r.shiftDclk
        ||| bitAt 9 r.frameTrigger ||| (r.interleave.setWidth 32 <<< 10) ||| bitAt 12 r.colorSource
        ||| bitAt 16 r.pixelWidth ||| (bank.setWidth 32 <<< 20)) }

/-- The micro-steps of TFT_INIT up to the write of TFTCTRL (R303). -/
def tftInitWrites (c : Cfg) (bank : BitVec 4) (r : TftRecord) : List MicroOp :=
  [.write .tftFrameBase (c.layout.tft.frameBase.ins r.offset),
    .write .tftSize (sizeWord c r.width r.height),
    .write .tftHPorch (hporchWord c r.hFront r.hBack r.hPulse),
    .write .tftVPorch (vporchWord c r.vFront r.vBack r.vPulse),
    .write .tftTiming (tftTimingWord c r.period r.start r.setup r.hold)]
  ++ tftPolarityOps c r
  ++ [.write .tftCtrl (tftCtrlWord c bank r)]

theorem tftInitOps_eq (c : Cfg) (bank : BitVec 4) (r : TftRecord) :
    tftInitOps c bank r
      = tftInitWrites c bank r
        ++ if r.drive = c.driveCode.disabled then [] else mergeOps .route 0 c.tftPinGroup := rfl

/-- Steps 1 to 5: five registers written whole (R303). -/
theorem onTft_tftTimings {c : Cfg} (f : RegFile) (base size hporch vporch timing : Word) :
    OnTft c [.write .tftFrameBase base, .write .tftSize size, .write .tftHPorch hporch, .write .tftVPorch vporch,
        .write .tftTiming timing] f
      { f with
        tftFrameBase := c.storeWord .tftFrameBase f.tftFrameBase base
        tftSize := c.storeWord .tftSize f.tftSize size
        tftHPorch := c.storeWord .tftHPorch f.tftHPorch hporch
        tftVPorch := c.storeWord .tftVPorch f.tftVPorch vporch
        tftTiming := c.storeWord .tftTiming f.tftTiming timing } :=
  (OnTft.write (r := .tftFrameBase) rfl base).cons <| (OnTft.write (r := .tftSize) rfl size).cons <|
    (OnTft.write (r := .tftHPorch) rfl hporch).cons <| (OnTft.write (r := .tftVPorch) rfl vporch).cons <|
    OnTft.write (r := .tftTiming) rfl timing

section TftInit

variable {c : Cfg} (hlay : c.layout = Layout.ref)
include hlay

/-- Step 6: the five polarity bits (R303). -/
theorem onTft_tftPolarityOps (r : TftRecord) (f : RegFile) :
    OnTft c (tftPolarityOps c r) f { f with tftPolarity := tftInitPolarity c r f.tftPolarity } := by
  have hops : tftPolarityOps c r
      = [.bit .tftPolarity 0 (r.polCS == c.polActiveLow), .bit .tftPolarity 1 (r.polDClk == c.polActiveLow),
          .bit .tftPolarity 2 (r.polDataEn == c.polActiveLow), .bit .tftPolarity 4 (r.polVSync == c.polActiveLow),
          .bit .tftPolarity 3 (r.polHSync == c.polActiveLow)] := by
    simp only [tftPolarityOps, hlay, polBitValue_eq]
    rfl
  rw [hops]
  exact (OnTft.polarityBit rfl _).cons <| (OnTft.polarityBit rfl _).cons <| (OnTft.polarityBit rfl _).cons <|
    (OnTft.polarityBit rfl _).cons <| OnTft.polarityBit rfl _

/-- Step 8: the TFT pin group of ROUTE, where the drive mode is not DISABLED (R303, R36). -/
theorem bus_tftPinGroup (ready disabled : Bool) (f : RegFile) :
    Bus c ready (if disabled then [] else mergeOps .route 0 c.tftPinGroup) f
      { f with route := if disabled then f.route else setBits c .route 0x01000000 true f.route } := by
  have hgroup : c.tftPinGroup = 0x01000000 := by
    rw [Cfg.tftPinGroup, hlay]
    rfl
  have hset : c.storeWord .route f.route (mergeWord f.route 0 0x01000000) = setBits c .route 0x01000000 true f.route :=
    storeWord_mergeWord_eq_setBits c .route 0x01000000 true f.route
  have hpen : c.layout.route.ebiPen.test (setBits c .route 0x01000000 true f.route)
      = c.layout.route.ebiPen.test f.route := by
    rw [hlay]
    exact getLsbD_setBits_of_clear c .route rfl true f.route
  cases disabled
  case true => exact .nil
  case false =>
    have hbus := Bus.merge (c := c) (ready := ready) (f := f) (r := .route) (m := 0) (v := 0x01000000) rfl
    rw [RegFile.get_route, hset] at hbus
    rw [hgroup]
    refine hbus ?_
    rw [blocksAt, hpen]
    cases c.layout.route.ebiPen.test f.route <;> simp

end TftInit

theorem planOf_tftInit (bank : BitVec 4) (r : TftRecord) (s : State) :
    planOf (.tftInit bank r) s
      = some ((if 3 < bank.toNat then .error (.badBankIndex (bank.setWidth 8))
          else checkTftValues (tftInitValues s.cfg r)) >>= fun _ => .ok { ops := tftInitOps s.cfg bank r }) := by
  rw [← tftChecks_eq]
  rfl

theorem allLegal_append {a b : List TftValue} (h : AllLegal (a ++ b)) : AllLegal a ∧ AllLegal b :=
  List.forall_mem_append.1 h

/-- Each TFT register gets the word that R302 composes for it. -/
theorem onTft_tftInitWrites {c : Cfg} (hlay : c.layout = Layout.ref) {bank : BitVec 4} {r : TftRecord}
    (hbank : bank.toNat ≤ 3) (hlegal : AllLegal (tftInitValues c r)) (f : RegFile) :
    OnTft c (tftInitWrites c bank r) f (tftInitRegs c bank r f) := by
  obtain ⟨hlegal, hblend⟩ := allLegal_append hlegal
  obtain ⟨hlegal, hdclk⟩ := allLegal_append hlegal
  obtain ⟨hlegal, hvporch⟩ := allLegal_append hlegal
  obtain ⟨hlegal, hhporch⟩ := allLegal_append hlegal
  obtain ⟨hbase, hsize⟩ := allLegal_append hlegal
  have hbase' := toNat_le_of_not_bad (hbase _ (List.mem_singleton_self _))
  have hblend' := toNat_le_of_not_bad (hblend _ (List.mem_singleton_self _))
  rw [hlay] at hblend'
  rw [tftInitWrites, ins_eq_self (by rw [hlay]; rfl) hbase', sizeWord_eq hlay hsize, hporchWord_eq hlay hhporch,
    vporchWord_eq hlay hvporch, tftTimingWord_eq hlay hdclk, tftCtrlWord_eq hlay hbank hblend']
  exact ((onTft_tftTimings f _ _ _ _ _).append (onTft_tftPolarityOps hlay r _)).append (OnTft.write rfl _)

/-- Settles O50: the bank index and the values are checked in order; then the TFT registers are written, and the pin
group of ROUTE is set where the drive mode asks for it. -/
theorem tftInitWritesTheRecord : Obligations.TftInitWritesTheRecord := by
  unfold Obligations.TftInitWritesTheRecord
  intro bank r s hs htft hlay
  have hplan := planOf_tftInit bank r s
  refine ⟨fun hbank => ?index, fun hbank e hbad => ?value, fun hbank hlegal => ?written⟩
  case index =>
    rw [if_pos hbank] at hplan
    exact exec_error hs htft hplan
  case value =>
    rw [if_neg (Nat.not_lt.2 hbank), checkTftValues_of_firstBad hbad] at hplan
    exact exec_error hs htft hplan
  case written =>
    rw [if_neg (Nat.not_lt.2 hbank), checkTftValues_of_allLegal hlegal, tftInitOps_eq] at hplan
    have hpins := bus_tftPinGroup hlay s.gpioReady (decide (r.drive = s.cfg.driveCode.disabled))
    simp only [decide_eq_true_iff] at hpins
    exact exec_onTft hs htft hplan (onTft_tftInitWrites hlay hbank hlegal s.regs) (hpins _)

end Sys2Proof.Proofs

/-! # Proofs: commands that an interrupt-context write interrupts (70_reset_and_hazards.md R400, R401) -/

namespace Sys2Proof.Proofs

open Sys2Proof Sys2Proof.Machine Sys2Proof.Claims

/-! ## Two writes one after the other -/

theorem putReg_putReg_self (s : State) (r : Reg) (v w : Word) : (s.putReg r v).putReg r w = s.putReg r w := by
  simp only [State.putReg, RegFile.set_set_self, touch_touch]

theorem putReg_comm (s : State) {q r : Reg} (h : q ≠ r) (v w : Word) :
    (s.putReg q v).putReg r w = (s.putReg r w).putReg q v := by
  simp only [State.putReg, RegFile.set_comm s.regs h v w, Tft.touch, Bool.or_right_comm]

/-- A write of a register forgets what single-bit writes left in it, whatever WMASK(r) lets through (R10). -/
theorem storeWord_setBits (c : Cfg) (r : Reg) (mask : Word) (x : Bool) (old v : Word) :
    c.storeWord r (setBits c r mask x old) v = c.storeWord r old v := by
  apply BitVec.eq_of_getLsbD_eq
  intro i hi
  have hbit : (setBits c r mask x old).getLsbD i
      = if (c.wmask.get r).getLsbD i && mask.getLsbD i then x else old.getLsbD i := getLsbD_setMask c r mask x old i hi
  simp only [Cfg.storeWord, BitVec.getLsbD_or, BitVec.getLsbD_and, BitVec.getLsbD_not, hbit]
  cases (c.wmask.get r).getLsbD i <;> simp

/-! ## A command in flight, one micro-step at a time (R49) -/

/-- s with a command in flight that returns nothing: k micro-steps performed, `ops` left, and its words t and c. -/
def midway (cmd : Instr) (k : Nat) (ops : List MicroOp) (t c : Word) (s : State) : State :=
  { s with cfgr := .busy ⟨cmd, k, ops, .nothing, t, c⟩ }

variable {cmd : Instr} {k : Nat} {op : MicroOp} {ops rest : List MicroOp} {t c : Word} {s : State}

/-- The issue of a command whose checks pass. -/
theorem issue_of_ready {p : Plan} (hs : s.ready) (hw : cmd.wellFormed s.cfg = true) (hret : p.ret = .nothing) :
    issue cmd (.ok p) s = midway cmd 0 p.ops 0 0 s := by
  simp [issue, hw, hs.2, hret, midway]

/-- A micro-step that writes is stopped by R363(b), or leaves its word. -/
theorem microStep_of_target {r : Reg} {w : Word} (h : op.target ⟨cmd, k, op :: rest, .nothing, t, c⟩ s = some (r, w)) :
    microStep (midway cmd k (op :: rest) t c s) =
      if s.gpioBlocks r w then raise .hostGpioNotReady cmd.code .main (midway cmd k (op :: rest) t c s)
      else midway cmd (k + 1) rest t c (s.putReg r w) := by
  have hstore : State.store (midway cmd k (op :: rest) t c s) r w
      = if s.gpioBlocks r w then .error .hostGpioNotReady
        else .ok (midway cmd k (op :: rest) t c (s.putReg r w)) := rfl
  have hperform : perform op ⟨cmd, k, rest, .nothing, t, c⟩ (midway cmd k (op :: rest) t c s)
      = (State.store (midway cmd k (op :: rest) t c s) r w).map fun u => (⟨cmd, k, rest, .nothing, t, c⟩, u) := by
    cases op <;> cases h <;> rfl
  have hcfgr : (midway cmd k (op :: rest) t c s).cfgr = .busy ⟨cmd, k, op :: rest, .nothing, t, c⟩ := rfl
  simp only [microStep, hcfgr, hperform, hstore]
  split_ifs <;> rfl

/-- A run that ends without a fault makes its next micro-step and goes on. -/
theorem microStep_midway (hop : op ≠ .readUnlessNoBL)
    (hend : (play cmd .nothing k (op :: rest) t c s).fault = none) :
    ∃ t' c' s', microStep (midway cmd k (op :: rest) t c s) = midway cmd (k + 1) rest t' c' s'
      ∧ play cmd .nothing k (op :: rest) t c s = play cmd .nothing (k + 1) rest t' c' s'
      ∧ s'.fault = s.fault ∧ s'.cfg = s.cfg := by
  have hwrite : ∀ r w, op.target ⟨cmd, k, op :: rest, .nothing, t, c⟩ s = some (r, w) →
      microStep (midway cmd k (op :: rest) t c s) = midway cmd (k + 1) rest t c (s.putReg r w)
        ∧ play cmd .nothing k (op :: rest) t c s = play cmd .nothing (k + 1) rest t c (s.putReg r w) := by
    intro r w htarget
    have hplay := play_of_target (ret := .nothing) htarget
    have hstep := microStep_of_target htarget
    rw [hplay] at hend
    split at hend
    · cases hend
    · rw [if_neg ‹_›] at hplay hstep
      exact ⟨hstep, hplay⟩
  cases op
  case read r => exact ⟨s.regs.get r, c, s, rfl, rfl, rfl, rfl⟩
  case snapshot edits => exact ⟨t, compose edits s.regs.ctrl, s, rfl, rfl, rfl, rfl⟩
  case readUnlessNoBL => exact absurd rfl hop
  case write | writeMerged | bit | commit | blPin =>
    obtain ⟨hstep, hplay⟩ := hwrite _ _ rfl
    exact ⟨t, c, _, hstep, hplay, rfl, rfl⟩

theorem runs_add : ∀ (m n : Nat) (u : State), runs (m + n) u = (runs m u).bind (runs n)
  | 0, n, u => by rw [Nat.zero_add]; rfl
  | m + 1, n, u => by
    rw [Nat.add_right_comm, runs, runs]
    split
    · exact runs_add m n _
    · rfl
    · rfl

/-- Micro-steps that every run makes, one after the other. -/
def Straight (ops : List MicroOp) : Prop := ∀ op ∈ ops, op ≠ .readUnlessNoBL

theorem Straight.nil : Straight [] := nofun

theorem Straight.cons (hop : op ≠ .readUnlessNoBL) (hops : Straight ops) : Straight (op :: ops) :=
  List.forall_mem_cons.2 ⟨hop, hops⟩

theorem Straight.append {a b : List MicroOp} (ha : Straight a) (hb : Straight b) : Straight (a ++ b) :=
  List.forall_mem_append.2 ⟨ha, hb⟩

theorem straight_mergeOps (r : Reg) (m v : Word) : Straight (mergeOps r m v) := .cons nofun (.cons nofun .nil)

/-- The configurator's steps, taken one by one, bring a command that ends without a fault past its next micro-steps. -/
theorem runs_midway (b : List MicroOp) (l : List Event) : ∀ (a : List MicroOp) (k : Nat) (t c : Word) (s : State),
    Straight a → s.fault = none → (play cmd .nothing k (a ++ b) t c s).fault = none →
    ∃ t' c' s',
      runs a.length { midway cmd k (a ++ b) t c s with agenda := List.replicate a.length .micro ++ l }
          = some { midway cmd (k + a.length) b t' c' s' with agenda := l }
        ∧ play cmd .nothing k (a ++ b) t c s = play cmd .nothing (k + a.length) b t' c' s'
        ∧ s'.fault = none ∧ s'.cfg = s.cfg
  | [], k, t, c, s, _, hf, _ => ⟨t, c, s, rfl, rfl, hf, rfl⟩
  | op :: a, k, t, c, s, ha, hf, hend => by
    obtain ⟨hop, ha⟩ := List.forall_mem_cons.1 ha
    obtain ⟨t1, c1, s1, hstep, hplay, hf1, hcfg1⟩ := microStep_midway (rest := a ++ b) hop hend
    rw [List.cons_append, hplay] at hend
    obtain ⟨t2, c2, s2, hruns, hplay2, hf2, hcfg2⟩ :=
      runs_midway b l a (k + 1) t1 c1 s1 ha (hf1.trans hf) hend
    have hmicro := step_micro (s := midway cmd k (op :: a ++ b) t c s) hf rfl (List.replicate a.length .micro ++ l)
    rw [show microStep (midway cmd k (op :: a ++ b) t c s) = midway cmd (k + 1) (a ++ b) t1 c1 s1 from hstep] at hmicro
    refine ⟨t2, c2, s2, ?_, ?_, hf2, hcfg2.trans hcfg1⟩
    · rw [List.length_cons, List.replicate_succ, List.cons_append (as := List.replicate _ _), runs_succ hmicro, hruns,
        Nat.add_right_comm, Nat.add_assoc]
    · rw [List.cons_append, hplay, hplay2, List.length_cons, Nat.add_right_comm, Nat.add_assoc]

/-- The configurator's steps bring a command that ends without a fault to its end: one for each micro-step, and one for
the return. -/
theorem runs_midway_to_end (hops : Straight ops) (hf : s.fault = none)
    (hend : (play cmd .nothing k ops t c s).fault = none) (l : List Event) :
    runs (ops.length + 1) { midway cmd k ops t c s with agenda := List.replicate (ops.length + 1) .micro ++ l }
      = some { play cmd .nothing k ops t c s with agenda := l } := by
  rw [← List.append_nil ops] at hend
  obtain ⟨t', c', s', hruns, hplay, hf', -⟩ := runs_midway [] (.micro :: l) ops k t c s hops hf hend
  rw [List.append_nil] at hruns hplay
  have hreturn := step_micro (s := midway cmd (k + ops.length) [] t' c' s') hf' rfl l
  rw [runs_add, List.replicate_succ', List.append_assoc, List.singleton_append, hruns, Option.bind_some,
    runs_succ hreturn, hplay]
  rfl

/-- The interrupt-context write while a command is in flight (R377). -/
theorem step_isrBitWrite_midway {off b : Word} {x : Bool} {r : Reg} (hf : s.fault = none)
    (haccepted : s.cfg.isrBitWriteAccepted = true) (hr : s.cfg.regAt off = some r) (hbit : b.toNat ≤ 31)
    (hfree : s.gpioBlocks r (setBits s.cfg r (bitMask b.toNat) x (s.regs.get r)) = false) (l : List Event) :
    step { midway cmd k ops t c s with agenda := .isrBitWrite off b x :: l }
      = .next { midway cmd k ops t c (s.putReg r (setBits s.cfg r (bitMask b.toNat) x (s.regs.get r))) with
          agenda := l } := by
  have hwrite := isrBitWrite_of_accepted (s := { midway cmd k ops t c s with agenda := l }) haccepted hr hbit x
  refine (step_with_agenda (s := midway cmd k ops t c s) (e := .isrBitWrite off b x) hf nofun l).trans ?_
  exact congrArg _ (hwrite.trans (if_neg (Bool.eq_false_iff.1 hfree)))

/-! ## REG_MERGE interrupted (R400) -/

/-- The issue of a command whose features are present, next on the agenda. -/
theorem step_issue_ready {i : Instr} {ops : List MicroOp} {l : List Event} (hs : s.ready)
    (hw : i.wellFormed s.cfg = true) (hp : planOf i s = some (.ok { ops := ops }))
    (ha : s.agenda = .issue (encode i) :: l) :
    step s = .next { midway i 0 ops 0 0 s with agenda := l } := by
  have hstep := step_issue hs.1 (decodeEncodeRoundTrip s.cfg i hw) hp l
  rwa [← ha, issue_of_ready hs hw rfl] at hstep

/-- What the interrupt-context write of bit b leaves in r (R377). -/
def isrWord (s : State) (r : Reg) (b : Word) (x : Bool) : Word :=
  setBits s.cfg r (bitMask b.toNat) x (s.regs.get r)

/-- What REG_MERGE leaves in r with no other agent in between (R144). -/
def mergedWord (s : State) (r : Reg) (mask bits : Word) : Word :=
  s.cfg.storeWord r (s.regs.get r) ((s.regs.get r &&& ~~~mask) ||| bits)

section Merge

variable {off mask bits b : Word} {x : Bool} {r : Reg} {l : List Event}

/-- REG_MERGE with its read done, just after an interrupt-context write to its register. -/
def mergeInterrupted (s : State) (off mask bits b : Word) (x : Bool) (r : Reg) : State :=
  midway (.regMerge off mask bits) 1 [.writeMerged r mask bits] (s.regs.get r) 0 (s.putReg r (isrWord s r b x))

theorem runs_mergeInterrupted (hs : s.ready) (haccepted : s.cfg.isrBitWriteAccepted = true)
    (hr : s.cfg.regAt off = some r) (hbit : b.toNat ≤ 31) (hfree : ¬ forbidden s r (isrWord s r b x)) (n : Nat)
    (ha : s.agenda = .issue (encode (.regMerge off mask bits)) :: .micro :: .isrBitWrite off b x :: l) :
    runs (n + 3) s = runs n { mergeInterrupted s off mask bits b x r with agenda := l } := by
  have hplan : planOf (.regMerge off mask bits) s = some (.ok { ops := mergeOps r mask bits }) := by
    rw [planOf_of_regAt rfl hr]
    rfl
  have hread := step_micro (s := midway (.regMerge off mask bits) 0 (mergeOps r mask bits) 0 0 s) hs.1.1 rfl
    (.isrBitWrite off b x :: l)
  have hisr := step_isrBitWrite_midway (cmd := .regMerge off mask bits) (k := 1) (ops := [.writeMerged r mask bits])
    (t := s.regs.get r) (c := 0) hs.1.1 haccepted hr hbit
    (Bool.eq_false_iff.2 (mt (gpioBlocks_iff_forbidden s r _).1 hfree)) l
  rw [runs_succ (step_issue_ready hs rfl hplan ha), runs_succ hread]
  exact runs_succ hisr n

/-- The write of REG_MERGE stores what it computed from its own read: it forgets the interrupt-context write. -/
theorem target_writeMerged_of_interrupted (ops : List MicroOp) :
    (MicroOp.writeMerged r mask bits).target ⟨cmd, k, ops, .nothing, s.regs.get r, c⟩ (s.putReg r (isrWord s r b x))
      = some (r, mergedWord s r mask bits) := by
  rw [MicroOp.target, putReg_regs, RegFile.get_set_self, putReg_cfg, isrWord, storeWord_setBits]
  rfl

/-- The interrupted REG_MERGE ends as if it had not been interrupted. -/
theorem runs_mergeInterrupted_of_free (hf : s.fault = none)
    (hfree : ¬ forbidden (s.putReg r (isrWord s r b x)) r (mergedWord s r mask bits)) :
    ∃ u, runs 2 { mergeInterrupted s off mask bits b x r with agenda := .micro :: .micro :: l } = some u
      ∧ u.cfgr = .idle ∧ u.fault = none ∧ u.regs = s.regs.set r (mergedWord s r mask bits) := by
  have hopen := Bool.eq_false_iff.2 (mt (gpioBlocks_iff_forbidden _ r _).1 hfree)
  have hplay : play (.regMerge off mask bits) .nothing 1 [.writeMerged r mask bits] (s.regs.get r) 0
      (s.putReg r (isrWord s r b x))
        = finish ⟨.regMerge off mask bits, 2, [], .nothing, s.regs.get r, 0⟩
            (s.putReg r (mergedWord s r mask bits)) := by
    rw [play_of_target (target_writeMerged_of_interrupted _), hopen, putReg_putReg_self]
    rfl
  have hend := runs_midway_to_end (cmd := .regMerge off mask bits) (k := 1) (ops := [.writeMerged r mask bits])
    (t := s.regs.get r) (c := 0) (s := s.putReg r (isrWord s r b x)) (.cons nofun .nil) hf (by rw [hplay]; exact hf) l
  rw [hplay] at hend
  exact ⟨_, hend, rfl, hf, rfl⟩

/-- The interrupted REG_MERGE stops at its write where R363(b) forbids it. -/
theorem runs_mergeInterrupted_of_forbidden (hf : s.fault = none)
    (hforb : forbidden (s.putReg r (isrWord s r b x)) r (mergedWord s r mask bits)) :
    ∃ u, runs 1 { mergeInterrupted s off mask bits b x r with agenda := .micro :: l } = some u
      ∧ u.regs = s.regs.set r (isrWord s r b x)
      ∧ u.fault = some { cause := .hostGpioNotReady, opcode := 0x04, agent := .main } := by
  have hstop := microStep_of_target (rest := []) (target_writeMerged_of_interrupted (cmd := .regMerge off mask bits)
    (k := 1) (c := 0) (s := s) (mask := mask) (bits := bits) (b := b) (x := x) (r := r) _)
  rw [if_pos ((gpioBlocks_iff_forbidden _ r _).2 hforb), ← mergeInterrupted] at hstop
  have hmicro := step_micro (s := mergeInterrupted s off mask bits b x r) hf rfl l
  rw [hstop] at hmicro
  exact ⟨_, runs_succ hmicro 0, rfl, rfl⟩

end Merge

/-! ## INIT interrupted before its commit of CTRL (R401) -/

/-- A micro-step that reads or writes a register of one bank, and no other. -/
inductive BankStep : MicroOp → Prop
  | read {r : Reg} {n : Bank} (hr : bankOf r = some n) : BankStep (.read r)
  | writeMerged {r : Reg} {n : Bank} (hr : bankOf r = some n) (m v : Word) : BankStep (.writeMerged r m v)
  | bit {r : Reg} {n : Bank} (hr : bankOf r = some n) (i : Nat) (x : Bool) : BankStep (.bit r i x)

def BankSteps (ops : List MicroOp) : Prop := ∀ op ∈ ops, BankStep op

theorem ne_ctrl_of_bankOf {r : Reg} {n : Bank} (h : bankOf r = some n) : r ≠ .ctrl := by
  rintro rfl
  cases h

/-- A micro-step that writes a bank's register neither sees nor undoes a write of CTRL. -/
theorem play_bankWrite_putReg_ctrl {r : Reg} {n : Bank} (hr : bankOf r = some n) {v w : Word}
    (htarget : op.target ⟨cmd, k, op :: rest, .nothing, t, c⟩ s = some (r, v))
    (htarget' : op.target ⟨cmd, k, op :: rest, .nothing, t, c⟩ (s.putReg .ctrl w) = some (r, v))
    (hrest : play cmd .nothing (k + 1) rest t c ((s.putReg r v).putReg .ctrl w)
      = play cmd .nothing (k + 1) rest t c (s.putReg r v)) :
    play cmd .nothing k (op :: rest) t c (s.putReg .ctrl w) = play cmd .nothing k (op :: rest) t c s := by
  obtain ⟨-, hroute⟩ := bus_of_bankOf hr
  rw [play_of_target htarget, play_of_target htarget', gpioBlocks_of_ne_route _ _ hroute,
    gpioBlocks_of_ne_route _ _ hroute, putReg_comm s (ne_ctrl_of_bankOf hr).symm w v]
  simpa using hrest

/-- A write of CTRL among micro-steps of the banks is lost at the commit, whose word was composed before. -/
theorem play_commit_putReg_ctrl (hc : AllWritable s.cfg) (w : Word) (rest : List MicroOp) {a : List MicroOp}
    (ha : BankSteps a) :
    play cmd .nothing k (a ++ .commit :: rest) t c (s.putReg .ctrl w)
      = play cmd .nothing k (a ++ .commit :: rest) t c s := by
  induction a generalizing k t s with
  | nil =>
    have htarget : ∀ (d : Busy) (u : State), u.cfg = s.cfg → d.c = c →
        MicroOp.commit.target d u = some (.ctrl, c) := by
      rintro d u hu rfl
      rw [MicroOp.target, hu, Cfg.storeWord_of_allOnes _ _ _ _ (hc .ctrl)]
    rw [List.nil_append, play_of_target (htarget _ s rfl rfl),
      play_of_target (htarget _ (s.putReg .ctrl w) rfl rfl),
      gpioBlocks_of_ne_route _ _ (by simp), gpioBlocks_of_ne_route _ _ (by simp), putReg_putReg_self]
    rfl
  | cons op a ih =>
    obtain ⟨hop, htail⟩ := List.forall_mem_cons.1 ha
    have hread : ∀ {r : Reg} {n : Bank}, bankOf r = some n → (s.putReg .ctrl w).regs.get r = s.regs.get r :=
      fun hr => s.regs.get_set_of_ne w (ne_ctrl_of_bankOf hr)
    rw [List.cons_append]
    cases hop with
    | read hr =>
      rw [play, play, hread hr]
      exact ih hc htail
    | writeMerged hr m v =>
      exact play_bankWrite_putReg_ctrl hr rfl (by rw [MicroOp.target, hread hr]; rfl) (ih hc htail)
    | bit hr i x =>
      exact play_bankWrite_putReg_ctrl hr rfl (by rw [MicroOp.target, hread hr]; rfl) (ih hc htail)

/-- A command that, before it commits the control word it has composed, works on the banks for a while, and is
interrupted at the start of that while by a write of CTRL, ends as it does without it. -/
theorem runs_commit_interrupted {i : Instr} {before mid after : List MicroOp} {off b : Word} {x : Bool}
    {l : List Event} {u : State} (hs : s.ready) (hw : i.wellFormed s.cfg = true) (hc : AllWritable s.cfg)
    (hp : planOf i s = some (.ok { ops := before ++ (mid ++ .commit :: after) }))
    (hmid : BankSteps mid) (hstraight : Straight (before ++ (mid ++ .commit :: after)))
    (hexec : exec i s = .next u) (hu : u.fault = none) (haccepted : s.cfg.isrBitWriteAccepted = true)
    (hr : s.cfg.regAt off = some .ctrl) (hbit : b.toNat ≤ 31)
    (ha : s.agenda = .issue (encode i) :: (List.replicate before.length .micro
      ++ .isrBitWrite off b x :: (List.replicate ((mid ++ .commit :: after).length + 1) .micro ++ l))) :
    runs (before.length + ((mid ++ .commit :: after).length + 1 + 1) + 1) s = some { u with agenda := l } := by
  obtain rfl : play i .nothing 0 (before ++ (mid ++ .commit :: after)) 0 0 s = u := by
    rw [exec_of_planOf hp, runCommand_ok hs hw] at hexec
    exact Host.Outcome.next.inj hexec
  obtain ⟨hbefore, hrest⟩ := List.forall_mem_append.1 hstraight
  obtain ⟨t', c', s', hruns, hplay, hf', hcfg'⟩ := runs_midway (cmd := i) (mid ++ .commit :: after)
    (.isrBitWrite off b x :: (List.replicate ((mid ++ .commit :: after).length + 1) .micro ++ l))
    before 0 0 0 s hbefore hs.1.1 hu
  rw [← hcfg'] at haccepted hr hc
  have hisr := step_isrBitWrite_midway (cmd := i) (k := 0 + before.length) (ops := mid ++ .commit :: after) (t := t')
    (c := c') (x := x) hf' haccepted hr hbit (gpioBlocks_of_ne_route s' _ (by simp))
    (List.replicate ((mid ++ .commit :: after).length + 1) .micro ++ l)
  have hlost := play_commit_putReg_ctrl (cmd := i) (k := 0 + before.length) (t := t') (c := c') hc
    (setBits s'.cfg .ctrl (bitMask b.toNat) x (s'.regs.get .ctrl)) after hmid
  rw [hplay, ← hlost] at hu
  have hend := runs_midway_to_end (s := s'.putReg .ctrl _) hrest hf' hu l
  rw [runs_succ (step_issue_ready hs hw hp ha), runs_add, hruns, Option.bind_some, runs_succ hisr, hend, hlost, ← hplay]

/-! ## The micro-steps of INIT on MODERN (R262 to R271) -/

theorem straight_of_bankSteps (h : BankSteps ops) : Straight ops := by
  intro op hop
  cases h op hop <;> nofun

theorem BankSteps.append {a b : List MicroOp} (ha : BankSteps a) (hb : BankSteps b) : BankSteps (a ++ b) :=
  List.forall_mem_append.2 ⟨ha, hb⟩

theorem BankSteps.flatMap {α : Type} {f : α → List MicroOp} {l : List α} (h : ∀ y ∈ l, BankSteps (f y)) :
    BankSteps (l.flatMap f) := by
  intro op hop
  obtain ⟨y, hy, hop⟩ := List.mem_flatMap.1 hop
  exact h y hy op hop

theorem bankSteps_mergeOps {q : Reg} {n : Bank} (hq : bankOf q = some n) (m v : Word) : BankSteps (mergeOps q m v) :=
  List.forall_mem_cons.2 ⟨.read hq, List.forall_mem_singleton.2 (.writeMerged hq m v)⟩

/-- Writes of several bits of one register. -/
theorem bankSteps_flagOps {q : Reg} {n : Bank} (hq : bankOf q = some n) (flags : List (Nat × Bool)) :
    BankSteps (flagOps q flags) := by
  intro op hop
  obtain ⟨p, -, rfl⟩ := List.mem_map.1 hop
  exact .bit hq _ _

theorem bankSteps_initBankTimingOps (c : Cfg) (r : InitRecord) (rw ww aw : Word) (n : Bank) :
    BankSteps (initBankTimingOps c r rw ww aw n) := by
  have hread : BankSteps (readFlagOps c r.pageMode r.prefetch r.halfRE n) :=
    bankSteps_flagOps (q := .rdTiming n) rfl [(c.layout.rd.pageMode.lo, r.pageMode),
      (c.layout.rd.prefetch.lo, r.prefetch), (c.layout.rd.halfRE.lo, r.halfRE)]
  have hwrite : BankSteps (writeFlagOps c r.writeBufferDisable r.halfWE n) :=
    bankSteps_flagOps (q := .wrTiming n) rfl [(c.layout.wr.wbufDis.lo, r.writeBufferDisable),
      (c.layout.wr.halfWE.lo, r.halfWE)]
  have haddr : BankSteps [addrFlagOp c r.halfALE n] :=
    bankSteps_flagOps (q := .addrTiming n) rfl [(c.layout.addr.halfALE.lo, r.halfALE)]
  exact .append (.append (.append (.append (.append (bankSteps_mergeOps (q := .rdTiming n) rfl _ _) hread)
    (bankSteps_mergeOps (q := .wrTiming n) rfl _ _)) hwrite) (bankSteps_mergeOps (q := .addrTiming n) rfl _ _)) haddr

/-- Steps 2 and 5 of INIT, which work on the banks (R263, R266). -/
def initBankSteps (s : State) (m : BitVec 4) (r : InitRecord) : List MicroOp :=
  initPolarityOps s m r ++ initTimingOps s m r (initReadWord s.cfg r) (initWriteWord s.cfg r) (initAddrWord s.cfg r)

/-- Steps 7 to 10 of INIT, which follow its commit of CTRL (R268 to R271). -/
def initAfterCommit (s : State) (cs : BitVec 4) (r : InitRecord) : List MicroOp :=
  .bit .route s.cfg.layout.route.alePen.lo (isALE s.cfg r.mode) :: (initRouteOps s.cfg r ++ initSteps9to10 s cs)

theorem initSteps2to10_eq (s : State) (m cs : BitVec 4) (r : InitRecord) :
    initSteps2to7 s m r ++ (initRouteOps s.cfg r ++ initSteps9to10 s cs)
      = initBankSteps s m r ++ .commit :: initAfterCommit s cs r := by
  rw [initSteps2to7, ← initBankSteps, List.append_assoc]
  rfl

section Modern

variable {r : InitRecord} (hlike : likeRef .modern s.cfg)
include hlike

theorem bankSteps_initBankSteps (m : BitVec 4) : BankSteps (initBankSteps s m r) := by
  have hmodern : s.cfg.isModern = true := decide_eq_true (rev_of_likeRef hlike)
  rw [initBankSteps, initPolarityOps, if_pos hmodern, initTimingOps, if_pos hmodern]
  refine .append (.flatMap fun p hp op hop => ?_) (.flatMap fun n _ => bankSteps_initBankTimingOps _ _ _ _ _ n)
  obtain ⟨n, -, rfl⟩ := List.mem_map.1 hop
  rw [polOp, polReg_of_mem_busPolarities (List.fst_mem_of_mem_zipIdx hp)]
  exact .bit rfl _ _

theorem length_initBankSteps (m : BitVec 4) : (initBankSteps s m r).length = 18 * count m := by
  have hlen := length_initSteps2to7_of_modern (r := r) hlike m
  rw [initSteps2to7, ← initBankSteps, List.length_append, List.length_cons, List.length_singleton] at hlen
  omega

theorem length_initAfterCommit (hloc : s.cfg.routeHasLocation = true → r.loc.toNat ≤ 7) (cs : BitVec 4) :
    (initAfterCommit s cs r).length = (if s.cfg.routeHasLocation then 9 else 7) + count cs := by
  rw [initAfterCommit, initRouteOps_of_modern hlike hloc, initSteps9to10, List.length_cons, List.length_append,
    List.length_cons, List.length_map, length_walk]
  cases s.cfg.routeHasLocation <;> simp [mergeOps] <;> omega

theorem straight_initAfterCommit (hloc : s.cfg.routeHasLocation = true → r.loc.toNat ≤ 7) (cs : BitVec 4) :
    Straight (initAfterCommit s cs r) := by
  have hlocation : Straight (if s.cfg.routeHasLocation then mergeOps .routeLoc 7 r.loc else []) := by
    split
    · exact straight_mergeOps _ _ _
    · exact .nil
  have hpins : Straight (initSteps9to10 s cs) := by
    refine .cons nofun fun op hop => ?_
    obtain ⟨n, -, rfl⟩ := List.mem_map.1 hop
    nofun
  rw [initAfterCommit, initRouteOps_of_modern hlike hloc]
  exact .cons nofun (.append (.append (straight_mergeOps _ _ _) (.append (straight_mergeOps _ _ _)
    (.append hlocation (.cons nofun .nil)))) hpins)

end Modern

/-- INIT on MODERN, interrupted after its first micro-step and before its commit of CTRL by a write of CTRL. -/
theorem runs_init_interrupted {banks : Byte} {cs : BitVec 4} {en : Bool} {r : InitRecord} {off b : Word} {x : Bool}
    {j : Nat} {l : List Event} {u : State} (hs : s.ready) (hlike : likeRef .modern s.cfg) (hb : ¬ strayBanks banks)
    (hne : banks ≠ 0) (hcounts : firstAbove (initValues s.cfg r) = none)
    (hloc : s.cfg.routeHasLocation = true → r.loc.toNat ≤ 7) (haccepted : s.cfg.isrBitWriteAccepted = true)
    (hr : s.cfg.regAt off = some .ctrl) (hbit : b.toNat ≤ 31) (hexec : exec (.init banks cs en r) s = .next u)
    (hu : u.fault = none) (hj : j ≤ 18 * count (maskOf banks)) {total : Nat}
    (htotal : total = (if s.cfg.routeHasLocation then 11 else 9) + 18 * count (maskOf banks) + count cs)
    (ha : s.agenda = .issue (encode (.init banks cs en r)) :: (List.replicate (j + 1) .micro
      ++ .isrBitWrite off b x :: (List.replicate (total - j) .micro ++ l))) :
    runs (total + 3) s = some { u with agenda := l } := by
  have hsteps := length_initBankSteps (r := r) hlike (maskOf banks)
  have hafter := length_initAfterCommit hlike hloc cs
  rw [← hsteps] at hj
  have hbefore : (MicroOp.snapshot (initEdits s.cfg (maskOf banks) en r)
      :: (initBankSteps s (maskOf banks) r).take j).length = j + 1 := by
    rw [List.length_cons, List.length_take_of_le hj]
  have hleft : ((initBankSteps s (maskOf banks) r).drop j ++ .commit :: initAfterCommit s cs r).length + 1
      = total - j := by
    rw [List.length_append, List.length_drop, List.length_cons, hafter, hsteps, htotal]
    rw [hsteps] at hj
    split <;> omega
  have hplan := planOf_init_of_legal (layout_of_likeRef hlike) hb hne hcounts hloc cs en
  rw [initSteps2to10_eq, ← List.take_append_drop j (initBankSteps s (maskOf banks) r), List.append_assoc,
    ← List.cons_append] at hplan
  have hstraight := Straight.cons (op := .snapshot (initEdits s.cfg (maskOf banks) en r)) nofun <|
    (straight_of_bankSteps (bankSteps_initBankSteps (r := r) hlike (maskOf banks))).append <|
      .cons (op := .commit) nofun (straight_initAfterCommit hlike hloc cs)
  rw [← List.take_append_drop j (initBankSteps s (maskOf banks) r), List.append_assoc, ← List.cons_append] at hstraight
  rw [← hbefore, ← hleft] at ha
  have hruns := runs_commit_interrupted hs rfl (allWritable_of_likeRef hlike) hplan
    (fun op hop => bankSteps_initBankSteps hlike (maskOf banks) op (List.mem_of_mem_drop hop)) hstraight hexec hu
    haccepted hr hbit ha
  rw [hbefore, hleft] at hruns
  rwa [show total + 3 = j + 1 + (total - j + 1) + 1 by omega]

/-- Settles O58: the write of REG_MERGE and the commit of INIT store words that were computed before the
interrupt-context write. -/
theorem mergeOverwritesAnInterruptWrite : Obligations.MergeOverwritesAnInterruptWrite := by
  unfold Obligations.MergeOverwritesAnInterruptWrite
  constructor
  case left =>
    intro s off mask bits b x r rest hs haccepted hr hbit ha isr merged hfree
    have hruns := fun n => runs_mergeInterrupted hs haccepted hr hbit hfree n ha
    refine ⟨fun hfree' => ?free, fun hforb => ?forbidden⟩
    case free =>
      rw [hruns 2]
      exact runs_mergeInterrupted_of_free hs.1.1 hfree'
    case forbidden =>
      rw [hruns 1]
      exact runs_mergeInterrupted_of_forbidden hs.1.1 hforb
  case right =>
    intro banks cs en r s off b x j rest hs hlike hb hne hcounts hloc hebi haccepted hr hbit hj hj' total ha
    obtain ⟨j, rfl⟩ := Nat.exists_eq_add_of_le' hj
    have hexec := initConfiguresTheBanks banks cs en r s hs hlike hb hne hcounts hloc hebi
    have hleft : total + 1 - (j + 1) = total - j := by omega
    rw [hleft] at ha
    exact ⟨_, runs_init_interrupted hs hlike hb hne hcounts hloc haccepted hr hbit hexec hs.1.1 (by omega) rfl ha,
      hs.1.2, hs.1.1, rfl⟩

end Sys2Proof.Proofs
